-- ==== Sys2Proof/Word.lean ====
section
/-! DEFINITION. The word types of the SP2406 (00_scope, Sizes) and the numbers that name its blocks. -/

namespace Sys2Proof

/-- Eight bits (00_scope, Sizes). -/
abbrev Byte := BitVec 8

/-- Sixteen bits: a free-running count, a segment number, a tag or a handle (00_scope, Counts; R182). -/
abbrev Half := BitVec 16

/-- Thirty-two bits: a register of the window or an address of host memory (00_scope, Sizes). -/
abbrev Word := BitVec 32

/-- A job channel, CH0 to CH3, coded 0 to 3 (R178). -/
abbrev ChannelId := Fin 4

/-- A slot of the stream context table, 0 to 31 (R1). -/
abbrev SlotId := Fin 32

/-- A pack unit, PK0 or PK1 (R79). -/
abbrev PackId := Fin 2

/-- A check unit, CK0 to CK2 (R79). -/
abbrev CheckId := Fin 3

end Sys2Proof
end

