-- ==== Sys2Proof/Syntax.lean ====
section
/-! DEFINITION. The commands of the SP2406: one constructor for each row of spec/opcode_table.json. The table gives its
rows no operands and no bits; the operands here are those the rules name (a channel, a requester, the word a window write
carries, the byte lanes of an access, the word on the data lines). -/

namespace Sys2Proof

/-- One of the ten requesters of the initiator port (R168). -/
inductive Requester where
  | ch (c : ChannelId)
  | pk (p : PackId)
  | ck (k : CheckId)
  | cw
  deriving DecidableEq, Repr

/-- A command of the part. Each is one event, taken whole (00_scope, Events). -/
inductive Instr where
  /-- OPEN (R9): its argument is the argument register (R7). -/
  | openStream
  /-- CLOSE (R10). -/
  | closeStream
  /-- REWIND (R12). -/
  | rewindStream
  /-- INSPECT (R13). -/
  | inspectSlot
  /-- UNKNOWN_STREAM_COMMAND (R7): the word written to the command register. -/
  | unknownStreamCommand (value : Word)
  /-- START (R57), with bit 8 of the control write that names it (R181). -/
  | startChannel (c : ChannelId) (haltOnError : Bool)
  /-- STOP (R58), with bit 8 of the control write that names it (R181). -/
  | stopChannel (c : ChannelId) (haltOnError : Bool)
  /-- ABORT (R70), with bit 8 of the control write that names it (R181). -/
  | abortChannel (c : ChannelId) (haltOnError : Bool)
  /-- CHANNEL_RESET (R76), with bit 8 of the control write that names it (R181). -/
  | resetChannel (c : ChannelId) (haltOnError : Bool)
  /-- HALT_ON_ERROR (R181): a channel control write, as the word written. -/
  | haltOnError (c : ChannelId) (value : Word)
  /-- JOB_RING_BASE_WRITE (R53). -/
  | jobRingBaseWrite (c : ChannelId) (value : Word)
  /-- JOB_RING_SIZE_WRITE (R53). -/
  | jobRingSizeWrite (c : ChannelId) (value : Word)
  /-- POST_WRITE (R55). -/
  | postWrite (c : ChannelId) (value : Word)
  /-- ENABLE (R132). -/
  | enableWriter
  /-- DISABLE (R133). -/
  | disableWriter
  /-- RESTART (R144). -/
  | restartWriter
  /-- COMPLETION_RING_BASE_WRITE (R131). -/
  | completionRingBaseWrite (value : Word)
  /-- COMPLETION_RING_SIZE_WRITE (R131). -/
  | completionRingSizeWrite (value : Word)
  /-- THRESHOLD_WRITE (R131). -/
  | thresholdWrite (value : Word)
  /-- HEAD_WRITE (R141). -/
  | headWrite (value : Word)
  /-- INTERRUPT_STATUS_WRITE (R152). -/
  | interruptStatusWrite (value : Word)
  /-- INTERRUPT_ENABLE_WRITE (R153). -/
  | interruptEnableWrite (value : Word)
  /-- DEVICE_RESET (R156). -/
  | deviceReset
  /-- INITIATOR_TIMEOUT_WRITE (R173). -/
  | initiatorTimeoutWrite (value : Word)
  /-- REGISTER_WRITE (R165): any window write, as its bus address, its byte lanes (bit 0 is the lane of the lowest
  address) and the word on the data lines. -/
  | registerWrite (address : Word) (lanes : BitVec 4) (value : Word)
  /-- RESET_PIN_ASSERT (R159). -/
  | resetPinAssert
  /-- RESET_PIN_RELEASE (R159). -/
  | resetPinRelease
  /-- BUS_GRANT (R169). -/
  | busGrant
  /-- PORT_REQUEST (R168): the burst request that `r` has formed joins the request set. -/
  | portRequest (r : Requester)
  /-- DATA_PHASE_READY (R171), with the word on the data lines (used by a read). -/
  | dataPhaseReady (data : Word)
  /-- BURST_ENDS_WITH_READY (R171), with the word on the data lines (used by a read). -/
  | burstEndsWithReady (data : Word)
  /-- BURST_ENDS_WITH_ERROR (R172). -/
  | burstEndsWithError
  /-- BURST_ENDS_WITH_TIMEOUT (R174). -/
  | burstEndsWithTimeout
  /-- HOLD_REQUEST (R14). -/
  | holdRequest (c : ChannelId)
  /-- UNIT_JOIN (R81). -/
  | unitJoin (c : ChannelId)
  /-- RECORD_REQUEST (R136). -/
  | recordRequest (c : ChannelId)
  /-- RETIREMENT (R68). -/
  | retirement (c : ChannelId)
  /-- RECORD_WITHDRAWAL (R145). -/
  | recordWithdrawal (c : ChannelId)
  /-- GROUP_LEAVE (R147). -/
  | groupLeave (c : ChannelId)
  deriving DecidableEq, Repr

end Sys2Proof
end

