-- ==== Sys2Proof/Decode.lean ====
section
/-! DEFINITION. The words of the opcode table. The part fetches no instructions: every row of spec/opcode_table.json has an
empty list of fields and no fixed bits (98_reader.md: "n_rows_with_fixed" 0, "n_rows_with_fields" 0), so no word spells a
command and the decoder answers none on every word. -/

namespace Sys2Proof

/-- The command a word spells by the table's bits: none, since no row of the table has any. -/
def decodeTableWord (_nbits _w : Nat) : Option Instr := none

end Sys2Proof
end

