-- ==== Sys2Proof/Config.lean ====
section
/-! DEFINITION. The numbers the spec fixes for the part, and the one value it leaves open. -/

namespace Sys2Proof.Config

/-- The greatest fragment length that is valid (R30). -/
def maxFragment : Nat := 16777215

/-- The greatest number of entries in a fragment table (R28). -/
def maxFragments : Nat := 16

/-- The block of host memory that one burst lies in, in bytes (R170). -/
def block : Nat := 32

/-- The modulus of the D32 sums (R118). -/
def d32Modulus : Nat := 65519

/-- The constant of the C32 code (R117). -/
def c32Constant : Word := 0x82F63B78#32

/-- The part code and revision as the identification register shows them (R154, R177). -/
def identification : Word := 0x00012406#32

/-- The unbound handle (R182). -/
def unboundHandle : Half := 0xFFFF#16

/-- FREE VALUE. Whether the byte of a write burst meant for the address was taken by its target, at the n-th burst that was
cut short (R112, R143, R159, R172: "may or may not have received its bytes"). It has no body: nothing is known of it. Log
entry 4. -/
opaque targetTook : Nat → Word → Bool

end Sys2Proof.Config
end

