-- ==== Sys2Proof/Machine/State.lean ====
section
/-! DEFINITION. Every piece of state the spec gives the SP2406, block by block, as plain data, and the part right after
reset. -/

namespace Sys2Proof.Machine

/-! ### The stream context table (chapter 1) -/

/-- The state of a slot (R1). -/
inductive SlotState where
  | free | ready | midway
  deriving DecidableEq, Repr

/-- The transform of a stream or job (R1, R28). -/
inductive Op where
  | check | pass | pack | unpack
  deriving DecidableEq, Repr

/-- The integrity code of a stream or job (R1, R28). -/
inductive CodeKind where
  | none | c32 | d32
  deriving DecidableEq, Repr

/-- Whether a code covers a pack unit's input or its output (R1, R28): IN and OUT. -/
inductive Tap where
  | inTap | outTap
  deriving DecidableEq, Repr

/-- The running code (R2): 0 for NONE, a register for C32, the sums A and B, each 0 to 65518, for D32. -/
inductive RunningCode where
  | none
  | c32 (register : Word)
  | d32 (a b : Fin 65519)
  deriving DecidableEq, Repr

/-- The encoder carry: pending value and pending count, 0 to 130 (R1). -/
structure Carry where
  value : Byte
  count : Nat
  deriving DecidableEq, Repr

/-- The decoder phase (R1): HEADER, LITERAL with a remaining count 1 to 128, RUN_VALUE with a count 3 to 130. -/
inductive DecoderPhase where
  | header
  | literal (remaining : Nat)
  | runValue (count : Nat)
  deriving DecidableEq, Repr

/-- The part of a slot's record that a hold hands over and a commit writes (R16, R21, R41). A carried part is `none` where
it is absent (R2). -/
structure Context where
  state : SlotState
  expected : Half
  running : RunningCode
  carry : Option Carry
  phase : Option DecoderPhase
  inTotal : Word
  outTotal : Word
  deriving DecidableEq, Repr

/-- One slot record (R1). -/
structure Slot where
  ctx : Context
  generation : Byte
  op : Op
  kind : CodeKind
  tap : Tap
  messages : Half
  holder : Option ChannelId
  waiters : List ChannelId
  closing : Bool
  deriving DecidableEq, Repr

/-- The result of a stream command (R7). -/
inductive StreamResult where
  | ok | noSlot | badHandle | busy | badArgs | deferred
  deriving DecidableEq, Repr

/-- The result register (R7). -/
structure ResultRegister where
  result : StreamResult
  handle : Half
  deriving DecidableEq, Repr

/-! ### Jobs (chapter 2) -/

/-- Where a job's segment stands in its message (R28). -/
inductive Position where
  | whole | head | body | tail
  deriving DecidableEq, Repr

/-- The nine statuses (R45). -/
inductive Status where
  | ok | mismatch | truncated | badJob | badHandle | kindConflict | seqGap | outOverrun | busFault
  deriving DecidableEq, Repr

/-- Where a bus fault ended a job (R49). -/
inductive FaultPlace where
  | fragTable | source | dest
  deriving DecidableEq, Repr

/-- Why a burst ended without ready (R49, R174). -/
inductive Why where
  | error | timeout
  deriving DecidableEq, Repr

/-- The fault detail of a BUS_FAULT (R49). -/
structure FaultDetail where
  place : FaultPlace
  why : Why
  deriving DecidableEq, Repr

/-- A job entry as read from its ring: every field as found, in the encoding of the entry (R183), so that values out of
range survive to be echoed (R47). -/
structure JobEntry where
  opByte : Byte
  positionByte : Byte
  kindByte : Byte
  tapByte : Byte
  verify : Bool
  sourceCount : Byte
  destCount : Byte
  handle : Half
  segment : Half
  tag : Half
  sourceTable : Word
  destTable : Word
  expectedCode : Word
  deriving DecidableEq, Repr

/-- A fragment entry (R30). -/
structure Fragment where
  address : Word
  length : Word
  deriving DecidableEq, Repr

/-- The channel's copy of one job: the entry and the fragment tables read so far (R28, R32). -/
structure Job where
  entry : JobEntry
  source : List Fragment
  dest : List Fragment
  deriving DecidableEq, Repr

/-- The working context of a job (R41, R50): the stream context, absent for a job that did not pass its checks, with the
job's status once it has one, its counts, its fault detail and its final code. -/
structure Working where
  ctx : Option Context
  status : Option Status
  inCount : Nat
  outCount : Nat
  fault : Option FaultDetail
  code : Option Word
  deriving DecidableEq, Repr

/-! ### The job channels (chapter 3) -/

/-- The eight states of a channel (R51). -/
inductive ChannelState where
  | off | idle | fetch | waitSlot | waitUnits | run | retire | halted
  deriving DecidableEq, Repr

/-- Why a channel is HALTED (R50, R75). -/
inductive HaltCause where
  | none | aborted | jobError | fetchFault
  deriving DecidableEq, Repr

/-- The two commands that may be pending on a channel (R50, abort pending). -/
inductive AbortKind where
  | abort | reset
  deriving DecidableEq, Repr

/-- How far a channel in FETCH has come (R60, R63): the transfer it makes or will make next, with the bytes of the fragment
table read so far (DEDUCED, log entry 22), or the hold request that ends the fetch of a bound job. -/
inductive FetchStage where
  | entry
  | sourceTable (got : List Byte)
  | destTable (got : List Byte)
  | holdRequest
  deriving DecidableEq, Repr

/-- What a channel holds (R50). `stage` says where a channel in FETCH stands, `recordWritten` that the completion writer has
told the channel that its record is written (R139), and `leavings` (the model's own) lists the leavings of the group FETCH
through RETIRE that the writer has yet to take as events (R51, R147). DESIGN CHOICE, log entry 3. -/
structure Channel where
  ringBase : Word
  ringSize : Nat
  haltOnError : Bool
  post : Half
  fetch : Half
  done : Half
  state : ChannelState
  haltCause : HaltCause
  stopRequest : Bool
  abortPending : Option AbortKind
  job : Option Job
  work : Option Working
  stage : Option FetchStage
  recordWritten : Bool
  leavings : List Bool
  deriving DecidableEq, Repr

/-! ### The unit pool (chapters 4, 5 and 6) -/

/-- A needed set: which kinds of unit a job needs, at most one of each (R40, R80). -/
structure Need where
  pack : Bool
  check : Bool
  deriving DecidableEq, Repr

/-- What the unit arbiter holds (R80). -/
structure Arbiter where
  waiting : Vector (Option Need) 4
  pointer : ChannelId
  packs : Vector (Option ChannelId) 2
  checks : Vector (Option ChannelId) 3
  deriving DecidableEq, Repr

/-- The condition of a pack or check unit (R94, R116). -/
inductive UnitCondition where
  | idle | running | stopping | stopped
  deriving DecidableEq, Repr

/-- The mode of a pack unit (R94). -/
inductive PackMode where
  | pass | pack | unpack
  deriving DecidableEq, Repr

/-- A place in a fragment table: the fragment and the offset within it; the end of the table is the index after the last
fragment, at offset 0 (R94, R95, R96). -/
structure Cursor where
  fragment : Nat
  offset : Nat
  deriving DecidableEq, Repr

/-- How a run ended, once it has (R94, R116). -/
inductive EndCondition where
  | none
  | done
  | outOverrun
  | busFault (detail : FaultDetail)
  deriving DecidableEq, Repr

/-- The working pack state: the literal group, the run and the decoder phase (R94). -/
structure PackWork where
  group : List Byte
  runValue : Byte
  runCount : Nat
  phase : DecoderPhase
  deriving DecidableEq, Repr

/-- Output owed: bytes that are accepted only if the destination has room for all of them (a PACK token, R105; one byte in
PASS and UNPACK, R99), whether the source byte at the front of the read-ahead is taken when they have been accepted (R98),
and the working pack state from then on. -/
structure OutItem where
  bytes : List Byte
  takes : Bool
  after : Option PackWork
  deriving DecidableEq, Repr

/-- A pack unit (R94). `owed` is the output called for and not yet accepted, which a write in progress holds back (R97), and
`finishing` says that the end-of-source emissions have been called for (R104, R109); both are the model's own fields, DEDUCED, log
entry 20. `writeAddress`, the address of the first byte in the write buffer, is the model's own field too: DESIGN CHOICE, log entry
21. -/
structure PackUnit where
  condition : UnitCondition
  mode : PackMode
  endFlag : Bool
  source : List Fragment
  dest : List Fragment
  sourceCursor : Cursor
  destCursor : Cursor
  readAhead : List Byte
  writeBuffer : List Byte
  writeAddress : Word
  taken : Nat
  accepted : Nat
  written : Nat
  work : PackWork
  joined : Option (CheckId × Tap)
  ending : EndCondition
  owed : List OutItem
  finishing : Bool
  deriving DecidableEq, Repr

/-- A check unit (R116). -/
structure CheckUnit where
  condition : UnitCondition
  kind : CodeKind
  tap : Tap
  endFlag : Bool
  running : RunningCode
  joined : Option PackId
  source : List Fragment
  sourceCursor : Cursor
  taken : Nat
  ending : EndCondition
  finalCode : Option Word
  deriving DecidableEq, Repr

/-! ### The completion writer (chapter 7) -/

/-- The states of the writer (R130). -/
inductive WriterState where
  | disabled | ready | writing | stalled
  deriving DecidableEq, Repr

/-- A completion record's fields (R47); op and position are echoed as the entry had them. -/
structure Record where
  phase : Bool
  channel : ChannelId
  ringPosition : Half
  tag : Half
  opByte : Byte
  positionByte : Byte
  segment : Half
  status : Status
  fault : Option FaultDetail
  inCount : Nat
  outCount : Nat
  code : Option Word
  deriving DecidableEq, Repr

/-- What the completion writer holds (R129). The record names its channel. -/
structure Writer where
  state : WriterState
  ringBase : Word
  ringSize : Nat
  tail : Half
  head : Half
  threshold : Nat
  serving : ChannelId
  requesting : Vector Bool 4
  current : Option Record
  disablePending : Bool
  deriving DecidableEq, Repr

/-! ### Interrupts, device control and the bus interface (chapters 8 and 9) -/

/-- What the IDC holds: the two sets as the words of their registers (R150, R153, R179), and whether a device reset is in
progress (R155). -/
structure Idc where
  status : Word
  enable : Word
  resetPending : Bool
  deriving DecidableEq, Repr

/-- A burst request (R168): the address of the burst's first byte, the number of bytes and the direction, from which its
words and byte enables follow (R170); a write carries its bytes. -/
structure BurstRequest where
  address : Word
  length : Nat
  write : Bool
  data : List Byte
  deriving DecidableEq, Repr

/-- The burst in progress on the bus (R169 to R173): its owner and request, how many data phases have ended, the bytes a
read has taken, the timeout setting held at its address phase, the bus clock periods counted in this data phase, and whether
the bus still shows the address phase. That the phases ended and the bytes taken are fields of it: DEDUCED, log entry 22; how
long the address phase lasts: DESIGN CHOICE, log entry 23. -/
structure Burst where
  owner : Requester
  request : BurstRequest
  phasesEnded : Nat
  got : List Byte
  timeout : Nat
  periods : Nat
  addressPhase : Bool
  deriving DecidableEq, Repr

/-- Why a window write was refused (R165, R166). -/
inductive AccessReason where
  | none | narrow | unmapped | readOnly | notOff | postRange | headRange
  deriving DecidableEq, Repr

/-- The last access error register (R166). -/
structure AccessError where
  offset : BitVec 9
  reason : AccessReason
  deriving DecidableEq, Repr

/-- The last initiator fault register and the last initiator fault address register (R174); the owner is its position of
R168. -/
structure InitiatorFault where
  owner : Fin 10
  write : Bool
  why : Option Why
  address : Word
  deriving DecidableEq, Repr

/-- What the BIU holds (chapter 9). `wanted` (the model's own) holds the burst a requester has formed and that has not yet
joined the request set; joining is the event PORT_REQUEST (R168). DESIGN CHOICE, log entry 3. -/
structure Biu where
  wanted : Vector (Option BurstRequest) 10
  requests : Vector (Option BurstRequest) 10
  pointer : Fin 10
  burst : Option Burst
  timeout : Nat
  accessError : AccessError
  lastFault : InitiatorFault
  deriving DecidableEq, Repr

/-! ### The whole part -/

/-- The SP2406. `hostMem` lists the bytes of host memory that the part's own writes have put there, addresses rising;
`freeIndex` numbers the bursts that were cut short, for the free value of `Config.targetTook`; `pending` is the queue of the
commands that are waiting, the front first. -/
structure State where
  slots : Vector Slot 32
  argument : Word
  result : ResultRegister
  inspect : Vector Word 8
  channels : Vector Channel 4
  arbiter : Arbiter
  packs : Vector PackUnit 2
  checks : Vector CheckUnit 3
  writer : Writer
  idc : Idc
  biu : Biu
  pinAsserted : Bool
  hostMem : List Host.Cell
  freeIndex : Nat
  pending : List Instr
  deriving DecidableEq, Repr

/-- Why the machine would stop with a fault. It has no constructor: the spec stops the part nowhere (a bus fault, a refused
access and a refused job are events with effects), so no meaning raises a fault. -/
inductive Fault where
  deriving DecidableEq, Repr

/-- Why a command has no meaning. -/
inductive Refusal where
  /-- Raised by an arm of `exec` whose command has no meaning yet (none has this arm now); safe: nothing is claimed of such
  a command. -/
  | notModelled (mnemonic : String)
  deriving DecidableEq, Repr

/-! ### Reset values -/

/-- A slot after reset (R27). -/
def Slot.reset : Slot :=
  { ctx :=
      { state := .free, expected := 0, running := .none, carry := none, phase := none, inTotal := 0, outTotal := 0 }
    generation := 0, op := .pass, kind := .none, tap := .inTap, messages := 0, holder := none, waiters := []
    closing := false }

/-- A channel after reset (R78). -/
def Channel.reset : Channel :=
  { ringBase := 0, ringSize := 4, haltOnError := false, post := 0, fetch := 0, done := 0, state := .off
    haltCause := .none, stopRequest := false, abortPending := none, job := none, work := none, stage := none
    recordWritten := false, leavings := [] }

/-- The unit arbiter after reset (R93). -/
def Arbiter.reset : Arbiter :=
  { waiting := Vector.replicate 4 none, pointer := 3, packs := Vector.replicate 2 none
    checks := Vector.replicate 3 none }

/-- The working pack state after reset (R115). -/
def PackWork.reset : PackWork :=
  { group := [], runValue := 0, runCount := 0, phase := .header }

/-- A pack unit after reset (R115). That `writeAddress`, which is no item of R115, is 0 is a DESIGN CHOICE, log entry 21; `owed` and
`finishing` are log entry 20. -/
def PackUnit.reset : PackUnit :=
  { condition := .idle, mode := .pass, endFlag := false, source := [], dest := [], sourceCursor := ⟨0, 0⟩
    destCursor := ⟨0, 0⟩, readAhead := [], writeBuffer := [], writeAddress := 0, taken := 0, accepted := 0
    written := 0, work := PackWork.reset, joined := none, ending := .none, owed := [], finishing := false }

/-- A check unit after reset (R128). -/
def CheckUnit.reset : CheckUnit :=
  { condition := .idle, kind := .c32, tap := .inTap, endFlag := false, running := .c32 0xFFFFFFFF#32, joined := none
    source := [], sourceCursor := ⟨0, 0⟩, taken := 0, ending := .none, finalCode := none }

/-- The completion writer after reset (R149). -/
def Writer.reset : Writer :=
  { state := .disabled, ringBase := 0, ringSize := 8, tail := 0, head := 0, threshold := 0, serving := 3
    requesting := Vector.replicate 4 false, current := none, disablePending := false }

/-- The BIU after the reset pin (R176). -/
def Biu.reset : Biu :=
  { wanted := Vector.replicate 10 none, requests := Vector.replicate 10 none, pointer := 0, burst := none
    timeout := 0, accessError := { offset := 0, reason := .none }
    lastFault := { owner := 0, write := false, why := none, address := 0 } }

/-- The part right after the reset pin is released (R158, R159, R185): every block at its reset values, host memory not yet
written by the part, no command waiting. -/
def State.reset : State :=
  { slots := Vector.replicate 32 Slot.reset
    argument := 0
    result := { result := .ok, handle := Config.unboundHandle }
    inspect := Vector.replicate 8 0
    channels := Vector.replicate 4 Channel.reset
    arbiter := Arbiter.reset
    packs := Vector.replicate 2 PackUnit.reset
    checks := Vector.replicate 3 CheckUnit.reset
    writer := Writer.reset
    idc := { status := 0, enable := 0, resetPending := false }
    biu := Biu.reset
    pinAsserted := false
    hostMem := []
    freeIndex := 0
    pending := [] }

end Sys2Proof.Machine
end

