-- ==== Sys2Proof/Machine/Operands.lean ====
section
/-! DEFINITION. The operand forms: the register map, the codes of the named values, and the layouts of handles, job entries,
fragment entries, completion records and token headers (chapter 10). -/

namespace Sys2Proof

/-- A requester's position (R168), which is also its code (R178). -/
def Requester.position : Requester → Fin 10
  | .ch c => ⟨c.val, by omega⟩
  | .pk p => ⟨4 + p.val, by omega⟩
  | .ck k => ⟨6 + k.val, by omega⟩
  | .cw => 9

/-- The requester at a position (R168). -/
def Requester.atPosition (i : Fin 10) : Requester :=
  if h : i.val < 4 then .ch ⟨i.val, h⟩
  else if h : i.val < 6 then .pk ⟨i.val - 4, by omega⟩
  else if h : i.val < 9 then .ck ⟨i.val - 6, by omega⟩
  else .cw

end Sys2Proof

namespace Sys2Proof.Machine

/-! ### Bytes and words (00_scope, Byte order) -/

/-- The number that bytes spell, the first the least significant. -/
def littleEndian : List Byte → Nat
  | [] => 0
  | b :: bs => b.toNat + 256 * littleEndian bs

/-- The `n` bytes of a number, the least significant first. -/
def bytesOf : Nat → Nat → List Byte
  | 0, _ => []
  | n + 1, v => BitVec.ofNat 8 v :: bytesOf n (v / 256)

/-- The field of `n` bytes at byte `at` of a record, as a number. -/
def field (bytes : List Byte) (start n : Nat) : Nat :=
  littleEndian ((bytes.drop start).take n)

/-! ### Codes of named values (R178 to R184) -/

/-- The op of a code (R180, R183); 4 to 255 are out of range. -/
def Op.ofByte (b : Byte) : Option Op :=
  match b.toNat with
  | 0 => some .check
  | 1 => some .pass
  | 2 => some .pack
  | 3 => some .unpack
  | _ => none

/-- The code of an op. -/
def Op.code : Op → Nat
  | .check => 0
  | .pass => 1
  | .pack => 2
  | .unpack => 3

/-- The code kind of a code (R180, R183); 3 to 255 are out of range. -/
def CodeKind.ofByte (b : Byte) : Option CodeKind :=
  match b.toNat with
  | 0 => some CodeKind.none
  | 1 => some CodeKind.c32
  | 2 => some CodeKind.d32
  | _ => Option.none

/-- The code of a code kind. -/
def CodeKind.code : CodeKind → Nat
  | .none => 0
  | .c32 => 1
  | .d32 => 2

/-- The tap of a code (R180, R183); 2 to 255 are out of range. -/
def Tap.ofByte (b : Byte) : Option Tap :=
  match b.toNat with
  | 0 => some .inTap
  | 1 => some .outTap
  | _ => none

/-- The code of a tap. -/
def Tap.code : Tap → Nat
  | .inTap => 0
  | .outTap => 1

/-- The position of a code (R183); 4 to 255 are out of range. -/
def Position.ofByte (b : Byte) : Option Position :=
  match b.toNat with
  | 0 => some .whole
  | 1 => some .head
  | 2 => some .body
  | 3 => some .tail
  | _ => none

/-- A WHOLE or TAIL job ends its message: an END job (section 2.3). -/
def Position.isEnd : Position → Bool
  | .whole | .tail => true
  | .head | .body => false

/-- The code of a slot state (R180). -/
def SlotState.code : SlotState → Nat
  | .free => 0
  | .ready => 1
  | .midway => 2

/-- The code of a stream command's result (R180). -/
def StreamResult.code : StreamResult → Nat
  | .ok => 0
  | .noSlot => 1
  | .badHandle => 2
  | .busy => 3
  | .badArgs => 4
  | .deferred => 5

/-- The code of a channel state (R179). -/
def ChannelState.code : ChannelState → Nat
  | .off => 0
  | .idle => 1
  | .fetch => 2
  | .waitSlot => 3
  | .waitUnits => 4
  | .run => 5
  | .retire => 6
  | .halted => 7

/-- The group of states FETCH through RETIRE (R51). -/
def ChannelState.inGroup : ChannelState → Bool
  | .fetch | .waitSlot | .waitUnits | .run | .retire => true
  | .off | .idle | .halted => false

/-- The code of a halt cause (R181). -/
def HaltCause.code : HaltCause → Nat
  | .none => 0
  | .aborted => 1
  | .jobError => 2
  | .fetchFault => 3

/-- The code of abort pending (R181). -/
def abortPendingCode : Option AbortKind → Nat
  | none => 0
  | some .abort => 1
  | some .reset => 2

/-- The code of a writer state (R179). -/
def WriterState.code : WriterState → Nat
  | .disabled => 0
  | .ready => 1
  | .writing => 2
  | .stalled => 3

/-- The code of an access error reason (R179). -/
def AccessReason.code : AccessReason → Nat
  | .none => 0
  | .narrow => 1
  | .unmapped => 2
  | .readOnly => 3
  | .notOff => 4
  | .postRange => 5
  | .headRange => 6

/-- The code of why a burst faulted in the last initiator fault register (R179). -/
def whyCode : Option Why → Nat
  | none => 0
  | some .error => 1
  | some .timeout => 2

/-- The code of a status in a record (R184). -/
def Status.code : Status → Nat
  | .ok => 0
  | .mismatch => 1
  | .truncated => 2
  | .badJob => 8
  | .badHandle => 9
  | .kindConflict => 10
  | .seqGap => 11
  | .outOverrun => 12
  | .busFault => 13

/-- The completed statuses are OK, MISMATCH and TRUNCATED; the others are refused (R45). -/
def Status.isCompleted : Status → Bool
  | .ok | .mismatch | .truncated => true
  | _ => false

/-! ### Handles (R182) -/

/-- The slot number of a handle, 0 to 255. -/
def handleSlot (h : Half) : Nat := (h.extractLsb' 0 8).toNat

/-- The generation of a handle. -/
def handleGeneration (h : Half) : Byte := h.extractLsb' 8 8

/-- The handle of a slot and a generation. -/
def makeHandle (i : SlotId) (generation : Byte) : Half :=
  generation ++ BitVec.ofNat 8 i.val

/-! ### The arguments of the stream commands (R180) -/

/-- The argument of OPEN, when it passes the checks of R8: op, code kind and tap each in range, and a CHECK neither without
a code nor with tap OUT. -/
def openArgument (w : Word) : Option (Op × CodeKind × Tap) :=
  match Op.ofByte (w.extractLsb' 0 8), CodeKind.ofByte (w.extractLsb' 8 8), Tap.ofByte (w.extractLsb' 16 8) with
  | some op, some kind, some tap =>
    if op = .check ∧ (kind = .none ∨ tap = .outTap) then none else some (op, kind, tap)
  | _, _, _ => none

/-- The handle of CLOSE and REWIND. -/
def handleArgument (w : Word) : Half := w.extractLsb' 0 16

/-- The slot number of INSPECT; a number above 31 names no slot (R13). -/
def slotArgument (w : Word) : Option SlotId :=
  let n := (w.extractLsb' 0 16).toNat
  if h : n < 32 then some ⟨n, h⟩ else none

/-! ### Job entries and fragment tables (R183) -/

/-- The fields of a job entry of 32 bytes. -/
def JobEntry.ofBytes (b : List Byte) : JobEntry :=
  { opByte := BitVec.ofNat 8 (field b 0 1)
    positionByte := BitVec.ofNat 8 (field b 1 1)
    kindByte := BitVec.ofNat 8 (field b 2 1)
    tapByte := BitVec.ofNat 8 (field b 3 1)
    verify := (field b 4 1).testBit 0
    sourceCount := BitVec.ofNat 8 (field b 5 1)
    destCount := BitVec.ofNat 8 (field b 6 1)
    handle := BitVec.ofNat 16 (field b 8 2)
    segment := BitVec.ofNat 16 (field b 10 2)
    tag := BitVec.ofNat 16 (field b 12 2)
    sourceTable := BitVec.ofNat 32 (field b 16 4)
    destTable := BitVec.ofNat 32 (field b 20 4)
    expectedCode := BitVec.ofNat 32 (field b 24 4) }

/-- The op of an entry, if in range. -/
def JobEntry.op (e : JobEntry) : Option Op := Op.ofByte e.opByte

/-- The position of an entry, if in range. -/
def JobEntry.position (e : JobEntry) : Option Position := Position.ofByte e.positionByte

/-- The code kind of an entry, if in range. -/
def JobEntry.kind (e : JobEntry) : Option CodeKind := CodeKind.ofByte e.kindByte

/-- The tap of an entry, if in range. -/
def JobEntry.tap (e : JobEntry) : Option Tap := Tap.ofByte e.tapByte

/-- The job carries a handle other than the unbound handle (R29). -/
def JobEntry.isBound (e : JobEntry) : Bool := e.handle != Config.unboundHandle

/-- The job's position is WHOLE or TAIL. -/
def JobEntry.isEnd (e : JobEntry) : Bool :=
  match e.position with
  | some p => p.isEnd
  | none => false

/-- The six entry checks of R34, all passed. -/
def JobEntry.passesChecks (e : JobEntry) : Bool :=
  match e.op, e.position, e.kind, e.tap with
  | some op, some position, some kind, some tap =>
    decide (e.sourceCount.toNat ≤ Config.maxFragments) && decide (e.destCount.toNat ≤ Config.maxFragments) &&
    (e.sourceCount == 0 || e.sourceTable.toNat % 8 == 0) && (e.destCount == 0 || e.destTable.toNat % 8 == 0) &&
    !(op == .check && kind == .none) &&
    !(op == .check && tap == .outTap) &&
    !(op == .check && e.destCount != 0) &&
    !(e.verify && (!position.isEnd || kind == .none)) &&
    (e.isBound || position == .whole)
  | _, _, _, _ => false

/-- The entries of a fragment table of `n` entries, from its bytes (R30, R183). -/
def fragmentsOf : Nat → List Byte → List Fragment
  | 0, _ => []
  | n + 1, b =>
    { address := BitVec.ofNat 32 (field b 0 4), length := BitVec.ofNat 32 (field b 4 4) } :: fragmentsOf n (b.drop 8)

/-- A fragment's length is valid: 1 to 16,777,215 (R30). -/
def Fragment.isValid (f : Fragment) : Bool :=
  decide (1 ≤ f.length.toNat ∧ f.length.toNat ≤ Config.maxFragment)

/-- The sum of the lengths of a table (R31). -/
def totalLength : List Fragment → Nat
  | [] => 0
  | f :: fs => f.length.toNat + totalLength fs

/-- The units a job needs (R40). -/
def JobEntry.need (e : JobEntry) : Need :=
  { pack := e.op != some .check, check := e.kind != some .none }

/-! ### Fragments and bursts (R96, R97, R122, R170) -/

/-- The address of the byte at an offset of a fragment, mod 2^32 (R30). -/
def Fragment.byteAddress (f : Fragment) (offset : Nat) : Word := f.address + BitVec.ofNat 32 offset

/-- How many bytes lie from an address to the end of its 32-byte aligned block. -/
def toBlockEnd (a : Word) : Nat := Config.block - a.toNat % Config.block

/-- The cursor `n` bytes on, within one fragment: at the end of the fragment it moves to offset 0 of the next (R96). -/
def Cursor.advance (fs : List Fragment) (c : Cursor) (n : Nat) : Cursor :=
  match fs[c.fragment]? with
  | some f => if c.offset + n < f.length.toNat then ⟨c.fragment, c.offset + n⟩ else ⟨c.fragment + 1, 0⟩
  | none => c

/-- The read that starts at a cursor: one burst, to the end of its block or of its fragment, whichever comes first (R96,
R122); none at the end of the table. -/
def readAt (fs : List Fragment) (c : Cursor) : Option BurstRequest :=
  match fs[c.fragment]? with
  | some f =>
    let a := f.byteAddress c.offset
    some { address := a, length := min (toBlockEnd a) (f.length.toNat - c.offset), write := false, data := [] }
  | none => none

/-- The write of these bytes from an address on (R97, R134). -/
def writeOf (a : Word) (bytes : List Byte) : BurstRequest :=
  { address := a, length := bytes.length, write := true, data := bytes }

/-- The address of the burst's first word, a multiple of 4 (R170). -/
def BurstRequest.firstWord (q : BurstRequest) : Word := q.address - BitVec.ofNat 32 (q.address.toNat % 4)

/-- The number of words of the burst (R170). -/
def BurstRequest.words (q : BurstRequest) : Nat := (q.address.toNat % 4 + q.length + 3) / 4

/-- The byte of the burst that lane `lane` of its word `i` carries, as its number in the burst; none on a lane that is not
enabled (R170). -/
def BurstRequest.byteIndex (q : BurstRequest) (i lane : Nat) : Option Nat :=
  let k := 4 * i + lane
  let first := q.address.toNat % 4
  if first ≤ k ∧ k < first + q.length then some (k - first) else none

/-- The byte enables of word `i` (R170). -/
def BurstRequest.enables (q : BurstRequest) (i : Nat) : BitVec 4 :=
  BitVec.ofNat 4
    ((if (q.byteIndex i 0).isSome then 1 else 0) + (if (q.byteIndex i 1).isSome then 2 else 0) +
      (if (q.byteIndex i 2).isSome then 4 else 0) + (if (q.byteIndex i 3).isSome then 8 else 0))

/-- The bytes that the enabled lanes of word `i` carry, given the word on the data lines (R171). -/
def BurstRequest.take (q : BurstRequest) (i : Nat) (data : Word) : List Byte :=
  [0, 1, 2, 3].filterMap fun lane =>
    if (q.byteIndex i lane).isSome then some (data.extractLsb' (8 * lane) 8) else none

/-- The byte that a write drives on a lane of word `i`; disabled lanes carry 0 (R170). -/
def BurstRequest.laneByte (q : BurstRequest) (i lane : Nat) : Byte :=
  match q.byteIndex i lane with
  | some k => q.data.getD k 0
  | none => 0

/-- The word that a write drives in data phase `i` (R170). -/
def BurstRequest.dataWord (q : BurstRequest) (i : Nat) : Word :=
  q.laneByte i 3 ++ q.laneByte i 2 ++ q.laneByte i 1 ++ q.laneByte i 0

/-- The addresses and bytes that word `i` of a write carries on its enabled lanes. -/
def BurstRequest.cells (q : BurstRequest) (i : Nat) : List (Word × Byte) :=
  [0, 1, 2, 3].filterMap fun lane =>
    match q.byteIndex i lane with
    | some k => some (q.address + BitVec.ofNat 32 k, q.data.getD k 0)
    | none => none

/-! ### Completion records (R184) -/

/-- Bit 3 of the detail byte: a code is present. -/
def Record.detail (r : Record) : Nat :=
  let place := match r.fault with
    | none => 0
    | some d => match d.place with
      | .fragTable => 1
      | .source => 2
      | .dest => 3
  let why := match r.fault with
    | some ⟨_, .timeout⟩ => 4
    | _ => 0
  place + why + (if r.code.isSome then 8 else 0) + 16 * r.channel.val

/-- The 32 bytes of a record. -/
def Record.bytes (r : Record) : List Byte :=
  [r.opByte, r.positionByte, BitVec.ofNat 8 r.status.code, BitVec.ofNat 8 r.detail] ++
    bytesOf 2 r.ringPosition.toNat ++ bytesOf 2 r.tag.toNat ++ bytesOf 2 r.segment.toNat ++ bytesOf 2 0 ++
    bytesOf 4 r.inCount ++ bytesOf 4 r.outCount ++ bytesOf 4 (r.code.getD 0).toNat ++ bytesOf 4 0 ++
    bytesOf 4 (if r.phase then 1 else 0)

/-! ### Token headers (R101, R184) -/

/-- A literal token of these bytes: header k - 1, then the k bytes. -/
def literalToken (bytes : List Byte) : List Byte := BitVec.ofNat 8 (bytes.length - 1) :: bytes

/-- A run token of n copies of a value: header n + 125, then the value. -/
def runToken (n : Nat) (value : Byte) : List Byte := [BitVec.ofNat 8 (n + 125), value]

/-- The phase a header begins (R101, R106). -/
def headerPhase (h : Byte) : DecoderPhase :=
  if h.toNat < 128 then .literal (h.toNat + 1) else .runValue (h.toNat - 125)

/-! ### The register map (R177) -/

/-- A register of the window. -/
inductive Reg where
  | identification | globalStatus | globalControl | interruptStatus | interruptEnable
  | initiatorTimeout | lastAccessError | lastFault | lastFaultAddress
  | writerControl | writerStatus | completionRingBase | completionRingSize | tail | head | threshold
  | argument | command | result
  | inspect (i : Fin 8)
  | channelControl (c : ChannelId) | channelStatus (c : ChannelId)
  | jobRingBase (c : ChannelId) | jobRingSize (c : ChannelId)
  | post (c : ChannelId) | fetch (c : ChannelId) | done (c : ChannelId)
  | grantMap | rotationPointer
  deriving DecidableEq, Repr

/-- The register of a channel's group at an offset within the group. -/
def Reg.ofGroupOffset (c : ChannelId) : Nat → Option Reg
  | 0x00 => some (.channelControl c)
  | 0x04 => some (.channelStatus c)
  | 0x08 => some (.jobRingBase c)
  | 0x0C => some (.jobRingSize c)
  | 0x10 => some (.post c)
  | 0x14 => some (.fetch c)
  | 0x18 => some (.done c)
  | _ => none

/-- The register at an offset of the window; none at an unmapped offset (R163, R177). -/
def Reg.ofOffset (offset : Nat) : Option Reg :=
  match offset with
  | 0x000 => some .identification
  | 0x004 => some .globalStatus
  | 0x008 => some .globalControl
  | 0x00C => some .interruptStatus
  | 0x010 => some .interruptEnable
  | 0x014 => some .initiatorTimeout
  | 0x018 => some .lastAccessError
  | 0x01C => some .lastFault
  | 0x020 => some .lastFaultAddress
  | 0x040 => some .writerControl
  | 0x044 => some .writerStatus
  | 0x048 => some .completionRingBase
  | 0x04C => some .completionRingSize
  | 0x050 => some .tail
  | 0x054 => some .head
  | 0x058 => some .threshold
  | 0x080 => some .argument
  | 0x084 => some .command
  | 0x088 => some .result
  | 0x0A0 => some (.inspect 0)
  | 0x0A4 => some (.inspect 1)
  | 0x0A8 => some (.inspect 2)
  | 0x0AC => some (.inspect 3)
  | 0x0B0 => some (.inspect 4)
  | 0x0B4 => some (.inspect 5)
  | 0x0B8 => some (.inspect 6)
  | 0x0BC => some (.inspect 7)
  | 0x1C0 => some .grantMap
  | 0x1C4 => some .rotationPointer
  | n =>
    if 0x100 ≤ n ∧ n < 0x180 then
      Reg.ofGroupOffset (Fin.ofNat 4 ((n - 0x100) / 0x20)) ((n - 0x100) % 0x20)
    else none

/-- The offset of a register (R177). -/
def Reg.offset : Reg → Nat
  | .identification => 0x000
  | .globalStatus => 0x004
  | .globalControl => 0x008
  | .interruptStatus => 0x00C
  | .interruptEnable => 0x010
  | .initiatorTimeout => 0x014
  | .lastAccessError => 0x018
  | .lastFault => 0x01C
  | .lastFaultAddress => 0x020
  | .writerControl => 0x040
  | .writerStatus => 0x044
  | .completionRingBase => 0x048
  | .completionRingSize => 0x04C
  | .tail => 0x050
  | .head => 0x054
  | .threshold => 0x058
  | .argument => 0x080
  | .command => 0x084
  | .result => 0x088
  | .inspect i => 0x0A0 + 4 * i.val
  | .channelControl c => 0x100 + 0x20 * c.val
  | .channelStatus c => 0x104 + 0x20 * c.val
  | .jobRingBase c => 0x108 + 0x20 * c.val
  | .jobRingSize c => 0x10C + 0x20 * c.val
  | .post c => 0x110 + 0x20 * c.val
  | .fetch c => 0x114 + 0x20 * c.val
  | .done c => 0x118 + 0x20 * c.val
  | .grantMap => 0x1C0
  | .rotationPointer => 0x1C4

/-- The read-only registers (R164). -/
def Reg.isReadOnly : Reg → Bool
  | .identification | .globalStatus | .lastAccessError | .lastFault | .lastFaultAddress | .writerStatus | .tail
  | .result | .inspect _ | .channelStatus _ | .fetch _ | .done _ | .grantMap | .rotationPointer => true
  | _ => false

/-! ### Settings as the registers take them -/

/-- A ring size as taken: below the least, the least; above the greatest, the greatest; otherwise the largest power of two
that does not exceed it (R53, R131). -/
def ringSizeTaken (least greatest v : Nat) : Nat :=
  if v < least then least else if greatest < v then greatest else 2 ^ Nat.log2 v

/-- A ring base as taken: its five lowest bits cleared (R53, R131). -/
def ringBaseTaken (v : Word) : Word := v &&& 0xFFFFFFE0#32

/-- An initiator timeout as taken (R173). -/
def timeoutTaken (v : Nat) : Nat :=
  if v = 0 then 0 else if v < 16 then 16 else if 4095 < v then 4095 else v

/-- A threshold as taken (R131). -/
def thresholdTaken (v : Nat) : Nat := if 255 < v then 255 else v

end Sys2Proof.Machine
end

