-- ==== Sys2Proof/Machine/Flags.lean ====
section
/-! DEFINITION. The flag computations: the interrupt statuses and the line (chapter 8), the two integrity codes (section
6.2), and the phase flag and ring level of the completion ring (chapter 7). -/

namespace Sys2Proof.Machine

/-! ### Interrupt statuses (R150, R179) -/

/-- The nine statuses (R150). -/
inductive IntStatus where
  | cqLevel | cqFlush | cqFault | closed | accessErr
  | halt (c : ChannelId)
  deriving DecidableEq, Repr

/-- A status's position in the interrupt registers (R179). -/
def IntStatus.bit : IntStatus → Nat
  | .cqLevel => 0
  | .cqFlush => 1
  | .cqFault => 2
  | .closed => 3
  | .accessErr => 4
  | .halt c => 8 + c.val

/-- The word with that position one. -/
def IntStatus.mask (i : IntStatus) : Word := BitVec.ofNat 32 (2 ^ i.bit)

/-- The positions that name a status (R179). -/
def interruptPositions : Word := 0x00000F1F#32

/-- A raise: the status becomes set, or stays set (R151). -/
def State.raise (i : IntStatus) (s : State) : State :=
  { s with idc := { s.idc with status := s.idc.status ||| i.mask } }

/-- Whether a status is set. -/
def State.isRaised (i : IntStatus) (s : State) : Bool := s.idc.status.getLsbD i.bit

/-- The part takes events and window accesses as usual: no device reset is pending (R156, R157) and the reset pin is not
asserted (R159). -/
def State.live (s : State) : Bool := !s.pinAsserted && !s.idc.resetPending

/-- The interrupt line is asserted: some status is both set and enabled, outside a device reset and the reset pin (R153,
R157, R159). -/
def State.intLine (s : State) : Bool := s.live && (s.idc.status &&& s.idc.enable) != 0

/-! ### The integrity codes (R117, R118) -/

/-- One of the eight shifts of C32. -/
def c32Shift (r : Word) : Word :=
  if r.getLsbD 0 then (r >>> 1) ^^^ Config.c32Constant else r >>> 1

/-- C32 over one byte (R117). -/
def c32Byte (r : Word) (b : Byte) : Word :=
  c32Shift (c32Shift (c32Shift (c32Shift (c32Shift (c32Shift (c32Shift (c32Shift (r ^^^ b.zeroExtend 32))))))))

/-- The running code over one byte more (R117, R118); NONE holds 0, which nothing changes (R2). -/
def RunningCode.feed : RunningCode → Byte → RunningCode
  | .none, _ => .none
  | .c32 r, b => .c32 (c32Byte r b)
  | .d32 a b, x =>
    let a' := Fin.ofNat 65519 (a.val + x.toNat)
    .d32 a' (Fin.ofNat 65519 (b.val + a'.val))

/-- The running code over a sequence of bytes, in order. -/
def RunningCode.feedAll (r : RunningCode) (bytes : List Byte) : RunningCode := bytes.foldl RunningCode.feed r

/-- The running code at the start of a message (R3). -/
def RunningCode.initial : CodeKind → RunningCode
  | .none => .none
  | .c32 => .c32 0xFFFFFFFF#32
  | .d32 => .d32 1 0

/-- The final code (R117, R118). -/
def RunningCode.final : RunningCode → Word
  | .none => 0
  | .c32 r => ~~~r
  | .d32 a b => BitVec.ofNat 32 (b.val * 65536 + a.val)

/-- A running code as inspect 4 shows it (R180). -/
def RunningCode.shown : RunningCode → Word
  | .none => 0
  | .c32 r => r
  | .d32 a b => BitVec.ofNat 32 (b.val * 65536 + a.val)

/-! ### The completion ring (R129, R135) -/

/-- The ring level, TAIL - HEAD mod 65536 (R129). -/
def Writer.level (w : Writer) : Nat := (w.tail - w.head).toNat

/-- The phase flag of count n in a ring of a size: 1 when n div size is even (R135). -/
def phaseFlag (n : Half) (size : Nat) : Bool := (n.toNat / size) % 2 == 0

end Sys2Proof.Machine
end

