-- ==== Sys2Proof/Machine/Ops.lean ====
section
/-! DEFINITION. The named operations over the part's state that the blocks share: reading and writing one slot, channel or
unit; host memory; a refused window write; a requester's burst request; a channel entering RETIRE or HALTED. -/

namespace Sys2Proof.Machine

/-! ### One slot, channel, unit -/

/-- Slot `i` (R1). -/
def State.slot (s : State) (i : SlotId) : Slot := s.slots.get i

/-- Slot `i` replaced. -/
def State.setSlot (s : State) (i : SlotId) (x : Slot) : State := { s with slots := s.slots.set i x }

/-- Channel `c` (R50). -/
def State.channel (s : State) (c : ChannelId) : Channel := s.channels.get c

/-- Channel `c` replaced. -/
def State.setChannel (s : State) (c : ChannelId) (x : Channel) : State :=
  { s with channels := s.channels.set c x }

/-- Pack unit `p` (R94). -/
def State.pack (s : State) (p : PackId) : PackUnit := s.packs.get p

/-- Pack unit `p` replaced. -/
def State.setPack (s : State) (p : PackId) (x : PackUnit) : State := { s with packs := s.packs.set p x }

/-- Check unit `k` (R116). -/
def State.check (s : State) (k : CheckId) : CheckUnit := s.checks.get k

/-- Check unit `k` replaced. -/
def State.setCheck (s : State) (k : CheckId) (x : CheckUnit) : State := { s with checks := s.checks.set k x }

/-- The channels in the order of a rotation: from the one after `p`, wrapping, to `p` itself (R82, R137). -/
def rotationAfter (p : ChannelId) : List ChannelId := [p + 1, p + 2, p + 3, p]

/-- The ten positions in the arbiter's order, from `p` on, wrapping (R169). -/
def positionsFrom (p : Fin 10) : List (Fin 10) :=
  [p, p + 1, p + 2, p + 3, p + 4, p + 5, p + 6, p + 7, p + 8, p + 9]

/-! ### Host memory as the part's writes leave it -/

namespace Memory

/-- The canonical form: addresses strictly rising, each below 2^32. An unlisted address is one the part has not written
(DESIGN CHOICE, log entry 5). -/
def wf (m : List Host.Cell) : Bool :=
  decide ((m.map Prod.fst).Pairwise (· < ·)) && m.all fun c => decide (c.1 < 2 ^ 32)

/-- The byte the part has written at an address; none where it has written nothing. -/
def read : List Host.Cell → Nat → Option Byte
  | [], _ => none
  | c :: m, a => if c.1 = a then some c.2 else read m a

/-- One byte written, keeping the addresses rising. -/
def write : List Host.Cell → Nat → Byte → List Host.Cell
  | [], a, b => [(a, b)]
  | c :: m, a, b => if a < c.1 then (a, b) :: c :: m else if a = c.1 then (a, b) :: m else c :: write m a b

/-- Several bytes written, in order. -/
def writeAll (m : List Host.Cell) (cells : List (Word × Byte)) : List Host.Cell :=
  cells.foldl (fun m c => write m c.1.toNat c.2) m

end Memory

/-- The bytes that a target took are in host memory (R171). -/
def State.memoryTakes (cells : List (Word × Byte)) (s : State) : State :=
  { s with hostMem := Memory.writeAll s.hostMem cells }

/-- Of these bytes, those the free value says the target took are in host memory: the bytes of which the spec says that the
memory may or may not have received them (R112, R143, R159, R172). FREE VALUE, log entry 4. -/
def State.memoryMayTake (cells : List (Word × Byte)) (s : State) : State :=
  { s with
    hostMem := Memory.writeAll s.hostMem (cells.filter fun c => Config.targetTook s.freeIndex c.1)
    freeIndex := s.freeIndex + 1 }

/-! ### Window writes (R165 to R167) -/

/-- A refused window write: the last access error is replaced whole and ACCESS_ERR is raised, as one event. -/
def State.refuse (offset : Nat) (why : AccessReason) (s : State) : State :=
  State.raise .accessErr
    { s with biu := { s.biu with accessError := { offset := BitVec.ofNat 9 offset, reason := why } } }

/-! ### Burst requests (R168) -/

/-- The burst request a requester has formed and that has not joined the request set. -/
def State.wantedBy (s : State) (r : Requester) : Option BurstRequest := s.biu.wanted.get r.position

/-- A requester's request in the request set. -/
def State.requestOf (s : State) (r : Requester) : Option BurstRequest := s.biu.requests.get r.position

/-- A requester forms a burst request (R168); it joins the set at the event PORT_REQUEST. -/
def State.want (r : Requester) (q : BurstRequest) (s : State) : State :=
  { s with biu := { s.biu with wanted := s.biu.wanted.set r.position (some q) } }

/-- A requester's request is withdrawn, formed or in the set (R168). -/
def State.withdraw (r : Requester) (s : State) : State :=
  { s with
    biu := { s.biu with
      wanted := s.biu.wanted.set r.position none
      requests := s.biu.requests.set r.position none } }

/-- The requester's burst is in progress on the bus. -/
def State.onBus (r : Requester) (s : State) : Bool :=
  match s.biu.burst with
  | some b => b.owner == r
  | none => false

/-- The bus request line (R168): asserted while the set is not empty and no burst holds the bus, outside a device reset and
the reset pin (R159, R176). -/
def State.busRequestLine (s : State) : Bool :=
  s.live && s.biu.burst.isNone && s.biu.requests.toList.any Option.isSome

/-- What the part drives on the bus while a burst of its own holds it (R170, section 9.6). In the address phase: the address of
the burst's first word, the direction, and the byte enables of that word. In the data phase of a word: its byte enables, its data
for a write alone (the target drives those of a read), and whether the last-word line is asserted. -/
inductive BusDrive where
  | addressPhase (address : Word) (write : Bool) (enables : BitVec 4)
  | dataPhase (enables : BitVec 4) (data : Option Word) (last : Bool)
  deriving DecidableEq, Repr

/-- What a burst drives in its address phase (R170). -/
def Burst.addressLines (b : Burst) : BusDrive := .addressPhase b.request.firstWord b.request.write (b.request.enables 0)

/-- What a burst drives in the data phase now awaited (R170). -/
def Burst.dataLines (b : Burst) : BusDrive :=
  .dataPhase (b.request.enables b.phasesEnded)
    (if b.request.write then some (b.request.dataWord b.phasesEnded) else none)
    (b.phasesEnded + 1 == b.request.words)

/-- The lines the part drives; none while it holds no burst (section 9.6). -/
def State.busDrive (s : State) : Option BusDrive :=
  s.biu.burst.map fun b => if b.addressPhase then b.addressLines else b.dataLines

/-! ### Slots as the channels name them -/

/-- The slot a channel holds (R14: at most one). -/
def State.heldSlot (s : State) (c : ChannelId) : Option SlotId :=
  (List.finRange 32).find? fun i => (s.slot i).holder == some c

/-- The slot in whose wait list a channel stands (R17: at most one). -/
def State.waitedSlot (s : State) (c : ChannelId) : Option SlotId :=
  (List.finRange 32).find? fun i => (s.slot i).waiters.contains c

/-! ### Contexts (R2, R3) -/

/-- The encoder carry at the start of a message; absent unless op is PACK. -/
def Carry.initial : Op → Option Carry
  | .pack => some { value := 0, count := 0 }
  | _ => none

/-- The decoder phase at the start of a message; absent unless op is UNPACK. -/
def DecoderPhase.initial : Op → Option DecoderPhase
  | .unpack => some .header
  | _ => none

/-- The initial context of an op and a code kind, in a given slot state (R3). -/
def Context.initial (state : SlotState) (op : Op) (kind : CodeKind) : Context :=
  { state := state, expected := 0, running := RunningCode.initial kind, carry := Carry.initial op
    phase := DecoderPhase.initial op, inTotal := 0, outTotal := 0 }

/-! ### Channels entering RETIRE and leaving the group -/

/-- A working context that carries only a status and a fault detail: that of a job that did not pass its checks (R50). -/
def Working.refused (status : Status) (fault : Option FaultDetail) : Working :=
  { ctx := none, status := some status, inCount := 0, outCount := 0, fault := fault, code := none }

/-- A channel's job ends with a status before its run: the channel enters RETIRE with counts of 0 (R36, R39, R62, R63). -/
def State.endJob (c : ChannelId) (status : Status) (fault : Option FaultDetail) (s : State) : State :=
  s.setChannel c
    { s.channel c with
      state := .retire, stage := none, work := some (Working.refused status fault), recordWritten := false }

/-- CQ_FLUSH as a channel's leaving of the group finds it (R147): after the leaving no channel is in the group FETCH through
RETIRE, and the ring level is above 0. -/
def State.quietWithout (c : ChannelId) (s : State) : Bool :=
  ((List.finRange 4).all fun d => d == c || !(s.channel d).state.inGroup) && decide (0 < s.writer.level)

/-- The leavings of a channel that goes to OFF, IDLE or HALTED: one more if it was in the group, with what CQ_FLUSH finds at
it (R51, R147). -/
def State.leaving (c : ChannelId) (s : State) : List Bool :=
  if (s.channel c).state.inGroup then (s.channel c).leavings ++ [s.quietWithout c] else (s.channel c).leavings

/-- A channel enters HALTED: the stop request is cleared, the job is gone, and its HALT status is raised (R69, R75). -/
def State.halt (c : ChannelId) (cause : HaltCause) (s : State) : State :=
  let ch := s.channel c
  State.raise (.halt c)
    (s.setChannel c
      { ch with
        state := .halted, haltCause := cause, stopRequest := false, abortPending := none, job := none, work := none
        stage := none, recordWritten := false, leavings := s.leaving c })

/-- A channel takes the values of channel RESET (R76). -/
def State.clearChannel (c : ChannelId) (s : State) : State :=
  let ch := s.channel c
  s.setChannel c
    { ch with
      state := .off, post := 0, fetch := 0, done := 0, stopRequest := false, haltCause := .none, abortPending := none
      job := none, work := none, stage := none, recordWritten := false, leavings := s.leaving c }

/-- An ABORT or channel RESET takes effect at its channel, its work in flight disposed of: FETCH is set back to DONE and the
channel is HALTED with cause ABORTED (R71 to R74), or the channel is OFF with its counts cleared (R76). -/
def State.abortTakesEffect (kind : AbortKind) (c : ChannelId) (s : State) : State :=
  match kind with
  | .abort => State.halt c .aborted (s.setChannel c { s.channel c with fetch := (s.channel c).done })
  | .reset => s.clearChannel c

/-- The offset of the burst's ring entry: entry `n mod size` of 32-byte entries from a base (R52, R134). -/
def ringEntry (base : Word) (size : Nat) (n : Half) : Word := base + BitVec.ofNat 32 (32 * (n.toNat % size))

/-- A fetch begins (R59): the channel enters FETCH, FETCH is incremented, and the channel forms the burst of the job entry
at the count FETCH held before (R52). -/
def State.beginFetch (c : ChannelId) (s : State) : State :=
  let ch := s.channel c
  State.want (.ch c)
    { address := ringEntry ch.ringBase ch.ringSize ch.fetch, length := 32, write := false, data := [] }
    (s.setChannel c
      { ch with
        state := .fetch, fetch := ch.fetch + 1, job := none, work := none, stage := some .entry
        recordWritten := false })

end Sys2Proof.Machine
end

