-- ==== Sys2Proof/Machine/Completion.lean ====
section
/-! DEFINITION. The completion writer (chapter 7): its commands, the choice of a channel, the start and the two ends of a
record write, HEAD writes, the ring settings, and the ring events. -/

namespace Sys2Proof.Machine

/-! ### Beginning a record (R134 to R137) -/

/-- The record of a channel's job (R47, R48, R49), at the writer's TAIL (R135). It exists for a channel whose job has a
status. -/
def State.recordOf (c : ChannelId) (s : State) : Option Record :=
  let ch := s.channel c
  match ch.job, ch.work with
  | some job, some w =>
    w.status.map fun status =>
      { phase := phaseFlag s.writer.tail s.writer.ringSize
        channel := c
        ringPosition := ch.done
        tag := job.entry.tag
        opByte := job.entry.opByte
        positionByte := job.entry.positionByte
        segment := job.entry.segment
        status := status
        fault := w.fault
        inCount := w.inCount
        outCount := w.outCount
        code := if status.isCompleted then w.code else none }
  | _, _ => none

/-- The first channel of the requesting set after the serving pointer (R137). -/
def Writer.choice (w : Writer) : Option ChannelId := (rotationAfter w.serving).find? fun c => w.requesting.get c

/-- A READY writer with room and a channel asking chooses a channel and begins its record, all at one event (R137): the
channel leaves the requesting set, the serving pointer moves to it, the record is formed, the writer is WRITING, and the
record's burst is formed for its ring entry (R134). In any other condition nothing is begun. -/
def State.beginRecord (s : State) : State :=
  if s.writer.state = .ready ∧ s.writer.level < s.writer.ringSize then
    match s.writer.choice with
    | none => s
    | some c =>
      match s.recordOf c with
      | none => s
      | some r =>
        State.want .cw (writeOf (ringEntry s.writer.ringBase s.writer.ringSize s.writer.tail) r.bytes)
          { s with writer := { s.writer with
              state := .writing, serving := c, requesting := s.writer.requesting.set c false, current := some r } }
  else s

/-- The writer is writing this channel's record, or has told the channel that it is written: the record is begun (R74,
R137). -/
def State.recordBegun (c : ChannelId) (s : State) : Bool :=
  (s.channel c).recordWritten ||
    match s.writer.current with
    | some r => r.channel == c
    | none => false

/-- A channel enters the requesting set (R136), and its record may be begun at once. -/
def State.requestRecord (c : ChannelId) (s : State) : State :=
  { s with writer := { s.writer with requesting := s.writer.requesting.set c true } }.beginRecord

/-- A channel is withdrawn from the requesting set (R145). -/
def State.withdrawRecord (c : ChannelId) (s : State) : State :=
  { s with writer := { s.writer with requesting := s.writer.requesting.set c false } }

/-! ### The ends of a record write (R139, R143) -/

/-- CQ_LEVEL evaluated with the level as it stands (R146). -/
def State.evaluateLevel (s : State) : State :=
  if s.writer.threshold ≠ 0 ∧ s.writer.threshold ≤ s.writer.level then s.raise .cqLevel else s

/-- The state a write ends in: DISABLED if a DISABLE is pending, else the given one (R133, R139, R143). -/
def Writer.stateAfter (w : Writer) (otherwise : WriterState) : WriterState :=
  if w.disablePending then .disabled else otherwise

/-- A record write ends with ready (R139): TAIL, CQ_LEVEL, the channel told, and the next record if there is one. -/
def State.recordWriteEnds (s : State) : State :=
  match s.writer.current with
  | none => s
  | some r =>
    let s1 := { s with writer := { s.writer with tail := s.writer.tail + 1 } }.evaluateLevel
    let s2 := s1.setChannel r.channel { s1.channel r.channel with recordWritten := true }
    { s2 with writer := { s2.writer with
        current := none, state := s2.writer.stateAfter .ready, disablePending := false } }.beginRecord

/-- A record write faults (R143): TAIL stays, the channel is put back into the requesting set, and CQ_FAULT is raised
(R148). -/
def State.recordWriteFaults (s : State) : State :=
  match s.writer.current with
  | none => s
  | some r =>
    State.raise .cqFault
      { s with writer := { s.writer with
          current := none, requesting := s.writer.requesting.set r.channel true
          state := s.writer.stateAfter .stalled, disablePending := false } }

/-! ### The writer's commands (section 7.3 and R144) -/

/-- ENABLE taken (R132). -/
def State.takeEnable (s : State) : State :=
  if s.writer.state = .disabled then
    { s with writer := { s.writer with tail := 0, head := 0, state := .ready } }.beginRecord
  else s

/-- DISABLE taken (R133). -/
def State.takeDisable (s : State) : State :=
  match s.writer.state with
  | .ready | .stalled => { s with writer := { s.writer with state := .disabled } }
  | .writing => { s with writer := { s.writer with disablePending := true } }
  | .disabled => s

/-- RESTART taken (R144). -/
def State.takeRestart (s : State) : State :=
  if s.writer.state = .stalled then { s with writer := { s.writer with state := .ready } }.beginRecord
  else s

/-- A write of the writer control register taken: exactly one command position set names a command (R178, R182). -/
def State.takeWriterControl (v : Word) (s : State) : State :=
  match (v.extractLsb' 0 3).toNat with
  | 1 => s.takeEnable
  | 2 => s.takeDisable
  | 4 => s.takeRestart
  | _ => s

/-! ### The writer's settings and HEAD (R131, R141) -/

/-- The ring may be configured: the writer is DISABLED and TAIL equals HEAD (R131). -/
def Writer.configurable (w : Writer) : Bool := w.state == .disabled && w.tail == w.head

/-- A write of the completion ring base (R131). -/
def State.takeCompletionBase (v : Word) (s : State) : State :=
  if s.writer.configurable then { s with writer := { s.writer with ringBase := ringBaseTaken v } }
  else s.refuse Reg.completionRingBase.offset .notOff

/-- A write of the completion ring size (R131). -/
def State.takeCompletionSize (v : Word) (s : State) : State :=
  if s.writer.configurable then { s with writer := { s.writer with ringSize := ringSizeTaken 8 4096 v.toNat } }
  else s.refuse Reg.completionRingSize.offset .notOff

/-- A write of the threshold (R131). -/
def State.takeThreshold (v : Word) (s : State) : State :=
  { s with writer := { s.writer with threshold := thresholdTaken v.toNat } }

/-! ### CQ_FLUSH (R147) -/

/-- The evaluation of CQ_FLUSH, with what a leaving found: raised when the part had gone quiet with records in the ring
(R147). -/
def State.evaluateFlush (quiet : Bool) (s : State) : State := if quiet then s.raise .cqFlush else s

/-- The oldest leaving of a channel reaches the writer (R139, R147); a channel without one changes nothing. -/
def State.takeLeaving (c : ChannelId) (s : State) : State :=
  match (s.channel c).leavings with
  | [] => s
  | quiet :: rest => (s.setChannel c { s.channel c with leavings := rest }).evaluateFlush quiet

/-- Some leaving that has not reached the writer yet finds CQ_FLUSH to be raised. -/
def State.flushDue (s : State) : Bool := (List.finRange 4).any fun c => (s.channel c).leavings.contains true

/-- Every leaving reaches the writer (R147). -/
def State.takeLeavings (s : State) : State :=
  State.evaluateFlush s.flushDue { s with channels := s.channels.map fun ch => { ch with leavings := [] } }

/-! ### HEAD (R141) -/

/-- A write of HEAD at the counts (R141, R178): accepted when it lies between the old HEAD and TAIL. A write of the value HEAD
holds changes nothing; one that lowers the level lets a READY writer begin a record (R137, R140). -/
def State.moveHead (v : Word) (s : State) : State :=
  let new : Half := v.extractLsb' 0 16
  if (s.writer.tail - new).toNat ≤ s.writer.level then
    if new = s.writer.head then s else { s with writer := { s.writer with head := new } }.beginRecord
  else s.refuse Reg.head.offset .headRange

/-- A write of HEAD taken. A leaving that came before it has raised its event first (R147), so the leavings that have not
reached the writer do so before the write is judged. DESIGN CHOICE, log entry 3. -/
def State.takeHead (v : Word) (s : State) : State := s.takeLeavings.moveHead v

/-! ### Meanings -/

/-- ENABLE (R132). -/
def execEnable (s : State) : Host.Outcome State Fault Refusal :=
  .next (if s.live then s.takeEnable else s)

/-- DISABLE (R133). -/
def execDisable (s : State) : Host.Outcome State Fault Refusal :=
  .next (if s.live then s.takeDisable else s)

/-- RESTART (R144). -/
def execRestart (s : State) : Host.Outcome State Fault Refusal :=
  .next (if s.live then s.takeRestart else s)

/-- COMPLETION_RING_BASE_WRITE (R131). -/
def execCompletionRingBaseWrite (v : Word) (s : State) : Host.Outcome State Fault Refusal :=
  .next (if s.live then s.takeCompletionBase v else s)

/-- COMPLETION_RING_SIZE_WRITE (R131). -/
def execCompletionRingSizeWrite (v : Word) (s : State) : Host.Outcome State Fault Refusal :=
  .next (if s.live then s.takeCompletionSize v else s)

/-- THRESHOLD_WRITE (R131). -/
def execThresholdWrite (v : Word) (s : State) : Host.Outcome State Fault Refusal :=
  .next (if s.live then s.takeThreshold v else s)

/-- HEAD_WRITE (R141). -/
def execHeadWrite (v : Word) (s : State) : Host.Outcome State Fault Refusal :=
  .next (if s.live then s.takeHead v else s)

/-- RECORD_REQUEST (R67, R136): a channel that has entered RETIRE enters the requesting set. It arises once for each entry:
not for a channel already in the set, one whose record is begun, or one about to retire. -/
def execRecordRequest (c : ChannelId) (s : State) : Host.Outcome State Fault Refusal :=
  .next
    (if s.live ∧ (s.channel c).state = .retire ∧ s.writer.requesting.get c = false ∧ s.recordBegun c = false then
      s.requestRecord c
    else s)

/-- GROUP_LEAVE (R51, R147): a leaving of the group reaches the writer, which evaluates CQ_FLUSH with the group and the ring
level as they stood at the leaving. It arises once for each leaving. -/
def execGroupLeave (c : ChannelId) (s : State) : Host.Outcome State Fault Refusal :=
  .next (if s.live then s.takeLeaving c else s)

end Sys2Proof.Machine
end

