-- ==== Sys2Proof/Machine/Check.lean ====
section
/-! DEFINITION. The check unit (chapter 6): the code over offered bytes, the reads of a CHECK job, and the end of a run. -/

namespace Sys2Proof.Machine

/-- The unit at the start of a run (R119); a CHECK job has no joined pack unit and brings its source table. -/
def CheckUnit.load (job : Job) (ctx : Context) (joined : Option PackId) : CheckUnit :=
  { condition := .running
    kind := job.entry.kind.getD .none
    tap := job.entry.tap.getD .inTap
    endFlag := job.entry.isEnd
    running := ctx.running
    joined := joined
    source := if joined.isNone then job.source else []
    sourceCursor := ⟨0, 0⟩
    taken := 0
    ending := .none
    finalCode := none }

/-- Bytes offered through the tap, in order (R120). -/
def CheckUnit.offered (u : CheckUnit) (bytes : List Byte) : CheckUnit :=
  { u with running := u.running.feedAll bytes }

/-- The unit of a CHECK job goes on: the next read, or DONE at the end of the source (R122, R123). -/
def CheckUnit.advance (u : CheckUnit) : CheckUnit × Option BurstRequest :=
  match readAt u.source u.sourceCursor with
  | some q => (u, some q)
  | none => ({ u with ending := .done }, none)

/-- A read of a CHECK job ends with ready: its bytes are taken at once (R122). -/
def CheckUnit.readEnds (u : CheckUnit) (bytes : List Byte) : CheckUnit :=
  { u with
    running := u.running.feedAll bytes
    taken := u.taken + bytes.length
    sourceCursor := u.sourceCursor.advance u.source bytes.length }

/-- A read of a CHECK job faults (R123). -/
def CheckUnit.readFaults (u : CheckUnit) (why : Why) : CheckUnit :=
  { u with ending := .busFault { place := .source, why := why } }

/-- The run of the unit's grant ends (R124): the final code is formed for an END job whose run ended DONE. -/
def CheckUnit.runEnds (u : CheckUnit) (ending : EndCondition) : CheckUnit :=
  { u with finalCode := if ending = .done ∧ u.endFlag then some u.running.final else none }

/-- The unit has stopped at an abort: its running code, final code and source position are dropped (R127). What they then hold,
the reset values whatever the code kind, and that the source table and the taken count stay, is DESIGN CHOICE, log entry
19. -/
def CheckUnit.stop (u : CheckUnit) : CheckUnit :=
  { u with
    condition := .stopped, running := CheckUnit.reset.running, finalCode := none, sourceCursor := ⟨0, 0⟩ }

/-- The unit released: IDLE and cleared (R124), each cleared item at its reset value (DESIGN CHOICE, log entry 19); its kind,
tap and END flag stay (DEDUCED, log entry 10). -/
def CheckUnit.release (u : CheckUnit) : CheckUnit :=
  { CheckUnit.reset with kind := u.kind, tap := u.tap, endFlag := u.endFlag }

end Sys2Proof.Machine
end

