-- ==== Sys2Proof/Machine/Pack.lean ====
section
/-! DEFINITION. The pack unit (chapter 5): traversal, taking and accepting bytes, the token encoder and decoder, and the ways
a run ends. A unit's work between two transfers is one function, `PackUnit.advance`. -/

namespace Sys2Proof.Machine

/-! ### Accepting output (R97, R99, R105) -/

/-- The remaining destination capacity (R99). -/
def PackUnit.room (u : PackUnit) : Nat := totalLength u.dest - u.accepted

/-- The byte placed at the destination cursor is the last of its 32-byte block or of its fragment, so that the buffer must
be written after it (R97). -/
def PackUnit.fillsBuffer (u : PackUnit) : Bool :=
  match u.dest[u.destCursor.fragment]? with
  | some f =>
    toBlockEnd (f.byteAddress u.destCursor.offset) == 1 || u.destCursor.offset + 1 == f.length.toNat
  | none => false

/-- One output byte accepted: placed at the destination cursor and held in the write buffer (R97, R99). The first byte of an empty
buffer sets `writeAddress`, which then stays until the next first byte: DESIGN CHOICE, log entry 21. -/
def PackUnit.accept (u : PackUnit) (b : Byte) : PackUnit :=
  match u.dest[u.destCursor.fragment]? with
  | some f =>
    { u with
      writeAddress := if u.writeBuffer.isEmpty then f.byteAddress u.destCursor.offset else u.writeAddress
      writeBuffer := u.writeBuffer ++ [b]
      accepted := u.accepted + 1
      destCursor := u.destCursor.advance u.dest 1 }
  | none => u

/-- A pack unit at work, with the bytes it has offered to its joined check unit's tap so far in this event (R98, R99). -/
structure PackStep where
  unit : PackUnit
  offered : List Byte
  deriving DecidableEq, Repr

/-- The bytes of a stretch of work offered to a tap (R98, R99). -/
def PackStep.offer (w : PackStep) (tap : Tap) (b : Byte) : PackStep :=
  match w.unit.joined with
  | some (_, t) => if t = tap then { w with offered := w.offered ++ [b] } else w
  | none => w

/-- One output byte accepted, and offered to an OUT tap. -/
def PackStep.accept (w : PackStep) (b : Byte) : PackStep :=
  PackStep.offer { w with unit := w.unit.accept b } .outTap b

/-- The byte at the front of the read-ahead taken, and offered to an IN tap (R98). -/
def PackStep.takeFront (w : PackStep) : PackStep :=
  match w.unit.readAhead with
  | [] => w
  | b :: bs => PackStep.offer { w with unit := { w.unit with readAhead := bs, taken := w.unit.taken + 1 } } .inTap b

/-- Bytes accepted one by one until the buffer must be written: the bytes left over, the work done, and whether a write is
due (R97: from the moment a write is requested the unit accepts no byte). -/
def acceptBytes : List Byte → PackStep → List Byte × PackStep × Bool
  | [], w => ([], w, false)
  | b :: bs, w => if w.unit.fillsBuffer then (bs, w.accept b, true) else acceptBytes bs (w.accept b)

/-- An item's output has all been accepted: its source byte is taken, and the working pack state goes on. -/
def PackStep.complete (w : PackStep) (it : OutItem) : PackStep :=
  let w' := if it.takes then w.takeFront else w
  match it.after with
  | some work => { w' with unit := { w'.unit with work := work } }
  | none => w'

/-- How a stretch of work stops: everything owed has been accepted, a write is due, or the destination has no room (R99,
R105). -/
inductive Drive where
  | drained | writeDue | noRoom
  deriving DecidableEq, Repr

/-- Owed output accepted, item by item; an item is begun only if the destination has room for all of it (R105). -/
def acceptItems : List OutItem → PackStep → PackStep × Drive
  | [], w => ({ w with unit := { w.unit with owed := [] } }, .drained)
  | it :: its, w =>
    if w.unit.room < it.bytes.length then (w, .noRoom)
    else
      match acceptBytes it.bytes w with
      | (b :: bs, w', _) => ({ w' with unit := { w'.unit with owed := { it with bytes := b :: bs } :: its } }, .writeDue)
      | ([], w', due) =>
        if due then
          let w'' := w'.complete it
          ({ w'' with unit := { w''.unit with owed := its } }, .writeDue)
        else acceptItems its (w'.complete it)

/-! ### The encoder (R104) -/

/-- Output being called for, and the working pack state after it. -/
structure Encoding where
  items : List OutItem
  work : PackWork
  deriving DecidableEq, Repr

/-- The literal group is emitted as a literal token if it is not empty. -/
def Encoding.emitGroup (e : Encoding) : Encoding :=
  if e.work.group.isEmpty then e
  else
    let work := { e.work with group := [] }
    { items := e.items ++ [{ bytes := literalToken e.work.group, takes := false, after := some work }], work := work }

/-- The run is emitted as a run token of `n` copies of its value. -/
def Encoding.emitRun (e : Encoding) (n : Nat) : Encoding :=
  let work := { e.work with runValue := 0, runCount := 0 }
  { items := e.items ++ [{ bytes := runToken n e.work.runValue, takes := false, after := some work }], work := work }

/-- One copy of a byte appended to the group, which is emitted when it reaches 128 bytes. -/
def Encoding.append (b : Byte) (e : Encoding) : Encoding :=
  let e' := { e with work := { e.work with group := e.work.group ++ [b] } }
  if e'.work.group.length = 128 then e'.emitGroup else e'

/-- A run of 1 or 2 dissolved into the group: its copies are appended (R104). -/
def Encoding.appendRun (e : Encoding) : Encoding :=
  let v := e.work.runValue
  let e' := { e with work := { e.work with runValue := 0, runCount := 0 } }
  match e.work.runCount with
  | 0 => e'
  | 1 => e'.append v
  | _ => (e'.append v).append v

/-- The output that taking byte `b` calls for, and the working pack state once it is taken (R104). -/
def encodeByte (work : PackWork) (b : Byte) : Encoding :=
  let e : Encoding := { items := [], work := work }
  let startRun (e : Encoding) : Encoding := { e with work := { e.work with runValue := b, runCount := 1 } }
  if work.runCount = 0 then startRun e
  else if b = work.runValue then
    if work.runCount < 130 then { e with work := { work with runCount := work.runCount + 1 } }
    else startRun (e.emitGroup.emitRun 130)
  else if 3 ≤ work.runCount then startRun (e.emitGroup.emitRun work.runCount)
  else startRun e.appendRun

/-- The output that the end of the source calls for (R104): for a non-END job the group, the run staying as the carry; for
an END job the run and the group. -/
def encodeEnd (work : PackWork) (endFlag : Bool) : Encoding :=
  let e : Encoding := { items := [], work := work }
  if !endFlag then e.emitGroup
  else if 3 ≤ work.runCount then e.emitGroup.emitRun work.runCount
  else e.appendRun.emitGroup

/-- The byte is taken when the last of the output it calls for has been accepted (R98): the last item takes it, or an item
without output does where it calls for none. -/
def takingAtEnd (work : PackWork) : List OutItem → List OutItem
  | [] => [{ bytes := [], takes := true, after := some work }]
  | [it] => [{ it with takes := true, after := some work }]
  | it :: its => it :: takingAtEnd work its

/-! ### What taking a byte calls for, in each mode -/

/-- In UNPACK mode (R106): a header calls for no output; a literal byte is itself the output; a run's value is taken with
its first copy, and its other copies follow one by one, after which the phase is HEADER. -/
def decodeByte (work : PackWork) (b : Byte) : List OutItem :=
  let toPhase (p : DecoderPhase) : Option PackWork := some { work with phase := p }
  match work.phase with
  | .header => [{ bytes := [], takes := true, after := toPhase (headerPhase b) }]
  | .literal r =>
    [{ bytes := [b], takes := true, after := toPhase (if r ≤ 1 then .header else .literal (r - 1)) }]
  | .runValue n =>
    { bytes := [b], takes := true, after := none } ::
      (List.replicate (n - 2) { bytes := [b], takes := false, after := none } ++
        [{ bytes := [b], takes := false, after := toPhase .header }])

/-- The output that taking byte `b` calls for (R100, R104, R106). -/
def PackUnit.callsFor (u : PackUnit) (b : Byte) : List OutItem :=
  match u.mode with
  | .pass => [{ bytes := [b], takes := true, after := none }]
  | .pack => let e := encodeByte u.work b; takingAtEnd e.work e.items
  | .unpack => decodeByte u.work b

/-- The output that the end of the source calls for (R104, R109). -/
def PackUnit.endCallsFor (u : PackUnit) : List OutItem :=
  match u.mode with
  | .pack => (encodeEnd u.work u.endFlag).items
  | .pass | .unpack => []

/-- Bytes taken from the front of the read-ahead, in source order, until it is empty or the work stops (R98). -/
def takeBytes : List Byte → PackStep → PackStep × Drive
  | [], w => (w, .drained)
  | b :: bs, w =>
    match acceptItems (w.unit.callsFor b) w with
    | (w', .drained) => takeBytes bs w'
    | r => r

/-! ### A unit's work up to its next transfer -/

/-- The write of the buffered bytes (R97). -/
def PackUnit.bufferWrite (u : PackUnit) : BurstRequest := writeOf u.writeAddress u.writeBuffer

/-- Output cannot be accepted (R110): the end condition is OUT_OVERRUN, the read-ahead, the literal group and the run are
dropped, and nothing more is taken or accepted. -/
def PackUnit.overrun (u : PackUnit) : PackUnit :=
  { u with
    ending := .outOverrun, readAhead := [], owed := []
    work := { u.work with group := [], runValue := 0, runCount := 0 } }

/-- The final write, if the buffer holds any bytes (R109, R110). -/
def PackUnit.lastWrite (u : PackUnit) : Option BurstRequest :=
  if u.writeBuffer.isEmpty then none else some u.bufferWrite

/-- The unit stops for a write or for want of room. -/
def PackStep.stopFor (w : PackStep) : Drive → PackStep × Option BurstRequest
  | .noRoom => ({ w with unit := w.unit.overrun }, w.unit.overrun.lastWrite)
  | .writeDue | .drained => (w, some w.unit.bufferWrite)

/-- The source is exhausted: the mode's finish is done, then the buffer is written, and then the run is DONE (R109). -/
def PackStep.finish (w : PackStep) : PackStep × Option BurstRequest :=
  let items := if w.unit.finishing then [] else w.unit.endCallsFor
  match acceptItems items { w with unit := { w.unit with finishing := true } } with
  | (w', .drained) =>
    match w'.unit.lastWrite with
    | some q => (w', some q)
    | none => ({ w' with unit := { w'.unit with ending := .done } }, none)
  | (w', d) => w'.stopFor d

/-- A PASS unit that must take a byte stops when no capacity remains, before it reads any (R100). In PACK and UNPACK it is
the byte that calls for output, or does not, so that those modes read it first: DEDUCED, log entry 8. -/
def PackUnit.stopsUnread (u : PackUnit) : Bool := u.mode == .pass && u.room == 0

/-- The unit works until it needs a transfer, which it answers, or its run is over: owed output first, then the bytes of the
read-ahead, then a read (R96), then the finish. -/
def PackUnit.advance (u : PackUnit) : PackStep × Option BurstRequest :=
  match acceptItems u.owed { unit := u, offered := [] } with
  | (w, .drained) =>
    match takeBytes w.unit.readAhead w with
    | (w', .drained) =>
      match readAt w'.unit.source w'.unit.sourceCursor with
      | some q => if w'.unit.stopsUnread then w'.stopFor .noRoom else (w', some q)
      | none => w'.finish
    | (w', d) => w'.stopFor d
  | (w, d) => w.stopFor d

/-- The run is over: it has an end condition and nothing is left to be written (R109 to R112). -/
def PackUnit.isOver (u : PackUnit) : Bool := u.ending != .none && u.writeBuffer.isEmpty

/-! ### Transfers of the unit that end (R96, R97, R110 to R112) -/

/-- A read ends with ready: its bytes are the read-ahead and the source cursor moves past them (R96). -/
def PackUnit.readEnds (u : PackUnit) (bytes : List Byte) : PackUnit :=
  { u with readAhead := bytes, sourceCursor := u.sourceCursor.advance u.source bytes.length }

/-- A write ends with ready: the written count rises and the buffer empties (R97). -/
def PackUnit.writeEnds (u : PackUnit) : PackUnit :=
  { u with written := u.written + u.writeBuffer.length, writeBuffer := [] }

/-- A read faults (R111): the read-ahead, the write buffer and the working pack state are dropped. -/
def PackUnit.readFaults (u : PackUnit) (why : Why) : PackUnit :=
  { u with
    ending := .busFault { place := .source, why := why }
    readAhead := [], writeBuffer := [], owed := [], work := PackWork.reset }

/-- A write faults (R112): BUS_FAULT at DEST, except at the final write of an OUT_OVERRUN stop, which stays OUT_OVERRUN
(R110); none of the write's bytes are counted. -/
def PackUnit.writeFaults (u : PackUnit) (why : Why) : PackUnit :=
  if u.ending = .outOverrun then { u with writeBuffer := [] }
  else
    { u with
      ending := .busFault { place := .dest, why := why }
      readAhead := [], writeBuffer := [], owed := [], work := PackWork.reset }

/-! ### Load, stop and release (R95, R113, R114) -/

/-- The unit at the start of a run (R95), with `writeAddress` 0: DESIGN CHOICE, log entry 21. -/
def PackUnit.load (mode : PackMode) (job : Job) (ctx : Context) (joined : Option (CheckId × Tap)) : PackUnit :=
  { condition := .running
    mode := mode
    endFlag := job.entry.isEnd
    source := job.source
    dest := job.dest
    sourceCursor := ⟨0, 0⟩
    destCursor := ⟨0, 0⟩
    readAhead := []
    writeBuffer := []
    writeAddress := 0
    taken := 0
    accepted := 0
    written := 0
    work :=
      { group := []
        runValue := match ctx.carry with
          | some k => k.value
          | none => 0
        runCount := match ctx.carry with
          | some k => k.count
          | none => 0
        phase := ctx.phase.getD .header }
    joined := joined
    ending := .none
    owed := []
    finishing := false }

/-- The encoder carry a unit returns (R104): value 0 with a count of 0. -/
def PackUnit.carry (u : PackUnit) : Carry :=
  { value := if u.work.runCount = 0 then 0 else u.work.runValue, count := u.work.runCount }

/-- The unit has stopped at an abort: its buffers and working pack state are dropped (R114). What a dropped item then holds is
its reset value: DESIGN CHOICE, log entry 19. -/
def PackUnit.stop (u : PackUnit) : PackUnit :=
  { u with condition := .stopped, readAhead := [], writeBuffer := [], owed := [], work := PackWork.reset }

/-- The unit released: IDLE and cleared (R113); its mode and END flag stay (DEDUCED, log entry 10). Its cursors, which R113 does
not name, go to fragment 0, offset 0, and a cleared item to its reset value: DESIGN CHOICE, log entry 19. -/
def PackUnit.release (u : PackUnit) : PackUnit :=
  { PackUnit.reset with mode := u.mode, endFlag := u.endFlag }

end Sys2Proof.Machine
end

