-- ==== Sys2Proof/Machine/Slots.lean ====
section
/-! DEFINITION. The stream context table (chapter 1): the stream commands, holds, wait lists, release, deferred close and
commit, with the slot checks a channel makes at its hold grant (section 2.5). -/

namespace Sys2Proof.Machine

/-! ### Handles (R6) -/

/-- The slot a valid handle names: the slot number is 0 to 31, the slot is not FREE and not closing, and the generations are
equal (R6). -/
def State.validHandle (s : State) (h : Half) : Option SlotId :=
  if hlt : handleSlot h < 32 then
    let sl := s.slot ⟨handleSlot h, hlt⟩
    if sl.ctx.state ≠ .free ∧ sl.closing = false ∧ sl.generation = handleGeneration h then
      some ⟨handleSlot h, hlt⟩
    else none
  else none

/-! ### Stream commands (section 1.3) -/

/-- A command completes: its result replaces the result register, with the unbound handle unless an OPEN gives one (R7). -/
def State.complete (result : StreamResult) (handle : Half) (s : State) : State :=
  { s with result := { result := result, handle := handle } }

/-- The generation after an OPEN: one more, and 1 after 255 (R5). -/
def nextGeneration (g : Byte) : Byte := if g = 255 then 1 else g + 1

/-- The slot an OPEN makes of a FREE one (R9); the tap is IN when there is no code. -/
def Slot.opened (sl : Slot) (op : Op) (kind : CodeKind) (tap : Tap) : Slot :=
  { sl with
    generation := nextGeneration sl.generation
    op := op
    kind := kind
    tap := if kind = .none then .inTap else tap
    ctx := Context.initial .ready op kind
    messages := 0 }

/-- The lowest-numbered FREE slot. -/
def State.lowestFree (s : State) : Option SlotId :=
  (List.finRange 32).find? fun i => (s.slot i).ctx.state == .free

/-- OPEN taken (R8, R9). -/
def State.takeOpen (s : State) : State :=
  match openArgument s.argument with
  | none => s.complete .badArgs Config.unboundHandle
  | some (op, kind, tap) =>
    match s.lowestFree with
    | none => s.complete .noSlot Config.unboundHandle
    | some i =>
      let sl := (s.slot i).opened op kind tap
      (s.setSlot i sl).complete .ok (makeHandle i sl.generation)

/-- A slot freed: FREE with the initial context, no holder, no waiters, not closing; the rest as the stream left it (R10,
R20). -/
def Slot.freed (sl : Slot) : Slot :=
  { sl with ctx := Context.initial .free sl.op sl.kind, holder := none, waiters := [], closing := false }

/-- CLOSE taken (R10, R11). -/
def State.takeClose (s : State) : State :=
  match s.validHandle (handleArgument s.argument) with
  | none => s.complete .badHandle Config.unboundHandle
  | some i =>
    if (s.slot i).holder = none then (s.setSlot i (s.slot i).freed).complete .ok Config.unboundHandle
    else (s.setSlot i { s.slot i with closing := true }).complete .deferred Config.unboundHandle

/-- REWIND taken (R12). -/
def State.takeRewind (s : State) : State :=
  match s.validHandle (handleArgument s.argument) with
  | none => s.complete .badHandle Config.unboundHandle
  | some i =>
    let sl := s.slot i
    if sl.holder = none then
      (s.setSlot i { sl with ctx := Context.initial .ready sl.op sl.kind }).complete .ok Config.unboundHandle
    else s.complete .busy Config.unboundHandle

/-- The phase and phase count of inspect 5 (R180): HEADER 0, LITERAL 1, RUN_VALUE 2; an absent phase reads as HEADER (R2). -/
def phaseShown : Option DecoderPhase → Nat × Nat
  | none => (0, 0)
  | some .header => (0, 0)
  | some (.literal r) => (1, r)
  | some (.runValue n) => (2, n)

/-- The pending value and count of inspect 5; an absent carry reads as 0 and 0 (R2). -/
def carryShown : Option Carry → Nat × Nat
  | none => (0, 0)
  | some k => (k.value.toNat, k.count)

/-- A channel's code where there is one (R178), and 0 where there is none. The spec states that 0 for a waiter position beyond
the wait list (R180) and for a free unit in the grant map (R182). For the holder field of inspect 1 without a holder (R13, R180)
and the current record channel of the writer status without a current record (R129, R182) it says only when they are
meaningful: there the 0 is DESIGN CHOICE, log entry 18. -/
def channelShown : Option ChannelId → Nat
  | none => 0
  | some c => c.val

/-- The snapshot of a slot, as the eight inspect registers show it (R13, R180). -/
def Slot.snapshot (i : SlotId) (sl : Slot) : Vector Word 8 :=
  let bits (w n : Nat) : BitVec w := BitVec.ofNat w n
  let flag (b : Bool) : BitVec 1 := BitVec.ofBool b
  #v[ 0#8 ++ sl.generation ++ 0#6 ++ bits 2 sl.ctx.state.code ++ 0#3 ++ bits 5 i.val,
      0#11 ++ flag sl.closing ++ 0#1 ++ flag sl.holder.isSome ++ bits 2 (channelShown sl.holder) ++ 0#3 ++
        bits 1 sl.tap.code ++ 0#2 ++ bits 2 sl.kind.code ++ bits 8 sl.op.code,
      0#18 ++ bits 2 (channelShown sl.waiters[2]?) ++ bits 2 (channelShown sl.waiters[1]?) ++
        bits 2 (channelShown sl.waiters[0]?) ++ 0#6 ++ bits 2 sl.waiters.length,
      sl.messages ++ sl.ctx.expected,
      sl.ctx.running.shown,
      bits 8 (phaseShown sl.ctx.phase).2 ++ 0#6 ++ bits 2 (phaseShown sl.ctx.phase).1 ++
        bits 8 (carryShown sl.ctx.carry).2 ++ bits 8 (carryShown sl.ctx.carry).1,
      sl.ctx.inTotal,
      sl.ctx.outTotal ]

/-- INSPECT taken (R13). -/
def State.takeInspect (s : State) : State :=
  match slotArgument s.argument with
  | none => s.complete .badArgs Config.unboundHandle
  | some i => { s with inspect := (s.slot i).snapshot i }.complete .ok Config.unboundHandle

/-- A write of the command register taken (R7, R180). -/
def State.takeStreamCommand (v : Word) (s : State) : State :=
  match v.toNat with
  | 1 => s.takeOpen
  | 2 => s.takeClose
  | 3 => s.takeRewind
  | 4 => s.takeInspect
  | _ => s.complete .badArgs Config.unboundHandle

/-! ### Slot checks (section 2.5) -/

/-- The first slot check (R37): op and code kind equal, and with a code the taps equal. -/
def Slot.kindMatches (sl : Slot) (e : JobEntry) : Bool :=
  e.op == some sl.op && e.kind == some sl.kind && (sl.kind == .none || e.tap == some sl.tap)

/-- The second slot check (R38). -/
def Slot.sequenceFits (sl : Slot) (e : JobEntry) : Bool :=
  match e.position, sl.ctx.state with
  | some .whole, .ready | some .head, .ready => e.segment == 0
  | some .body, .midway | some .tail, .midway => e.segment == sl.ctx.expected
  | _, _ => false

/-- The status with which a job fails the slot checks; none when it passes both (R37, R38). -/
def Slot.checkJob (sl : Slot) (e : JobEntry) : Option Status :=
  if sl.kindMatches e then if sl.sequenceFits e then none else some .seqGap
  else some .kindConflict

/-- A working context started from the copy of a slot's committed context, or from the initial context (R41). -/
def Working.start (ctx : Context) : Working :=
  { ctx := some ctx, status := none, inCount := 0, outCount := 0, fault := none, code := none }

/-- A channel that has been made the holder takes the copy of the slot's record and makes the slot checks at once: a pass
takes it to WAIT_UNITS, a failure to RETIRE, still holding the slot (R16, R39, R63, R64). -/
def State.takeHold (c : ChannelId) (sl : Slot) (s : State) : State :=
  match (s.channel c).job with
  | none => s
  | some j =>
    match sl.checkJob j.entry with
    | some status => s.endJob c status none
    | none =>
      s.setChannel c
        { s.channel c with state := .waitUnits, stage := none, work := some (Working.start sl.ctx) }

/-! ### Hold requests (section 1.4) -/

/-- A hold request taken (R15, R16, R17): refused, granted at once, or appended to the wait list. -/
def State.takeHoldRequest (c : ChannelId) (h : Half) (s : State) : State :=
  match s.validHandle h with
  | none => s.endJob c .badHandle none
  | some i =>
    let sl := s.slot i
    if sl.holder = none then (s.setSlot i { sl with holder := some c }).takeHold c sl
    else
      let s' := s.setSlot i { sl with waiters := sl.waiters ++ [c] }
      s'.setChannel c { s.channel c with state := .waitSlot, stage := none }

/-- A waiting channel is withdrawn from its slot's wait list; the other entries keep their order (R19). -/
def State.withdrawWaiter (c : ChannelId) (s : State) : State :=
  match s.waitedSlot c with
  | none => s
  | some i => s.setSlot i { s.slot i with waiters := (s.slot i).waiters.filter (· != c) }

/-! ### Commit and release (sections 1.4 and 1.5) -/

/-- What a retirement release of a completed job brings to its slot: position, segment and working context (section 1.5). -/
structure Commit where
  position : Position
  segment : Half
  ctx : Context
  deriving DecidableEq, Repr

/-- The segment after one: 1 after 65535 (R21, R33). -/
def nextSegment (n : Half) : Half := if n = 0xFFFF#16 then 1 else n + 1

/-- The commit of a completed job to its slot (R21 for HEAD and BODY, R22 for WHOLE and TAIL). -/
def Slot.commit (sl : Slot) (k : Commit) : Slot :=
  if k.position.isEnd then
    { sl with ctx := Context.initial .ready sl.op sl.kind, messages := sl.messages + 1 }
  else
    { sl with
      ctx :=
        { state := .midway
          expected := nextSegment k.segment
          running := k.ctx.running
          carry := if sl.op = .pack then k.ctx.carry else sl.ctx.carry
          phase := if sl.op = .unpack then k.ctx.phase else sl.ctx.phase
          inTotal := k.ctx.inTotal
          outTotal := k.ctx.outTotal } }

/-- Every waiter of a freed slot is refused BAD_HANDLE and goes to RETIRE holding nothing (R20, R64). -/
def State.refuseWaiters (ws : List ChannelId) (s : State) : State :=
  ws.foldl (fun s c => s.endJob c .badHandle none) s

/-- The slot, any commit made, passes on from its holder: a closing slot is freed, its waiters are refused and CLOSED is
raised (R20); otherwise the oldest waiter becomes the holder, or no one (R18). -/
def State.passOn (i : SlotId) (sl : Slot) (s : State) : State :=
  if sl.closing then
    State.raise .closed ((s.setSlot i sl.freed).refuseWaiters sl.waiters)
  else
    match sl.waiters with
    | [] => s.setSlot i { sl with holder := none }
    | w :: ws => (s.setSlot i { sl with holder := some w, waiters := ws }).takeHold w sl

/-- A channel lets its slot go, if it holds one: a retirement release when there is a commit, a plain release otherwise
(R18, R20, R21, R22, R45). -/
def State.release (c : ChannelId) (commit : Option Commit) (s : State) : State :=
  match s.heldSlot c with
  | none => s
  | some i =>
    match commit with
    | none => s.passOn i (s.slot i)
    | some k => s.passOn i ((s.slot i).commit k)

/-! ### The meanings of the stream commands and of the hold request -/

/-- OPEN (R8, R9). -/
def execOpen (s : State) : Host.Outcome State Fault Refusal :=
  .next (if s.live then s.takeOpen else s)

/-- CLOSE (R10, R11). -/
def execClose (s : State) : Host.Outcome State Fault Refusal :=
  .next (if s.live then s.takeClose else s)

/-- REWIND (R12). -/
def execRewind (s : State) : Host.Outcome State Fault Refusal :=
  .next (if s.live then s.takeRewind else s)

/-- INSPECT (R13). -/
def execInspect (s : State) : Host.Outcome State Fault Refusal :=
  .next (if s.live then s.takeInspect else s)

/-- UNKNOWN_STREAM_COMMAND (R7): a write to the command register. -/
def execUnknownStreamCommand (v : Word) (s : State) : Host.Outcome State Fault Refusal :=
  .next (if s.live then s.takeStreamCommand v else s)

/-- HOLD_REQUEST (R14 to R17, R63): the end of the fetch of a bound job. It arises only in a channel in FETCH that has made
every transfer and passed its checks. -/
def execHoldRequest (c : ChannelId) (s : State) : Host.Outcome State Fault Refusal :=
  .next
    (if s.live ∧ (s.channel c).state = .fetch ∧ (s.channel c).stage = some .holdRequest then
      match (s.channel c).job with
      | some j => s.takeHoldRequest c j.entry.handle
      | none => s
    else s)

end Sys2Proof.Machine
end

