-- ==== Sys2Proof/Machine/Units.lean ====
section
/-! DEFINITION. The unit arbiter (chapter 4) and the runs its grants begin: joins, evaluations, whole-set grants, the units
of a channel going on, the end of a run (sections 2.7 and 3.7), and an abort in RUN. -/

namespace Sys2Proof.Machine

/-! ### The grant map (R79, R80, R83) -/

/-- The pack unit granted to a channel. -/
def State.packOf (s : State) (c : ChannelId) : Option PackId :=
  (List.finRange 2).find? fun p => s.arbiter.packs.get p == some c

/-- The check unit granted to a channel. -/
def State.checkOf (s : State) (c : ChannelId) : Option CheckId :=
  (List.finRange 3).find? fun k => s.arbiter.checks.get k == some c

/-- The lowest-numbered free pack unit (R83). -/
def State.freePack (s : State) : Option PackId :=
  (List.finRange 2).find? fun p => (s.arbiter.packs.get p).isNone

/-- The lowest-numbered free check unit (R83). -/
def State.freeCheck (s : State) : Option CheckId :=
  (List.finRange 3).find? fun k => (s.arbiter.checks.get k).isNone

/-- The free units include one of every kind needed (R82). -/
def State.meets (s : State) (n : Need) : Bool :=
  (!n.pack || s.freePack.isSome) && (!n.check || s.freeCheck.isSome)

/-! ### Units going on (sections 5.2 to 5.8, 6.5) -/

/-- Bytes a pack unit offers reach its joined check unit (R98, R99, R120). -/
def State.offerTo (joined : Option (CheckId × Tap)) (bytes : List Byte) (s : State) : State :=
  match joined with
  | some (k, _) => s.setCheck k ((s.check k).offered bytes)
  | none => s

/-- A pack unit works until its next transfer, which it asks the port for, or until its run is over. -/
def State.drivePack (p : PackId) (s : State) : State :=
  match (s.pack p).advance with
  | (w, q) =>
    let s' := (s.setPack p w.unit).offerTo w.unit.joined w.offered
    match q with
    | some q => s'.want (.pk p) q
    | none => s'

/-- The check unit of a CHECK job asks for its next read, or its run is over. -/
def State.driveCheck (k : CheckId) (s : State) : State :=
  match (s.check k).advance with
  | (u, some q) => (s.setCheck k u).want (.ck k) q
  | (u, none) => s.setCheck k u

/-! ### Grants (R83, R84) -/

/-- The mode a pack unit takes from the job's op (R40). -/
def JobEntry.mode (e : JobEntry) : PackMode :=
  match e.op with
  | some .pack => .pack
  | some .unpack => .unpack
  | _ => .pass

/-- The granted units load their part of the job and begin their part of the run (R84, R95, R119). -/
def State.loadUnits (job : Job) (ctx : Context) (p : Option PackId) (k : Option CheckId) (s : State) : State :=
  let s := match k with
    | some k => s.setCheck k (CheckUnit.load job ctx p)
    | none => s
  match p with
  | some p =>
    (s.setPack p (PackUnit.load job.entry.mode job ctx (k.map fun k => (k, job.entry.tap.getD .inTap)))).drivePack p
  | none =>
    match k with
    | some k => s.driveCheck k
    | none => s

/-- The grant map with these units recorded against a channel (R82). -/
def Arbiter.granting (a : Arbiter) (c : ChannelId) (p : Option PackId) (k : Option CheckId) : Arbiter :=
  { waiting := a.waiting.set c none
    pointer := c
    packs := match p with
      | some p => a.packs.set p (some c)
      | none => a.packs
    checks := match k with
      | some k => a.checks.set k (some c)
      | none => a.checks }

/-- A whole-set grant (R82, R83): one unit of each kind needed is recorded against the channel, which leaves the waiting
set for RUN, and the rotation pointer moves to it. -/
def State.grant (c : ChannelId) (n : Need) (s : State) : State :=
  let p := if n.pack then s.freePack else none
  let k := if n.check then s.freeCheck else none
  let ch := s.channel c
  let s' := { s with arbiter := s.arbiter.granting c p k }.setChannel c { ch with state := .run }
  match ch.job, ch.work with
  | some job, some ⟨some ctx, _, _, _, _, _⟩ => s'.loadUnits job ctx p k
  | _, _ => s'

/-- One waiting channel examined (R82). -/
def State.examine (s : State) (c : ChannelId) : State :=
  match s.arbiter.waiting.get c with
  | some n => if s.meets n then s.grant c n else s
  | none => s

/-- The scan of an evaluation (R82): the waiting channels in rotation order. -/
def State.scan (s : State) : State := (rotationAfter s.arbiter.pointer).foldl State.examine s

/-! ### The end of a run (R43, R44, R66, R85, R113, R124) -/

/-- The channel's run is over. -/
def State.runIsOver (c : ChannelId) (s : State) : Bool :=
  (s.channel c).state == .run &&
    match s.packOf c with
    | some p => (s.pack p).isOver
    | none =>
      match s.checkOf c with
      | some k => (s.check k).ending != .none
      | none => false

/-- The units of a channel become free and idle (R85, R86). -/
def State.releaseUnits (c : ChannelId) (s : State) : State :=
  let s' := match s.packOf c with
    | some p =>
      { s with arbiter := { s.arbiter with packs := s.arbiter.packs.set p none } }.setPack p (s.pack p).release
    | none => s
  match s.checkOf c with
  | some k =>
    { s' with arbiter := { s'.arbiter with checks := s'.arbiter.checks.set k none } }.setCheck k (s.check k).release
  | none => s'

/-- The status of a run that ended DONE (R43, R125). -/
def doneStatus (e : JobEntry) (code : Option Word) (phase : Option DecoderPhase) : Status :=
  if !e.isEnd then .ok
  else if e.verify && code != some e.expectedCode then .mismatch
  else if e.op == some .unpack && phase != some .header then .truncated
  else .ok

/-- What the units of a run hand to the channel at its end (R113, R124). -/
structure RunEnd where
  ending : EndCondition
  inCount : Nat
  outCount : Nat
  running : RunningCode
  carry : Option Carry
  phase : Option DecoderPhase
  code : Option Word
  deriving DecidableEq, Repr

/-- The units' results for a channel whose context at the start of the run was `ctx`. -/
def State.runEnd (c : ChannelId) (ctx : Context) (s : State) : RunEnd :=
  let ending := match s.packOf c with
    | some p => (s.pack p).ending
    | none => match s.checkOf c with
      | some k => (s.check k).ending
      | none => .none
  let checkUnit := (s.checkOf c).map fun k => (s.check k).runEnds ending
  let running := match checkUnit with
    | some u => u.running
    | none => ctx.running
  let code := checkUnit.bind CheckUnit.finalCode
  match s.packOf c with
  | some p =>
    let u := s.pack p
    { ending := ending, inCount := u.taken, outCount := u.written, running := running
      carry := if u.mode = .pack then some u.carry else ctx.carry
      phase := if u.mode = .unpack then some u.work.phase else ctx.phase
      code := code }
  | none =>
    { ending := ending
      inCount := match checkUnit with
        | some u => u.taken
        | none => 0
      outCount := 0, running := running, carry := ctx.carry, phase := ctx.phase, code := code }

/-- The working context a channel keeps from the end of a run to its retirement (R43, R44, R66, R113). -/
def RunEnd.working (r : RunEnd) (e : JobEntry) (ctx : Context) : Working :=
  { ctx := some
      { ctx with
        running := r.running
        carry := r.carry
        phase := r.phase
        inTotal := ctx.inTotal + BitVec.ofNat 32 r.inCount
        outTotal := ctx.outTotal + BitVec.ofNat 32 r.outCount }
    status := match r.ending with
      | .done => some (doneStatus e r.code r.phase)
      | .outOverrun => some .outOverrun
      | .busFault _ => some .busFault
      | .none => none
    inCount := r.inCount
    outCount := r.outCount
    fault := match r.ending with
      | .busFault d => some d
      | _ => none
    code := r.code }

/-- A run's end at its channel: the channel keeps the working context and enters RETIRE, and its units become free (R66,
R85). The evaluation that follows is not part of it. -/
def State.finishRun (c : ChannelId) (s : State) : State :=
  let ch := s.channel c
  match ch.job, ch.work with
  | some job, some ⟨some ctx, _, _, _, _, _⟩ =>
    (s.setChannel c
      { ch with
        state := .retire, recordWritten := false
        work := some ((s.runEnd c ctx).working job.entry ctx) }).releaseUnits c
  | _, _ => s

/-! ### Evaluations (R82) -/

/-- An evaluation. A job with no byte to move ends its run at its grant (R40, R109, R123), and the release of its units is
evaluated in turn (R85). Each level of evaluation but the first comes of a channel granted in the level before, so four
waiting channels need at most five levels: `evaluate 5` is the whole of it. -/
def State.evaluate : Nat → State → State
  | 0, s => s
  | n + 1, s =>
    let waiting := (rotationAfter s.arbiter.pointer).filter fun c => (s.arbiter.waiting.get c).isSome
    waiting.foldl (fun t c => if t.runIsOver c then State.evaluate n (t.finishRun c) else t) s.scan

/-- The whole evaluation of a join or a release. -/
def State.reevaluate (s : State) : State := s.evaluate 5

/-- After a unit of a channel has gone on: if the run is over, its end and the release of its units (R66, R85). -/
def State.settleRun (c : ChannelId) (s : State) : State :=
  if s.runIsOver c then (s.finishRun c).reevaluate else s

/-! ### An abort in RUN (R73, R86, R114, R127) -/

/-- The channel's units make no new transfer: one whose burst is in progress becomes STOPPING, any other withdraws its
request and stops at once. -/
def State.stopUnits (c : ChannelId) (s : State) : State :=
  let s' := match s.packOf c with
    | some p =>
      if s.onBus (.pk p) then s.setPack p { s.pack p with condition := .stopping }
      else (s.withdraw (.pk p)).setPack p (s.pack p).stop
    | none => s
  match s.checkOf c with
  | some k =>
    if s.onBus (.ck k) then s'.setCheck k { s.check k with condition := .stopping }
    else (s'.withdraw (.ck k)).setCheck k (s.check k).stop
  | none => s'

/-- Every unit of the channel's set has stopped. -/
def State.unitsStopped (c : ChannelId) (s : State) : Bool :=
  (match s.packOf c with
    | some p => (s.pack p).condition == .stopped
    | none => true) &&
  (match s.checkOf c with
    | some k => (s.check k).condition == .stopped
    | none => true)

/-- The abort of a run takes effect: the units are released and the UA evaluates, the slot is let go by a plain release, and
the channel halts or is reset (R73, R76, R86). -/
def State.abortRun (kind : AbortKind) (c : ChannelId) (s : State) : State :=
  (((s.releaseUnits c).reevaluate).release c none).abortTakesEffect kind c

/-- A unit that was STOPPING has stopped: the abort takes effect once every unit of the set has (R73). A channel holds units
in RUN alone. -/
def State.unitStopped (c : ChannelId) (s : State) : State :=
  match (s.channel c).abortPending with
  | some kind => if (s.channel c).state = .run ∧ s.unitsStopped c then s.abortRun kind c else s
  | none => s

/-! ### The meaning of a join -/

/-- A channel that has entered WAIT_UNITS joins the waiting set with its needed set, and the UA evaluates at once (R81). -/
def State.join (c : ChannelId) (n : Need) (s : State) : State :=
  { s with arbiter := { s.arbiter with waiting := s.arbiter.waiting.set c (some n) } }.reevaluate

/-- UNIT_JOIN (R81). It arises only in a channel that has entered WAIT_UNITS and has not joined yet. -/
def execUnitJoin (c : ChannelId) (s : State) : Host.Outcome State Fault Refusal :=
  .next
    (if s.live ∧ (s.channel c).state = .waitUnits ∧ (s.arbiter.waiting.get c).isNone then
      match (s.channel c).job with
      | some j => s.join c j.entry.need
      | none => s
    else s)

end Sys2Proof.Machine
end

