-- ==== Sys2Proof/Machine/Channels.lean ====
section
/-! DEFINITION. The job channels (chapter 3): settings and counts, the channel commands, the fetch, retirement, abort and
channel RESET. -/

namespace Sys2Proof.Machine

/-! ### Settings and counts (R53, R55) -/

/-- The ring may be configured: the channel is OFF with POST equal to DONE (R53). -/
def Channel.configurable (ch : Channel) : Bool := ch.state == .off && ch.post == ch.done

/-- A write of the job ring base (R53). -/
def State.takeJobRingBase (c : ChannelId) (v : Word) (s : State) : State :=
  if (s.channel c).configurable then s.setChannel c { s.channel c with ringBase := ringBaseTaken v }
  else s.refuse (Reg.jobRingBase c).offset .notOff

/-- A write of the job ring size (R53). -/
def State.takeJobRingSize (c : ChannelId) (v : Word) (s : State) : State :=
  if (s.channel c).configurable then s.setChannel c { s.channel c with ringSize := ringSizeTaken 4 1024 v.toNat }
  else s.refuse (Reg.jobRingSize c).offset .notOff

/-- The bounds on a new POST (R55): the ring does not overfill, and POST does not fall behind FETCH. -/
def Channel.acceptsPost (ch : Channel) (new : Half) : Bool :=
  decide ((new - ch.done).toNat ≤ ch.ringSize) && decide ((ch.fetch - ch.done).toNat ≤ (new - ch.done).toNat)

/-- A fetch begins in an IDLE channel with POST not equal to FETCH (R55, R57, R59). -/
def State.fetchIfPosted (c : ChannelId) (s : State) : State :=
  if (s.channel c).state = .idle ∧ (s.channel c).post ≠ (s.channel c).fetch then s.beginFetch c else s

/-- A write of POST (R55, R178). -/
def State.takePost (c : ChannelId) (v : Word) (s : State) : State :=
  let new : Half := v.extractLsb' 0 16
  if (s.channel c).acceptsPost new then (s.setChannel c { s.channel c with post := new }).fetchIfPosted c
  else s.refuse (Reg.post c).offset .postRange

/-! ### START and STOP (R57, R58) -/

/-- START taken (R57). -/
def State.takeStart (c : ChannelId) (s : State) : State :=
  match (s.channel c).state with
  | .off | .halted => (s.setChannel c { s.channel c with state := .idle, haltCause := .none }).fetchIfPosted c
  | _ => s

/-- STOP taken (R58); ignored while a channel RESET is pending (R76). -/
def State.takeStop (c : ChannelId) (s : State) : State :=
  let ch := s.channel c
  match ch.state with
  | .idle => s.setChannel c { ch with state := .off, stopRequest := false }
  | .off | .halted => s
  | .fetch | .waitSlot | .waitUnits | .run | .retire =>
    if ch.abortPending = some .reset then s else s.setChannel c { ch with stopRequest := true }

/-! ### ABORT and channel RESET (R70 to R74, R76) -/

/-- The abort or reset waits for a transfer or a record write (R50, abort pending). -/
def State.setAbortPending (kind : AbortKind) (c : ChannelId) (s : State) : State :=
  s.setChannel c { s.channel c with abortPending := some kind }

/-- A channel in WAIT_UNITS leaves the waiting set, without an evaluation (R87). -/
def State.leaveWaitingSet (c : ChannelId) (s : State) : State :=
  { s with arbiter := { s.arbiter with waiting := s.arbiter.waiting.set c none } }

/-- An ABORT or RESET taken in a channel with none pending, state by state (R70 to R74, R76). -/
def State.disposeOf (kind : AbortKind) (c : ChannelId) (s : State) : State :=
  match (s.channel c).state with
  | .off | .halted =>
    match kind with
    | .abort => s
    | .reset => s.clearChannel c
  | .idle => s.abortTakesEffect kind c
  | .fetch =>
    if s.onBus (.ch c) then s.setAbortPending kind c else (s.withdraw (.ch c)).abortTakesEffect kind c
  | .waitSlot => (s.withdrawWaiter c).abortTakesEffect kind c
  | .waitUnits => ((s.leaveWaitingSet c).release c none).abortTakesEffect kind c
  | .run =>
    let s' := s.stopUnits c
    if s'.unitsStopped c then s'.abortRun kind c else s'.setAbortPending kind c
  | .retire =>
    if s.recordBegun c then s.setAbortPending kind c
    else ((s.withdrawRecord c).release c none).abortTakesEffect kind c

/-- ABORT taken: ignored while one is pending (R70). -/
def State.takeAbort (c : ChannelId) (s : State) : State :=
  match (s.channel c).abortPending with
  | some _ => s
  | none => s.disposeOf .abort c

/-- Channel RESET taken: a pending ABORT turns into RESET, a pending RESET stays (R76). -/
def State.takeReset (c : ChannelId) (s : State) : State :=
  match (s.channel c).abortPending with
  | some _ => s.setAbortPending .reset c
  | none => s.disposeOf .reset c

/-! ### The channel control register (R178, R181) -/

/-- Bit 8 of a channel control write: halt-on-error. -/
def State.setHaltOnError (c : ChannelId) (b : Bool) (s : State) : State :=
  s.setChannel c { s.channel c with haltOnError := b }

/-- A channel control write taken: the setting first, then the command, if exactly one command position is set (R178,
R181). -/
def State.takeChannelControl (c : ChannelId) (v : Word) (s : State) : State :=
  let s' := s.setHaltOnError c (v.getLsbD 8)
  match (v.extractLsb' 0 4).toNat with
  | 1 => s'.takeStart c
  | 2 => s'.takeStop c
  | 4 => s'.takeAbort c
  | 8 => s'.takeReset c
  | _ => s'

/-! ### The fetch (R59 to R63) -/

/-- The next burst of a fragment table of `count` entries, of which some bytes have been read (R60). -/
def tableRead (table : Word) (count : Nat) (got : List Byte) : BurstRequest :=
  let a := table + BitVec.ofNat 32 got.length
  { address := a, length := min (toBlockEnd a) (8 * count - got.length), write := false, data := [] }

/-- A channel in FETCH comes to a stage. -/
def State.setStage (c : ChannelId) (stage : FetchStage) (s : State) : State :=
  s.setChannel c { s.channel c with stage := some stage }

/-- Both tables are read: the seventh static check (R35), and then the end of the fetch: the hold request of a bound job is
due, and an unbound job's channel is in WAIT_UNITS (R63). -/
def State.completeFetch (c : ChannelId) (j : Job) (s : State) : State :=
  if (j.source ++ j.dest).all Fragment.isValid then
    if j.entry.isBound then s.setStage c .holdRequest
    else
      match j.entry.op, j.entry.kind with
      | some op, some kind =>
        s.setChannel c
          { s.channel c with
            state := .waitUnits, stage := none, work := some (Working.start (Context.initial .ready op kind)) }
      | _, _ => s
  else s.endJob c .badJob none

/-- The destination table's turn, if it has entries (R35, R60). -/
def State.fetchDest (c : ChannelId) (j : Job) (s : State) : State :=
  if j.entry.destCount = 0 then s.completeFetch c j
  else (s.setStage c (.destTable [])).want (.ch c) (tableRead j.entry.destTable j.entry.destCount.toNat [])

/-- The job entry has been read: the six entry checks (R34), then the source table's turn, if it has entries (R35, R60,
R62). -/
def State.entryRead (c : ChannelId) (e : JobEntry) (s : State) : State :=
  let j : Job := { entry := e, source := [], dest := [] }
  let s' := s.setChannel c { s.channel c with job := some j }
  if !e.passesChecks then s'.endJob c .badJob none
  else if e.sourceCount = 0 then s'.fetchDest c j
  else (s'.setStage c (.sourceTable [])).want (.ch c) (tableRead e.sourceTable e.sourceCount.toNat [])

/-- More bytes of the source table have been read. -/
def State.sourceTableRead (c : ChannelId) (j : Job) (got : List Byte) (s : State) : State :=
  let n := j.entry.sourceCount.toNat
  if got.length < 8 * n then
    (s.setStage c (.sourceTable got)).want (.ch c) (tableRead j.entry.sourceTable n got)
  else
    let j' := { j with source := fragmentsOf n got }
    (s.setChannel c { s.channel c with job := some j' }).fetchDest c j'

/-- More bytes of the destination table have been read. -/
def State.destTableRead (c : ChannelId) (j : Job) (got : List Byte) (s : State) : State :=
  let n := j.entry.destCount.toNat
  if got.length < 8 * n then
    (s.setStage c (.destTable got)).want (.ch c) (tableRead j.entry.destTable n got)
  else
    let j' := { j with dest := fragmentsOf n got }
    (s.setChannel c { s.channel c with job := some j' }).completeFetch c j'

/-- A transfer of a channel's fetch ends with ready (R60); with an abort pending its data is dropped and the abort takes
effect (R71). A channel makes transfers in FETCH alone. -/
def State.fetchReadEnds (c : ChannelId) (bytes : List Byte) (s : State) : State :=
  if (s.channel c).state = .fetch then
    match (s.channel c).abortPending with
    | some kind => s.abortTakesEffect kind c
    | none =>
      match (s.channel c).stage, (s.channel c).job with
      | some .entry, _ => s.entryRead c (JobEntry.ofBytes bytes)
      | some (.sourceTable got), some j => s.sourceTableRead c j (got ++ bytes)
      | some (.destTable got), some j => s.destTableRead c j (got ++ bytes)
      | _, _ => s
  else s

/-- A transfer of a channel's fetch faults: a fetch fault at the job entry (R61), BUS_FAULT at a fragment table (R35); with
an abort pending neither, and the abort takes effect (R71). -/
def State.fetchReadFaults (c : ChannelId) (why : Why) (s : State) : State :=
  if (s.channel c).state = .fetch then
    match (s.channel c).abortPending with
    | some kind => s.abortTakesEffect kind c
    | none =>
      match (s.channel c).stage with
      | some .entry => State.halt c .fetchFault (s.setChannel c { s.channel c with fetch := (s.channel c).done })
      | some (.sourceTable _) | some (.destTable _) => s.endJob c .busFault (some { place := .fragTable, why := why })
      | _ => s
  else s

/-! ### Retirement (R68, R69) -/

/-- What a retirement release commits: nothing unless the status is a completed one (R45, R68). -/
def Channel.commitOf (ch : Channel) : Option Commit :=
  match ch.job, ch.work with
  | some j, some w =>
    match w.status, j.entry.position, w.ctx with
    | some status, some position, some ctx =>
      if status.isCompleted then some { position := position, segment := j.entry.segment, ctx := ctx } else none
    | _, _, _ => none
  | _, _ => none

/-- The status of the job in flight, once it has one. -/
def Channel.status (ch : Channel) : Option Status :=
  match ch.work with
  | some w => w.status
  | none => none

/-- The next state after a retirement (R69), the job's status given. -/
def State.chooseNext (c : ChannelId) (status : Option Status) (s : State) : State :=
  let ch := s.channel c
  match ch.abortPending with
  | some .abort => s.halt c .aborted
  | some .reset => s.clearChannel c
  | none =>
    if ch.haltOnError ∧ status ≠ some .ok then s.halt c .jobError
    else if ch.stopRequest then s.setChannel c { ch with state := .off, stopRequest := false, leavings := s.leaving c }
    else if ch.post ≠ ch.fetch then s.beginFetch c
    else s.setChannel c { ch with state := .idle, leavings := s.leaving c }

/-- A channel retires its job (R68): release, with the commit of a completed job; DONE; the job discarded; the next
state. -/
def State.retire (c : ChannelId) (s : State) : State :=
  let ch := s.channel c
  let s' := s.release c ch.commitOf
  (s'.setChannel c
    { s'.channel c with done := ch.done + 1, job := none, work := none, recordWritten := false }).chooseNext c ch.status

/-! ### Meanings -/

/-- START (R57, R181). -/
def execStart (c : ChannelId) (haltOnError : Bool) (s : State) : Host.Outcome State Fault Refusal :=
  .next (if s.live then (s.setHaltOnError c haltOnError).takeStart c else s)

/-- STOP (R58, R181). -/
def execStop (c : ChannelId) (haltOnError : Bool) (s : State) : Host.Outcome State Fault Refusal :=
  .next (if s.live then (s.setHaltOnError c haltOnError).takeStop c else s)

/-- ABORT (R70 to R74, R181). -/
def execAbort (c : ChannelId) (haltOnError : Bool) (s : State) : Host.Outcome State Fault Refusal :=
  .next (if s.live then (s.setHaltOnError c haltOnError).takeAbort c else s)

/-- CHANNEL_RESET (R76, R77, R181). -/
def execChannelReset (c : ChannelId) (haltOnError : Bool) (s : State) : Host.Outcome State Fault Refusal :=
  .next (if s.live then (s.setHaltOnError c haltOnError).takeReset c else s)

/-- HALT_ON_ERROR (R181): a channel control write. -/
def execHaltOnError (c : ChannelId) (v : Word) (s : State) : Host.Outcome State Fault Refusal :=
  .next (if s.live then s.takeChannelControl c v else s)

/-- JOB_RING_BASE_WRITE (R53). -/
def execJobRingBaseWrite (c : ChannelId) (v : Word) (s : State) : Host.Outcome State Fault Refusal :=
  .next (if s.live then s.takeJobRingBase c v else s)

/-- JOB_RING_SIZE_WRITE (R53). -/
def execJobRingSizeWrite (c : ChannelId) (v : Word) (s : State) : Host.Outcome State Fault Refusal :=
  .next (if s.live then s.takeJobRingSize c v else s)

/-- POST_WRITE (R55). -/
def execPostWrite (c : ChannelId) (v : Word) (s : State) : Host.Outcome State Fault Refusal :=
  .next (if s.live then s.takePost c v else s)

/-- RETIREMENT (R68, R69). It arises only in a channel in RETIRE that the writer has told that its record is written. -/
def execRetirement (c : ChannelId) (s : State) : Host.Outcome State Fault Refusal :=
  .next (if s.live ∧ (s.channel c).state = .retire ∧ (s.channel c).recordWritten then s.retire c else s)

/-- RECORD_WITHDRAWAL (R74, R143, R145): a channel with an abort pending whose record write has faulted is withdrawn from
the requesting set, and its abort takes effect as for a record not begun. -/
def execRecordWithdrawal (c : ChannelId) (s : State) : Host.Outcome State Fault Refusal :=
  .next
    (if s.live ∧ (s.channel c).state = .retire ∧ s.writer.requesting.get c ∧ s.recordBegun c = false then
      match (s.channel c).abortPending with
      | some kind => ((s.withdrawRecord c).release c none).abortTakesEffect kind c
      | none => s
    else s)

end Sys2Proof.Machine
end

