-- ==== Sys2Proof/Machine/Port.lean ====
section
/-! DEFINITION. The initiator port (sections 9.2 to 9.4): requests, the choice at a bus grant, data phases, the three ends of
a burst and what each owner does at them, and the bus clock period. -/

namespace Sys2Proof.Machine

/-! ### Reset values taken by the whole part (R158, R159, R176) -/

/-- Every block at its reset values but for the initiator timeout; host memory and the waiting commands stay (R158). -/
def State.takeResetValues (timeout : Nat) (s : State) : State :=
  { State.reset with
    biu := { Biu.reset with timeout := timeout }
    hostMem := s.hostMem, freeIndex := s.freeIndex, pending := s.pending }

/-- The pending period of a device reset ends (R158): the initiator timeout is kept. -/
def State.completeDeviceReset (s : State) : State := s.takeResetValues s.biu.timeout

/-! ### What owners do at the end of a burst (R171, R172, R174) -/

/-- A pack unit's transfer ends with ready (R96, R97), or a STOPPING unit stops (R114). -/
def State.packTransferEnds (p : PackId) (q : BurstRequest) (bytes : List Byte) (s : State) : State :=
  match s.arbiter.packs.get p with
  | none => s
  | some c =>
    let u := s.pack p
    if u.condition = .stopping then (s.setPack p u.stop).unitStopped c
    else if q.write then
      if u.ending = .outOverrun then (s.setPack p u.writeEnds).settleRun c
      else ((s.setPack p u.writeEnds).drivePack p).settleRun c
    else ((s.setPack p (u.readEnds bytes)).drivePack p).settleRun c

/-- A pack unit's transfer faults (R111, R112), or a STOPPING unit stops, its fault setting nothing (R114). -/
def State.packTransferFaults (p : PackId) (q : BurstRequest) (why : Why) (s : State) : State :=
  match s.arbiter.packs.get p with
  | none => s
  | some c =>
    let u := s.pack p
    if u.condition = .stopping then (s.setPack p u.stop).unitStopped c
    else if q.write then (s.setPack p (u.writeFaults why)).settleRun c
    else (s.setPack p (u.readFaults why)).settleRun c

/-- A check unit's read ends with ready (R122), or a STOPPING unit stops (R127). -/
def State.checkReadEnds (k : CheckId) (bytes : List Byte) (s : State) : State :=
  match s.arbiter.checks.get k with
  | none => s
  | some c =>
    let u := s.check k
    if u.condition = .stopping then (s.setCheck k u.stop).unitStopped c
    else ((s.setCheck k (u.readEnds bytes)).driveCheck k).settleRun c

/-- A check unit's read faults (R123), or a STOPPING unit stops (R127). -/
def State.checkReadFaults (k : CheckId) (why : Why) (s : State) : State :=
  match s.arbiter.checks.get k with
  | none => s
  | some c =>
    let u := s.check k
    if u.condition = .stopping then (s.setCheck k u.stop).unitStopped c
    else (s.setCheck k (u.readFaults why)).settleRun c

/-- The owner is told that its transfer ended with ready, with the bytes of a read (R171). -/
def State.tellReady (b : Burst) (bytes : List Byte) (s : State) : State :=
  match b.owner with
  | .ch c => s.fetchReadEnds c bytes
  | .pk p => s.packTransferEnds p b.request bytes
  | .ck k => s.checkReadEnds k bytes
  | .cw => s.recordWriteEnds

/-- The owner is told that its transfer ended with error or timeout (R172, R174). -/
def State.tellFault (b : Burst) (why : Why) (s : State) : State :=
  match b.owner with
  | .ch c => s.fetchReadFaults c why
  | .pk p => s.packTransferFaults p b.request why
  | .ck k => s.checkReadFaults k why
  | .cw => s.recordWriteFaults

/-! ### Bursts -/

/-- The bus lines are released: no burst is in progress (R171, R172). -/
def State.releaseBus (s : State) : State := { s with biu := { s.biu with burst := none } }

/-- The last initiator fault registers replaced together (R174). -/
def State.recordFault (b : Burst) (why : Why) (s : State) : State :=
  { s with
    biu := { s.biu with
      lastFault :=
        { owner := b.owner.position, write := b.request.write, why := some why, address := b.request.firstWord } } }

/-- A burst ends with ready (R171). In the pending period of a device reset its owner is told nothing and the period ends
(R156, R158). -/
def State.burstReady (b : Burst) (bytes : List Byte) (s : State) : State :=
  if s.idc.resetPending then s.releaseBus.completeDeviceReset else s.releaseBus.tellReady b bytes

/-- A burst ends with error or timeout (R172, R174). Of a write's word in whose data phase it ended, the target may or may
not have taken the bytes. -/
def State.burstFaults (b : Burst) (why : Why) (s : State) : State :=
  let s' := if b.request.write then s.memoryMayTake (b.request.cells b.phasesEnded) else s
  if s'.idc.resetPending then s'.releaseBus.completeDeviceReset
  else (s'.releaseBus.recordFault b why).tellFault b why

/-- Ready on a data phase (R171): the word is transferred. On the last data phase the burst ends; on any other the next
data phase follows and the timeout count starts again (R173). The address phase is then over (log entry 23). A ready that
belongs to no burst of the part is ignored (R174). -/
def State.phaseReady (data : Word) (s : State) : State :=
  match s.biu.burst with
  | none => s
  | some b =>
    let s' := if b.request.write then s.memoryTakes (b.request.cells b.phasesEnded) else s
    let got := if b.request.write then b.got else b.got ++ b.request.take b.phasesEnded data
    if b.phasesEnded + 1 < b.request.words then
      { s' with
        biu := { s'.biu with
          burst := some { b with phasesEnded := b.phasesEnded + 1, got := got, periods := 0, addressPhase := false } } }
    else s'.burstReady b got

/-- The bus error line on a data phase (R172); one that belongs to no burst of the part is ignored (R174). -/
def State.phaseError (s : State) : State :=
  match s.biu.burst with
  | none => s
  | some b => s.burstFaults b .error

/-- The initiator timeout expires on a data phase (R174). With a setting of 0 at the address phase it never does (R173). -/
def State.phaseTimeout (s : State) : State :=
  match s.biu.burst with
  | none => s
  | some b => if b.timeout = 0 then s else s.burstFaults b .timeout

/-- The position chosen at a bus grant (R169). -/
def Biu.choice (b : Biu) : Option (Fin 10) := (positionsFrom b.pointer).find? fun i => (b.requests.get i).isSome

/-- The burst of a request, at its address phase (R169, R170, R173). -/
def Burst.start (owner : Requester) (q : BurstRequest) (timeout : Nat) : Burst :=
  { owner := owner, request := q, phasesEnded := 0, got := [], timeout := timeout, periods := 0, addressPhase := true }

/-- A bus grant (R169): with no burst in progress, the chosen request leaves the set, its burst is in progress, and the
pointer moves past it; with an empty set the grant is left unused. -/
def State.takeGrant (s : State) : State :=
  match s.biu.burst with
  | some _ => s
  | none =>
    match s.biu.choice with
    | none => s
    | some i =>
      match s.biu.requests.get i with
      | none => s
      | some q =>
        { s with biu := { s.biu with
            requests := s.biu.requests.set i none
            pointer := i + 1
            burst := some (Burst.start (Requester.atPosition i) q s.biu.timeout) } }

/-- A burst request joins the request set (R168). -/
def State.joinPort (r : Requester) (s : State) : State :=
  match s.wantedBy r with
  | none => s
  | some q =>
    { s with biu := { s.biu with
        wanted := s.biu.wanted.set r.position none, requests := s.biu.requests.set r.position (some q) } }

/-- One period of the bus clock (R173): while a burst with a timeout setting is in progress, it is counted, and a data phase
that has not ended when the setting's number of periods has passed ends with timeout. The first period after the grant ends
the address phase and is the first of the count (DESIGN CHOICE, log entry 23). -/
def State.clockPeriod (s : State) : State :=
  match s.biu.burst with
  | none => s
  | some b =>
    if b.timeout = 0 then { s with biu := { s.biu with burst := some { b with addressPhase := false } } }
    else if b.periods + 1 < b.timeout then
      { s with biu := { s.biu with burst := some { b with periods := b.periods + 1, addressPhase := false } } }
    else s.burstFaults b .timeout

/-! ### Meanings -/

/-- BUS_GRANT (R169); a grant taken in the pending period of a device reset starts no burst (R176). -/
def execBusGrant (s : State) : Host.Outcome State Fault Refusal :=
  .next (if s.live then s.takeGrant else s)

/-- PORT_REQUEST (R168). -/
def execPortRequest (r : Requester) (s : State) : Host.Outcome State Fault Refusal :=
  .next (if s.live then s.joinPort r else s)

/-- DATA_PHASE_READY (R171). Which data phase it is, the burst says. -/
def execDataPhaseReady (data : Word) (s : State) : Host.Outcome State Fault Refusal :=
  .next (s.phaseReady data)

/-- BURST_ENDS_WITH_READY (R171). Which data phase it is, the burst says. -/
def execBurstEndsWithReady (data : Word) (s : State) : Host.Outcome State Fault Refusal :=
  .next (s.phaseReady data)

/-- BURST_ENDS_WITH_ERROR (R172). -/
def execBurstEndsWithError (s : State) : Host.Outcome State Fault Refusal :=
  .next s.phaseError

/-- BURST_ENDS_WITH_TIMEOUT (R174). -/
def execBurstEndsWithTimeout (s : State) : Host.Outcome State Fault Refusal :=
  .next s.phaseTimeout

end Sys2Proof.Machine
end

