-- ==== Sys2Proof/Machine/Device.lean ====
section
/-! DEFINITION. Interrupts and device control (chapter 8), the initiator timeout setting, and the register window (sections
9.1 and 10.1 to 10.5): the taking of every window write, the reading of every register, and the two resets. -/

namespace Sys2Proof.Machine

/-! ### The interrupt registers (R152, R153) -/

/-- A write of the interrupt status register: each position written as one becomes clear (R152). -/
def State.takeInterruptClear (v : Word) (s : State) : State :=
  { s with idc := { s.idc with status := s.idc.status &&& ~~~v } }

/-- A write of the interrupt enable register replaces the enable set; positions that name no status are ignored (R153). -/
def State.takeInterruptEnable (v : Word) (s : State) : State :=
  { s with idc := { s.idc with enable := v &&& interruptPositions } }

/-- A write of the initiator timeout (R173). -/
def State.takeTimeout (v : Word) (s : State) : State :=
  { s with biu := { s.biu with timeout := timeoutTaken v.toNat } }

/-! ### Device reset (R156, R158) -/

/-- The device reset command taken: every request the arbiter has not granted is withdrawn, and the pending period begins
(R156); it ends at once when no burst holds a grant (R158). -/
def State.takeDeviceReset (s : State) : State :=
  match s.biu.burst with
  | none => s.completeDeviceReset
  | some _ =>
    { s with
      biu := { s.biu with wanted := Vector.replicate 10 none, requests := Vector.replicate 10 none }
      idc := { s.idc with resetPending := true } }

/-- A write of the global control register: bit 0 names the reset command (R156, R179). -/
def State.takeGlobalControl (v : Word) (s : State) : State :=
  if v.getLsbD 0 then s.takeDeviceReset else s

/-! ### The reset pin (R159) -/

/-- The bytes of a burst's data phases from `i` on, `n` of them. -/
def BurstRequest.cellsFrom (q : BurstRequest) (i : Nat) : Nat → List (Word × Byte)
  | 0 => []
  | n + 1 => q.cells i ++ q.cellsFrom (i + 1) n

/-- A burst abandoned where it stands (R159): of a write, the words not yet transferred may be held by host memory in all,
in part or not at all. -/
def State.abandonBurst (s : State) : State :=
  match s.biu.burst with
  | none => s
  | some b =>
    if b.request.write then
      s.memoryMayTake (b.request.cellsFrom b.phasesEnded (b.request.words - b.phasesEnded))
    else s

/-- The reset pin asserted (R159): every block at its reset values at once, a timeout of 0, the pin held. -/
def State.assertPin (s : State) : State :=
  { s.abandonBurst.takeResetValues 0 with pinAsserted := true }

/-- The reset pin released (R159). -/
def State.releasePin (s : State) : State := { s with pinAsserted := false }

/-! ### Window writes (R161 to R165) -/

/-- The offset of the word that a window address names: the address modulo 512, and of a narrow or unaligned access its
word's (R161, R166). -/
def windowWord (address : Word) : Nat := 4 * (address.toNat % 512 / 4)

/-- A full-width access: all four lanes of a word-aligned offset (R162; at any other address DEDUCED, log entry 11). -/
def isFullWidth (address : Word) (lanes : BitVec 4) : Bool := lanes == 0xF#4 && address.toNat % 4 == 0

/-- The owner of a register takes or refuses a full-width write (R165, check 4); read-only registers never come here. -/
def State.ownerTakes (r : Reg) (v : Word) (s : State) : State :=
  match r with
  | .globalControl => s.takeGlobalControl v
  | .interruptStatus => s.takeInterruptClear v
  | .interruptEnable => s.takeInterruptEnable v
  | .initiatorTimeout => s.takeTimeout v
  | .writerControl => s.takeWriterControl v
  | .completionRingBase => s.takeCompletionBase v
  | .completionRingSize => s.takeCompletionSize v
  | .head => s.takeHead v
  | .threshold => s.takeThreshold v
  | .argument => { s with argument := v }
  | .command => s.takeStreamCommand v
  | .channelControl c => s.takeChannelControl c v
  | .jobRingBase c => s.takeJobRingBase c v
  | .jobRingSize c => s.takeJobRingSize c v
  | .post c => s.takePost c v
  | .identification | .globalStatus | .lastAccessError | .lastFault | .lastFaultAddress | .writerStatus | .tail
  | .result | .inspect _ | .channelStatus _ | .fetch _ | .done _ | .grantMap | .rotationPointer => s

/-- A window write judged (R165): NARROW, then UNMAPPED, then READ_ONLY, then the owner's own rule. -/
def State.windowWrite (address : Word) (lanes : BitVec 4) (v : Word) (s : State) : State :=
  let offset := windowWord address
  if !isFullWidth address lanes then s.refuse offset .narrow
  else
    match Reg.ofOffset offset with
    | none => s.refuse offset .unmapped
    | some r => if r.isReadOnly then s.refuse offset .readOnly else s.ownerTakes r v

/-! ### Window reads (R155, R157, R161 to R164, R177 to R182) -/

/-- A number in a register's field of `w` bits. -/
def bits (w n : Nat) : BitVec w := BitVec.ofNat w n

/-- The global status register (R155, R179). -/
def State.globalStatus (s : State) : Word :=
  bits 1 (if s.idc.resetPending then 1 else 0) ++ 0#13 ++ bits 2 s.writer.state.code ++
    bits 4 (s.channel 3).state.code ++ bits 4 (s.channel 2).state.code ++ bits 4 (s.channel 1).state.code ++
    bits 4 (s.channel 0).state.code

/-- A unit's four bits of the grant map (R182): a granted bit and the channel. -/
def grantBits (g : Option ChannelId) : BitVec 4 := 0#1 ++ BitVec.ofBool g.isSome ++ bits 2 (channelShown g)

/-- The unit grant map register (R92, R182). -/
def Arbiter.grantMap (a : Arbiter) : Word :=
  0#12 ++ grantBits (a.checks.get 2) ++ grantBits (a.checks.get 1) ++ grantBits (a.checks.get 0) ++
    grantBits (a.packs.get 1) ++ grantBits (a.packs.get 0)

/-- The writer status register (R129, R182). Without a current record bits 8 and 9 are not meaningful, and read 0: DESIGN CHOICE,
log entry 18. -/
def Writer.statusWord (w : Writer) : Word :=
  0#21 ++ BitVec.ofBool w.current.isSome ++ bits 2 (channelShown (w.current.map Record.channel)) ++ 0#2 ++
    bits 2 w.serving.val ++ 0#1 ++ BitVec.ofBool w.disablePending ++ bits 2 w.state.code

/-- A channel status register (R50, R181). -/
def Channel.statusWord (ch : Channel) : Word :=
  0#22 ++ bits 2 (abortPendingCode ch.abortPending) ++ 0#1 ++ BitVec.ofBool ch.stopRequest ++
    bits 2 ch.haltCause.code ++ bits 4 ch.state.code

/-- The last initiator fault register (R174, R179). -/
def InitiatorFault.word (f : InitiatorFault) : Word :=
  0#22 ++ bits 2 (whyCode f.why) ++ 0#3 ++ BitVec.ofBool f.write ++ bits 4 f.owner.val

/-- What a register reads outside the pending period of a device reset (R177 to R182). -/
def State.readRegister (s : State) : Reg → Word
  | .identification => Config.identification
  | .globalStatus => s.globalStatus
  | .globalControl | .writerControl | .command => 0
  | .interruptStatus => s.idc.status
  | .interruptEnable => s.idc.enable
  | .initiatorTimeout => BitVec.ofNat 32 s.biu.timeout
  | .lastAccessError => 0#13 ++ bits 3 s.biu.accessError.reason.code ++ 0#7 ++ s.biu.accessError.offset
  | .lastFault => s.biu.lastFault.word
  | .lastFaultAddress => s.biu.lastFault.address
  | .writerStatus => s.writer.statusWord
  | .completionRingBase => s.writer.ringBase
  | .completionRingSize => BitVec.ofNat 32 s.writer.ringSize
  | .tail => s.writer.tail.zeroExtend 32
  | .head => s.writer.head.zeroExtend 32
  | .threshold => BitVec.ofNat 32 s.writer.threshold
  | .argument => s.argument
  | .result => s.result.handle ++ 0#12 ++ bits 4 s.result.result.code
  | .inspect i => s.inspect.get i
  | .channelControl c => if (s.channel c).haltOnError then 0x100#32 else 0
  | .channelStatus c => (s.channel c).statusWord
  | .jobRingBase c => (s.channel c).ringBase
  | .jobRingSize c => BitVec.ofNat 32 (s.channel c).ringSize
  | .post c => (s.channel c).post.zeroExtend 32
  | .fetch c => (s.channel c).fetch.zeroExtend 32
  | .done c => (s.channel c).done.zeroExtend 32
  | .grantMap => s.arbiter.grantMap
  | .rotationPointer => BitVec.ofNat 32 s.arbiter.pointer.val

/-- The word at an offset of the window (R157, R163): in the pending period of a device reset the identification and the
global status alone are shown, the latter as 0x80000000 (R179). -/
def State.readOffset (s : State) (offset : Nat) : Word :=
  match Reg.ofOffset offset with
  | none => 0
  | some r =>
    if s.idc.resetPending then
      match r with
      | .identification => Config.identification
      | .globalStatus => 0x80000000#32
      | _ => 0
    else s.readRegister r

/-- The byte lanes as a mask of the word. -/
def laneMask (lanes : BitVec 4) : Word :=
  let lane (i : Nat) : Byte := if lanes.getLsbD i then 0xFF else 0
  lane 3 ++ lane 2 ++ lane 1 ++ lane 0

/-- A window read (R161 to R163): lanes not enabled read 0; the part does not answer while the reset pin is asserted
(R159). It changes nothing. -/
def State.windowRead (s : State) (address : Word) (lanes : BitVec 4) : Option Word :=
  if s.pinAsserted then none else some (s.readOffset (windowWord address) &&& laneMask lanes)

/-! ### Meanings -/

/-- INTERRUPT_STATUS_WRITE (R152). -/
def execInterruptStatusWrite (v : Word) (s : State) : Host.Outcome State Fault Refusal :=
  .next (if s.live then s.takeInterruptClear v else s)

/-- INTERRUPT_ENABLE_WRITE (R153). -/
def execInterruptEnableWrite (v : Word) (s : State) : Host.Outcome State Fault Refusal :=
  .next (if s.live then s.takeInterruptEnable v else s)

/-- INITIATOR_TIMEOUT_WRITE (R173). -/
def execInitiatorTimeoutWrite (v : Word) (s : State) : Host.Outcome State Fault Refusal :=
  .next (if s.live then s.takeTimeout v else s)

/-- DEVICE_RESET (R156, R158). -/
def execDeviceReset (s : State) : Host.Outcome State Fault Refusal :=
  .next (if s.live then s.takeDeviceReset else s)

/-- REGISTER_WRITE (R165): any window write. -/
def execRegisterWrite (address : Word) (lanes : BitVec 4) (v : Word) (s : State) :
    Host.Outcome State Fault Refusal :=
  .next (if s.live then s.windowWrite address lanes v else s)

/-- RESET_PIN_ASSERT (R159). -/
def execResetPinAssert (s : State) : Host.Outcome State Fault Refusal :=
  .next s.assertPin

/-- RESET_PIN_RELEASE (R159). -/
def execResetPinRelease (s : State) : Host.Outcome State Fault Refusal :=
  .next s.releasePin

end Sys2Proof.Machine
end

