-- ==== Sys2Proof/Machine/Dispatch.lean ====
section
/-! DEFINITION. One arm for each command: the one place where a command meets its meaning. -/

namespace Sys2Proof.Machine

def exec (i : Instr) (s : State) : Host.Outcome State Fault Refusal :=
  match i with
  -- stream commands (chapter 1)
  | .openStream => Sys2Proof.Machine.execOpen s
  | .closeStream => Sys2Proof.Machine.execClose s
  | .rewindStream => Sys2Proof.Machine.execRewind s
  | .inspectSlot => Sys2Proof.Machine.execInspect s
  | .unknownStreamCommand value => Sys2Proof.Machine.execUnknownStreamCommand value s
  -- channel commands, settings and counts (chapter 3)
  | .startChannel c hoe => Sys2Proof.Machine.execStart c hoe s
  | .stopChannel c hoe => Sys2Proof.Machine.execStop c hoe s
  | .abortChannel c hoe => Sys2Proof.Machine.execAbort c hoe s
  | .resetChannel c hoe => Sys2Proof.Machine.execChannelReset c hoe s
  | .haltOnError c value => Sys2Proof.Machine.execHaltOnError c value s
  | .jobRingBaseWrite c value => Sys2Proof.Machine.execJobRingBaseWrite c value s
  | .jobRingSizeWrite c value => Sys2Proof.Machine.execJobRingSizeWrite c value s
  | .postWrite c value => Sys2Proof.Machine.execPostWrite c value s
  -- the completion writer (chapter 7)
  | .enableWriter => Sys2Proof.Machine.execEnable s
  | .disableWriter => Sys2Proof.Machine.execDisable s
  | .restartWriter => Sys2Proof.Machine.execRestart s
  | .completionRingBaseWrite value => Sys2Proof.Machine.execCompletionRingBaseWrite value s
  | .completionRingSizeWrite value => Sys2Proof.Machine.execCompletionRingSizeWrite value s
  | .thresholdWrite value => Sys2Proof.Machine.execThresholdWrite value s
  | .headWrite value => Sys2Proof.Machine.execHeadWrite value s
  -- interrupts and device control (chapter 8), window writes (chapter 9)
  | .interruptStatusWrite value => Sys2Proof.Machine.execInterruptStatusWrite value s
  | .interruptEnableWrite value => Sys2Proof.Machine.execInterruptEnableWrite value s
  | .deviceReset => Sys2Proof.Machine.execDeviceReset s
  | .initiatorTimeoutWrite value => Sys2Proof.Machine.execInitiatorTimeoutWrite value s
  | .registerWrite address lanes value => Sys2Proof.Machine.execRegisterWrite address lanes value s
  | .resetPinAssert => Sys2Proof.Machine.execResetPinAssert s
  | .resetPinRelease => Sys2Proof.Machine.execResetPinRelease s
  -- the initiator port (chapter 9)
  | .busGrant => Sys2Proof.Machine.execBusGrant s
  | .portRequest r => Sys2Proof.Machine.execPortRequest r s
  | .dataPhaseReady data => Sys2Proof.Machine.execDataPhaseReady data s
  | .burstEndsWithReady data => Sys2Proof.Machine.execBurstEndsWithReady data s
  | .burstEndsWithError => Sys2Proof.Machine.execBurstEndsWithError s
  | .burstEndsWithTimeout => Sys2Proof.Machine.execBurstEndsWithTimeout s
  -- events between the blocks (chapters 1, 3, 4 and 7)
  | .holdRequest c => Sys2Proof.Machine.execHoldRequest c s
  | .unitJoin c => Sys2Proof.Machine.execUnitJoin c s
  | .recordRequest c => Sys2Proof.Machine.execRecordRequest c s
  | .retirement c => Sys2Proof.Machine.execRetirement c s
  | .recordWithdrawal c => Sys2Proof.Machine.execRecordWithdrawal c s
  | .groupLeave c => Sys2Proof.Machine.execGroupLeave c s

end Sys2Proof.Machine
end

