-- ==== Sys2Proof/Safety.lean ====
section
/-! DEFINITION. What the claims about the part are stated in: the invariants that every event keeps, and the spec's own
descriptions of the effects that several commands share (a refused write, a fetch begun, a channel halted, a record begun,
the reset values, the encoder's rule), written from the rules and not from the meanings. -/

namespace Sys2Proof.Machine

/-! ### Invariants -/

/-- A ring size of the job rings: a power of two from 4 to 1024 (R50). -/
def isJobRingSize (n : Nat) : Prop := n ∈ [4, 8, 16, 32, 64, 128, 256, 512, 1024]

/-- A ring size of the completion ring: a power of two from 8 to 4096 (R129). -/
def isCompletionRingSize (n : Nat) : Prop := n ∈ [8, 16, 32, 64, 128, 256, 512, 1024, 2048, 4096]

/-- A timeout setting: 0 or 16 to 4095 (R173). -/
def isTimeout (n : Nat) : Prop := n = 0 ∨ (16 ≤ n ∧ n ≤ 4095)

/-- Every setting and status register holds a value of its range (R50, R129, R150, R153, R166, R173). -/
structure State.SettingsLegal (s : State) : Prop where
  jobRingBase : ∀ c : ChannelId, (s.channel c).ringBase.toNat % 32 = 0
  jobRingSize : ∀ c : ChannelId, isJobRingSize (s.channel c).ringSize
  completionRingBase : s.writer.ringBase.toNat % 32 = 0
  completionRingSize : isCompletionRingSize s.writer.ringSize
  threshold : s.writer.threshold ≤ 255
  timeout : isTimeout s.biu.timeout
  burstTimeout : ∀ b, s.biu.burst = some b → isTimeout b.timeout
  interruptStatus : s.idc.status &&& ~~~interruptPositions = 0
  interruptEnable : s.idc.enable &&& ~~~interruptPositions = 0
  accessOffset : s.biu.accessError.offset.toNat % 4 = 0

/-- Host memory as the part's writes have left it is in its canonical form. -/
def State.MemoryCanonical (s : State) : Prop := Memory.wf s.hostMem = true

/-- The writer's counts and its states go together (R129, R130, R133, R137): a record is current exactly in WRITING, the ring
level never exceeds the ring size and is below it while a record is being written, and a DISABLE is pending only in
WRITING. -/
structure State.RingLevelKept (s : State) : Prop where
  current : s.writer.state = .writing ↔ s.writer.current.isSome
  level : s.writer.level ≤ s.writer.ringSize
  room : s.writer.state = .writing → s.writer.level < s.writer.ringSize
  pendingDisable : s.writer.disablePending = true → s.writer.state = .writing

/-- Where the channels wait: a channel stands in a wait list only in WAIT_SLOT, in one list and once (R17), and in the UA's
waiting set only in WAIT_UNITS (R80). -/
structure State.WaitsPlaced (s : State) : Prop where
  waiters : ∀ (i : SlotId) (c : ChannelId), c ∈ (s.slot i).waiters → (s.channel c).state = .waitSlot
  waitersOnce : ∀ i : SlotId, (s.slot i).waiters.Nodup
  waitersApart : ∀ (i j : SlotId) (c : ChannelId), c ∈ (s.slot i).waiters → c ∈ (s.slot j).waiters → i = j
  waiting : ∀ c : ChannelId, (s.arbiter.waiting.get c).isSome → (s.channel c).state = .waitUnits

/-- The counts of one channel (R54, R55): FETCH - DONE is 1 in the group FETCH through RETIRE and 0 elsewhere, and POST - DONE
is at least that and at most the ring size. -/
structure Channel.CountsKept (ch : Channel) : Prop where
  inFlight : ch.fetch - ch.done = if ch.state.inGroup then 1 else 0
  posted : (ch.fetch - ch.done).toNat ≤ (ch.post - ch.done).toNat
  ring : (ch.post - ch.done).toNat ≤ ch.ringSize

/-- The counts of every channel, where the channels wait, and ring sizes in their range. -/
structure State.CountsKept (s : State) : Prop where
  waits : s.WaitsPlaced
  size : ∀ c : ChannelId, isJobRingSize (s.channel c).ringSize
  counts : ∀ c : ChannelId, (s.channel c).CountsKept

/-- The states in which a channel may hold a slot (R51). -/
def ChannelState.mayHold : ChannelState → Bool
  | .waitUnits | .run | .retire => true
  | _ => false

/-- The stages of a fetch whose job entry has been read (R60). -/
def FetchStage.hasEntry : FetchStage → Bool
  | .entry => false
  | _ => true

/-- Who holds what (R4, R14, R17, R20, R51): a channel holds at most one slot, in WAIT_UNITS, RUN or RETIRE alone; a FREE slot
has no holder; a slot without a holder has no waiters and is not closing; a channel in the group past its entry read has a
job. -/
structure State.HoldsKept (s : State) : Prop where
  waits : s.WaitsPlaced
  holderState : ∀ (i : SlotId) (c : ChannelId), (s.slot i).holder = some c → (s.channel c).state.mayHold = true
  holdsOne : ∀ (i j : SlotId) (c : ChannelId), (s.slot i).holder = some c → (s.slot j).holder = some c → i = j
  freeUnheld : ∀ i : SlotId, (s.slot i).ctx.state = .free → (s.slot i).holder = none
  unheldQuiet : ∀ i : SlotId, (s.slot i).holder = none → (s.slot i).waiters = [] ∧ (s.slot i).closing = false
  jobInFlight : ∀ c : ChannelId,
    (s.channel c).state.mayHold = true ∨ (s.channel c).state = .waitSlot → (s.channel c).job.isSome
  jobInFetch : ∀ (c : ChannelId) (g : FetchStage),
    (s.channel c).state = .fetch → (s.channel c).stage = some g → g.hasEntry = true → (s.channel c).job.isSome

/-- Who has which unit (R79, R80): units are granted to channels in RUN alone, at most one of each kind to a channel, and no
channel of the waiting set has a needed set that the free units meet. -/
structure State.UnitsKept (s : State) : Prop where
  waits : s.WaitsPlaced
  packState : ∀ (p : PackId) (c : ChannelId), s.arbiter.packs.get p = some c → (s.channel c).state = .run
  checkState : ∀ (k : CheckId) (c : ChannelId), s.arbiter.checks.get k = some c → (s.channel c).state = .run
  packOnce : ∀ (p q : PackId) (c : ChannelId),
    s.arbiter.packs.get p = some c → s.arbiter.packs.get q = some c → p = q
  checkOnce : ∀ (k l : CheckId) (c : ChannelId),
    s.arbiter.checks.get k = some c → s.arbiter.checks.get l = some c → k = l
  noneMet : ∀ (c : ChannelId) (n : Need), s.arbiter.waiting.get c = some n →
    ¬ ((n.pack = true → ∃ p, s.arbiter.packs.get p = none) ∧ (n.check = true → ∃ k, s.arbiter.checks.get k = none))

/-- The output counts of the pack units (R97, R99, R113): what is written or waits in the write buffer has been accepted, and no
more is accepted than the destination holds. -/
def State.OutputKept (s : State) : Prop :=
  ∀ p : PackId, (s.pack p).written + (s.pack p).writeBuffer.length ≤ (s.pack p).accepted ∧
    (s.pack p).accepted ≤ totalLength (s.pack p).dest

/-! ### Effects that several commands share, as the spec gives them -/

namespace Spec

/-- A refused window write (R166, R167): the last access error holds the write's offset and the reason, and ACCESS_ERR,
position 4, is set. -/
def refused (offset : Nat) (why : AccessReason) (s : State) : State :=
  { s with
    biu := { s.biu with accessError := { offset := BitVec.ofNat 9 offset, reason := why } }
    idc := { s.idc with status := s.idc.status ||| 0x10#32 } }

/-- A stream command completed with this result and the unbound handle, nothing else changed (R7). -/
def completed (r : StreamResult) (s : State) : State := { s with result := { result := r, handle := 0xFFFF#16 } }

/-- The handle names a slot of the table, not FREE, not closing, of the handle's generation (R6). -/
def handleValid (s : State) (h : Half) (i : SlotId) : Prop :=
  (h.extractLsb' 0 8).toNat = i.val ∧ (s.slots.get i).ctx.state ≠ .free ∧ (s.slots.get i).closing = false ∧
    h.extractLsb' 8 8 = (s.slots.get i).generation

/-- The running code of the initial context (R3). -/
def startCode : CodeKind → RunningCode
  | .none => .none
  | .c32 => .c32 0xFFFFFFFF#32
  | .d32 => .d32 1 0

/-- The initial context of a slot in a state (R3): a carry of 0 and 0 for PACK alone, the phase HEADER for UNPACK alone. -/
def initial (st : SlotState) (op : Op) (kind : CodeKind) : Context :=
  { state := st
    expected := 0
    running := startCode kind
    carry := if op = .pack then some { value := 0, count := 0 } else none
    phase := if op = .unpack then some .header else none
    inTotal := 0
    outTotal := 0 }

/-- A fetch begun in a channel that stood as `ch` (R52, R59): FETCH, one more fetched, and one read of 32 bytes formed for the
ring entry of the count FETCH held. -/
def fetchBegun (c : ChannelId) (ch : Channel) (s : State) : State :=
  { s with
    channels := s.channels.set c
      { ch with
        state := .fetch, fetch := ch.fetch + 1, job := none, work := none, stage := some .entry
        recordWritten := false }
    biu := { s.biu with
      wanted := s.biu.wanted.set (Requester.ch c).position
        (some
          { address := ch.ringBase + BitVec.ofNat 32 (32 * (ch.fetch.toNat % ch.ringSize)), length := 32
            write := false, data := [] }) } }

/-- The leavings of the group that have yet to reach the writer, once a channel that stood as `ch` has gone to OFF, IDLE or
HALTED: one more if it was in the group, with whether the part has gone quiet at it, no other channel being in the group and
the ring level above 0 (R51, R147). The list is the model's own, log entry 3. -/
def leaves (c : ChannelId) (ch : Channel) (s : State) : List Bool :=
  match ch.state with
  | .fetch | .waitSlot | .waitUnits | .run | .retire =>
    ch.leavings ++
      [decide ((∀ d, d ≠ c → (s.channels.get d).state.inGroup = false) ∧ s.writer.tail ≠ s.writer.head)]
  | .off | .idle | .halted => ch.leavings

/-- The part once every leaving has reached the writer (R147): CQ_FLUSH, position 1, is set if one of them found the part
quiet. -/
def leavingsTaken (s : State) : State :=
  { s with
    channels := Vector.ofFn fun c => { s.channels.get c with leavings := [] }
    idc := { s.idc with
      status := if ∃ c, true ∈ (s.channels.get c).leavings then s.idc.status ||| 2#32 else s.idc.status } }

/-- A channel that stood as `ch` halted with a cause (R69, R75): no job, no stop request, nothing pending, and its HALT
status, position 8 + n, set. -/
def halted (c : ChannelId) (cause : HaltCause) (ch : Channel) (s : State) : State :=
  { s with
    channels := s.channels.set c
      { ch with
        state := .halted, haltCause := cause, stopRequest := false, abortPending := none, job := none, work := none
        stage := none, recordWritten := false, leavings := leaves c ch s }
    idc := { s.idc with status := s.idc.status ||| BitVec.ofNat 32 (2 ^ (8 + c.val)) } }

/-- A channel that stood as `ch` after channel RESET (R76): OFF, the counts 0, the settings kept. -/
def cleared (c : ChannelId) (ch : Channel) (s : State) : State :=
  { s with
    channels := s.channels.set c
      { ch with
        state := .off, post := 0, fetch := 0, done := 0, stopRequest := false, haltCause := .none
        abortPending := none, job := none, work := none, stage := none, recordWritten := false
        leavings := leaves c ch s } }

/-- An ABORT or channel RESET that takes effect in a channel that stood as `ch`, its work disposed of (R70 to R74, R76). -/
def abortDone (kind : AbortKind) (c : ChannelId) (ch : Channel) (s : State) : State :=
  match kind with
  | .abort => halted c .aborted { ch with fetch := ch.done } s
  | .reset => cleared c ch s

/-- A channel that stood as `ch` in RETIRE with a refused status and no run (R36, R62). -/
def endedBeforeRun (ch : Channel) (status : Status) (fault : Option FaultDetail) : Channel :=
  { ch with
    state := .retire, stage := none, recordWritten := false
    work := some { ctx := none, status := some status, inCount := 0, outCount := 0, fault := fault, code := none } }

/-- The next state of a channel that has retired a job with a status (R69); `ch` is the channel after DONE was incremented
and the job discarded. -/
def nextState (c : ChannelId) (status : Status) (ch : Channel) (s : State) : State :=
  match ch.abortPending with
  | some .abort => halted c .aborted ch s
  | some .reset => cleared c ch s
  | none =>
    if ch.haltOnError = true ∧ status ≠ .ok then halted c .jobError ch s
    else if ch.stopRequest = true then
      { s with channels := s.channels.set c { ch with state := .off, stopRequest := false, leavings := leaves c ch s } }
    else if ch.post ≠ ch.fetch then fetchBegun c ch s
    else { s with channels := s.channels.set c { ch with state := .idle, leavings := leaves c ch s } }

/-- The slot checks (R37, R38): none when the job passes both. -/
def slotChecks (sl : Slot) (e : JobEntry) : Option Status :=
  if ¬ (Op.ofByte e.opByte = some sl.op ∧ CodeKind.ofByte e.kindByte = some sl.kind ∧
      (sl.kind ≠ .none → Tap.ofByte e.tapByte = some sl.tap)) then some .kindConflict
  else
    match Position.ofByte e.positionByte, sl.ctx.state with
    | some .whole, .ready | some .head, .ready => if e.segment = 0 then none else some .seqGap
    | some .body, .midway | some .tail, .midway => if e.segment = sl.ctx.expected then none else some .seqGap
    | _, _ => some .seqGap

/-- A channel that stood as `ch` and has just been made the holder of a slot that stood as `sl` (R16, R39, R63). -/
def holding (ch : Channel) (sl : Slot) (e : JobEntry) : Channel :=
  match slotChecks sl e with
  | some status => endedBeforeRun ch status none
  | none =>
    { ch with
      state := .waitUnits, stage := none
      work := some
        { ctx := some sl.ctx, status := none, inCount := 0, outCount := 0, fault := none, code := none } }

/-- A slot that stood as `sl` after the commit of a completed job (R21 for HEAD and BODY, R22 for WHOLE and TAIL). -/
def committed (sl : Slot) (position : Position) (segment : Half) (ctx : Context) : Slot :=
  match position with
  | .whole | .tail => { sl with ctx := initial .ready sl.op sl.kind, messages := sl.messages + 1 }
  | .head | .body =>
    { sl with
      ctx :=
        { state := .midway
          expected := if segment = 65535 then 1 else segment + 1
          running := ctx.running
          carry := if sl.op = .pack then ctx.carry else sl.ctx.carry
          phase := if sl.op = .unpack then ctx.phase else sl.ctx.phase
          inTotal := ctx.inTotal
          outTotal := ctx.outTotal } }

/-- A slot that stood as `sl`, freed (R10, R20). -/
def freed (sl : Slot) : Slot :=
  { sl with ctx := initial .free sl.op sl.kind, holder := none, waiters := [], closing := false }

/-- The slot `i`, standing as `sl` with any commit made, let go by its holder (R18, R20): a closing slot is freed, its waiters
are refused BAD_HANDLE and CLOSED, position 3, is set; any other slot passes to its oldest waiter, which makes its slot checks,
or to no one. A waiter without a job stands in no wait list. -/
def letGo (i : SlotId) (sl : Slot) (s : State) : State :=
  if sl.closing = true then
    { s with
      slots := s.slots.set i (freed sl)
      channels := Vector.ofFn fun d =>
        if d ∈ sl.waiters then endedBeforeRun (s.channels.get d) .badHandle none else s.channels.get d
      idc := { s.idc with status := s.idc.status ||| 8#32 } }
  else
    match sl.waiters with
    | [] => { s with slots := s.slots.set i { sl with holder := none } }
    | w :: ws =>
      match (s.channels.get w).job with
      | some j =>
        { s with
          slots := s.slots.set i { sl with holder := some w, waiters := ws }
          channels := s.channels.set w (holding (s.channels.get w) sl j.entry) }
      | none => s

/-- The channel holds the slot and no other, it does not wait for it, and each waiter has a job (R14, R17). -/
def holdsAlone (c : ChannelId) (i : SlotId) (s : State) : Prop :=
  (s.slots.get i).holder = some c ∧ (∀ j : SlotId, (s.slots.get j).holder = some c → j = i) ∧
    c ∉ (s.slots.get i).waiters ∧ ∀ w ∈ (s.slots.get i).waiters, (s.channels.get w).job.isSome = true

/-- `t` is `s` after a plain release by a channel: its slot, if it holds one, let go with its context as it was (R18, R20). -/
def released (c : ChannelId) (s t : State) : Prop :=
  ((∀ i : SlotId, (s.slots.get i).holder ≠ some c) ∧ t = s) ∨
    ∃ i : SlotId, holdsAlone c i s ∧ t = letGo i (s.slots.get i) s

/-- The requester is a unit granted to the channel. -/
def unitOf (s : State) (c : ChannelId) : Requester → Prop
  | .pk p => s.arbiter.packs.get p = some c
  | .ck k => s.arbiter.checks.get k = some c
  | .ch _ | .cw => False

/-- A pack unit that has stopped at an abort: its buffers and working pack state dropped (R114). What a dropped item holds is the
model's choice, log entry 19. -/
def packStopped (u : PackUnit) : PackUnit :=
  { u with
    condition := .stopped, readAhead := [], writeBuffer := [], owed := []
    work := { group := [], runValue := 0, runCount := 0, phase := .header } }

/-- A check unit that has stopped at an abort: its running code, final code and source position dropped (R127). What a dropped
item holds is the model's choice, log entry 19. -/
def checkStopped (u : CheckUnit) : CheckUnit :=
  { u with condition := .stopped, running := .c32 0xFFFFFFFF#32, finalCode := none, sourceCursor := ⟨0, 0⟩ }

/-- `t` is `s` after an ABORT or channel RESET of a channel in RUN has taken effect (R73, R76, R86): the channel HALTED with
cause ABORTED and FETCH back at DONE, or OFF with its counts 0; its units free; its slot let go by a plain release; the writer
untouched. -/
def runAborted (kind : AbortKind) (c : ChannelId) (s t : State) : Prop :=
  (t.channels.get c).abortPending = none ∧ (t.channels.get c).job = none ∧ (t.channels.get c).work = none ∧
    (t.channels.get c).fetch = (t.channels.get c).done ∧
    (kind = .abort → (t.channels.get c).state = .halted ∧ (t.channels.get c).haltCause = .aborted ∧
      (t.channels.get c).done = (s.channels.get c).done ∧ t.idc.status.getLsbD (8 + c.val) = true) ∧
    (kind = .reset → (t.channels.get c).state = .off ∧ (t.channels.get c).haltCause = .none ∧
      (t.channels.get c).done = 0 ∧ (t.channels.get c).post = 0) ∧
    (∀ p, t.arbiter.packs.get p ≠ some c) ∧ (∀ k, t.arbiter.checks.get k ≠ some c) ∧
    (∃ s', released c s s' ∧ t.slots = s'.slots) ∧ t.writer = s.writer

/-- The record of a job at a writer count (R47, R48, R135). -/
def record (w : Writer) (c : ChannelId) (ch : Channel) (e : JobEntry) (k : Working) (status : Status) : Record :=
  { phase := (w.tail.toNat / w.ringSize) % 2 == 0
    channel := c
    ringPosition := ch.done
    tag := e.tag
    opByte := e.opByte
    positionByte := e.positionByte
    segment := e.segment
    status := status
    fault := k.fault
    inCount := k.inCount
    outCount := k.outCount
    code := if status = .ok ∨ status = .mismatch ∨ status = .truncated then k.code else none }

/-- A writer that stood as `w` and has begun a record of channel `c` (R134, R137): WRITING, the channel out of the requesting
set, the serving pointer at it, and one write of 32 bytes formed for the ring entry of count TAIL. -/
def recordBegun (w : Writer) (c : ChannelId) (r : Record) (s : State) : State :=
  { s with
    writer := { w with
      state := .writing, serving := c, requesting := w.requesting.set c false, current := some r }
    biu := { s.biu with
      wanted := s.biu.wanted.set Requester.cw.position
        (some
          { address := w.ringBase + BitVec.ofNat 32 (32 * (w.tail.toNat % w.ringSize)), length := r.bytes.length
            write := true, data := r.bytes }) } }

/-- The channel is the writer's choice (R137): it is in the requesting set, and no channel of the set comes before it in the
order that starts after the serving pointer. -/
def chosen (w : Writer) (c : ChannelId) : Prop :=
  w.requesting.get c = true ∧ ∀ d, w.requesting.get d = true → c - (w.serving + 1) ≤ d - (w.serving + 1)

/-- The channel's job, its working context and its status, from which its record is formed (R137). -/
def hasRecord (s : State) (c : ChannelId) (e : JobEntry) (k : Working) (status : Status) : Prop :=
  (∃ j, (s.channels.get c).job = some j ∧ j.entry = e) ∧ (s.channels.get c).work = some k ∧ k.status = some status

/-- Every block at the values that both resets put it to, the initiator timeout aside (R27, R78, R93, R115, R128, R149, R158,
R176). The model's own fields stand at values of its own: the lists, stages and marks of log entry 3 and the output of log entry 20
empty or unset, and `writeAddress` 0 by log entry 21. -/
structure AtResetValues (s : State) : Prop where
  slots : ∀ i : SlotId, s.slots.get i =
    { ctx :=
        { state := .free, expected := 0, running := .none, carry := none, phase := none, inTotal := 0, outTotal := 0 }
      generation := 0, op := .pass, kind := .none, tap := .inTap, messages := 0, holder := none, waiters := []
      closing := false }
  argument : s.argument = 0
  result : s.result = { result := .ok, handle := 0xFFFF#16 }
  inspect : ∀ i : Fin 8, s.inspect.get i = 0
  channels : ∀ c : ChannelId, s.channels.get c =
    { ringBase := 0, ringSize := 4, haltOnError := false, post := 0, fetch := 0, done := 0, state := .off
      haltCause := .none, stopRequest := false, abortPending := none, job := none, work := none, stage := none
      recordWritten := false, leavings := [] }
  waiting : ∀ c : ChannelId, s.arbiter.waiting.get c = none
  rotation : s.arbiter.pointer = 3
  packGrants : ∀ p : PackId, s.arbiter.packs.get p = none
  checkGrants : ∀ k : CheckId, s.arbiter.checks.get k = none
  packs : ∀ p : PackId, s.packs.get p =
    { condition := .idle, mode := .pass, endFlag := false, source := [], dest := [], sourceCursor := ⟨0, 0⟩
      destCursor := ⟨0, 0⟩, readAhead := [], writeBuffer := [], writeAddress := 0, taken := 0, accepted := 0
      written := 0, work := { group := [], runValue := 0, runCount := 0, phase := .header }, joined := none
      ending := .none, owed := [], finishing := false }
  checks : ∀ k : CheckId, s.checks.get k =
    { condition := .idle, kind := .c32, tap := .inTap, endFlag := false, running := .c32 0xFFFFFFFF#32, joined := none
      source := [], sourceCursor := ⟨0, 0⟩, taken := 0, ending := .none, finalCode := none }
  writer : s.writer =
    { state := .disabled, ringBase := 0, ringSize := 8, tail := 0, head := 0, threshold := 0, serving := 3
      requesting := #v[false, false, false, false], current := none, disablePending := false }
  idc : s.idc = { status := 0, enable := 0, resetPending := false }
  requests : ∀ i : Fin 10, s.biu.requests.get i = none
  wanted : ∀ i : Fin 10, s.biu.wanted.get i = none
  arbiterPointer : s.biu.pointer = 0
  burst : s.biu.burst = none
  accessError : s.biu.accessError = { offset := 0, reason := .none }
  lastFault : s.biu.lastFault = { owner := 0, write := false, why := none, address := 0 }

/-! ### The encoder's rule and the decoder's (R101 to R104, R106) -/

/-- The length of the run of equal bytes at the front of a sequence. -/
def runLength : List Byte → Nat
  | [] => 0
  | b :: bs => 1 + (bs.takeWhile (· == b)).length

/-- The literal token of a group, and no token for an empty one. -/
def groupTokens (group : List Byte) : List (List Byte) :=
  if group.isEmpty then [] else [BitVec.ofNat 8 (group.length - 1) :: group]

/-- The run token of `n` copies. -/
def runTokenOf (n : Nat) (b : Byte) : List Byte := [BitVec.ofNat 8 (n + 125), b]

/-- The encoder's rule (R102): the tokens of a combined sequence, and the encoder carry left over. `group` is the literal
group so far and the first argument bounds the steps: the length of the sequence is enough. -/
def encodeRule (endJob : Bool) : Nat → List Byte → List Byte → List (List Byte) × Carry
  | _, group, [] => (groupTokens group, { value := 0, count := 0 })
  | 0, group, _ :: _ => (groupTokens group, { value := 0, count := 0 })
  | fuel + 1, group, b :: bs =>
    let len := runLength (b :: bs)
    if endJob = false ∧ len = (b :: bs).length then
      let pieces := (len - 1) / 130
      (groupTokens group ++ List.replicate pieces (runTokenOf 130 b), { value := b, count := len - 130 * pieces })
    else if 3 ≤ len then
      let r := encodeRule endJob fuel [] ((b :: bs).drop (min len 130))
      (groupTokens group ++ runTokenOf (min len 130) b :: r.1, r.2)
    else if (group ++ [b]).length = 128 then
      let r := encodeRule endJob fuel [] bs
      (groupTokens (group ++ [b]) ++ r.1, r.2)
    else encodeRule endJob fuel (group ++ [b]) bs

/-- The combined sequence of a PACK job: the carried bytes, then the source (section 5.6.1). -/
def combined (carry : Carry) (source : List Byte) : List Byte := List.replicate carry.count carry.value ++ source

/-- A carry as a slot may hold it (R1, R102): at most 130 bytes, and value 0 when it holds none. -/
def carryLegal (carry : Carry) : Prop := carry.count ≤ 130 ∧ (carry.count = 0 → carry.value = 0)

/-- The tokens the unit's byte-by-byte working emits over a source, with the working pack state after it (R104). -/
def unitEncodes : PackWork → List Byte → List (List Byte) × PackWork
  | w, [] => ([], w)
  | w, b :: bs =>
    let e := encodeByte w b
    let r := unitEncodes e.work bs
    (e.items.map OutItem.bytes ++ r.1, r.2)

/-- The unit's whole encoding of a job: the tokens of the source bytes and of the end of the source, and the carry it
returns. -/
def unitEncoding (endJob : Bool) (carry : Carry) (source : List Byte) : List (List Byte) × Carry :=
  let r := unitEncodes { group := [], runValue := carry.value, runCount := carry.count, phase := .header } source
  let e := encodeEnd r.2 endJob
  (r.1 ++ e.items.map OutItem.bytes,
    { value := if e.work.runCount = 0 then 0 else e.work.runValue, count := e.work.runCount })

/-- The decoder over packed bytes (R106): the bytes put out and the phase reached. -/
def decodeRule : DecoderPhase → List Byte → List Byte × DecoderPhase
  | p, [] => ([], p)
  | .header, h :: bs =>
    decodeRule (if h.toNat < 128 then .literal (h.toNat + 1) else .runValue (h.toNat - 125)) bs
  | .literal r, b :: bs =>
    let d := decodeRule (if r ≤ 1 then .header else .literal (r - 1)) bs
    (b :: d.1, d.2)
  | .runValue n, b :: bs =>
    let d := decodeRule .header bs
    (List.replicate n b ++ d.1, d.2)

/-- The unit's decoder over packed bytes: the output each byte calls for, and the working state after it (R106). -/
def unitDecodes : PackWork → List Byte → List Byte × PackWork
  | w, [] => ([], w)
  | w, b :: bs =>
    let items := decodeByte w b
    let w' := ((items.filterMap OutItem.after).getLast?).getD w
    let r := unitDecodes w' bs
    ((items.map OutItem.bytes).flatten ++ r.1, r.2)

/-! ### A pack unit at work (R98 to R106) -/

/-- `n` copies of a byte appended to the literal group, which is emitted each time it reaches 128 bytes (R104): the tokens, and
the working pack state after them. -/
def appendCopies (v : Byte) : Nat → PackWork → List (List Byte) × PackWork
  | 0, w => ([], w)
  | n + 1, w =>
    if (w.group ++ [v]).length = 128 then
      let r := appendCopies v n { w with group := [] }
      (groupTokens (w.group ++ [v]) ++ r.1, r.2)
    else appendCopies v n { w with group := w.group ++ [v] }

/-- The five cases of R104 for a source byte: the tokens it calls for, and the working pack state once it is taken. -/
def encodes (w : PackWork) (b : Byte) : List (List Byte) × PackWork :=
  if w.runCount = 0 then ([], { w with runValue := b, runCount := 1 })
  else if b = w.runValue ∧ w.runCount < 130 then ([], { w with runCount := w.runCount + 1 })
  else if b = w.runValue ∨ 3 ≤ w.runCount then
    (groupTokens w.group ++ [runTokenOf w.runCount w.runValue], { w with group := [], runValue := b, runCount := 1 })
  else
    let r := appendCopies w.runValue w.runCount w
    (r.1, { r.2 with runValue := b, runCount := 1 })

/-- The tokens that the end of the source calls for in PACK (R104), and the run left as the carry. -/
def encodesEnd (endJob : Bool) (w : PackWork) : List (List Byte) × Carry :=
  if endJob = false then (groupTokens w.group, { value := if w.runCount = 0 then 0 else w.runValue, count := w.runCount })
  else if 3 ≤ w.runCount then (groupTokens w.group ++ [runTokenOf w.runCount w.runValue], { value := 0, count := 0 })
  else
    let r := appendCopies w.runValue w.runCount w
    (r.1 ++ groupTokens r.2.group, { value := 0, count := 0 })

/-- What taking a byte calls for in a mode (R100, R104, R106): the pieces of output, each accepted only as a whole, and the
working pack state once they are accepted. -/
def outputs (mode : PackMode) (w : PackWork) (b : Byte) : List (List Byte) × PackWork :=
  match mode, w.phase with
  | .pass, _ => ([[b]], w)
  | .pack, _ => encodes w b
  | .unpack, .header =>
    ([], { w with phase := if b.toNat < 128 then .literal (b.toNat + 1) else .runValue (b.toNat - 125) })
  | .unpack, .literal r => ([[b]], { w with phase := if r ≤ 1 then .header else .literal (r - 1) })
  | .unpack, .runValue n => (List.replicate n [b], { w with phase := .header })

/-- What taking several bytes calls for. -/
def outputsOf (mode : PackMode) : PackWork → List Byte → List (List Byte) × PackWork
  | w, [] => ([], w)
  | w, b :: bs =>
    let o := outputs mode w b
    let r := outputsOf mode o.2 bs
    (o.1 ++ r.1, r.2)

/-- A working pack state as a unit may hold it between bytes (R94, R104). -/
def workLegal (w : PackWork) : Prop :=
  w.group.length ≤ 127 ∧ w.runCount ≤ 130 ∧ ∀ n, w.phase = .runValue n → 3 ≤ n

/-- How many output bytes the write buffer takes until it reaches the end of its 32-byte block or of its destination fragment
(R97); 0 when the destination is full. -/
def bufferSpace (u : PackUnit) : Nat :=
  match u.dest[u.destCursor.fragment]? with
  | some f =>
    min (32 - (f.address + BitVec.ofNat 32 u.destCursor.offset).toNat % 32) (f.length.toNat - u.destCursor.offset)
  | none => 0

/-- The address of the destination cursor's place (R97). -/
def destAddress (u : PackUnit) : Word :=
  match u.dest[u.destCursor.fragment]? with
  | some f => f.address + BitVec.ofNat 32 u.destCursor.offset
  | none => 0

/-- The remaining destination capacity (R99). -/
def capacity (u : PackUnit) : Nat := totalLength u.dest - u.accepted

/-- A unit that has taken `n` source bytes and accepted some output, which leaves room in its write buffer (R97, R98, R99).
`writeAddress` is the model's own field, log entry 21. -/
def accepting (u : PackUnit) (n : Nat) (out : List Byte) : PackUnit :=
  { u with
    taken := u.taken + n
    accepted := u.accepted + out.length
    writeBuffer := u.writeBuffer ++ out
    writeAddress := if u.writeBuffer = [] ∧ out ≠ [] then destAddress u else u.writeAddress
    destCursor := { u.destCursor with offset := u.destCursor.offset + out.length } }

/-- A run as a stream carries it: no value with a count of 0 (R102, R104). -/
def runLeft (w : PackWork) : Carry := { value := if w.runCount = 0 then 0 else w.runValue, count := w.runCount }

/-- A working pack state with its run as a stream carries it: no rule reads the value of a run of 0. -/
def tidy (w : PackWork) : PackWork := { w with runValue := (runLeft w).value }

/-- How many source bytes are taken with the output that a unit owes: 1 when the byte at the front of its read-ahead called for
it (R98), else 0. -/
def owedTakes (u : PackUnit) : Nat := (u.owed.filter OutItem.takes).length

/-- The working pack state once the output that a unit owes is accepted. -/
def owedWork (u : PackUnit) : PackWork := u.owed.foldl (fun w it => it.after.getD w) u.work

/-- A unit as a write may leave it (R97, R98, R104, R105): it may still owe output that one byte, or the end of the source,
called for, in pieces none of which is empty. In UNPACK that is copies of a run value already taken; in PACK the byte is taken
with the last piece; once the end of the source has called for output no byte is left and the group has been called for.
`owed` and `finishing` are the model's own fields for what R97 holds back (log entry 20). -/
def owedLegal (u : PackUnit) : Prop :=
  (∀ it ∈ u.owed, it.bytes ≠ []) ∧ (∀ it ∈ u.owed.dropLast, it.takes = false) ∧
    (u.mode = .unpack → ∀ it ∈ u.owed, it.takes = false) ∧ owedTakes u ≤ u.readAhead.length ∧ workLegal (owedWork u) ∧
    (u.finishing = true → u.readAhead = [] ∧ (u.mode = .pack → (owedWork u).group = []))

/-- What the read-ahead calls for beyond the output owed, and the working pack state once all its bytes are taken. -/
def called (u : PackUnit) : List (List Byte) × PackWork := outputsOf u.mode (owedWork u) (u.readAhead.drop (owedTakes u))

/-- The source cursor stands at the end of the source (R96). -/
def atSourceEnd (u : PackUnit) : Bool := (u.source[u.sourceCursor.fragment]?).isNone

/-- The end-of-source emissions that have not been called for yet, and the carry after them (R104). -/
def finish (u : PackUnit) : List (List Byte) × Carry :=
  if u.mode = .pack ∧ u.finishing = false then encodesEnd u.endFlag (called u).2 else ([], runLeft (called u).2)

/-- The output that a unit puts out before its next read, in pieces: the output owed, what the rest of the read-ahead calls for,
and the end-of-source emissions when no read is left (R97, R98, R104, R109). -/
def pending (u : PackUnit) : List (List Byte) :=
  u.owed.map OutItem.bytes ++ (called u).1 ++ (if atSourceEnd u = true then (finish u).1 else [])

/-- The working pack state once the pending output is accepted. -/
def pendingWork (u : PackUnit) : PackWork :=
  if atSourceEnd u = true ∧ u.mode = .pack then
    { (called u).2 with group := [], runValue := (finish u).2.value, runCount := (finish u).2.count }
  else tidy (called u).2

/-- What is left of pieces of output when `n` bytes of them have been accepted. -/
def leftOf : Nat → List (List Byte) → List (List Byte)
  | _, [] => []
  | 0, ps => ps
  | n, p :: ps => if p.length ≤ n then leftOf (n - p.length) ps else p.drop n :: ps

/-- How many pieces of the pending output have been accepted once `k` bytes of the read-ahead are taken. -/
def pieceCount (u : PackUnit) (k : Nat) : Nat :=
  (if owedTakes u ≤ k then u.owed.length else 0) +
    (outputsOf u.mode (owedWork u) ((u.readAhead.drop (owedTakes u)).take (k - owedTakes u))).1.length

/-- The pending piece number `m`, counted from 0, is called for by the `k`th byte of the read-ahead; when `k` is 0, by a byte taken
before; and when it comes after all that the read-ahead calls for, by the end of the source, `k` being the length of the
read-ahead. -/
def pieceOfByte (u : PackUnit) (m k : Nat) : Prop :=
  k ≤ u.readAhead.length ∧ (∀ i < k, pieceCount u i ≤ m) ∧ (m < pieceCount u k ∨ k = u.readAhead.length)

/-- The cursor of the destination moved on `n` bytes within its block and fragment (R97): past the end of the fragment it stands
at offset 0 of the next. -/
def destMoved (u : PackUnit) (n : Nat) : Cursor :=
  match u.dest[u.destCursor.fragment]? with
  | some f =>
    if u.destCursor.offset + n = f.length.toNat then { fragment := u.destCursor.fragment + 1, offset := 0 }
    else { u.destCursor with offset := u.destCursor.offset + n }
  | none => u.destCursor

/-- The check units after a joined one was offered, through its tap, the bytes taken or the bytes accepted (R98, R99, R120). -/
def offered (checks : Vector CheckUnit 3) (joined : Option (CheckId × Tap)) (taken accepted : List Byte) :
    Vector CheckUnit 3 :=
  match joined with
  | none => checks
  | some (k, .inTap) => checks.set k { checks.get k with running := taken.foldl RunningCode.feed (checks.get k).running }
  | some (k, .outTap) =>
    checks.set k { checks.get k with running := accepted.foldl RunningCode.feed (checks.get k).running }

/-- A pack unit once a transfer of its has ended with ready: a read's bytes are its read-ahead and its source cursor moves past them
(R96); a write raises its written count and empties its buffer (R97). -/
def afterTransfer (u : PackUnit) (b : Burst) (data : Word) : PackUnit :=
  if b.request.write = true then { u with written := u.written + u.writeBuffer.length, writeBuffer := [] }
  else
    let bytes := b.got ++ b.request.take b.phasesEnded data
    { u with readAhead := bytes, sourceCursor := u.sourceCursor.advance u.source bytes.length }

/-- The write of a buffer (R97). -/
def writeFrom (a : Word) (bytes : List Byte) : BurstRequest :=
  { address := a, length := bytes.length, write := true, data := bytes }

/-- `t` is `s` after a channel's run has ended (R43, R44, R66, R85): the channel in RETIRE with the status, the counts, the fault
detail and the final code; its units free; slots and writer untouched. -/
def runEnded (c : ChannelId) (s t : State) (status : Status) (inCount outCount : Nat) (fault : Option FaultDetail)
    (code : Option Word) : Prop :=
  (∃ k, (t.channels.get c).work = some k ∧ k.status = some status ∧ k.inCount = inCount ∧ k.outCount = outCount ∧
      k.fault = fault ∧ k.code = code) ∧
    (t.channels.get c).state = .retire ∧ (∀ p, t.arbiter.packs.get p ≠ some c) ∧
    (∀ k, t.arbiter.checks.get k ≠ some c) ∧ t.slots = s.slots ∧ t.writer = s.writer

/-- The status of a run that consumed its whole source (R43, R125), by the codes of R183. -/
def doneStatus (e : JobEntry) (code : Option Word) (phase : DecoderPhase) : Status :=
  if e.positionByte ≠ 0 ∧ e.positionByte ≠ 3 then .ok
  else if e.verify = true ∧ code ≠ some e.expectedCode then .mismatch
  else if e.opByte = 3 ∧ phase ≠ .header then .truncated
  else .ok

/-! ### Job entries, loaded units and the register map, as the spec lays them out -/

/-- The six entry checks (R34), by the codes of R183. -/
def entryOk (e : JobEntry) : Prop :=
  e.opByte.toNat ≤ 3 ∧ e.positionByte.toNat ≤ 3 ∧ e.kindByte.toNat ≤ 2 ∧ e.tapByte.toNat ≤ 1 ∧
    e.sourceCount.toNat ≤ 16 ∧ e.destCount.toNat ≤ 16 ∧
    (e.sourceCount ≠ 0 → e.sourceTable.toNat % 8 = 0) ∧ (e.destCount ≠ 0 → e.destTable.toNat % 8 = 0) ∧
    ¬ (e.opByte = 0 ∧ e.kindByte = 0) ∧ ¬ (e.opByte = 0 ∧ e.tapByte = 1) ∧ ¬ (e.opByte = 0 ∧ e.destCount ≠ 0) ∧
    ¬ (e.verify = true ∧ (e.positionByte = 1 ∨ e.positionByte = 2 ∨ e.kindByte = 0)) ∧
    ¬ (e.handle = 0xFFFF#16 ∧ e.positionByte ≠ 0)

/-- A number's byte `i`, the least significant first. -/
def byteAt (v i : Nat) : Byte := BitVec.ofNat 8 (v / 256 ^ i)

/-- The 32 bytes of a job entry (R183). The bits and bytes that hold no field are arbitrary: `flags` gives bits 1 to 7 of the
flags byte, and the others follow in order. -/
def entryBytes (e : JobEntry) (flags : BitVec 7) (b7 b14 b15 b28 b29 b30 b31 : Byte) : List Byte :=
  [e.opByte, e.positionByte, e.kindByte, e.tapByte, flags ++ BitVec.ofBool e.verify, e.sourceCount, e.destCount, b7,
    byteAt e.handle.toNat 0, byteAt e.handle.toNat 1, byteAt e.segment.toNat 0, byteAt e.segment.toNat 1,
    byteAt e.tag.toNat 0, byteAt e.tag.toNat 1, b14, b15,
    byteAt e.sourceTable.toNat 0, byteAt e.sourceTable.toNat 1, byteAt e.sourceTable.toNat 2,
    byteAt e.sourceTable.toNat 3, byteAt e.destTable.toNat 0, byteAt e.destTable.toNat 1,
    byteAt e.destTable.toNat 2, byteAt e.destTable.toNat 3, byteAt e.expectedCode.toNat 0,
    byteAt e.expectedCode.toNat 1, byteAt e.expectedCode.toNat 2, byteAt e.expectedCode.toNat 3, b28, b29, b30, b31]

/-- The job is an END job (section 2.3): its position is WHOLE or TAIL. -/
def endJob (e : JobEntry) : Bool := e.positionByte == 0 || e.positionByte == 3

/-- The read that starts at offset `o` of a fragment (R96, R122): to the end of its 32-byte block or of the fragment. -/
def readFrom (f : Fragment) (o : Nat) : BurstRequest :=
  { address := f.address + BitVec.ofNat 32 o
    length := min (32 - (f.address + BitVec.ofNat 32 o).toNat % 32) (f.length.toNat - o)
    write := false
    data := [] }

/-- A pack unit at the start of a run (R95). That `writeAddress` is then 0 is log entry 21. -/
def packLoaded (mode : PackMode) (j : Job) (x : Context) (joined : Option (CheckId × Tap)) : PackUnit :=
  { condition := .running, mode := mode, endFlag := endJob j.entry, source := j.source, dest := j.dest
    sourceCursor := ⟨0, 0⟩, destCursor := ⟨0, 0⟩, readAhead := [], writeBuffer := [], writeAddress := 0
    taken := 0, accepted := 0, written := 0
    work :=
      { group := [], runValue := (x.carry.getD { value := 0, count := 0 }).value
        runCount := (x.carry.getD { value := 0, count := 0 }).count, phase := x.phase.getD .header }
    joined := joined, ending := .none, owed := [], finishing := false }

/-- A check unit at the start of a run (R119); only a CHECK job, with no pack unit, brings it the source table. -/
def checkLoaded (kind : CodeKind) (tap : Tap) (j : Job) (x : Context) (joined : Option PackId) : CheckUnit :=
  { condition := .running, kind := kind, tap := tap, endFlag := endJob j.entry, running := x.running, joined := joined
    source := match joined with
      | none => j.source
      | some _ => []
    sourceCursor := ⟨0, 0⟩, taken := 0, ending := .none, finalCode := none }

/-- The mode of a pack unit for a job's op (R40). -/
def modeOf : Op → PackMode
  | .pack => .pack
  | .unpack => .unpack
  | .pass | .check => .pass

/-! ### Evaluations at the unit arbiter, as the spec gives them (R82, R83, R85) -/

/-- The channels in the order an evaluation examines them: from the one after the rotation pointer on, wrapping (R82). -/
def scanOrder (pointer : ChannelId) : List ChannelId := [pointer + 1, pointer + 2, pointer + 3, pointer]

/-- The lowest-numbered free unit of a kind (R83). -/
def lowestFree {n : Nat} (units : Vector (Option ChannelId) n) : Option (Fin n) :=
  (List.finRange n).find? fun i => units.get i == none

/-- A unit of a kind recorded against a channel, if one of that kind was chosen (R82). -/
def recorded {n : Nat} (c : ChannelId) (units : Vector (Option ChannelId) n) : Option (Fin n) → Vector (Option ChannelId) n
  | some i => units.set i (some c)
  | none => units

/-- One channel examined (R82, R83): a waiting channel whose whole set the free units meet leaves the waiting set, the
lowest-numbered free unit of each kind it needs is recorded against it, and the rotation pointer moves to it. Any other channel
is passed over or left waiting. -/
def examined (a : Arbiter) (c : ChannelId) : Arbiter :=
  match a.waiting.get c with
  | none => a
  | some n =>
    if (n.pack = true → lowestFree a.packs ≠ none) ∧ (n.check = true → lowestFree a.checks ≠ none) then
      { waiting := a.waiting.set c none
        pointer := c
        packs := if n.pack = true then recorded c a.packs (lowestFree a.packs) else a.packs
        checks := if n.check = true then recorded c a.checks (lowestFree a.checks) else a.checks }
    else a

/-- The scan of an evaluation: each channel examined once, in order, each meeting what the grants before it have left (R82). -/
def scanned (a : Arbiter) : Arbiter := (scanOrder a.pointer).foldl examined a

/-- The units of a channel free (R85). -/
def unitsFree (c : ChannelId) (a : Arbiter) : Arbiter :=
  { a with
    packs := a.packs.map fun g => if g = some c then none else g
    checks := a.checks.map fun g => if g = some c then none else g }

/-- An evaluation with those it brings about (R82, R85): a channel whose run ends at its grant, as `ends` says, has its units
released and the release evaluated in turn, in the order of the scan. That order, and that five levels are enough, is DEDUCED,
log entry 14. -/
def evaluated (ends : ChannelId → Bool) : Nat → Arbiter → Arbiter
  | 0, a => a
  | n + 1, a =>
    ((scanOrder a.pointer).filter fun c => (a.waiting.get c).isSome).foldl
      (fun b c => if ends c = true ∧ unitsFree c b ≠ b then evaluated ends n (unitsFree c b) else b) (scanned a)

/-- The run of a job ends at its grant, with no transfer (R100, R104, R105, R109, R110, R123): a job without a source, unless it
emits a carried run that its destination has room for, and a PASS job with a source and no capacity. -/
def endsAtGrant (j : Job) (x : Context) : Bool :=
  let count := (x.carry.getD { value := 0, count := 0 }).count
  if j.source = [] then
    !(j.entry.opByte == 2 && endJob j.entry && decide (1 ≤ count) &&
      decide ((if 3 ≤ count then 2 else count + 1) ≤ totalLength j.dest))
  else j.entry.opByte == 1 && totalLength j.dest == 0

/-- The run of a waiting channel's job would end at its grant. -/
def endsSoon (s : State) (c : ChannelId) : Bool :=
  match (s.channels.get c).job, (s.channels.get c).work.bind Working.ctx with
  | some j, some x => endsAtGrant j x
  | _, _ => false

/-- A channel of the waiting set as it stands there (R35, R40, R81, R94): its needed set is its job's, the first fragment of a
table is not empty, and a carried run is of at most 130 bytes. -/
structure WaitsFor (s : State) (c : ChannelId) (j : Job) (x : Context) (op : Op) (kind : CodeKind) (tap : Tap) : Prop where
  need : s.arbiter.waiting.get c = some { pack := op != .check, check := kind != .none }
  job : (s.channels.get c).job = some j
  ctx : (s.channels.get c).work.bind Working.ctx = some x
  op : Op.ofByte j.entry.opByte = some op
  kind : CodeKind.ofByte j.entry.kindByte = some kind
  tap : Tap.ofByte j.entry.tapByte = some tap
  source : ∀ f fs, j.source = f :: fs → 1 ≤ f.length.toNat
  dest : ∀ f fs, j.dest = f :: fs → 1 ≤ f.length.toNat
  carry : (x.carry.getD { value := 0, count := 0 }).count ≤ 130

/-- The pack unit granted to a channel, in `t`, has loaded its part of the job and formed the job's first read (R84, R95). -/
def packBegun (t : State) (c : ChannelId) (j : Job) (x : Context) (op : Op) (kind : CodeKind) (tap : Tap) (f : Fragment) :
    Prop :=
  ∃ p joined, t.arbiter.packs.get p = some c ∧ (kind = .none → joined = none) ∧
    (kind ≠ .none → ∃ k, t.arbiter.checks.get k = some c ∧ joined = some (k, tap) ∧
      t.checks.get k = checkLoaded kind tap j x (some p)) ∧
    t.packs.get p = packLoaded (modeOf op) j x joined ∧
    t.biu.wanted.get (Requester.pk p).position = some (readFrom f 0)

/-- The check unit granted to the channel of a CHECK job, in `t`, has loaded the job and formed its first read (R84, R119). -/
def checkBegun (t : State) (c : ChannelId) (j : Job) (x : Context) (kind : CodeKind) (tap : Tap) (f : Fragment) : Prop :=
  ∃ k, t.arbiter.checks.get k = some c ∧ t.checks.get k = checkLoaded kind tap j x none ∧
    t.biu.wanted.get (Requester.ck k).position = some (readFrom f 0)

/-- `t` is `s` after the release of a channel's units and its evaluation (R82 to R85): the grant map, the waiting set and the
rotation pointer are those of the scan, with the units freed. A waiting channel that is not granted is as it was; one that is
granted is in RUN, its units loaded and its first read formed, or in RETIRE where its run ends at its grant. -/
def releaseEvaluated (c : ChannelId) (s t : State) : Prop :=
  (∀ d, s.arbiter.waiting.get d ≠ none → ∃ j x op kind tap, WaitsFor s d j x op kind tap) →
    t.arbiter = evaluated (endsSoon s) 5 (unitsFree c s.arbiter) ∧
    ∀ d j x op kind tap, WaitsFor s d j x op kind tap →
      (t.arbiter.waiting.get d ≠ none → t.channels.get d = s.channels.get d) ∧
      (t.arbiter.waiting.get d = none → endsAtGrant j x = true → (t.channels.get d).state = .retire) ∧
      (t.arbiter.waiting.get d = none → endsAtGrant j x = false →
        t.channels.get d = { s.channels.get d with state := .run } ∧
        ∀ f fs, j.source = f :: fs →
          if op = .check then checkBegun t d j x kind tap f else packBegun t d j x op kind tap f)

/-! ### Bursts and commands, named -/

/-- The command that ends a burst without ready (R172, R174). -/
def faultCommand : Why → Instr
  | .error => .burstEndsWithError
  | .timeout => .burstEndsWithTimeout

/-- The last initiator fault registers after a burst ended so (R174). -/
def faultOf (b : Burst) (why : Why) : InitiatorFault :=
  { owner := b.owner.position, write := b.request.write, why := some why
    address := b.request.address - BitVec.ofNat 32 (b.request.address.toNat % 4) }

/-- The data phase now awaited is the burst's last (R170). -/
def lastPhase (b : Burst) : Prop := b.request.words ≤ b.phasesEnded + 1

/-- The command ABORT or channel RESET. -/
def abortCommand (kind : AbortKind) (c : ChannelId) (haltOnError : Bool) : Instr :=
  match kind with
  | .abort => .abortChannel c haltOnError
  | .reset => .resetChannel c haltOnError

/-- The 8 bytes of a fragment entry (R183). -/
def fragmentBytes (f : Fragment) : List Byte :=
  [byteAt f.address.toNat 0, byteAt f.address.toNat 1, byteAt f.address.toNat 2, byteAt f.address.toNat 3,
    byteAt f.length.toNat 0, byteAt f.length.toNat 1, byteAt f.length.toNat 2, byteAt f.length.toNat 3]

/-- The read of a fragment table of `n` entries at `table` that goes on after `got` bytes (R60): to the end of the 32-byte block
or of the table. -/
def tableRead (table : Word) (n got : Nat) : BurstRequest :=
  { address := table + BitVec.ofNat 32 got
    length := min (32 - (table + BitVec.ofNat 32 got).toNat % 32) (8 * n - got), write := false, data := [] }

/-- The seventh static check (R35): every fragment has a length of 1 to 16,777,215. -/
def fragmentsValid (fs : List Fragment) : Prop := ∀ f ∈ fs, 1 ≤ f.length.toNat ∧ f.length.toNat ≤ 16777215

/-- Slot states, as inspect 0 shows them (R180). -/
def slotStateCode : SlotState → Nat
  | .free => 0
  | .ready => 1
  | .midway => 2

/-- Job ops (R183). -/
def opCode : Op → Nat
  | .check => 0
  | .pass => 1
  | .pack => 2
  | .unpack => 3

/-- Code kinds (R183). -/
def kindCode : CodeKind → Nat
  | .none => 0
  | .c32 => 1
  | .d32 => 2

/-- Taps (R183). -/
def tapCode : Tap → Nat
  | .inTap => 0
  | .outTap => 1

/-- Channel states (R179). -/
def channelStateCode : ChannelState → Nat
  | .off => 0
  | .idle => 1
  | .fetch => 2
  | .waitSlot => 3
  | .waitUnits => 4
  | .run => 5
  | .retire => 6
  | .halted => 7

/-- Writer states (R179). -/
def writerStateCode : WriterState → Nat
  | .disabled => 0
  | .ready => 1
  | .writing => 2
  | .stalled => 3

/-- Halt causes (R181). -/
def haltCauseCode : HaltCause → Nat
  | .none => 0
  | .aborted => 1
  | .jobError => 2
  | .fetchFault => 3

/-- Abort pending (R181). -/
def abortCode : Option AbortKind → Nat
  | none => 0
  | some .abort => 1
  | some .reset => 2

/-- Access error reasons (R179). -/
def reasonCode : AccessReason → Nat
  | .none => 0
  | .narrow => 1
  | .unmapped => 2
  | .readOnly => 3
  | .notOff => 4
  | .postRange => 5
  | .headRange => 6

/-- Why a burst ended without ready (R179). -/
def causeCode : Option Why → Nat
  | none => 0
  | some .error => 1
  | some .timeout => 2

/-- Stream command results (R180). -/
def resultCode : StreamResult → Nat
  | .ok => 0
  | .noSlot => 1
  | .badHandle => 2
  | .busy => 3
  | .badArgs => 4
  | .deferred => 5

/-- The offsets of the window that hold a register, the channel groups aside (R177). -/
def globalOffsets : List Nat :=
  [0x000, 0x004, 0x008, 0x00C, 0x010, 0x014, 0x018, 0x01C, 0x020, 0x040, 0x044, 0x048, 0x04C, 0x050, 0x054, 0x058,
    0x080, 0x084, 0x088, 0x0A0, 0x0A4, 0x0A8, 0x0AC, 0x0B0, 0x0B4, 0x0B8, 0x0BC, 0x1C0, 0x1C4]

/-- The offsets within a channel group that hold a register (R177). -/
def groupOffsets : List Nat := [0x00, 0x04, 0x08, 0x0C, 0x10, 0x14, 0x18]

/-- The offset holds a register (R163, R177). -/
def mapped (o : Nat) : Prop := o ∈ globalOffsets ∨ (0x100 ≤ o ∧ o < 0x180 ∧ (o - 0x100) % 0x20 ∈ groupOffsets)

/-- The offset holds a read-only register (R164, R177). -/
def readOnly (o : Nat) : Prop :=
  o ∈ [0x000, 0x004, 0x018, 0x01C, 0x020, 0x044, 0x050, 0x088, 0x0A0, 0x0A4, 0x0A8, 0x0AC, 0x0B0, 0x0B4, 0x0B8, 0x0BC,
      0x1C0, 0x1C4] ∨
    (0x100 ≤ o ∧ o < 0x180 ∧ (o - 0x100) % 0x20 ∈ [0x04, 0x14, 0x18])

/-- The command is a write that names OPEN (R9, R180). -/
def opens : Instr → Prop
  | .openStream => True
  | .unknownStreamCommand v => v = 1
  | .registerWrite a lanes v => a.toNat % 512 = 0x084 ∧ lanes = 0xF#4 ∧ v = 1
  | _ => False

/-- The command is a reset of the part (R156, R159). -/
def resets : Instr → Prop
  | .deviceReset | .resetPinAssert => True
  | .registerWrite a lanes v => a.toNat % 512 = 0x008 ∧ lanes = 0xF#4 ∧ v.getLsbD 0 = true
  | _ => False

/-- The command is an event of the bus in a burst, or of the reset pin: in the pending period of a device reset these alone
are not held back (R156, R157). -/
def goesOn : Instr → Bool
  | .dataPhaseReady _ | .burstEndsWithReady _ | .burstEndsWithError | .burstEndsWithTimeout | .resetPinAssert => true
  | _ => false

end Spec

end Sys2Proof.Machine
end

