-- ==== Sys2Proof/Certificates/Slice0/Obligations.lean ====
section
/-! DEFINITION. The statements for the provers. Each formalises what a rule of the spec says a command or the part does; a
statement that rests on a choice of the model says so and names the log entry. Where a conclusion is `exec c s = .next t`, the
whole of `t` is given, so that everything not named is unchanged, host memory included. -/

open Sys2Proof Sys2Proof.Machine

/-! ### The queue and the resets -/

/-- One step with a command at the front of the queue runs that command on the state with the queue's rest. -/
def Obligations.StepTakesTheFrontCommand : Prop :=
  ∀ (c : Instr) (rest : List Instr) (s : State),
    step { s with pending := c :: rest } = exec c { s with pending := rest }

/-- One step on an empty queue is one bus clock period (the model's choice, log entry 1): it counts in a burst whose timeout
setting is not 0, and the period that reaches the setting ends the burst as BURST_ENDS_WITH_TIMEOUT does (R173, R174). The
first period of a burst ends its address phase (log entry 23). -/
def Obligations.EmptyQueueStepIsAClockPeriod : Prop :=
  ∀ s : State, s.pending = [] →
    (s.biu.burst = none → step s = .next s) ∧
    ∀ b, s.biu.burst = some b →
      (b.timeout = 0 → step s = .next { s with biu := { s.biu with burst := some { b with addressPhase := false } } }) ∧
      (b.periods + 1 < b.timeout →
        step s = .next
          { s with biu := { s.biu with burst := some { b with periods := b.periods + 1, addressPhase := false } } }) ∧
      (b.timeout ≠ 0 → b.timeout ≤ b.periods + 1 → step s = exec .burstEndsWithTimeout s)

/-- No command changes the queue: its effect is on everything but the queue. -/
def Obligations.QueueUntouched : Prop :=
  ∀ (c : Instr) (s t : State), exec c s = .next t → t.pending = s.pending

/-- The state right after reset holds every reset value of the chapters, and every register of the window reads its reset
value; every other offset reads 0. The values of the model's own fields are those of log entries 3, 20 and 21. -/
def Obligations.ResetStateHoldsTheResetValues : Prop :=
  Spec.AtResetValues State.reset ∧ State.reset.biu.timeout = 0 ∧ State.reset.pinAsserted = false ∧
    State.reset.hostMem = [] ∧ State.reset.pending = [] ∧
    (∀ r ∈ [(0x000, 0x00012406), (0x044, 0x30), (0x04C, 8), (0x088, 0xFFFF0000), (0x10C, 4), (0x12C, 4), (0x14C, 4),
        (0x16C, 4), (0x1C4, 3)],
      State.reset.windowRead (BitVec.ofNat 32 r.1) 0xF#4 = some (BitVec.ofNat 32 r.2)) ∧
    ∀ o < 512, o % 4 = 0 → o ∉ [0x000, 0x044, 0x04C, 0x088, 0x10C, 0x12C, 0x14C, 0x16C, 0x1C4] →
      State.reset.windowRead (BitVec.ofNat 32 o) 0xF#4 = some 0

/-- The reset pin (R159): at its assertion every block takes its reset values, the timeout becomes 0, and of host memory only
bytes of a write burst that was in progress may change. While it stays asserted the part answers no access, its interrupt and bus
request lines are deasserted, and with no burst, as the assertion leaves it, it drives no bus line and no command but those of the
pin changes anything, so that every block holds its reset values. At its release the part is as it was but for the pin. That an
access not answered reads `none` is log entry 13. The values of the model's own fields are those of log entries 3, 20 and 21. -/
def Obligations.ResetPin : Prop :=
  ∀ s : State,
    (∃ t, exec .resetPinAssert s = .next t ∧ Spec.AtResetValues t ∧ t.biu.timeout = 0 ∧ t.pinAsserted = true ∧
      t.intLine = false ∧ t.busRequestLine = false ∧ t.busDrive = none ∧
      (∀ address lanes, t.windowRead address lanes = none) ∧
      ∀ a, (∀ b, s.biu.burst = some b → b.request.write = true →
          ∀ k < b.request.length, (b.request.address + BitVec.ofNat 32 k).toNat ≠ a) →
        Memory.read t.hostMem a = Memory.read s.hostMem a) ∧
    (s.pinAsserted = true → s.intLine = false ∧ s.busRequestLine = false ∧
      (∀ address lanes, s.windowRead address lanes = none) ∧
      (s.biu.burst = none → s.busDrive = none ∧
        ∀ c, c ≠ .resetPinAssert → c ≠ .resetPinRelease → exec c s = .next s)) ∧
    exec .resetPinRelease s = .next { s with pinAsserted := false }

/-- The device reset command (R156, R158): with no burst in progress every block takes its reset values at once, the timeout
kept; with one in progress the pending period begins, every request not granted is withdrawn, and nothing else changes. The
values of the model's own fields are those of log entries 3, 20 and 21. -/
def Obligations.DeviceResetCommand : Prop :=
  ∀ s : State, s.live = true →
    (s.biu.burst = none → ∃ t, exec .deviceReset s = .next t ∧ Spec.AtResetValues t ∧
      t.biu.timeout = s.biu.timeout ∧ t.hostMem = s.hostMem ∧ t.pinAsserted = false) ∧
    (s.biu.burst ≠ none → ∃ t, exec .deviceReset s = .next t ∧
      (∀ i : Fin 10, t.biu.wanted.get i = none ∧ t.biu.requests.get i = none) ∧
      t = { s with
        biu := { s.biu with wanted := t.biu.wanted, requests := t.biu.requests }
        idc := { s.idc with resetPending := true } })

/-- The pending period of a device reset (R156, R157): every command but the bus events of a burst and the pin changes
nothing; the identification and the global status read 0x00012406 and 0x80000000 and every other offset 0; the interrupt line
and the bus request line are deasserted. -/
def Obligations.PendingPeriod : Prop :=
  ∀ s : State, s.idc.resetPending = true → s.pinAsserted = false →
    (∀ c, Spec.goesOn c = false → exec c s = .next s) ∧ s.intLine = false ∧ s.busRequestLine = false ∧
    s.windowRead 0x000#32 0xF#4 = some 0x00012406#32 ∧ s.windowRead 0x004#32 0xF#4 = some 0x80000000#32 ∧
    ∀ a : Word, a.toNat % 512 / 4 ≠ 0 → a.toNat % 512 / 4 ≠ 1 → s.windowRead a 0xF#4 = some 0

/-- The end of the pending period (R156, R158): when the burst ends, by ready, error or timeout, every block takes its reset
values, the timeout is kept, and host memory changes in the burst's bytes alone; a read leaves it as it was. The values of the
model's own fields are those of log entries 3, 20 and 21. -/
def Obligations.PendingPeriodEnds : Prop :=
  ∀ (s : State) (b : Burst) (c : Instr), s.idc.resetPending = true → s.biu.burst = some b →
    (((∃ data, c = .burstEndsWithReady data) ∧ Spec.lastPhase b) ∨ c = .burstEndsWithError ∨
      (c = .burstEndsWithTimeout ∧ b.timeout ≠ 0)) →
    ∃ t, exec c s = .next t ∧ Spec.AtResetValues t ∧ t.biu.timeout = s.biu.timeout ∧ t.pinAsserted = false ∧
      (b.request.write = false → t.hostMem = s.hostMem) ∧
      ∀ a, (∀ k < b.request.length, (b.request.address + BitVec.ofNat 32 k).toNat ≠ a) →
        Memory.read t.hostMem a = Memory.read s.hostMem a

/-! ### Stream commands -/

/-- OPEN (R8, R9): a good argument allocates the lowest FREE slot, with the next generation and the initial context; a bad one
completes BAD_ARGS, and NO_SLOT stands where no slot is FREE. -/
def Obligations.OpenCommand : Prop :=
  ∀ s : State, s.live = true →
    let op := Op.ofByte (s.argument.extractLsb' 0 8)
    let kind := CodeKind.ofByte (s.argument.extractLsb' 8 8)
    let tap := Tap.ofByte (s.argument.extractLsb' 16 8)
    let good := op.isSome ∧ kind.isSome ∧ tap.isSome ∧
      ¬ (op = some .check ∧ (kind = some .none ∨ tap = some .outTap))
    (¬ good → exec .openStream s = .next (Spec.completed .badArgs s)) ∧
    (good → (∀ i : SlotId, (s.slots.get i).ctx.state ≠ .free) →
      exec .openStream s = .next (Spec.completed .noSlot s)) ∧
    ∀ (o : Op) (k : CodeKind) (p : Tap) (i : SlotId), good → op = some o → kind = some k → tap = some p →
      (s.slots.get i).ctx.state = .free → (∀ j : SlotId, j < i → (s.slots.get j).ctx.state ≠ .free) →
      let g := if (s.slots.get i).generation = 255 then 1 else (s.slots.get i).generation + 1
      exec .openStream s = .next
        { s with
          slots := s.slots.set i
            { s.slots.get i with
              ctx := Spec.initial .ready o k, generation := g, op := o, kind := k
              tap := if k = .none then .inTap else p, messages := 0 }
          result := { result := .ok, handle := g ++ BitVec.ofNat 8 i.val } }

/-- CLOSE (R10, R11): an invalid handle is refused; a valid one frees an unheld slot at once and sets closing on a held one; and
afterwards no slot answers to the handle. REWIND (R12): an invalid handle is refused, a held slot is BUSY, and an unheld one
takes the initial context in READY, its message count, op, code kind, tap and generation kept. -/
def Obligations.CloseAndRewindCommands : Prop :=
  (∀ s : State, s.live = true →
     let h := s.argument.extractLsb' 0 16
     ((∀ i, ¬ Spec.handleValid s h i) → exec .closeStream s = .next (Spec.completed .badHandle s)) ∧
     ∀ i, Spec.handleValid s h i →
       ((s.slots.get i).holder = none →
         exec .closeStream s = .next
           (Spec.completed .ok { s with slots := s.slots.set i (Spec.freed (s.slots.get i)) })) ∧
       ((s.slots.get i).holder ≠ none →
         exec .closeStream s = .next
           (Spec.completed .deferred { s with slots := s.slots.set i { s.slots.get i with closing := true } }))) ∧
  (∀ s : State, s.live = true →
     let h := s.argument.extractLsb' 0 16
     ((∀ i, ¬ Spec.handleValid s h i) → exec .rewindStream s = .next (Spec.completed .badHandle s)) ∧
     ∀ i, Spec.handleValid s h i →
       ((s.slots.get i).holder ≠ none → exec .rewindStream s = .next (Spec.completed .busy s)) ∧
       ((s.slots.get i).holder = none →
         exec .rewindStream s = .next
           (Spec.completed .ok
             { s with
               slots := s.slots.set i
                 { s.slots.get i with ctx := Spec.initial .ready (s.slots.get i).op (s.slots.get i).kind } }))) ∧
  (∀ s : State, s.live = true →
     ∃ t, exec .closeStream s = .next t ∧ ∀ i, ¬ Spec.handleValid t (s.argument.extractLsb' 0 16) i)

/-- INSPECT (R13, R180): a slot number above 31 completes BAD_ARGS; any other puts the slot's snapshot into the eight inspect
registers, each field at its place, and changes nothing else. The holder field is told where the slot has a holder. -/
def Obligations.InspectCommand : Prop :=
  ∀ s : State, s.live = true →
    let n := (s.argument.extractLsb' 0 16).toNat
    (32 ≤ n → exec .inspectSlot s = .next (Spec.completed .badArgs s)) ∧
    ∀ i : SlotId, n = i.val →
      let sl := s.slots.get i
      let at' (k : Nat) : Nat := match sl.waiters[k]? with
        | some c => c.val
        | none => 0
      let phase : Nat × Nat := match sl.ctx.phase with
        | none | some .header => (0, 0)
        | some (.literal r) => (1, r)
        | some (.runValue m) => (2, m)
      let carry := sl.ctx.carry.getD { value := 0, count := 0 }
      ∃ v : Vector Word 8, exec .inspectSlot s = .next (Spec.completed .ok { s with inspect := v }) ∧
        (v.get 0).toNat = i.val + 2 ^ 8 * Spec.slotStateCode sl.ctx.state + 2 ^ 16 * sl.generation.toNat ∧
        (∃ holder < 4, (∀ c, sl.holder = some c → holder = c.val) ∧
          (v.get 1).toNat = Spec.opCode sl.op + 2 ^ 8 * Spec.kindCode sl.kind + 2 ^ 12 * Spec.tapCode sl.tap +
            2 ^ 16 * holder + 2 ^ 18 * sl.holder.isSome.toNat + 2 ^ 20 * sl.closing.toNat) ∧
        (sl.waiters.length ≤ 3 →
          (v.get 2).toNat = sl.waiters.length + 2 ^ 8 * at' 0 + 2 ^ 10 * at' 1 + 2 ^ 12 * at' 2) ∧
        (v.get 3).toNat = sl.ctx.expected.toNat + 2 ^ 16 * sl.messages.toNat ∧
        (v.get 4).toNat =
          (match sl.ctx.running with
            | .none => 0
            | .c32 r => r.toNat
            | .d32 a b => a.val + 2 ^ 16 * b.val) ∧
        (carry.count ≤ 130 → phase.2 ≤ 130 →
          (v.get 5).toNat = carry.value.toNat + 2 ^ 8 * carry.count + 2 ^ 16 * phase.1 + 2 ^ 24 * phase.2) ∧
        v.get 6 = sl.ctx.inTotal ∧ v.get 7 = sl.ctx.outTotal

/-- A command-register write that names no command completes BAD_ARGS and changes nothing else (R7). -/
def Obligations.UnknownStreamCommand : Prop :=
  ∀ (s : State) (v : Word), s.live = true → v ≠ 1 → v ≠ 2 → v ≠ 3 → v ≠ 4 →
    exec (.unknownStreamCommand v) s = .next (Spec.completed .badArgs s)

/-- Only OPEN and reset change a generation (R5). -/
def Obligations.GenerationsChangeOnlyByOpenAndReset : Prop :=
  ∀ (c : Instr) (s t : State), exec c s = .next t → ¬ Spec.opens c → ¬ Spec.resets c → s.idc.resetPending = false →
    ∀ i : SlotId, (t.slots.get i).generation = (s.slots.get i).generation

/-! ### Channel commands, settings and counts -/

/-- A POST write (R55): accepted exactly when the ring does not overfill and POST does not fall behind FETCH; an accepted one
sets POST, and begins a fetch in an IDLE channel left with POST not equal to FETCH; a refused one changes nothing but the
last access error and ACCESS_ERR. A write of the value POST holds changes nothing. That the fetch begun has its burst stand in
`wanted` until PORT_REQUEST is log entry 3. -/
def Obligations.PostWrite : Prop :=
  ∀ (s : State) (c : ChannelId) (v : Word), s.live = true →
    let ch := s.channels.get c
    let new : Half := v.extractLsb' 0 16
    let accepted := (new - ch.done).toNat ≤ ch.ringSize ∧ (ch.fetch - ch.done).toNat ≤ (new - ch.done).toNat
    (¬ accepted → exec (.postWrite c v) s = .next (Spec.refused (0x110 + 0x20 * c.val) .postRange s)) ∧
    (accepted → ¬ (ch.state = .idle ∧ new ≠ ch.fetch) →
      exec (.postWrite c v) s = .next { s with channels := s.channels.set c { ch with post := new } }) ∧
    (accepted → ch.state = .idle → new ≠ ch.fetch →
      exec (.postWrite c v) s = .next (Spec.fetchBegun c { ch with post := new } s)) ∧
    (accepted → new = ch.post → (ch.state = .idle → ch.post = ch.fetch) → exec (.postWrite c v) s = .next s)

/-- The ring settings (R53, R131). A job ring's are taken only in OFF with POST equal to DONE, the completion ring's only in
DISABLED with TAIL equal to HEAD: the base with its five lowest bits cleared, the size as a power of two; in any other condition
they are refused NOT_OFF. The threshold is taken in any state, at most 255. -/
def Obligations.RingSettings : Prop :=
  (∀ (s : State) (c : ChannelId) (v : Word), s.live = true →
     let ch := s.channels.get c
     (ch.state = .off ∧ ch.post = ch.done →
       exec (.jobRingBaseWrite c v) s = .next
         { s with channels := s.channels.set c { ch with ringBase := v - BitVec.ofNat 32 (v.toNat % 32) } } ∧
       ∃ n, exec (.jobRingSizeWrite c v) s = .next { s with channels := s.channels.set c { ch with ringSize := n } } ∧
         isJobRingSize n ∧ (v.toNat < 4 → n = 4) ∧ (1024 < v.toNat → n = 1024) ∧
         (4 ≤ v.toNat → v.toNat ≤ 1024 → n ≤ v.toNat ∧ v.toNat < 2 * n)) ∧
     (¬ (ch.state = .off ∧ ch.post = ch.done) →
       exec (.jobRingBaseWrite c v) s = .next (Spec.refused (0x108 + 0x20 * c.val) .notOff s) ∧
       exec (.jobRingSizeWrite c v) s = .next (Spec.refused (0x10C + 0x20 * c.val) .notOff s))) ∧
  (∀ (s : State) (v : Word), s.live = true →
     (s.writer.state = .disabled ∧ s.writer.tail = s.writer.head →
       exec (.completionRingBaseWrite v) s = .next
         { s with writer := { s.writer with ringBase := v - BitVec.ofNat 32 (v.toNat % 32) } } ∧
       ∃ n, exec (.completionRingSizeWrite v) s = .next { s with writer := { s.writer with ringSize := n } } ∧
         isCompletionRingSize n ∧ (v.toNat < 8 → n = 8) ∧ (4096 < v.toNat → n = 4096) ∧
         (8 ≤ v.toNat → v.toNat ≤ 4096 → n ≤ v.toNat ∧ v.toNat < 2 * n)) ∧
     (¬ (s.writer.state = .disabled ∧ s.writer.tail = s.writer.head) →
       exec (.completionRingBaseWrite v) s = .next (Spec.refused 0x048 .notOff s) ∧
       exec (.completionRingSizeWrite v) s = .next (Spec.refused 0x04C .notOff s)) ∧
     exec (.thresholdWrite v) s = .next { s with writer := { s.writer with threshold := min v.toNat 255 } })

/-- START (R57, R181): an OFF or HALTED channel goes to IDLE with no halt cause, and on to its fetch if a job is posted; in
every other state only bit 8 of the write, the halt-on-error setting, is taken. The burst of the fetch stands in `wanted` until
PORT_REQUEST (log entry 3). -/
def Obligations.StartCommand : Prop :=
  ∀ (s : State) (c : ChannelId) (b : Bool), s.live = true →
    let ch := { s.channels.get c with haltOnError := b }
    (ch.state = .off ∨ ch.state = .halted →
      (ch.post = ch.fetch →
        exec (.startChannel c b) s = .next
          { s with channels := s.channels.set c { ch with state := .idle, haltCause := .none } }) ∧
      (ch.post ≠ ch.fetch →
        exec (.startChannel c b) s = .next (Spec.fetchBegun c { ch with haltCause := .none } s))) ∧
    (ch.state ≠ .off → ch.state ≠ .halted →
      exec (.startChannel c b) s = .next { s with channels := s.channels.set c ch })

/-- STOP (R58, R76, R181): IDLE goes to OFF; a channel with a job in flight takes the stop request, unless a RESET is pending;
OFF and HALTED ignore it. Bit 8 of the write is taken in every case. -/
def Obligations.StopCommand : Prop :=
  ∀ (s : State) (c : ChannelId) (b : Bool), s.live = true →
    let ch := { s.channels.get c with haltOnError := b }
    (ch.state = .idle →
      exec (.stopChannel c b) s = .next
        { s with channels := s.channels.set c { ch with state := .off, stopRequest := false } }) ∧
    (ch.state.inGroup = true → ch.abortPending ≠ some .reset →
      exec (.stopChannel c b) s = .next { s with channels := s.channels.set c { ch with stopRequest := true } }) ∧
    (ch.state = .off ∨ ch.state = .halted ∨ (ch.state.inGroup = true ∧ ch.abortPending = some .reset) →
      exec (.stopChannel c b) s = .next { s with channels := s.channels.set c ch })

/-- ABORT and channel RESET where they differ (R70, R76): an ABORT in OFF or HALTED, or with one pending, is ignored; a RESET
in OFF or HALTED clears the channel, and with an ABORT or RESET pending leaves RESET pending. The list of leavings, which no
command here adds to, is the model's own (log entry 3). -/
def Obligations.AbortAndResetApart : Prop :=
  ∀ (s : State) (c : ChannelId) (b : Bool), s.live = true →
    let ch := { s.channels.get c with haltOnError := b }
    (ch.abortPending ≠ none →
      exec (.abortChannel c b) s = .next { s with channels := s.channels.set c ch } ∧
      exec (.resetChannel c b) s = .next
        { s with channels := s.channels.set c { ch with abortPending := some .reset } }) ∧
    (ch.abortPending = none → ch.state = .off ∨ ch.state = .halted →
      exec (.abortChannel c b) s = .next { s with channels := s.channels.set c ch } ∧
      exec (.resetChannel c b) s = .next (Spec.cleared c ch s))

/-- ABORT and channel RESET before the run (R70, R71, R72, R76): they take effect at once in IDLE, in FETCH without a transfer
on the bus (the request withdrawn), in WAIT_SLOT (out of the wait list) and in WAIT_UNITS (out of the waiting set, the slot let
go: to its oldest waiter, to no one, or freed if it is closing); in FETCH with a transfer on the bus they are pending. The list
of leavings that `Spec.abortDone` adds to is the model's own (log entry 3). -/
def Obligations.AbortBeforeTheRun : Prop :=
  ∀ (s : State) (c : ChannelId) (b : Bool) (kind : AbortKind), s.live = true →
    let ch := { s.channels.get c with haltOnError := b }
    ch.abortPending = none →
    (ch.state = .idle → exec (Spec.abortCommand kind c b) s = .next (Spec.abortDone kind c ch s)) ∧
    (ch.state = .fetch → (∀ q, s.biu.burst = some q → q.owner ≠ .ch c) →
      exec (Spec.abortCommand kind c b) s = .next
        (Spec.abortDone kind c ch
          { s with
            biu := { s.biu with
              wanted := s.biu.wanted.set (Requester.ch c).position none
              requests := s.biu.requests.set (Requester.ch c).position none } })) ∧
    (ch.state = .fetch → (∃ q, s.biu.burst = some q ∧ q.owner = .ch c) →
      exec (Spec.abortCommand kind c b) s = .next
        { s with channels := s.channels.set c { ch with abortPending := some kind } }) ∧
    (ch.state = .waitSlot → ∀ i : SlotId, c ∈ (s.slots.get i).waiters →
      (∀ j : SlotId, c ∈ (s.slots.get j).waiters → j = i) →
      exec (Spec.abortCommand kind c b) s = .next
        (Spec.abortDone kind c ch
          { s with
            slots := s.slots.set i
              { s.slots.get i with waiters := (s.slots.get i).waiters.filter (· != c) } })) ∧
    (ch.state = .waitUnits → ∀ t,
      Spec.released c { s with arbiter := { s.arbiter with waiting := s.arbiter.waiting.set c none } } t →
      exec (Spec.abortCommand kind c b) s = .next (Spec.abortDone kind c ch t))

/-- ABORT and channel RESET in RUN (R73, R86, R114, R127). With no burst of the channel's units on the bus the abort takes
effect at once, and the units' requests not granted are withdrawn: none of them has a request left, and one has a burst formed
only if it is granted again at the release. With one it is pending: that unit is STOPPING, any other unit of the set has
withdrawn its request and is STOPPED. At the end of that burst, whatever its end, the abort takes effect: the units are free,
the slot is let go and the channel is HALTED, or OFF after RESET; an end with error or timeout replaces the last initiator
fault registers. The release of the units is evaluated: which waiting channels are granted, with which units, and where the
rotation pointer ends (log entry 14 for runs that end at their grant). This holds of PASS, PACK and UNPACK jobs with a code or
without, and of CHECK jobs. What a stopped unit holds of the items it dropped is the model's choice (log entry 19). -/
def Obligations.AbortInTheRun : Prop :=
  ∀ (s : State) (c : ChannelId) (b : Bool) (kind : AbortKind), s.live = true → s.UnitsKept → s.HoldsKept →
    (s.channels.get c).state = .run →
    let ch := { s.channels.get c with haltOnError := b }
    let owner := s.biu.burst.map Burst.owner
    (ch.abortPending = none → (∀ r, owner = some r → ¬ Spec.unitOf s c r) →
      ∃ t, exec (Spec.abortCommand kind c b) s = .next t ∧ Spec.runAborted kind c s t ∧ t.hostMem = s.hostMem ∧
        Spec.releaseEvaluated c s t ∧
        t.biu.burst = s.biu.burst ∧ t.biu.lastFault = s.biu.lastFault ∧
        (∀ r, Spec.unitOf s c r → t.biu.requests.get r.position = none ∧
          ((∀ d, ¬ Spec.unitOf t d r) → t.biu.wanted.get r.position = none)) ∧
        ∀ r, ¬ Spec.unitOf s c r → t.biu.requests.get r.position = s.biu.requests.get r.position) ∧
    (∀ r, ch.abortPending = none → owner = some r → Spec.unitOf s c r →
      let withdrawn (i : Fin 10) : Prop :=
        (∃ p, s.arbiter.packs.get p = some c ∧ r ≠ .pk p ∧ i = (Requester.pk p).position) ∨
          ∃ k, s.arbiter.checks.get k = some c ∧ r ≠ .ck k ∧ i = (Requester.ck k).position
      ∃ wanted requests, exec (Spec.abortCommand kind c b) s = .next
        { s with
          channels := s.channels.set c { ch with abortPending := some kind }
          packs := Vector.ofFn fun p =>
            if s.arbiter.packs.get p ≠ some c then s.packs.get p
            else if r = .pk p then { s.packs.get p with condition := .stopping }
            else Spec.packStopped (s.packs.get p)
          checks := Vector.ofFn fun k =>
            if s.arbiter.checks.get k ≠ some c then s.checks.get k
            else if r = .ck k then { s.checks.get k with condition := .stopping }
            else Spec.checkStopped (s.checks.get k)
          biu := { s.biu with wanted := wanted, requests := requests } } ∧
        ∀ i, (withdrawn i → wanted.get i = none ∧ requests.get i = none) ∧
          (¬ withdrawn i → wanted.get i = s.biu.wanted.get i ∧ requests.get i = s.biu.requests.get i)) ∧
    (∀ q, ch.abortPending = some kind → s.biu.burst = some q → Spec.unitOf s c q.owner →
      (∀ p, s.arbiter.packs.get p = some c →
        (s.packs.get p).condition = if q.owner = .pk p then .stopping else .stopped) →
      (∀ k, s.arbiter.checks.get k = some c →
        (s.checks.get k).condition = if q.owner = .ck k then .stopping else .stopped) →
      ∀ e, ((∃ data, e = .burstEndsWithReady data) ∧ Spec.lastPhase q) ∨ e = .burstEndsWithError ∨
          (e = .burstEndsWithTimeout ∧ q.timeout ≠ 0) →
        ∃ t, exec e s = .next t ∧ Spec.runAborted kind c s t ∧ t.biu.burst = none ∧
          Spec.releaseEvaluated c s t ∧
          (∀ data, e = .burstEndsWithReady data → t.biu.lastFault = s.biu.lastFault) ∧
          ∀ why, e = Spec.faultCommand why → t.biu.lastFault = Spec.faultOf q why)

/-- ABORT and channel RESET in RETIRE (R74, R145): with the record begun they are pending and nothing else changes; with the
record not begun the channel leaves the requesting set, lets its slot go (to its oldest waiter, to no one, or freed if it is
closing), and is HALTED or OFF. The list of leavings that `Spec.abortDone` adds to is the model's own (log entry 3). -/
def Obligations.AbortInRetire : Prop :=
  ∀ (s : State) (c : ChannelId) (b : Bool) (kind : AbortKind), s.live = true →
    let ch := { s.channels.get c with haltOnError := b }
    let begun := ch.recordWritten = true ∨ ∃ r, s.writer.current = some r ∧ r.channel = c
    ch.state = .retire → ch.abortPending = none →
    (begun →
      exec (Spec.abortCommand kind c b) s = .next
        { s with channels := s.channels.set c { ch with abortPending := some kind } }) ∧
    (¬ begun → ∀ t,
      Spec.released c { s with writer := { s.writer with requesting := s.writer.requesting.set c false } } t →
      exec (Spec.abortCommand kind c b) s = .next (Spec.abortDone kind c ch t))

/-- A channel control write (R178, R181): one command position set names that command, taken with bit 8; none, or more than
one, changes the halt-on-error setting alone. That a HALT_ON_ERROR command whose word names another row's command has that row's
effect is log entry 12. -/
def Obligations.ChannelControlWrite : Prop :=
  ∀ (s : State) (c : ChannelId) (v : Word),
    let b := v.getLsbD 8
    let n := v.toNat % 16
    (n = 1 → exec (.haltOnError c v) s = exec (.startChannel c b) s) ∧
    (n = 2 → exec (.haltOnError c v) s = exec (.stopChannel c b) s) ∧
    (n = 4 → exec (.haltOnError c v) s = exec (.abortChannel c b) s) ∧
    (n = 8 → exec (.haltOnError c v) s = exec (.resetChannel c b) s) ∧
    (s.live = true → n ∉ [1, 2, 4, 8] →
      exec (.haltOnError c v) s = .next
        { s with channels := s.channels.set c { s.channels.get c with haltOnError := b } })

/-! ### The fetch and the hold request -/

/-- The end of the job entry's read (R34, R60, R62, R63): an entry that fails a check ends BAD_JOB with no table read; one that
passes has its first table asked for, if it has any; one without tables is at the end of its fetch. That the initial context of an
unbound job has the slot state READY is log entry 10. -/
def Obligations.JobEntryRead : Prop :=
  ∀ (s : State) (c : ChannelId) (b : Burst) (data : Word), s.live = true → s.biu.burst = some b → b.owner = .ch c →
    b.request.write = false → Spec.lastPhase b → (s.channels.get c).state = .fetch →
    (s.channels.get c).abortPending = none → (s.channels.get c).stage = some .entry →
    let e := JobEntry.ofBytes (b.got ++ b.request.take b.phasesEnded data)
    let ch := { s.channels.get c with job := some { entry := e, source := [], dest := [] } }
    let s' := { s with biu := { s.biu with burst := none } }
    let table (stage : FetchStage) (a : Word) (n : Nat) : State :=
      { s' with
        channels := s.channels.set c { ch with stage := some stage }
        biu := { s'.biu with
          wanted := s.biu.wanted.set (Requester.ch c).position
            (some { address := a, length := min (32 - a.toNat % 32) (8 * n), write := false, data := [] }) } }
    (¬ Spec.entryOk e →
      exec (.burstEndsWithReady data) s = .next
        { s' with channels := s.channels.set c (Spec.endedBeforeRun ch .badJob none) }) ∧
    (Spec.entryOk e → e.sourceCount ≠ 0 →
      exec (.burstEndsWithReady data) s = .next (table (.sourceTable []) e.sourceTable e.sourceCount.toNat)) ∧
    (Spec.entryOk e → e.sourceCount = 0 → e.destCount ≠ 0 →
      exec (.burstEndsWithReady data) s = .next (table (.destTable []) e.destTable e.destCount.toNat)) ∧
    (Spec.entryOk e → e.sourceCount = 0 → e.destCount = 0 → e.handle ≠ 0xFFFF#16 →
      exec (.burstEndsWithReady data) s = .next
        { s' with channels := s.channels.set c { ch with stage := some .holdRequest } }) ∧
    (Spec.entryOk e → e.sourceCount = 0 → e.destCount = 0 → e.handle = 0xFFFF#16 →
      ∃ op kind, Op.ofByte e.opByte = some op ∧ CodeKind.ofByte e.kindByte = some kind ∧
        exec (.burstEndsWithReady data) s = .next
          { s' with
            channels := s.channels.set c
              { ch with
                state := .waitUnits, stage := none
                work := some
                  { ctx := some (Spec.initial .ready op kind), status := none, inCount := 0, outCount := 0
                    fault := none, code := none } } })

/-- The end of a fragment table's read (R30, R35, R60, R62, R63, R183): a table that is not whole has its next burst asked for;
after the source table the destination table's turn comes, if it has entries; and when the tables are read a fragment whose
length is out of range ends the job BAD_JOB, a bound job is at its hold request and an unbound one in WAIT_UNITS with the initial
context, whose slot state READY is log entry 10. Each burst stands in `wanted`, and the stage of the fetch in the channel, until
their events (log entry 3). The table bytes read so far stand in the stage (log entry 22). -/
def Obligations.FragmentTableRead : Prop :=
  ∀ (s : State) (c : ChannelId) (b : Burst) (data : Word) (j : Job) (got : List Byte) (fs : List Fragment),
    s.live = true → s.biu.burst = some b → b.owner = .ch c → b.request.write = false → Spec.lastPhase b →
    (s.channels.get c).state = .fetch → (s.channels.get c).abortPending = none → (s.channels.get c).job = some j →
    let bytes := got ++ (b.got ++ b.request.take b.phasesEnded data)
    let n := j.entry.sourceCount.toNat
    let m := j.entry.destCount.toNat
    let s' := { s with biu := { s.biu with burst := none } }
    let channelAt (j' : Job) (stage : FetchStage) : Channel :=
      { s.channels.get c with job := some j', stage := some stage }
    let reads (j' : Job) (stage : FetchStage) (q : BurstRequest) : Prop :=
      exec (.burstEndsWithReady data) s = .next
        { s' with
          channels := s.channels.set c (channelAt j' stage)
          biu := { s'.biu with wanted := s.biu.wanted.set (Requester.ch c).position (some q) } }
    let fetched (j' : Job) (stage : FetchStage) : Prop :=
      (¬ Spec.fragmentsValid (j'.source ++ j'.dest) →
        exec (.burstEndsWithReady data) s = .next
          { s' with channels := s.channels.set c (Spec.endedBeforeRun (channelAt j' stage) .badJob none) }) ∧
      (Spec.fragmentsValid (j'.source ++ j'.dest) → j.entry.handle ≠ 0xFFFF#16 →
        exec (.burstEndsWithReady data) s = .next
          { s' with channels := s.channels.set c (channelAt j' .holdRequest) }) ∧
      ∀ op kind, Spec.fragmentsValid (j'.source ++ j'.dest) → j.entry.handle = 0xFFFF#16 →
        Op.ofByte j.entry.opByte = some op → CodeKind.ofByte j.entry.kindByte = some kind →
        exec (.burstEndsWithReady data) s = .next
          { s' with
            channels := s.channels.set c
              { channelAt j' stage with
                state := .waitUnits, stage := none
                work := some
                  { ctx := some (Spec.initial .ready op kind), status := none, inCount := 0, outCount := 0
                    fault := none, code := none } } }
    ((s.channels.get c).stage = some (.sourceTable got) →
      (bytes.length < 8 * n → reads j (.sourceTable bytes) (Spec.tableRead j.entry.sourceTable n bytes.length)) ∧
      (fs.length = n → bytes = (fs.map Spec.fragmentBytes).flatten →
        (m ≠ 0 → reads { j with source := fs } (.destTable []) (Spec.tableRead j.entry.destTable m 0)) ∧
        (m = 0 → fetched { j with source := fs } (.sourceTable got)))) ∧
    ((s.channels.get c).stage = some (.destTable got) →
      (bytes.length < 8 * m → reads j (.destTable bytes) (Spec.tableRead j.entry.destTable m bytes.length)) ∧
      (fs.length = m → bytes = (fs.map Spec.fragmentBytes).flatten →
        fetched { j with dest := fs } (.destTable got)))

/-- A fault on a fetch transfer (R35, R61, R71, R172, R174): at the job entry it halts the channel with FETCH_FAULT and FETCH
back at DONE; at a fragment table it ends the job BUS_FAULT; with an abort pending the abort takes effect instead. The last
initiator fault registers are replaced in every case. A fetch transfer, of the entry or of a table, that ends with ready while
an abort is pending (R71, R76): its data are dropped, the abort takes effect, and those registers stay. The list of leavings
that `Spec.halted` and `Spec.abortDone` add to is the model's own (log entry 3). -/
def Obligations.FetchFaults : Prop :=
  ∀ (s : State) (c : ChannelId) (b : Burst) (why : Why), s.live = true → s.biu.burst = some b → b.owner = .ch c →
    b.request.write = false → (why = .timeout → b.timeout ≠ 0) → (s.channels.get c).state = .fetch →
    let ch := s.channels.get c
    let s' := { s with biu := { s.biu with burst := none, lastFault := Spec.faultOf b why } }
    (ch.abortPending = none → ch.stage = some .entry →
      exec (Spec.faultCommand why) s = .next (Spec.halted c .fetchFault { ch with fetch := ch.done } s')) ∧
    (∀ got, ch.abortPending = none → ch.stage = some (.sourceTable got) ∨ ch.stage = some (.destTable got) →
      exec (Spec.faultCommand why) s = .next
        { s' with
          channels := s.channels.set c
            (Spec.endedBeforeRun ch .busFault (some { place := .fragTable, why := why })) }) ∧
    (∀ kind, ch.abortPending = some kind → exec (Spec.faultCommand why) s = .next (Spec.abortDone kind c ch s')) ∧
    (∀ kind data, ch.abortPending = some kind → Spec.lastPhase b →
      exec (.burstEndsWithReady data) s = .next
        (Spec.abortDone kind c ch { s with biu := { s.biu with burst := none } }))

/-- A hold request (R14 to R17, R37, R38, R39, R63): refused, the job ends BAD_HANDLE; granted, the channel holds the slot and
makes the slot checks, ending KIND_CONFLICT or SEQ_GAP or going on to WAIT_UNITS with the slot's context; otherwise it is
appended to the wait list and stands in WAIT_SLOT. -/
def Obligations.HoldRequest : Prop :=
  ∀ (s : State) (c : ChannelId) (j : Job), s.live = true → (s.channels.get c).state = .fetch →
    (s.channels.get c).stage = some .holdRequest → (s.channels.get c).job = some j →
    let ch := s.channels.get c
    ((∀ i, ¬ Spec.handleValid s j.entry.handle i) →
      exec (.holdRequest c) s = .next
        { s with channels := s.channels.set c (Spec.endedBeforeRun ch .badHandle none) }) ∧
    ∀ i, Spec.handleValid s j.entry.handle i →
      let sl := s.slots.get i
      (sl.holder = none →
        exec (.holdRequest c) s = .next
          { s with
            slots := s.slots.set i { sl with holder := some c }
            channels := s.channels.set c (Spec.holding ch sl j.entry) }) ∧
      (sl.holder ≠ none →
        exec (.holdRequest c) s = .next
          { s with
            slots := s.slots.set i { sl with waiters := sl.waiters ++ [c] }
            channels := s.channels.set c { ch with state := .waitSlot, stage := none } })

/-! ### Units and runs -/

/-- A join (R81 to R84, R95, R119): with a unit of every kind needed free, the channel is granted the lowest-numbered ones,
leaves the waiting set for RUN, takes the rotation pointer, and each unit loads its part of the job and forms its first read,
which stands in `wanted` until PORT_REQUEST (log entry 3); a PACK or UNPACK unit whose capacity is 0 forms it all the same (log
entry 8). Otherwise the channel waits and nothing else changes. A PACK END job without a source that carries a run emits it at
its grant (R104, R109): the unit's first transfer is the write of the token, up to the buffer's end, the rest being owed (log
entry 20), or the run is OUT_OVERRUN at once when the token does not fit (R105, R110). A decoder phase, which a PACK context
does not have (R2), is taken to be one that R94 allows, and the unit's `writeAddress` at the grant is log entry 21. A job
without a source and with nothing to emit ends its run at its grant (R109, R123): the channel is in RETIRE with the status of
R43 and counts of 0, its units are free again, and no transfer is made. -/
def Obligations.UnitJoin : Prop :=
  ∀ (s : State) (c : ChannelId) (j : Job) (w : Working) (x : Context) (op : Op) (kind : CodeKind) (tap : Tap),
    s.live = true → s.UnitsKept → (s.channels.get c).state = .waitUnits → s.arbiter.waiting.get c = none →
    (s.channels.get c).job = some j → (s.channels.get c).work = some w → w.ctx = some x →
    Op.ofByte j.entry.opByte = some op → CodeKind.ofByte j.entry.kindByte = some kind →
    Tap.ofByte j.entry.tapByte = some tap → ¬ (op = .check ∧ kind = .none) →
    let lowestPack (p : PackId) : Prop := s.arbiter.packs.get p = none ∧ ∀ q, q < p → s.arbiter.packs.get q ≠ none
    let lowestCheck (k : CheckId) : Prop :=
      s.arbiter.checks.get k = none ∧ ∀ l, l < k → s.arbiter.checks.get l ≠ none
    let s' := { s with channels := s.channels.set c { s.channels.get c with state := .run } }
    let run := x.carry.getD { value := 0, count := 0 }
    let token := if 3 ≤ run.count then Spec.runTokenOf run.count run.value
      else BitVec.ofNat 8 (run.count - 1) :: List.replicate run.count run.value
    let nothing : Prop := j.source = [] ∧ (op = .pack → Spec.endJob j.entry = true → run.count = 0)
    ((op ≠ .check ∧ ∀ p, s.arbiter.packs.get p ≠ none) ∨ (kind ≠ .none ∧ ∀ k, s.arbiter.checks.get k ≠ none) →
      exec (.unitJoin c) s = .next
        { s with
          arbiter := { s.arbiter with
            waiting := s.arbiter.waiting.set c (some { pack := op != .check, check := kind != .none }) } }) ∧
    (∀ f fs, j.source = f :: fs → 1 ≤ f.length.toNat → (op = .pass → 1 ≤ totalLength j.dest) →
      (∀ k, op = .check → lowestCheck k →
        exec (.unitJoin c) s = .next
          { s' with
            arbiter := { s.arbiter with
              waiting := s.arbiter.waiting.set c none, pointer := c, checks := s.arbiter.checks.set k (some c) }
            checks := s.checks.set k (Spec.checkLoaded kind tap j x none)
            biu := { s.biu with
              wanted := s.biu.wanted.set (Requester.ck k).position (some (Spec.readFrom f 0)) } }) ∧
      (∀ p, op ≠ .check → kind = .none → lowestPack p →
        exec (.unitJoin c) s = .next
          { s' with
            arbiter := { s.arbiter with
              waiting := s.arbiter.waiting.set c none, pointer := c, packs := s.arbiter.packs.set p (some c) }
            packs := s.packs.set p (Spec.packLoaded (Spec.modeOf op) j x none)
            biu := { s.biu with
              wanted := s.biu.wanted.set (Requester.pk p).position (some (Spec.readFrom f 0)) } }) ∧
      ∀ p k, op ≠ .check → kind ≠ .none → lowestPack p → lowestCheck k →
        exec (.unitJoin c) s = .next
          { s' with
            arbiter := { s.arbiter with
              waiting := s.arbiter.waiting.set c none, pointer := c
              packs := s.arbiter.packs.set p (some c), checks := s.arbiter.checks.set k (some c) }
            packs := s.packs.set p (Spec.packLoaded (Spec.modeOf op) j x (some (k, tap)))
            checks := s.checks.set k (Spec.checkLoaded kind tap j x (some p))
            biu := { s.biu with
              wanted := s.biu.wanted.set (Requester.pk p).position (some (Spec.readFrom f 0)) } }) ∧
    (∀ f fs, op = .pack → (∀ n, x.phase = some (.runValue n) → 3 ≤ n) → j.source = [] →
      Spec.endJob j.entry = true → 1 ≤ run.count → run.count ≤ 130 →
      token.length ≤ totalLength j.dest → j.dest = f :: fs → 1 ≤ f.length.toNat →
      ∀ p joined, lowestPack p → (kind = .none → joined = none) →
        (kind ≠ .none → ∃ k, lowestCheck k ∧ joined = some (k, tap)) →
        let u := Spec.packLoaded .pack j x joined
        let n := min (Spec.bufferSpace u) token.length
        ∃ (owed : List OutItem) (work : PackWork),
          let u' := { Spec.accepting u 0 (token.take n) with
            destCursor := Spec.destMoved u n, owed := owed, work := work, finishing := true }
          exec (.unitJoin c) s = .next
            { s' with
              arbiter := { s.arbiter with
                waiting := s.arbiter.waiting.set c none, pointer := c, packs := s.arbiter.packs.set p (some c)
                checks := match joined with
                  | some (k, _) => s.arbiter.checks.set k (some c)
                  | none => s.arbiter.checks }
              packs := s.packs.set p u'
              checks := match joined with
                | some (k, _) =>
                  Spec.offered (s.checks.set k (Spec.checkLoaded kind tap j x (some p))) joined [] (token.take n)
                | none => s.checks
              biu := { s.biu with
                wanted := s.biu.wanted.set (Requester.pk p).position (some (Spec.writeFrom f.address (token.take n))) } } ∧
            Spec.owedLegal u' ∧ Spec.pending u' = Spec.leftOf n [token] ∧ (Spec.pendingWork u').runCount = 0) ∧
    (nothing ∨ (op = .pass ∧ j.source ≠ [] ∧ totalLength j.dest = 0) ∨
        (op = .pack ∧ j.source = [] ∧ Spec.endJob j.entry = true ∧ 1 ≤ run.count ∧ run.count ≤ 130 ∧
          totalLength j.dest < token.length) →
      (op ≠ .check → ∃ p, s.arbiter.packs.get p = none) → (kind ≠ .none → ∃ k, s.arbiter.checks.get k = none) →
      ∃ t st code, exec (.unitJoin c) s = .next t ∧ Spec.runEnded c s t st 0 0 none code ∧
        (nothing → code = (if kind ≠ .none ∧ Spec.endJob j.entry = true then some x.running.final else none) ∧
          st = Spec.doneStatus j.entry code (x.phase.getD .header)) ∧
        (¬ nothing → code = none ∧ st = .outOverrun) ∧
        t.arbiter = { s.arbiter with waiting := s.arbiter.waiting.set c none, pointer := c } ∧ t.biu = s.biu ∧
        t.hostMem = s.hostMem)

/-- A read of a CHECK job that ends (R43, R44, R122, R123, R124, R125). With ready: its bytes advance the running code and the
taken count at once; the next read is formed, which stands in `wanted` until PORT_REQUEST (log entry 3), or at the end of the
source the run ends DONE and the channel is in RETIRE with the count, for an END job the final code, and status OK, or
MISMATCH when it verifies and the codes differ. With error or timeout: the run ends BUS_FAULT at SOURCE, the read's data
dropped. The release of the units is evaluated: which waiting channels are granted, with which units, and where the rotation
pointer ends (log entry 14 for runs that end at their grant). -/
def Obligations.CheckReadTaken : Prop :=
  ∀ (s : State) (c : ChannelId) (k : CheckId) (b : Burst) (j : Job) (w : Working) (x : Context),
    s.live = true → s.UnitsKept → s.biu.burst = some b → b.owner = .ck k → b.request.write = false →
    s.arbiter.checks.get k = some c → (∀ p, s.arbiter.packs.get p ≠ some c) →
    (s.checks.get k).condition = .running → (s.checks.get k).ending = .none → (s.channels.get c).job = some j →
    (s.channels.get c).work = some w → w.ctx = some x → j.entry.opByte = 0 →
    (s.checks.get k).endFlag = Spec.endJob j.entry →
    let u := s.checks.get k
    (∀ data, Spec.lastPhase b →
      let bytes := b.got ++ b.request.take b.phasesEnded data
      let u' := { u with
        running := bytes.foldl RunningCode.feed u.running, taken := u.taken + bytes.length
        sourceCursor := u.sourceCursor.advance u.source bytes.length }
      let code := if Spec.endJob j.entry = true then some u'.running.final else none
      (∀ f, u'.source[u'.sourceCursor.fragment]? = some f →
        exec (.burstEndsWithReady data) s = .next
          { s with
            checks := s.checks.set k u'
            biu := { s.biu with
              burst := none
              wanted := s.biu.wanted.set (Requester.ck k).position
                (some (Spec.readFrom f u'.sourceCursor.offset)) } }) ∧
      (u'.source[u'.sourceCursor.fragment]? = none →
        ∃ t, exec (.burstEndsWithReady data) s = .next t ∧
          Spec.runEnded c s t (Spec.doneStatus j.entry code .header) u'.taken 0 none code ∧ t.hostMem = s.hostMem ∧
          Spec.releaseEvaluated c s t ∧
          ∃ w', (t.channels.get c).work = some w' ∧ w'.ctx = some
            { x with running := u'.running, inTotal := x.inTotal + BitVec.ofNat 32 u'.taken })) ∧
    ∀ why, (why = .timeout → b.timeout ≠ 0) →
      ∃ t, exec (Spec.faultCommand why) s = .next t ∧
        Spec.runEnded c s t .busFault u.taken 0 (some { place := .source, why := why }) none ∧
        t.biu.lastFault = Spec.faultOf b why ∧ t.hostMem = s.hostMem ∧ Spec.releaseEvaluated c s t

/-- A pack unit's transfer that ends with ready, in every mode, while its pending output has room (R96 to R100, R104 to R106,
R120). A read brings the read-ahead and moves the source cursor; a write raises the written count and empties the buffer. The
output pending is what a write held back of an earlier byte's or of the end-of-source emissions, what the read-ahead calls for,
and at the end of the source the mode's finish. When it leaves the write buffer short of its end and a read is left, all the bytes
are taken, their output is accepted into the buffer and the next read is formed. When it reaches the buffer's end, exactly the
output up to there is accepted, the buffer's write is formed, no more source bytes are taken than those whose output that is,
and the rest of the output, cut inside a piece or between two, stays pending. A joined check unit is offered the bytes taken or
the bytes accepted, as its tap says. The bursts stand in `wanted` until PORT_REQUEST (log entry 3), a PACK or UNPACK unit whose
capacity is 0 makes its read all the same (log entry 8), what a write holds back stands in `owed` (log entry 20), and the address
of the buffered bytes in `writeAddress` (log entry 21). -/
def Obligations.PackTransferTaken : Prop :=
  ∀ (s : State) (c : ChannelId) (p : PackId) (b : Burst) (data : Word), s.live = true → s.UnitsKept →
    s.biu.burst = some b → b.owner = .pk p → Spec.lastPhase b → s.arbiter.packs.get p = some c →
    let u := Spec.afterTransfer (s.packs.get p) b data
    u.condition = .running → u.ending = .none → Spec.owedLegal u →
    let bytes := u.readAhead
    let out := (Spec.pending u).flatten
    let space := Spec.bufferSpace u
    ∃ m, (b.request.write = false → m = s.hostMem) ∧
      (∀ a, (∀ k < b.request.length, (b.request.address + BitVec.ofNat 32 k).toNat ≠ a) →
        Memory.read m a = Memory.read s.hostMem a) ∧
      (∀ g, u.source[u.sourceCursor.fragment]? = some g → out.length ≤ Spec.capacity u →
        out = [] ∨ out.length < space → (u.mode = .pass → out.length < Spec.capacity u) →
        exec (.burstEndsWithReady data) s = .next
          { s with
            packs := s.packs.set p
              { Spec.accepting u bytes.length out with readAhead := [], work := (Spec.called u).2, owed := [] }
            checks := Spec.offered s.checks u.joined bytes out
            biu := { s.biu with
              burst := none
              wanted := s.biu.wanted.set (Requester.pk p).position (some (Spec.readFrom g u.sourceCursor.offset)) }
            hostMem := m }) ∧
      ∀ pre piece more k, Spec.pending u = pre ++ piece :: more → pre.flatten.length < space →
        space ≤ pre.flatten.length + piece.length → pre.flatten.length + piece.length ≤ Spec.capacity u →
        Spec.pieceOfByte u pre.length k →
        let n := if u.mode ≠ .unpack ∧ space < ((Spec.pending u).take (Spec.pieceCount u k)).flatten.length then k - 1
          else k
        ∃ (owed : List OutItem) (work : PackWork),
          let u' := { Spec.accepting u n (out.take space) with
            readAhead := bytes.drop n, destCursor := Spec.destMoved u space, owed := owed, work := work
            finishing := u.finishing || decide (Spec.pieceCount u bytes.length ≤ pre.length) }
          exec (.burstEndsWithReady data) s = .next
            { s with
              packs := s.packs.set p u'
              checks := Spec.offered s.checks u.joined (bytes.take n) (out.take space)
              biu := { s.biu with
                burst := none
                wanted := s.biu.wanted.set (Requester.pk p).position
                  (some (Spec.writeFrom u'.writeAddress u'.writeBuffer)) }
              hostMem := m } ∧
            Spec.owedLegal u' ∧ Spec.pending u' = Spec.leftOf space (Spec.pending u) ∧
            Spec.pendingWork u' = Spec.pendingWork u

/-- A pack unit's transfer that ends with ready with the end of the source at hand, or with pending output that cannot be
accepted (R98, R104, R105, R109, R110). At the end of the source the mode's finish is done: the buffer's last write is formed,
or the run ends DONE at once when there is nothing to write. A piece of output for which the destination has no room, be it of
a byte or of the end-of-source emissions, stops the run OUT_OVERRUN: what was accepted before it stays, its byte is not taken
(but for a run value in UNPACK whose first copy was), the rest is dropped, and the buffer is written, or the run ends at once.
The release of the units is evaluated: which waiting channels are granted, with which units, and where the rotation pointer
ends (log entry 14 for runs that end at their grant). Output that a write held back, which stands in `owed` (log entry 20), is
pending before all else. The bursts stand in `wanted` until PORT_REQUEST (log entry 3), and the address of the buffered bytes
in `writeAddress` (log entry 21). -/
def Obligations.PackTransferStops : Prop :=
  ∀ (s : State) (c : ChannelId) (p : PackId) (b : Burst) (data : Word) (j : Job) (w : Working) (x : Context) (op : Op),
    s.live = true → s.UnitsKept → s.biu.burst = some b → b.owner = .pk p → Spec.lastPhase b →
    s.arbiter.packs.get p = some c →
    let u := Spec.afterTransfer (s.packs.get p) b data
    u.condition = .running → u.ending = .none → Spec.owedLegal u →
    (∀ k, s.arbiter.checks.get k = some c ↔ ∃ tap, u.joined = some (k, tap)) →
    (∀ k, s.arbiter.checks.get k = some c → (s.checks.get k).endFlag = Spec.endJob j.entry) →
    u.endFlag = Spec.endJob j.entry → (s.channels.get c).job = some j → (s.channels.get c).work = some w →
    w.ctx = some x → Op.ofByte j.entry.opByte = some op → op ≠ .check → u.mode = Spec.modeOf op →
    let bytes := u.readAhead
    let out := (Spec.pending u).flatten
    ∃ m, (b.request.write = false → m = s.hostMem) ∧
      (∀ a, (∀ k < b.request.length, (b.request.address + BitVec.ofNat 32 k).toNat ≠ a) →
        Memory.read m a = Memory.read s.hostMem a) ∧
      let writes (u' : PackUnit) (taken accepted : List Byte) : Prop :=
        exec (.burstEndsWithReady data) s = .next
          { s with
            packs := s.packs.set p u'
            checks := Spec.offered s.checks u.joined taken accepted
            biu := { s.biu with
              burst := none
              wanted := s.biu.wanted.set (Requester.pk p).position
                (some (Spec.writeFrom u'.writeAddress u'.writeBuffer)) }
            hostMem := m }
      let ends (st : Status) (n : Nat) (code : Option Word) : Prop :=
        ∃ t, exec (.burstEndsWithReady data) s = .next t ∧
          Spec.runEnded c s t st (u.taken + n) u.written none code ∧ t.hostMem = m ∧ Spec.releaseEvaluated c s t
      (Spec.atSourceEnd u = true → out.length ≤ Spec.capacity u → out = [] ∨ out.length < Spec.bufferSpace u →
        (u.writeBuffer ++ out ≠ [] →
          ∃ work, writes
              { Spec.accepting u bytes.length out with readAhead := [], owed := [], finishing := true, work := work }
              bytes out ∧
            Spec.tidy work = Spec.pendingWork u) ∧
        (u.writeBuffer ++ out = [] →
          let code := match u.joined with
            | some (k, tap) =>
              if Spec.endJob j.entry = true then
                some ((match tap with
                  | .inTap => bytes
                  | .outTap => []).foldl RunningCode.feed (s.checks.get k).running).final
              else none
            | none => none
          ends (Spec.doneStatus j.entry code (Spec.called u).2.phase) bytes.length code)) ∧
      ∀ pre piece more k, Spec.pending u = pre ++ piece :: more → pre.flatten.length ≤ Spec.capacity u →
        Spec.capacity u < pre.flatten.length + piece.length → pre.flatten = [] ∨ pre.flatten.length < Spec.bufferSpace u →
        Spec.pieceOfByte u pre.length k →
        let n := if pre.length < Spec.pieceCount u k ∧ ¬ (u.mode = .unpack ∧ Spec.pieceCount u (k - 1) < pre.length)
          then k - 1 else k
        (u.writeBuffer ++ pre.flatten ≠ [] →
          ∃ u', writes u' (bytes.take n) pre.flatten ∧ u'.taken = u.taken + n ∧
            u'.accepted = u.accepted + pre.flatten.length ∧ u'.written = u.written ∧ u'.ending = .outOverrun ∧
            u'.writeBuffer = u.writeBuffer ++ pre.flatten ∧
            u'.writeAddress = (Spec.accepting u 0 pre.flatten).writeAddress ∧ u'.readAhead = [] ∧ u'.owed = [] ∧
            u'.work.group = [] ∧ u'.work.runCount = 0 ∧ u'.condition = .running ∧ u'.joined = u.joined) ∧
        (u.writeBuffer ++ pre.flatten = [] → ends .outOverrun n none)

/-- The ends of a pack unit's run at a transfer, in every mode, with a code or without (R43, R44, R49, R66, R97, R100, R109 to
R113, R124, R125). At the last write with ready the run is DONE: the channel is in RETIRE with OK, with MISMATCH when it
verifies and the codes differ, or with TRUNCATED when an UNPACK message ends inside a token, and it keeps the working context.
After an overrun it is OUT_OVERRUN whatever that write's end, and a PASS write after which no capacity is left before the end
of the source ends so too. A write that faults is BUS_FAULT at DEST, a read that faults BUS_FAULT at SOURCE, its bytes not
counted; a fault replaces the last initiator fault registers (R174) and a ready leaves them. The counts are the bytes taken
and the bytes written. The release of the units is evaluated: which waiting channels are granted, with which units, and where
the rotation pointer ends (log entry 14 for runs that end at their grant). -/
def Obligations.PackRunEnds : Prop :=
  ∀ (s : State) (c : ChannelId) (p : PackId) (joined : Option CheckId) (b : Burst) (j : Job) (w : Working) (x : Context)
    (op : Op), s.live = true → s.UnitsKept → s.biu.burst = some b → b.owner = .pk p →
    s.arbiter.packs.get p = some c → (∀ k, s.arbiter.checks.get k = some c ↔ joined = some k) →
    let u := s.packs.get p
    u.condition = .running → (∀ k, joined = some k → (s.checks.get k).endFlag = Spec.endJob j.entry) →
    (s.channels.get c).job = some j → (s.channels.get c).work = some w → w.ctx = some x →
    Op.ofByte j.entry.opByte = some op → op ≠ .check → u.mode = Spec.modeOf op →
    let running := match joined with
      | some k => (s.checks.get k).running
      | none => x.running
    let code := if joined.isSome = true ∧ Spec.endJob j.entry = true then some running.final else none
    let ends (e : Instr) (st : Status) (outCount : Nat) (fault : Option FaultDetail) (final : Option Word)
        (last : InitiatorFault) : Prop :=
      ∃ t, exec e s = .next t ∧ Spec.runEnded c s t st u.taken outCount fault final ∧ t.biu.burst = none ∧
        t.biu.lastFault = last ∧ Spec.releaseEvaluated c s t ∧
        ∀ a, (b.request.write = true → ∀ k < b.request.length, (b.request.address + BitVec.ofNat 32 k).toNat ≠ a) →
          Memory.read t.hostMem a = Memory.read s.hostMem a
    (∀ data, b.request.write = true → Spec.lastPhase b → u.ending = .none → u.owed = [] → u.readAhead = [] →
      u.source[u.sourceCursor.fragment]? = none → (u.mode = .pack → u.finishing = true) →
      ends (.burstEndsWithReady data) (Spec.doneStatus j.entry code u.work.phase) (u.written + u.writeBuffer.length)
        none code s.biu.lastFault ∧
      ∃ t w', exec (.burstEndsWithReady data) s = .next t ∧ (t.channels.get c).work = some w' ∧ w'.ctx = some
        { x with
          running := running
          carry := if u.mode = .pack then
              some { value := if u.work.runCount = 0 then 0 else u.work.runValue, count := u.work.runCount }
            else x.carry
          phase := if u.mode = .unpack then some u.work.phase else x.phase
          inTotal := x.inTotal + BitVec.ofNat 32 u.taken
          outTotal := x.outTotal + BitVec.ofNat 32 (u.written + u.writeBuffer.length) }) ∧
    (∀ data, b.request.write = true → Spec.lastPhase b → u.ending = .outOverrun →
      ends (.burstEndsWithReady data) .outOverrun (u.written + u.writeBuffer.length) none none s.biu.lastFault) ∧
    (∀ data, b.request.write = true → Spec.lastPhase b → u.ending = .none → u.owed = [] → u.mode = .pass →
      Spec.capacity u = 0 → u.readAhead ≠ [] ∨ u.source[u.sourceCursor.fragment]? ≠ none →
      ends (.burstEndsWithReady data) .outOverrun (u.written + u.writeBuffer.length) none none s.biu.lastFault) ∧
    ∀ why, (why = .timeout → b.timeout ≠ 0) →
      (b.request.write = true → u.ending = .outOverrun →
        ends (Spec.faultCommand why) .outOverrun u.written none none (Spec.faultOf b why)) ∧
      (b.request.write = true → u.ending = .none →
        ends (Spec.faultCommand why) .busFault u.written (some { place := .dest, why := why }) none
          (Spec.faultOf b why)) ∧
      (b.request.write = false → u.ending = .none →
        ends (Spec.faultCommand why) .busFault u.written (some { place := .source, why := why }) none
          (Spec.faultOf b why))

/-- The C32 code (R117): a byte is combined into the low eight bits of the register, then eight shifts with the constant
0x82F63B78; the register starts at 0xFFFFFFFF and the final code is its complement. The check values are the spec's. -/
def Obligations.C32Code : Prop :=
  let shift (r : Word) : Word := if r.toNat % 2 = 1 then (r >>> 1) ^^^ 0x82F63B78#32 else r >>> 1
  RunningCode.initial .c32 = .c32 0xFFFFFFFF#32 ∧
    (∀ (r : Word) (b : Byte), RunningCode.feed (.c32 r) b =
      .c32 (shift (shift (shift (shift (shift (shift (shift (shift (r ^^^ b.zeroExtend 32))))))))) ) ∧
    (∀ r : Word, (RunningCode.c32 r).final = ~~~r) ∧
    ((RunningCode.initial .c32).feedAll
      [0x31, 0x32, 0x33, 0x34, 0x35, 0x36, 0x37, 0x38, 0x39]).final = 0xE3069283#32 ∧
    (RunningCode.initial .c32).final = 0

/-- The D32 code (R118): over any bytes the sums from A = 1 and B = 0 are 1 plus the bytes, and the sum of the A of every
byte, each modulo 65519; the final code is B times 65536 plus A. The check values are the spec's. -/
def Obligations.D32Code : Prop :=
  (∀ (a b : Fin 65519) (x : Byte), ∃ a' b', RunningCode.feed (.d32 a b) x = .d32 a' b' ∧
      a'.val = (a.val + x.toNat) % 65519 ∧ b'.val = (b.val + a'.val) % 65519) ∧
    RunningCode.initial .d32 = .d32 1 0 ∧
    (∀ bytes : List Byte, ∃ a b, (RunningCode.initial .d32).feedAll bytes = .d32 a b ∧
      a.val = (1 + (bytes.map BitVec.toNat).sum) % 65519 ∧
      b.val = ((List.range bytes.length).map fun n => 1 + ((bytes.take (n + 1)).map BitVec.toNat).sum).sum % 65519) ∧
    (∀ a b : Fin 65519, (RunningCode.d32 a b).final.toNat = b.val * 65536 + a.val) ∧
    ((RunningCode.initial .d32).feedAll
      [0x31, 0x32, 0x33, 0x34, 0x35, 0x36, 0x37, 0x38, 0x39]).final = 0x091E01DE#32 ∧
    (RunningCode.initial .d32).final = 1

/-- The encoder's byte-by-byte working (R104) emits exactly the tokens of the whole-run rule (R102) and returns its carry, for
every legal carry, every source and either kind of job. -/
def Obligations.EncoderFollowsTheRule : Prop :=
  ∀ (endJob : Bool) (carry : Carry) (source : List Byte), Spec.carryLegal carry →
    Spec.unitEncoding endJob carry source =
      Spec.encodeRule endJob (Spec.combined carry source).length [] (Spec.combined carry source)

/-- UNPACK undoes PACK (R101 to R106): decoding the tokens of a job, from the phase HEADER, gives back its combined sequence
but for the bytes the carry holds, which are its last ones, and leaves the phase at HEADER; an END job holds none back. -/
def Obligations.UnpackUndoesPack : Prop :=
  ∀ (endJob : Bool) (carry : Carry) (source : List Byte), Spec.carryLegal carry →
    let encoded := Spec.unitEncoding endJob carry source
    let start : PackWork := { group := [], runValue := 0, runCount := 0, phase := .header }
    (∃ bytes, Spec.unitDecodes start encoded.1.flatten = (bytes, start) ∧
      bytes ++ List.replicate encoded.2.count encoded.2.value = Spec.combined carry source) ∧
    (endJob = true → encoded.2.count = 0)

/-! ### Bursts and the formats of host memory -/

/-- A ready on a data phase that is not the last (R171, R173): the word is transferred, into host memory at the enabled lanes'
addresses for a write and to the owner's bytes for a read, the next data phase follows, and the count starts again. The last
word of a write burst that ends with ready is put into host memory in the same way. A ready without a burst changes nothing
(R174). The phases ended and the bytes taken are fields of the burst (log entry 22), whose address phase is then over (log
entry 23). -/
def Obligations.DataPhase : Prop :=
  ∀ (s : State) (data : Word),
    (s.biu.burst = none → exec (.dataPhaseReady data) s = .next s) ∧
    (∀ b, s.biu.burst = some b → Spec.lastPhase b → b.request.write = true →
      ∃ t, exec (.burstEndsWithReady data) s = .next t ∧
        (∀ lane k, lane < 4 → b.request.byteIndex b.phasesEnded lane = some k →
          Memory.read t.hostMem (b.request.address + BitVec.ofNat 32 k).toNat = some (b.request.data.getD k 0)) ∧
        ∀ a, (∀ lane k, lane < 4 → b.request.byteIndex b.phasesEnded lane = some k →
            (b.request.address + BitVec.ofNat 32 k).toNat ≠ a) →
          Memory.read t.hostMem a = Memory.read s.hostMem a) ∧
    ∀ b, s.biu.burst = some b → ¬ Spec.lastPhase b →
      (b.request.write = false →
        exec (.dataPhaseReady data) s = .next
          { s with
            biu := { s.biu with
              burst := some
                { b with
                  phasesEnded := b.phasesEnded + 1, got := b.got ++ b.request.take b.phasesEnded data
                  periods := 0, addressPhase := false } } }) ∧
      (b.request.write = true →
        ∃ m, exec (.dataPhaseReady data) s = .next
          { s with
            hostMem := m
            biu := { s.biu with
              burst := some { b with phasesEnded := b.phasesEnded + 1, periods := 0, addressPhase := false } } } ∧
          (∀ lane k, lane < 4 → b.request.byteIndex b.phasesEnded lane = some k →
            Memory.read m (b.request.address + BitVec.ofNat 32 k).toNat = some (b.request.data.getD k 0)) ∧
          ∀ a, (∀ lane k, lane < 4 → b.request.byteIndex b.phasesEnded lane = some k →
              (b.request.address + BitVec.ofNat 32 k).toNat ≠ a) →
            Memory.read m a = Memory.read s.hostMem a)

/-- The reads the units form lie in one fragment and one 32-byte block (R96, R122), and the words and byte enables of a burst
are those of its bytes (R170): 1 to 8 words, all four lanes but at the first and last. A cursor moves past the bytes read, to the
next fragment at a fragment's end (R96, R122). The bytes of a write buffer lie one after another in one fragment and one block,
and the buffer is full exactly at the end of either (R97); that `writeAddress` holds the address of the first is log entry 21. -/
def Obligations.BurstsStayInOneBlock : Prop :=
  (∀ (fs : List Fragment) (c : Cursor) (f : Fragment), fs[c.fragment]? = some f → c.offset < f.length.toNat →
    ∃ q, readAt fs c = some q ∧ q.write = false ∧ q.address = f.address + BitVec.ofNat 32 c.offset ∧
      1 ≤ q.length ∧ q.address.toNat % 32 + q.length ≤ 32 ∧ c.offset + q.length ≤ f.length.toNat ∧
      (q.address.toNat % 32 + q.length = 32 ∨ c.offset + q.length = f.length.toNat)) ∧
  (∀ (fs : List Fragment) (c : Cursor) (f : Fragment) (n : Nat), fs[c.fragment]? = some f →
    (c.offset + n < f.length.toNat → c.advance fs n = { fragment := c.fragment, offset := c.offset + n }) ∧
    (c.offset + n = f.length.toNat → c.advance fs n = { fragment := c.fragment + 1, offset := 0 })) ∧
  (∀ (u : PackUnit) (b : Byte) (f : Fragment) (first : Word), u.dest[u.destCursor.fragment]? = some f →
    u.destCursor.offset < f.length.toNat → u.writeBuffer.length ≤ u.destCursor.offset →
    first = f.address + BitVec.ofNat 32 (u.destCursor.offset - u.writeBuffer.length) →
    (u.writeBuffer ≠ [] → u.writeAddress = first) → first.toNat % 32 + u.writeBuffer.length < 32 →
    (u.accept b).writeBuffer = u.writeBuffer ++ [b] ∧ (u.accept b).writeAddress = first ∧
    (u.accept b).bufferWrite = Spec.writeFrom first (u.writeBuffer ++ [b]) ∧
    (u.accept b).accepted = u.accepted + 1 ∧
    (u.accept b).destCursor =
      (if u.destCursor.offset + 1 = f.length.toNat then { fragment := u.destCursor.fragment + 1, offset := 0 }
        else { u.destCursor with offset := u.destCursor.offset + 1 }) ∧
    (u.fillsBuffer = true ↔ first.toNat % 32 + (u.writeBuffer.length + 1) = 32 ∨
      u.destCursor.offset + 1 = f.length.toNat)) ∧
  (∀ q : BurstRequest, 1 ≤ q.length → q.address.toNat % 32 + q.length ≤ 32 →
    1 ≤ q.words ∧ q.words ≤ 8 ∧
    (∀ i lane, lane < 4 → ((q.enables i).getLsbD lane = true ↔
      q.address.toNat % 4 ≤ 4 * i + lane ∧ 4 * i + lane < q.address.toNat % 4 + q.length)) ∧
    ∀ i, i < q.words → i ≠ 0 → i + 1 ≠ q.words → q.enables i = 0xF#4)

/-- The formats of host memory (R183, R184). A completion record's 32 bytes: every field at its place, 0 where no field stands.
A job entry is read as it was laid out: from the 32 bytes of any entry the channel reads that entry, whatever the bits and
bytes that hold no field, and a fragment table's entries are read as they were laid out. -/
def Obligations.MemoryFormats : Prop :=
  (∀ r : Record,
    r.bytes.length = 32 ∧ field r.bytes 0 1 = r.opByte.toNat ∧ field r.bytes 1 1 = r.positionByte.toNat ∧
    field r.bytes 2 1 =
      (match r.status with
        | .ok => 0
        | .mismatch => 1
        | .truncated => 2
        | .badJob => 8
        | .badHandle => 9
        | .kindConflict => 10
        | .seqGap => 11
        | .outOverrun => 12
        | .busFault => 13) ∧
    field r.bytes 3 1 =
      (match r.fault with
        | none => 0
        | some ⟨.fragTable, .error⟩ => 1
        | some ⟨.source, .error⟩ => 2
        | some ⟨.dest, .error⟩ => 3
        | some ⟨.fragTable, .timeout⟩ => 5
        | some ⟨.source, .timeout⟩ => 6
        | some ⟨.dest, .timeout⟩ => 7) + 8 * r.code.isSome.toNat + 16 * r.channel.val ∧
    field r.bytes 4 2 = r.ringPosition.toNat ∧ field r.bytes 6 2 = r.tag.toNat ∧
    field r.bytes 8 2 = r.segment.toNat ∧ field r.bytes 10 2 = 0 ∧
    field r.bytes 12 4 = r.inCount % 2 ^ 32 ∧ field r.bytes 16 4 = r.outCount % 2 ^ 32 ∧
    field r.bytes 20 4 = (r.code.getD 0).toNat ∧ field r.bytes 24 4 = 0 ∧ field r.bytes 28 4 = r.phase.toNat) ∧
  (∀ (fs : List Fragment) (more : List Byte),
    fragmentsOf fs.length ((fs.map Spec.fragmentBytes).flatten ++ more) = fs) ∧
  ∀ (e : JobEntry) (flags : BitVec 7) (b7 b14 b15 b28 b29 b30 b31 : Byte),
    JobEntry.ofBytes (Spec.entryBytes e flags b7 b14 b15 b28 b29 b30 b31) = e

/-! ### The completion writer and retirement -/

/-- The writer's commands (R132, R133, R137, R144): ENABLE puts a DISABLED writer in READY with TAIL and HEAD 0, RESTART a STALLED
one in READY; with room and a channel waiting the chosen channel's record is begun at the same event. DISABLE takes READY and
STALLED to DISABLED at once, and in WRITING is pending. In every other state each is ignored. The record's burst stands in
`wanted` until PORT_REQUEST (log entry 3). -/
def Obligations.WriterCommands : Prop :=
  ∀ s : State, s.live = true →
    let enabled := { s.writer with state := .ready, tail := 0, head := 0 }
    let restarted := { s.writer with state := .ready }
    (s.writer.state ≠ .disabled → exec .enableWriter s = .next s) ∧
    (s.writer.state ≠ .stalled → exec .restartWriter s = .next s) ∧
    (s.writer.state = .disabled → (∀ c, s.writer.requesting.get c = false) →
      exec .enableWriter s = .next { s with writer := enabled }) ∧
    (s.writer.state = .stalled →
      (s.writer.ringSize ≤ (s.writer.tail - s.writer.head).toNat ∨ ∀ c, s.writer.requesting.get c = false) →
      exec .restartWriter s = .next { s with writer := restarted }) ∧
    (∀ c e k st, s.writer.state = .disabled → 0 < s.writer.ringSize → Spec.chosen s.writer c →
      Spec.hasRecord s c e k st →
      exec .enableWriter s = .next
        (Spec.recordBegun enabled c (Spec.record enabled c (s.channels.get c) e k st) s)) ∧
    (∀ c e k st, s.writer.state = .stalled → (s.writer.tail - s.writer.head).toNat < s.writer.ringSize →
      Spec.chosen s.writer c → Spec.hasRecord s c e k st →
      exec .restartWriter s = .next
        (Spec.recordBegun restarted c (Spec.record restarted c (s.channels.get c) e k st) s)) ∧
    (s.writer.state = .ready ∨ s.writer.state = .stalled →
      exec .disableWriter s = .next { s with writer := { s.writer with state := .disabled } }) ∧
    (s.writer.state = .writing →
      exec .disableWriter s = .next { s with writer := { s.writer with disablePending := true } }) ∧
    (s.writer.state = .disabled → exec .disableWriter s = .next s)

/-- A HEAD write (R137, R141, R147): accepted exactly when the new HEAD lies between the old one and TAIL; an accepted one sets
HEAD, and where it lowers the level under a READY writer the chosen channel's record is begun; a refused one changes nothing but
the last access error and ACCESS_ERR. A leaving of the group that came before the write has raised its event first: the leavings
that have yet to reach the writer do so at the write. Those leavings, and the record's burst, which stands in `wanted` until
PORT_REQUEST, are kept as log entry 3 says. -/
def Obligations.HeadWrite : Prop :=
  ∀ (s : State) (v : Word), s.live = true →
    let s' := Spec.leavingsTaken s
    let new : Half := v.extractLsb' 0 16
    let moved := { s.writer with head := new }
    let accepted := (s.writer.tail - new).toNat ≤ (s.writer.tail - s.writer.head).toNat
    ((∀ c, (s.channels.get c).leavings = []) → s' = s) ∧
    (¬ accepted → exec (.headWrite v) s = .next (Spec.refused 0x054 .headRange s')) ∧
    (new = s.writer.head → exec (.headWrite v) s = .next s') ∧
    (accepted →
      s.writer.state ≠ .ready ∨ s.writer.ringSize ≤ (s.writer.tail - new).toNat ∨
        (∀ c, s.writer.requesting.get c = false) →
      exec (.headWrite v) s = .next { s' with writer := moved }) ∧
    (∀ c e k st, accepted → new ≠ s.writer.head → s.writer.state = .ready →
      (s.writer.tail - new).toNat < s.writer.ringSize → Spec.chosen s.writer c → Spec.hasRecord s c e k st →
      exec (.headWrite v) s = .next
        (Spec.recordBegun moved c (Spec.record moved c (s.channels.get c) e k st) s'))

/-- A record request (R67, R136, R137): a channel in RETIRE enters the requesting set; a READY writer with room then begins the
record of the channel its rotation chooses, its burst in `wanted` until PORT_REQUEST (log entry 3). -/
def Obligations.RecordRequest : Prop :=
  ∀ (s : State) (c : ChannelId), s.live = true → (s.channels.get c).state = .retire →
    (s.channels.get c).recordWritten = false → (∀ r, s.writer.current = some r → r.channel ≠ c) →
    s.writer.requesting.get c = false →
    let asked := { s.writer with requesting := s.writer.requesting.set c true }
    (s.writer.state ≠ .ready ∨ s.writer.ringSize ≤ (s.writer.tail - s.writer.head).toNat →
      exec (.recordRequest c) s = .next { s with writer := asked }) ∧
    (∀ d e k st, s.writer.state = .ready → (s.writer.tail - s.writer.head).toNat < s.writer.ringSize →
      Spec.chosen asked d → Spec.hasRecord s d e k st →
      exec (.recordRequest c) s = .next
        (Spec.recordBegun asked d (Spec.record asked d (s.channels.get d) e k st) s))

/-- The two ends of a record write (R139, R143, R146, R148). With ready: TAIL rises by one, CQ_LEVEL is raised when the
threshold is not 0 and the new level reaches it, the channel is told, and the writer is READY, or DISABLED if that was pending.
With a fault: TAIL stays, the channel is back in the requesting set, CQ_FAULT is raised, and the writer is STALLED, or DISABLED
if that was pending; host memory changes at most in the burst's bytes. The first clause is for a writer with nothing more to
begin, the second for one that goes on to the next record: it is WRITING again, with that record begun and its burst in `wanted`
until PORT_REQUEST (log entry 3), and CQ_LEVEL is judged before by the new level. That the channel told of its record keeps
`recordWritten` until its RETIREMENT is log entry 3, and which bytes of a word cut short the memory took is free (log entry 4). -/
def Obligations.RecordWriteEnds : Prop :=
  ∀ (s : State) (b : Burst) (r : Record), s.live = true → s.biu.burst = some b → b.owner = .cw →
    b.request.write = true → s.writer.current = some r →
    let level := (s.writer.tail + 1 - s.writer.head).toNat
    (∀ data, Spec.lastPhase b → s.writer.disablePending = true ∨ s.writer.ringSize ≤ level ∨
        (∀ c, s.writer.requesting.get c = false) →
      ∃ m, exec (.burstEndsWithReady data) s = .next
        { s with
          writer := { s.writer with
            tail := s.writer.tail + 1, current := none, disablePending := false
            state := if s.writer.disablePending = true then .disabled else .ready }
          channels := s.channels.set r.channel { s.channels.get r.channel with recordWritten := true }
          idc := { s.idc with
            status := if s.writer.threshold ≠ 0 ∧ s.writer.threshold ≤ level then s.idc.status ||| 1#32
              else s.idc.status }
          biu := { s.biu with burst := none }
          hostMem := m } ∧
        ∀ a, (∀ k < b.request.length, (b.request.address + BitVec.ofNat 32 k).toNat ≠ a) →
          Memory.read m a = Memory.read s.hostMem a) ∧
    (∀ data d e k st, Spec.lastPhase b → s.writer.disablePending = false → level < s.writer.ringSize →
      Spec.chosen s.writer d → Spec.hasRecord s d e k st →
      let moved := { s.writer with tail := s.writer.tail + 1 }
      ∃ m, exec (.burstEndsWithReady data) s = .next
        (Spec.recordBegun moved d (Spec.record moved d (s.channels.get d) e k st)
          { s with
            channels := s.channels.set r.channel { s.channels.get r.channel with recordWritten := true }
            idc := { s.idc with
              status := if s.writer.threshold ≠ 0 ∧ s.writer.threshold ≤ level then s.idc.status ||| 1#32
                else s.idc.status }
            biu := { s.biu with burst := none }
            hostMem := m }) ∧
        ∀ a, (∀ k < b.request.length, (b.request.address + BitVec.ofNat 32 k).toNat ≠ a) →
          Memory.read m a = Memory.read s.hostMem a) ∧
    (∀ why, (why = .timeout → b.timeout ≠ 0) →
      ∃ m, exec (Spec.faultCommand why) s = .next
        { s with
          writer := { s.writer with
            current := none, disablePending := false, requesting := s.writer.requesting.set r.channel true
            state := if s.writer.disablePending = true then .disabled else .stalled }
          idc := { s.idc with status := s.idc.status ||| 4#32 }
          biu := { s.biu with burst := none, lastFault := Spec.faultOf b why }
          hostMem := m, freeIndex := s.freeIndex + 1 } ∧
        ∀ a, (∀ k < b.request.length, (b.request.address + BitVec.ofNat 32 k).toNat ≠ a) →
          Memory.read m a = Memory.read s.hostMem a)

/-- A retirement and the slot (R18, R20, R21, R22, R45, R68, R69). A channel told that its record is written increments DONE,
discards its job and takes its next state. Its slot, if it holds one, is committed to when the status is a completed one and
left as it was when it is refused; then it is let go: to no one, to its oldest waiter, which makes its slot checks, or freed with
its waiters refused when it is closing. The list of leavings that `Spec.nextState` adds to, and the burst of a next fetch, are
kept as log entry 3 says. -/
def Obligations.Retirement : Prop :=
  ∀ (s : State) (c : ChannelId) (j : Job) (k : Working) (st : Status), s.live = true →
    (s.channels.get c).state = .retire → (s.channels.get c).recordWritten = true → (s.channels.get c).job = some j →
    (s.channels.get c).work = some k → k.status = some st →
    let ch := { s.channels.get c with
      done := (s.channels.get c).done + 1, job := none, work := none, recordWritten := false }
    ((∀ i : SlotId, (s.slots.get i).holder ≠ some c) →
      exec (.retirement c) s = .next (Spec.nextState c st ch s)) ∧
    ∀ (i : SlotId) (sl : Slot), Spec.holdsAlone c i s →
      ((∃ pos x, Position.ofByte j.entry.positionByte = some pos ∧ k.ctx = some x ∧
          (st = .ok ∨ st = .mismatch ∨ st = .truncated) ∧
          sl = Spec.committed (s.slots.get i) pos j.entry.segment x) ∨
        (st ≠ .ok ∧ st ≠ .mismatch ∧ st ≠ .truncated ∧ sl = s.slots.get i)) →
      exec (.retirement c) s = .next (Spec.nextState c st ch (Spec.letGo i sl s))

/-- A deferred close carried out (R20, R68): at the retirement of the holder of a closing slot, whatever its job's status, the
slot is FREE with no holder and no waiter, its message count risen if the job's status is a completed one and it ended its
message, every waiter is in RETIRE with BAD_HANDLE, CLOSED is raised, and the other slots are unchanged. -/
def Obligations.DeferredClose : Prop :=
  ∀ (s : State) (c : ChannelId) (j : Job) (k : Working) (st : Status) (i : SlotId),
    s.live = true → (s.channels.get c).state = .retire → (s.channels.get c).recordWritten = true →
    (s.channels.get c).job = some j → (s.channels.get c).work = some k → k.status = some st →
    (s.slots.get i).holder = some c → (∀ i' : SlotId, (s.slots.get i').holder = some c → i' = i) →
    (s.slots.get i).closing = true → c ∉ (s.slots.get i).waiters →
    let completed := st = .ok ∨ st = .mismatch ∨ st = .truncated
    (completed → (Position.ofByte j.entry.positionByte).isSome = true ∧ k.ctx.isSome = true) →
    ∃ t, exec (.retirement c) s = .next t ∧
      t.slots = s.slots.set i
        (Spec.freed
          { s.slots.get i with
            messages := if completed ∧ Spec.endJob j.entry = true then (s.slots.get i).messages + 1
              else (s.slots.get i).messages }) ∧
      (∀ w ∈ (s.slots.get i).waiters,
        t.channels.get w = Spec.endedBeforeRun (s.channels.get w) .badHandle none) ∧
      ((s.channels.get c).abortPending ≠ some .reset → (t.channels.get c).done = (s.channels.get c).done + 1) ∧
      (t.channels.get c).job = none ∧
      t.idc.status.getLsbD 3 = true ∧ t.writer = s.writer ∧ t.hostMem = s.hostMem

/-- The withdrawal of a channel whose record write faulted with an abort pending (R74, R143, R145): it leaves the requesting
set, lets its slot go if it holds one (to its oldest waiter, to no one, or freed if it is closing), and its abort takes effect.
The list of leavings that `Spec.abortDone` adds to is the model's own (log entry 3). -/
def Obligations.RecordWithdrawal : Prop :=
  ∀ (s : State) (c : ChannelId) (kind : AbortKind), s.live = true → (s.channels.get c).state = .retire →
    (s.channels.get c).recordWritten = false → (s.channels.get c).abortPending = some kind →
    s.writer.requesting.get c = true → (∀ r, s.writer.current = some r → r.channel ≠ c) →
    ∀ t, Spec.released c { s with writer := { s.writer with requesting := s.writer.requesting.set c false } } t →
      exec (.recordWithdrawal c) s = .next (Spec.abortDone kind c (s.channels.get c) t)

/-- A leaving of the group that reaches the writer (R51, R147): CQ_FLUSH is raised when, after the leaving itself, no channel was
in the group and the ring level was above 0, whatever has come between. The second clause follows one leaving from its cause: an
ABORT in FETCH without a transfer on the bus. The list of leavings is the model's own (log entry 3). -/
def Obligations.GroupLeave : Prop :=
  ∀ (s : State) (c : ChannelId), s.live = true →
    (∀ quiet rest, (s.channels.get c).leavings = quiet :: rest →
      exec (.groupLeave c) s = .next
        { s with
          channels := s.channels.set c { s.channels.get c with leavings := rest }
          idc := { s.idc with status := if quiet = true then s.idc.status ||| 2#32 else s.idc.status } }) ∧
    (∀ b, (s.channels.get c).state = .fetch → (s.channels.get c).abortPending = none →
      (∀ q, s.biu.burst = some q → q.owner ≠ .ch c) → (s.channels.get c).leavings = [] →
      ∃ t t', exec (.abortChannel c b) s = .next t ∧ exec (.groupLeave c) t = .next t' ∧
        (t'.idc.status.getLsbD 1 = true ↔ s.idc.status.getLsbD 1 = true ∨
          ((∀ d, d ≠ c → (s.channels.get d).state.inGroup = false) ∧ s.writer.tail ≠ s.writer.head)))

/-- The phase flag (R135): every record formed carries 1 when TAIL div ring size is even and 0 when it is odd; the flag
alternates with each lap, across the wrap of the count too; and no record is begun at a level of the ring size. -/
def Obligations.PhaseFlag : Prop :=
  (∀ (s : State) (c : ChannelId) (r : Record), s.recordOf c = some r →
    r.phase = ((s.writer.tail.toNat / s.writer.ringSize) % 2 == 0)) ∧
  (∀ (n : Half) (size : Nat), isCompletionRingSize size →
    phaseFlag (n + BitVec.ofNat 16 size) size = !phaseFlag n size) ∧
  ∀ s : State, s.writer.ringSize ≤ s.writer.level → s.beginRecord = s

/-! ### Interrupts, the window and the port -/

/-- The interrupt registers (R152, R153): a status write clears the positions written as one; an enable write replaces the
enable set, positions that name no status aside; and outside a device reset and the reset pin the line is asserted exactly
while some status is both set and enabled. The initiator timeout (R173) is taken in any state as 0, or as a value from 16 to
4095; a burst in progress keeps its own. -/
def Obligations.InterruptAndTimeoutRegisters : Prop :=
  (∀ (s : State) (v : Word), s.live = true →
     (s.intLine = true ↔ ∃ n < 32, s.idc.status.getLsbD n = true ∧ s.idc.enable.getLsbD n = true) ∧
     (∃ t, exec (.interruptStatusWrite v) s = .next t ∧
       t = { s with idc := { s.idc with status := t.idc.status } } ∧
       ∀ n < 32, t.idc.status.getLsbD n = (s.idc.status.getLsbD n && !v.getLsbD n)) ∧
     ∃ t, exec (.interruptEnableWrite v) s = .next t ∧ t = { s with idc := { s.idc with enable := t.idc.enable } } ∧
       ∀ n < 32, t.idc.enable.getLsbD n = (v.getLsbD n && [0, 1, 2, 3, 4, 8, 9, 10, 11].contains n)) ∧
  (∀ (s : State) (v : Word), s.live = true →
     ∃ n, exec (.initiatorTimeoutWrite v) s = .next { s with biu := { s.biu with timeout := n } } ∧
       (v = 0 → n = 0) ∧ (1 ≤ v.toNat → v.toNat ≤ 15 → n = 16) ∧ (16 ≤ v.toNat → v.toNat ≤ 4095 → n = v.toNat) ∧
       (4095 < v.toNat → n = 4095))

/-- Any window write (R162 to R166, R177): NARROW, then UNMAPPED, then READ_ONLY, each with the offset of the word addressed;
the argument register keeps what is written; and a full-width write to a register with a row of its own does what that row's
command does. NARROW for four lanes at an address that is not a multiple of 4 is log entry 11, and that a REGISTER_WRITE which
spells another row's command has that row's effect is log entry 12. -/
def Obligations.RegisterWrite : Prop :=
  ∀ (s : State) (a : Word) (lanes : BitVec 4) (v : Word), s.live = true →
    let o := a.toNat % 512
    let full := lanes = 0xF#4 ∧ o % 4 = 0
    (¬ full → exec (.registerWrite a lanes v) s = .next (Spec.refused (o - o % 4) .narrow s)) ∧
    (full → ¬ Spec.mapped o → exec (.registerWrite a lanes v) s = .next (Spec.refused o .unmapped s)) ∧
    (full → Spec.readOnly o → exec (.registerWrite a lanes v) s = .next (Spec.refused o .readOnly s)) ∧
    (full → o = 0x080 → exec (.registerWrite a lanes v) s = .next { s with argument := v }) ∧
    (full → o = 0x008 → exec (.registerWrite a lanes v) s =
      if v.getLsbD 0 = true then exec .deviceReset s else .next s) ∧
    (full → o = 0x00C → exec (.registerWrite a lanes v) s = exec (.interruptStatusWrite v) s) ∧
    (full → o = 0x010 → exec (.registerWrite a lanes v) s = exec (.interruptEnableWrite v) s) ∧
    (full → o = 0x014 → exec (.registerWrite a lanes v) s = exec (.initiatorTimeoutWrite v) s) ∧
    (full → o = 0x040 → exec (.registerWrite a lanes v) s =
      if v.toNat % 8 = 1 then exec .enableWriter s else if v.toNat % 8 = 2 then exec .disableWriter s
      else if v.toNat % 8 = 4 then exec .restartWriter s else .next s) ∧
    (full → o = 0x048 → exec (.registerWrite a lanes v) s = exec (.completionRingBaseWrite v) s) ∧
    (full → o = 0x04C → exec (.registerWrite a lanes v) s = exec (.completionRingSizeWrite v) s) ∧
    (full → o = 0x054 → exec (.registerWrite a lanes v) s = exec (.headWrite v) s) ∧
    (full → o = 0x058 → exec (.registerWrite a lanes v) s = exec (.thresholdWrite v) s) ∧
    (full → o = 0x084 → exec (.registerWrite a lanes v) s =
      if v = 1 then exec .openStream s else if v = 2 then exec .closeStream s else if v = 3 then exec .rewindStream s
      else if v = 4 then exec .inspectSlot s else exec (.unknownStreamCommand v) s) ∧
    ∀ c : ChannelId,
      (full → o = 0x100 + 0x20 * c.val → exec (.registerWrite a lanes v) s = exec (.haltOnError c v) s) ∧
      (full → o = 0x108 + 0x20 * c.val → exec (.registerWrite a lanes v) s = exec (.jobRingBaseWrite c v) s) ∧
      (full → o = 0x10C + 0x20 * c.val → exec (.registerWrite a lanes v) s = exec (.jobRingSizeWrite c v) s) ∧
      (full → o = 0x110 + 0x20 * c.val → exec (.registerWrite a lanes v) s = exec (.postWrite c v) s)

/-- Window reads outside the resets (R92, R154, R155, R161 to R163, R166, R174, R177 to R182): every access is answered, at the
address modulo 512; the lanes not enabled read 0; an unmapped offset reads 0; and every register shows its fields at their
places, and 0 at every position without one. The channel of the writer's current record is told where there is one. A read is a
function of the state, and one of four lanes at an unaligned address reads its word, by log entry 13. -/
def Obligations.WindowReads : Prop :=
  ∀ s : State, s.live = true →
    let r (o : Nat) : Word := (s.windowRead (BitVec.ofNat 32 o) 0xF#4).getD 0
    let grant (g : Option ChannelId) : Nat := match g with
      | none => 0
      | some c => c.val + 4
    (∀ (a : Word) (lanes : BitVec 4), ∃ v, s.windowRead a lanes = some v ∧
      ∀ i < 32, v.getLsbD i = ((r (a.toNat % 512 / 4 * 4)).getLsbD i && lanes.getLsbD (i / 8))) ∧
    (∀ o < 512, o % 4 = 0 → ¬ Spec.mapped o → r o = 0) ∧
    r 0x000 = 0x00012406#32 ∧
    (r 0x004).toNat = Spec.channelStateCode (s.channels.get 0).state +
      2 ^ 4 * Spec.channelStateCode (s.channels.get 1).state + 2 ^ 8 * Spec.channelStateCode (s.channels.get 2).state +
      2 ^ 12 * Spec.channelStateCode (s.channels.get 3).state + 2 ^ 16 * Spec.writerStateCode s.writer.state ∧
    r 0x008 = 0 ∧ r 0x00C = s.idc.status ∧ r 0x010 = s.idc.enable ∧ r 0x014 = BitVec.ofNat 32 s.biu.timeout ∧
    (r 0x018).toNat = s.biu.accessError.offset.toNat + 2 ^ 16 * Spec.reasonCode s.biu.accessError.reason ∧
    (r 0x01C).toNat = s.biu.lastFault.owner.val + 2 ^ 4 * s.biu.lastFault.write.toNat +
      2 ^ 8 * Spec.causeCode s.biu.lastFault.why ∧
    r 0x020 = s.biu.lastFault.address ∧ r 0x040 = 0 ∧
    (∃ channel < 4, (∀ rec, s.writer.current = some rec → channel = rec.channel.val) ∧
      (r 0x044).toNat = Spec.writerStateCode s.writer.state + 2 ^ 2 * s.writer.disablePending.toNat +
        2 ^ 4 * s.writer.serving.val + 2 ^ 8 * channel + 2 ^ 10 * s.writer.current.isSome.toNat) ∧
    r 0x048 = s.writer.ringBase ∧ r 0x04C = BitVec.ofNat 32 s.writer.ringSize ∧
    (r 0x050).toNat = s.writer.tail.toNat ∧ (r 0x054).toNat = s.writer.head.toNat ∧
    r 0x058 = BitVec.ofNat 32 s.writer.threshold ∧ r 0x080 = s.argument ∧ r 0x084 = 0 ∧
    (r 0x088).toNat = Spec.resultCode s.result.result + 2 ^ 16 * s.result.handle.toNat ∧
    (∀ i : Fin 8, r (0x0A0 + 4 * i.val) = s.inspect.get i) ∧
    (∀ c : ChannelId,
      r (0x100 + 0x20 * c.val) = (if (s.channels.get c).haltOnError = true then 0x100#32 else 0) ∧
      (r (0x104 + 0x20 * c.val)).toNat = Spec.channelStateCode (s.channels.get c).state +
        2 ^ 4 * Spec.haltCauseCode (s.channels.get c).haltCause + 2 ^ 6 * (s.channels.get c).stopRequest.toNat +
        2 ^ 8 * Spec.abortCode (s.channels.get c).abortPending ∧
      r (0x108 + 0x20 * c.val) = (s.channels.get c).ringBase ∧
      r (0x10C + 0x20 * c.val) = BitVec.ofNat 32 (s.channels.get c).ringSize ∧
      (r (0x110 + 0x20 * c.val)).toNat = (s.channels.get c).post.toNat ∧
      (r (0x114 + 0x20 * c.val)).toNat = (s.channels.get c).fetch.toNat ∧
      (r (0x118 + 0x20 * c.val)).toNat = (s.channels.get c).done.toNat) ∧
    (r 0x1C0).toNat = grant (s.arbiter.packs.get 0) + 2 ^ 4 * grant (s.arbiter.packs.get 1) +
      2 ^ 8 * grant (s.arbiter.checks.get 0) + 2 ^ 12 * grant (s.arbiter.checks.get 1) +
      2 ^ 16 * grant (s.arbiter.checks.get 2) ∧
    (r 0x1C4).toNat = s.arbiter.pointer.val

/-- The port (R168, R169, R173): a request that has been formed joins the request set; a bus grant with no burst in progress
starts the burst of the first position with a request from the arbiter pointer on, with the timeout setting of that moment,
and moves the pointer past it; a grant with an empty set, or during a burst, changes nothing. The lines (R168, R170): the bus
request line is asserted exactly when the part is not being reset, no burst holds the bus and the set is not empty; in a
burst's address phase, which the grant begins, the part drives the address of the first word, the direction and the first
word's enables; in a data phase the enables of that word, the last-word line on the last word alone, and for a write alone the
data, the bytes on the enabled lanes and 0 on the others. That a request waits in `wanted` until PORT_REQUEST is log entry 3,
and that a grant during a burst changes nothing is log entry 2. The fields that count a burst's phases and hold its bytes are
log entry 22, and how long its address phase lasts is log entry 23. -/
def Obligations.PortRequestAndBusGrant : Prop :=
  (∀ s : State, s.live = true →
    (∀ (r : Requester) (q : BurstRequest), s.biu.wanted.get r.position = some q →
      exec (.portRequest r) s = .next
        { s with
          biu := { s.biu with
            wanted := s.biu.wanted.set r.position none, requests := s.biu.requests.set r.position (some q) } }) ∧
    (s.biu.burst ≠ none ∨ (∀ i, s.biu.requests.get i = none) → exec .busGrant s = .next s) ∧
    ∀ (i : Fin 10) (q : BurstRequest), s.biu.burst = none → s.biu.requests.get i = some q →
      (∀ i', s.biu.requests.get i' ≠ none → i - s.biu.pointer ≤ i' - s.biu.pointer) →
      ∃ owner : Requester, owner.position = i ∧
        exec .busGrant s = .next
          { s with
            biu := { s.biu with
              requests := s.biu.requests.set i none
              pointer := i + 1
              burst := some
                { owner := owner, request := q, phasesEnded := 0, got := [], timeout := s.biu.timeout
                  periods := 0, addressPhase := true } } }) ∧
  (∀ s : State, s.busRequestLine = true ↔
    s.live = true ∧ s.biu.burst = none ∧ ∃ i : Fin 10, s.biu.requests.get i ≠ none) ∧
  ∀ (s : State) (b : Burst), s.biu.burst = some b →
    let first := b.request.address.toNat % 4
    ∃ enables : Nat → BitVec 4,
      (∀ n, ∀ lane < 4, (enables n).getLsbD lane = true ↔
        first ≤ 4 * n + lane ∧ 4 * n + lane < first + b.request.length) ∧
      (b.addressPhase = true →
        s.busDrive = some (.addressPhase (b.request.address - BitVec.ofNat 32 first) b.request.write (enables 0))) ∧
      (b.addressPhase = false →
        ∃ data last, s.busDrive = some (.dataPhase (enables b.phasesEnded) data last) ∧
          (last = true ↔ b.phasesEnded + 1 = b.request.words) ∧ (b.request.write = false → data = none) ∧
          (b.request.write = true → ∃ word : Word, data = some word ∧ ∀ lane < 4,
            let place := 4 * b.phasesEnded + lane
            word.extractLsb' (8 * lane) 8 =
              if first ≤ place ∧ place < first + b.request.length then b.request.data.getD (place - first) 0 else 0))

/-! ### Invariants that every step keeps -/

/-- The invariants hold right after reset. -/
def Obligations.InvariantsHoldAtReset : Prop :=
  State.reset.MemoryCanonical ∧ State.reset.SettingsLegal ∧ State.reset.RingLevelKept ∧ State.reset.CountsKept ∧
    State.reset.HoldsKept ∧ State.reset.UnitsKept ∧ State.reset.OutputKept

/-- Every step keeps host memory in its canonical form. -/
def Obligations.EveryStepKeepsMemoryCanonical : Prop :=
  ∀ s t : State, s.MemoryCanonical → step s = .next t → t.MemoryCanonical

/-- Every step keeps every setting and status register within its values (R50, R129, R150, R153, R166, R173). -/
def Obligations.EveryStepKeepsSettingsLegal : Prop :=
  ∀ s t : State, s.SettingsLegal → step s = .next t → t.SettingsLegal

/-- Every step keeps the ring level within the ring size and the current record with WRITING (R129, R130). -/
def Obligations.EveryStepKeepsTheRingLevel : Prop :=
  ∀ s t : State, s.RingLevelKept → step s = .next t → t.RingLevelKept

/-- Every step keeps the counts of every channel: FETCH - DONE is 1 exactly in the group FETCH through RETIRE, and POST - DONE
lies between it and the ring size (R54). -/
def Obligations.EveryStepKeepsTheCounts : Prop :=
  ∀ s t : State, s.CountsKept → step s = .next t → t.CountsKept

/-- Every step keeps the holds: a channel holds at most one slot, only in WAIT_UNITS, RUN or RETIRE, and a slot with waiters has
a holder (R4, R14, R17, R51). -/
def Obligations.EveryStepKeepsTheHolds : Prop :=
  ∀ s t : State, s.HoldsKept → step s = .next t → t.HoldsKept

/-- Every step keeps the grants: units are with channels in RUN alone, at most one of each kind to a channel, and no waiting
channel has a needed set that the free units meet (R79, R80). -/
def Obligations.EveryStepKeepsTheGrants : Prop :=
  ∀ s t : State, s.UnitsKept → step s = .next t → t.UnitsKept

/-- Every step keeps the output counts of every pack unit: the bytes written and those in its write buffer are bytes it has
accepted, and it accepts no more than its destination holds (R97, R99, R113). -/
def Obligations.EveryStepKeepsTheOutputCounts : Prop :=
  ∀ s t : State, s.OutputKept → step s = .next t → t.OutputKept

/-- Host memory changes only where a write burst in progress has its bytes (R170, R171): every command leaves every other byte as
it was. -/
def Obligations.HostMemoryChangesInWriteBurstsAlone : Prop :=
  ∀ (c : Instr) (s t : State), exec c s = .next t →
    ∀ a, (∀ b, s.biu.burst = some b → b.request.write = true →
        ∀ k < b.request.length, (b.request.address + BitVec.ofNat 32 k).toNat ≠ a) →
      Memory.read t.hostMem a = Memory.read s.hostMem a
end

