-- ==== Sys2Proof/Laws/State.lean ====
section
/-! SUPPORT. What each update of the state leaves as it was, one lemma for each field of each update, all true by rfl; and what
reading one slot, channel or unit answers after one was replaced. -/

namespace Sys2Proof.Machine

/-! Replacing one slot -/

@[simp] theorem State.setSlot_argument (s : State) (i : SlotId) (x : Slot) : (s.setSlot i x).argument = s.argument := rfl
@[simp] theorem State.setSlot_result (s : State) (i : SlotId) (x : Slot) : (s.setSlot i x).result = s.result := rfl
@[simp] theorem State.setSlot_inspect (s : State) (i : SlotId) (x : Slot) : (s.setSlot i x).inspect = s.inspect := rfl
@[simp] theorem State.setSlot_channels (s : State) (i : SlotId) (x : Slot) : (s.setSlot i x).channels = s.channels := rfl
@[simp] theorem State.setSlot_arbiter (s : State) (i : SlotId) (x : Slot) : (s.setSlot i x).arbiter = s.arbiter := rfl
@[simp] theorem State.setSlot_packs (s : State) (i : SlotId) (x : Slot) : (s.setSlot i x).packs = s.packs := rfl
@[simp] theorem State.setSlot_checks (s : State) (i : SlotId) (x : Slot) : (s.setSlot i x).checks = s.checks := rfl
@[simp] theorem State.setSlot_writer (s : State) (i : SlotId) (x : Slot) : (s.setSlot i x).writer = s.writer := rfl
@[simp] theorem State.setSlot_idc (s : State) (i : SlotId) (x : Slot) : (s.setSlot i x).idc = s.idc := rfl
@[simp] theorem State.setSlot_biu (s : State) (i : SlotId) (x : Slot) : (s.setSlot i x).biu = s.biu := rfl
@[simp] theorem State.setSlot_pinAsserted (s : State) (i : SlotId) (x : Slot) : (s.setSlot i x).pinAsserted = s.pinAsserted := rfl
@[simp] theorem State.setSlot_hostMem (s : State) (i : SlotId) (x : Slot) : (s.setSlot i x).hostMem = s.hostMem := rfl
@[simp] theorem State.setSlot_freeIndex (s : State) (i : SlotId) (x : Slot) : (s.setSlot i x).freeIndex = s.freeIndex := rfl
@[simp] theorem State.setSlot_pending (s : State) (i : SlotId) (x : Slot) : (s.setSlot i x).pending = s.pending := rfl

/-! Replacing one channel -/

@[simp] theorem State.setChannel_slots (s : State) (c : ChannelId) (x : Channel) : (s.setChannel c x).slots = s.slots := rfl
@[simp] theorem State.setChannel_argument (s : State) (c : ChannelId) (x : Channel) : (s.setChannel c x).argument = s.argument := rfl
@[simp] theorem State.setChannel_result (s : State) (c : ChannelId) (x : Channel) : (s.setChannel c x).result = s.result := rfl
@[simp] theorem State.setChannel_inspect (s : State) (c : ChannelId) (x : Channel) : (s.setChannel c x).inspect = s.inspect := rfl
@[simp] theorem State.setChannel_arbiter (s : State) (c : ChannelId) (x : Channel) : (s.setChannel c x).arbiter = s.arbiter := rfl
@[simp] theorem State.setChannel_packs (s : State) (c : ChannelId) (x : Channel) : (s.setChannel c x).packs = s.packs := rfl
@[simp] theorem State.setChannel_checks (s : State) (c : ChannelId) (x : Channel) : (s.setChannel c x).checks = s.checks := rfl
@[simp] theorem State.setChannel_writer (s : State) (c : ChannelId) (x : Channel) : (s.setChannel c x).writer = s.writer := rfl
@[simp] theorem State.setChannel_idc (s : State) (c : ChannelId) (x : Channel) : (s.setChannel c x).idc = s.idc := rfl
@[simp] theorem State.setChannel_biu (s : State) (c : ChannelId) (x : Channel) : (s.setChannel c x).biu = s.biu := rfl
@[simp] theorem State.setChannel_pinAsserted (s : State) (c : ChannelId) (x : Channel) : (s.setChannel c x).pinAsserted = s.pinAsserted := rfl
@[simp] theorem State.setChannel_hostMem (s : State) (c : ChannelId) (x : Channel) : (s.setChannel c x).hostMem = s.hostMem := rfl
@[simp] theorem State.setChannel_freeIndex (s : State) (c : ChannelId) (x : Channel) : (s.setChannel c x).freeIndex = s.freeIndex := rfl
@[simp] theorem State.setChannel_pending (s : State) (c : ChannelId) (x : Channel) : (s.setChannel c x).pending = s.pending := rfl

/-! Replacing one pack unit -/

@[simp] theorem State.setPack_slots (s : State) (p : PackId) (x : PackUnit) : (s.setPack p x).slots = s.slots := rfl
@[simp] theorem State.setPack_argument (s : State) (p : PackId) (x : PackUnit) : (s.setPack p x).argument = s.argument := rfl
@[simp] theorem State.setPack_result (s : State) (p : PackId) (x : PackUnit) : (s.setPack p x).result = s.result := rfl
@[simp] theorem State.setPack_inspect (s : State) (p : PackId) (x : PackUnit) : (s.setPack p x).inspect = s.inspect := rfl
@[simp] theorem State.setPack_channels (s : State) (p : PackId) (x : PackUnit) : (s.setPack p x).channels = s.channels := rfl
@[simp] theorem State.setPack_arbiter (s : State) (p : PackId) (x : PackUnit) : (s.setPack p x).arbiter = s.arbiter := rfl
@[simp] theorem State.setPack_checks (s : State) (p : PackId) (x : PackUnit) : (s.setPack p x).checks = s.checks := rfl
@[simp] theorem State.setPack_writer (s : State) (p : PackId) (x : PackUnit) : (s.setPack p x).writer = s.writer := rfl
@[simp] theorem State.setPack_idc (s : State) (p : PackId) (x : PackUnit) : (s.setPack p x).idc = s.idc := rfl
@[simp] theorem State.setPack_biu (s : State) (p : PackId) (x : PackUnit) : (s.setPack p x).biu = s.biu := rfl
@[simp] theorem State.setPack_pinAsserted (s : State) (p : PackId) (x : PackUnit) : (s.setPack p x).pinAsserted = s.pinAsserted := rfl
@[simp] theorem State.setPack_hostMem (s : State) (p : PackId) (x : PackUnit) : (s.setPack p x).hostMem = s.hostMem := rfl
@[simp] theorem State.setPack_freeIndex (s : State) (p : PackId) (x : PackUnit) : (s.setPack p x).freeIndex = s.freeIndex := rfl
@[simp] theorem State.setPack_pending (s : State) (p : PackId) (x : PackUnit) : (s.setPack p x).pending = s.pending := rfl

/-! Replacing one check unit -/

@[simp] theorem State.setCheck_slots (s : State) (k : CheckId) (x : CheckUnit) : (s.setCheck k x).slots = s.slots := rfl
@[simp] theorem State.setCheck_argument (s : State) (k : CheckId) (x : CheckUnit) : (s.setCheck k x).argument = s.argument := rfl
@[simp] theorem State.setCheck_result (s : State) (k : CheckId) (x : CheckUnit) : (s.setCheck k x).result = s.result := rfl
@[simp] theorem State.setCheck_inspect (s : State) (k : CheckId) (x : CheckUnit) : (s.setCheck k x).inspect = s.inspect := rfl
@[simp] theorem State.setCheck_channels (s : State) (k : CheckId) (x : CheckUnit) : (s.setCheck k x).channels = s.channels := rfl
@[simp] theorem State.setCheck_arbiter (s : State) (k : CheckId) (x : CheckUnit) : (s.setCheck k x).arbiter = s.arbiter := rfl
@[simp] theorem State.setCheck_packs (s : State) (k : CheckId) (x : CheckUnit) : (s.setCheck k x).packs = s.packs := rfl
@[simp] theorem State.setCheck_writer (s : State) (k : CheckId) (x : CheckUnit) : (s.setCheck k x).writer = s.writer := rfl
@[simp] theorem State.setCheck_idc (s : State) (k : CheckId) (x : CheckUnit) : (s.setCheck k x).idc = s.idc := rfl
@[simp] theorem State.setCheck_biu (s : State) (k : CheckId) (x : CheckUnit) : (s.setCheck k x).biu = s.biu := rfl
@[simp] theorem State.setCheck_pinAsserted (s : State) (k : CheckId) (x : CheckUnit) : (s.setCheck k x).pinAsserted = s.pinAsserted := rfl
@[simp] theorem State.setCheck_hostMem (s : State) (k : CheckId) (x : CheckUnit) : (s.setCheck k x).hostMem = s.hostMem := rfl
@[simp] theorem State.setCheck_freeIndex (s : State) (k : CheckId) (x : CheckUnit) : (s.setCheck k x).freeIndex = s.freeIndex := rfl
@[simp] theorem State.setCheck_pending (s : State) (k : CheckId) (x : CheckUnit) : (s.setCheck k x).pending = s.pending := rfl

/-! A raise -/

@[simp] theorem State.raise_slots (s : State) (i : IntStatus) : (s.raise i).slots = s.slots := rfl
@[simp] theorem State.raise_argument (s : State) (i : IntStatus) : (s.raise i).argument = s.argument := rfl
@[simp] theorem State.raise_result (s : State) (i : IntStatus) : (s.raise i).result = s.result := rfl
@[simp] theorem State.raise_inspect (s : State) (i : IntStatus) : (s.raise i).inspect = s.inspect := rfl
@[simp] theorem State.raise_channels (s : State) (i : IntStatus) : (s.raise i).channels = s.channels := rfl
@[simp] theorem State.raise_arbiter (s : State) (i : IntStatus) : (s.raise i).arbiter = s.arbiter := rfl
@[simp] theorem State.raise_packs (s : State) (i : IntStatus) : (s.raise i).packs = s.packs := rfl
@[simp] theorem State.raise_checks (s : State) (i : IntStatus) : (s.raise i).checks = s.checks := rfl
@[simp] theorem State.raise_writer (s : State) (i : IntStatus) : (s.raise i).writer = s.writer := rfl
@[simp] theorem State.raise_biu (s : State) (i : IntStatus) : (s.raise i).biu = s.biu := rfl
@[simp] theorem State.raise_pinAsserted (s : State) (i : IntStatus) : (s.raise i).pinAsserted = s.pinAsserted := rfl
@[simp] theorem State.raise_hostMem (s : State) (i : IntStatus) : (s.raise i).hostMem = s.hostMem := rfl
@[simp] theorem State.raise_freeIndex (s : State) (i : IntStatus) : (s.raise i).freeIndex = s.freeIndex := rfl
@[simp] theorem State.raise_pending (s : State) (i : IntStatus) : (s.raise i).pending = s.pending := rfl
@[simp] theorem State.raise_idc_enable (s : State) (i : IntStatus) : (s.raise i).idc.enable = s.idc.enable := rfl
@[simp] theorem State.raise_idc_resetPending (s : State) (i : IntStatus) : (s.raise i).idc.resetPending = s.idc.resetPending := rfl

/-! Forming a burst request -/

@[simp] theorem State.want_slots (s : State) (r : Requester) (q : BurstRequest) : (s.want r q).slots = s.slots := rfl
@[simp] theorem State.want_argument (s : State) (r : Requester) (q : BurstRequest) : (s.want r q).argument = s.argument := rfl
@[simp] theorem State.want_result (s : State) (r : Requester) (q : BurstRequest) : (s.want r q).result = s.result := rfl
@[simp] theorem State.want_inspect (s : State) (r : Requester) (q : BurstRequest) : (s.want r q).inspect = s.inspect := rfl
@[simp] theorem State.want_channels (s : State) (r : Requester) (q : BurstRequest) : (s.want r q).channels = s.channels := rfl
@[simp] theorem State.want_arbiter (s : State) (r : Requester) (q : BurstRequest) : (s.want r q).arbiter = s.arbiter := rfl
@[simp] theorem State.want_packs (s : State) (r : Requester) (q : BurstRequest) : (s.want r q).packs = s.packs := rfl
@[simp] theorem State.want_checks (s : State) (r : Requester) (q : BurstRequest) : (s.want r q).checks = s.checks := rfl
@[simp] theorem State.want_writer (s : State) (r : Requester) (q : BurstRequest) : (s.want r q).writer = s.writer := rfl
@[simp] theorem State.want_idc (s : State) (r : Requester) (q : BurstRequest) : (s.want r q).idc = s.idc := rfl
@[simp] theorem State.want_pinAsserted (s : State) (r : Requester) (q : BurstRequest) : (s.want r q).pinAsserted = s.pinAsserted := rfl
@[simp] theorem State.want_hostMem (s : State) (r : Requester) (q : BurstRequest) : (s.want r q).hostMem = s.hostMem := rfl
@[simp] theorem State.want_freeIndex (s : State) (r : Requester) (q : BurstRequest) : (s.want r q).freeIndex = s.freeIndex := rfl
@[simp] theorem State.want_pending (s : State) (r : Requester) (q : BurstRequest) : (s.want r q).pending = s.pending := rfl
@[simp] theorem State.want_biu_requests (s : State) (r : Requester) (q : BurstRequest) : (s.want r q).biu.requests = s.biu.requests := rfl
@[simp] theorem State.want_biu_pointer (s : State) (r : Requester) (q : BurstRequest) : (s.want r q).biu.pointer = s.biu.pointer := rfl
@[simp] theorem State.want_biu_burst (s : State) (r : Requester) (q : BurstRequest) : (s.want r q).biu.burst = s.biu.burst := rfl
@[simp] theorem State.want_biu_timeout (s : State) (r : Requester) (q : BurstRequest) : (s.want r q).biu.timeout = s.biu.timeout := rfl
@[simp] theorem State.want_biu_accessError (s : State) (r : Requester) (q : BurstRequest) : (s.want r q).biu.accessError = s.biu.accessError := rfl
@[simp] theorem State.want_biu_lastFault (s : State) (r : Requester) (q : BurstRequest) : (s.want r q).biu.lastFault = s.biu.lastFault := rfl

/-! Withdrawing a burst request -/

@[simp] theorem State.withdraw_slots (s : State) (r : Requester) : (s.withdraw r).slots = s.slots := rfl
@[simp] theorem State.withdraw_argument (s : State) (r : Requester) : (s.withdraw r).argument = s.argument := rfl
@[simp] theorem State.withdraw_result (s : State) (r : Requester) : (s.withdraw r).result = s.result := rfl
@[simp] theorem State.withdraw_inspect (s : State) (r : Requester) : (s.withdraw r).inspect = s.inspect := rfl
@[simp] theorem State.withdraw_channels (s : State) (r : Requester) : (s.withdraw r).channels = s.channels := rfl
@[simp] theorem State.withdraw_arbiter (s : State) (r : Requester) : (s.withdraw r).arbiter = s.arbiter := rfl
@[simp] theorem State.withdraw_packs (s : State) (r : Requester) : (s.withdraw r).packs = s.packs := rfl
@[simp] theorem State.withdraw_checks (s : State) (r : Requester) : (s.withdraw r).checks = s.checks := rfl
@[simp] theorem State.withdraw_writer (s : State) (r : Requester) : (s.withdraw r).writer = s.writer := rfl
@[simp] theorem State.withdraw_idc (s : State) (r : Requester) : (s.withdraw r).idc = s.idc := rfl
@[simp] theorem State.withdraw_pinAsserted (s : State) (r : Requester) : (s.withdraw r).pinAsserted = s.pinAsserted := rfl
@[simp] theorem State.withdraw_hostMem (s : State) (r : Requester) : (s.withdraw r).hostMem = s.hostMem := rfl
@[simp] theorem State.withdraw_freeIndex (s : State) (r : Requester) : (s.withdraw r).freeIndex = s.freeIndex := rfl
@[simp] theorem State.withdraw_pending (s : State) (r : Requester) : (s.withdraw r).pending = s.pending := rfl
@[simp] theorem State.withdraw_biu_pointer (s : State) (r : Requester) : (s.withdraw r).biu.pointer = s.biu.pointer := rfl
@[simp] theorem State.withdraw_biu_burst (s : State) (r : Requester) : (s.withdraw r).biu.burst = s.biu.burst := rfl
@[simp] theorem State.withdraw_biu_timeout (s : State) (r : Requester) : (s.withdraw r).biu.timeout = s.biu.timeout := rfl
@[simp] theorem State.withdraw_biu_accessError (s : State) (r : Requester) : (s.withdraw r).biu.accessError = s.biu.accessError := rfl
@[simp] theorem State.withdraw_biu_lastFault (s : State) (r : Requester) : (s.withdraw r).biu.lastFault = s.biu.lastFault := rfl

/-! Refusing a window write -/

@[simp] theorem State.refuse_slots (s : State) (o : Nat) (w : AccessReason) : (s.refuse o w).slots = s.slots := rfl
@[simp] theorem State.refuse_argument (s : State) (o : Nat) (w : AccessReason) : (s.refuse o w).argument = s.argument := rfl
@[simp] theorem State.refuse_result (s : State) (o : Nat) (w : AccessReason) : (s.refuse o w).result = s.result := rfl
@[simp] theorem State.refuse_inspect (s : State) (o : Nat) (w : AccessReason) : (s.refuse o w).inspect = s.inspect := rfl
@[simp] theorem State.refuse_channels (s : State) (o : Nat) (w : AccessReason) : (s.refuse o w).channels = s.channels := rfl
@[simp] theorem State.refuse_arbiter (s : State) (o : Nat) (w : AccessReason) : (s.refuse o w).arbiter = s.arbiter := rfl
@[simp] theorem State.refuse_packs (s : State) (o : Nat) (w : AccessReason) : (s.refuse o w).packs = s.packs := rfl
@[simp] theorem State.refuse_checks (s : State) (o : Nat) (w : AccessReason) : (s.refuse o w).checks = s.checks := rfl
@[simp] theorem State.refuse_writer (s : State) (o : Nat) (w : AccessReason) : (s.refuse o w).writer = s.writer := rfl
@[simp] theorem State.refuse_pinAsserted (s : State) (o : Nat) (w : AccessReason) : (s.refuse o w).pinAsserted = s.pinAsserted := rfl
@[simp] theorem State.refuse_hostMem (s : State) (o : Nat) (w : AccessReason) : (s.refuse o w).hostMem = s.hostMem := rfl
@[simp] theorem State.refuse_freeIndex (s : State) (o : Nat) (w : AccessReason) : (s.refuse o w).freeIndex = s.freeIndex := rfl
@[simp] theorem State.refuse_pending (s : State) (o : Nat) (w : AccessReason) : (s.refuse o w).pending = s.pending := rfl
@[simp] theorem State.refuse_biu_wanted (s : State) (o : Nat) (w : AccessReason) : (s.refuse o w).biu.wanted = s.biu.wanted := rfl
@[simp] theorem State.refuse_biu_requests (s : State) (o : Nat) (w : AccessReason) : (s.refuse o w).biu.requests = s.biu.requests := rfl
@[simp] theorem State.refuse_biu_pointer (s : State) (o : Nat) (w : AccessReason) : (s.refuse o w).biu.pointer = s.biu.pointer := rfl
@[simp] theorem State.refuse_biu_burst (s : State) (o : Nat) (w : AccessReason) : (s.refuse o w).biu.burst = s.biu.burst := rfl
@[simp] theorem State.refuse_biu_timeout (s : State) (o : Nat) (w : AccessReason) : (s.refuse o w).biu.timeout = s.biu.timeout := rfl
@[simp] theorem State.refuse_biu_lastFault (s : State) (o : Nat) (w : AccessReason) : (s.refuse o w).biu.lastFault = s.biu.lastFault := rfl
@[simp] theorem State.refuse_idc_enable (s : State) (o : Nat) (w : AccessReason) : (s.refuse o w).idc.enable = s.idc.enable := rfl
@[simp] theorem State.refuse_idc_resetPending (s : State) (o : Nat) (w : AccessReason) : (s.refuse o w).idc.resetPending = s.idc.resetPending := rfl

/-! Bytes taken by host memory -/

@[simp] theorem State.memoryTakes_slots (s : State) (l : List (Word × Byte)) : (s.memoryTakes l).slots = s.slots := rfl
@[simp] theorem State.memoryTakes_argument (s : State) (l : List (Word × Byte)) : (s.memoryTakes l).argument = s.argument := rfl
@[simp] theorem State.memoryTakes_result (s : State) (l : List (Word × Byte)) : (s.memoryTakes l).result = s.result := rfl
@[simp] theorem State.memoryTakes_inspect (s : State) (l : List (Word × Byte)) : (s.memoryTakes l).inspect = s.inspect := rfl
@[simp] theorem State.memoryTakes_channels (s : State) (l : List (Word × Byte)) : (s.memoryTakes l).channels = s.channels := rfl
@[simp] theorem State.memoryTakes_arbiter (s : State) (l : List (Word × Byte)) : (s.memoryTakes l).arbiter = s.arbiter := rfl
@[simp] theorem State.memoryTakes_packs (s : State) (l : List (Word × Byte)) : (s.memoryTakes l).packs = s.packs := rfl
@[simp] theorem State.memoryTakes_checks (s : State) (l : List (Word × Byte)) : (s.memoryTakes l).checks = s.checks := rfl
@[simp] theorem State.memoryTakes_writer (s : State) (l : List (Word × Byte)) : (s.memoryTakes l).writer = s.writer := rfl
@[simp] theorem State.memoryTakes_idc (s : State) (l : List (Word × Byte)) : (s.memoryTakes l).idc = s.idc := rfl
@[simp] theorem State.memoryTakes_biu (s : State) (l : List (Word × Byte)) : (s.memoryTakes l).biu = s.biu := rfl
@[simp] theorem State.memoryTakes_pinAsserted (s : State) (l : List (Word × Byte)) : (s.memoryTakes l).pinAsserted = s.pinAsserted := rfl
@[simp] theorem State.memoryTakes_freeIndex (s : State) (l : List (Word × Byte)) : (s.memoryTakes l).freeIndex = s.freeIndex := rfl
@[simp] theorem State.memoryTakes_pending (s : State) (l : List (Word × Byte)) : (s.memoryTakes l).pending = s.pending := rfl

/-! Bytes that host memory may have taken -/

@[simp] theorem State.memoryMayTake_slots (s : State) (l : List (Word × Byte)) : (s.memoryMayTake l).slots = s.slots := rfl
@[simp] theorem State.memoryMayTake_argument (s : State) (l : List (Word × Byte)) : (s.memoryMayTake l).argument = s.argument := rfl
@[simp] theorem State.memoryMayTake_result (s : State) (l : List (Word × Byte)) : (s.memoryMayTake l).result = s.result := rfl
@[simp] theorem State.memoryMayTake_inspect (s : State) (l : List (Word × Byte)) : (s.memoryMayTake l).inspect = s.inspect := rfl
@[simp] theorem State.memoryMayTake_channels (s : State) (l : List (Word × Byte)) : (s.memoryMayTake l).channels = s.channels := rfl
@[simp] theorem State.memoryMayTake_arbiter (s : State) (l : List (Word × Byte)) : (s.memoryMayTake l).arbiter = s.arbiter := rfl
@[simp] theorem State.memoryMayTake_packs (s : State) (l : List (Word × Byte)) : (s.memoryMayTake l).packs = s.packs := rfl
@[simp] theorem State.memoryMayTake_checks (s : State) (l : List (Word × Byte)) : (s.memoryMayTake l).checks = s.checks := rfl
@[simp] theorem State.memoryMayTake_writer (s : State) (l : List (Word × Byte)) : (s.memoryMayTake l).writer = s.writer := rfl
@[simp] theorem State.memoryMayTake_idc (s : State) (l : List (Word × Byte)) : (s.memoryMayTake l).idc = s.idc := rfl
@[simp] theorem State.memoryMayTake_biu (s : State) (l : List (Word × Byte)) : (s.memoryMayTake l).biu = s.biu := rfl
@[simp] theorem State.memoryMayTake_pinAsserted (s : State) (l : List (Word × Byte)) : (s.memoryMayTake l).pinAsserted = s.pinAsserted := rfl
@[simp] theorem State.memoryMayTake_pending (s : State) (l : List (Word × Byte)) : (s.memoryMayTake l).pending = s.pending := rfl

/-! The completion of a stream command -/

@[simp] theorem State.complete_slots (s : State) (r : StreamResult) (h : Half) : (s.complete r h).slots = s.slots := rfl
@[simp] theorem State.complete_argument (s : State) (r : StreamResult) (h : Half) : (s.complete r h).argument = s.argument := rfl
@[simp] theorem State.complete_inspect (s : State) (r : StreamResult) (h : Half) : (s.complete r h).inspect = s.inspect := rfl
@[simp] theorem State.complete_channels (s : State) (r : StreamResult) (h : Half) : (s.complete r h).channels = s.channels := rfl
@[simp] theorem State.complete_arbiter (s : State) (r : StreamResult) (h : Half) : (s.complete r h).arbiter = s.arbiter := rfl
@[simp] theorem State.complete_packs (s : State) (r : StreamResult) (h : Half) : (s.complete r h).packs = s.packs := rfl
@[simp] theorem State.complete_checks (s : State) (r : StreamResult) (h : Half) : (s.complete r h).checks = s.checks := rfl
@[simp] theorem State.complete_writer (s : State) (r : StreamResult) (h : Half) : (s.complete r h).writer = s.writer := rfl
@[simp] theorem State.complete_idc (s : State) (r : StreamResult) (h : Half) : (s.complete r h).idc = s.idc := rfl
@[simp] theorem State.complete_biu (s : State) (r : StreamResult) (h : Half) : (s.complete r h).biu = s.biu := rfl
@[simp] theorem State.complete_pinAsserted (s : State) (r : StreamResult) (h : Half) : (s.complete r h).pinAsserted = s.pinAsserted := rfl
@[simp] theorem State.complete_hostMem (s : State) (r : StreamResult) (h : Half) : (s.complete r h).hostMem = s.hostMem := rfl
@[simp] theorem State.complete_freeIndex (s : State) (r : StreamResult) (h : Half) : (s.complete r h).freeIndex = s.freeIndex := rfl
@[simp] theorem State.complete_pending (s : State) (r : StreamResult) (h : Half) : (s.complete r h).pending = s.pending := rfl

/-! Releasing the bus lines -/

@[simp] theorem State.releaseBus_slots (s : State) : (s.releaseBus).slots = s.slots := rfl
@[simp] theorem State.releaseBus_argument (s : State) : (s.releaseBus).argument = s.argument := rfl
@[simp] theorem State.releaseBus_result (s : State) : (s.releaseBus).result = s.result := rfl
@[simp] theorem State.releaseBus_inspect (s : State) : (s.releaseBus).inspect = s.inspect := rfl
@[simp] theorem State.releaseBus_channels (s : State) : (s.releaseBus).channels = s.channels := rfl
@[simp] theorem State.releaseBus_arbiter (s : State) : (s.releaseBus).arbiter = s.arbiter := rfl
@[simp] theorem State.releaseBus_packs (s : State) : (s.releaseBus).packs = s.packs := rfl
@[simp] theorem State.releaseBus_checks (s : State) : (s.releaseBus).checks = s.checks := rfl
@[simp] theorem State.releaseBus_writer (s : State) : (s.releaseBus).writer = s.writer := rfl
@[simp] theorem State.releaseBus_idc (s : State) : (s.releaseBus).idc = s.idc := rfl
@[simp] theorem State.releaseBus_pinAsserted (s : State) : (s.releaseBus).pinAsserted = s.pinAsserted := rfl
@[simp] theorem State.releaseBus_hostMem (s : State) : (s.releaseBus).hostMem = s.hostMem := rfl
@[simp] theorem State.releaseBus_freeIndex (s : State) : (s.releaseBus).freeIndex = s.freeIndex := rfl
@[simp] theorem State.releaseBus_pending (s : State) : (s.releaseBus).pending = s.pending := rfl
@[simp] theorem State.releaseBus_biu_wanted (s : State) : (s.releaseBus).biu.wanted = s.biu.wanted := rfl
@[simp] theorem State.releaseBus_biu_requests (s : State) : (s.releaseBus).biu.requests = s.biu.requests := rfl
@[simp] theorem State.releaseBus_biu_pointer (s : State) : (s.releaseBus).biu.pointer = s.biu.pointer := rfl
@[simp] theorem State.releaseBus_biu_timeout (s : State) : (s.releaseBus).biu.timeout = s.biu.timeout := rfl
@[simp] theorem State.releaseBus_biu_accessError (s : State) : (s.releaseBus).biu.accessError = s.biu.accessError := rfl
@[simp] theorem State.releaseBus_biu_lastFault (s : State) : (s.releaseBus).biu.lastFault = s.biu.lastFault := rfl

/-! Recording an initiator fault -/

@[simp] theorem State.recordFault_slots (s : State) (b : Burst) (w : Why) : (s.recordFault b w).slots = s.slots := rfl
@[simp] theorem State.recordFault_argument (s : State) (b : Burst) (w : Why) : (s.recordFault b w).argument = s.argument := rfl
@[simp] theorem State.recordFault_result (s : State) (b : Burst) (w : Why) : (s.recordFault b w).result = s.result := rfl
@[simp] theorem State.recordFault_inspect (s : State) (b : Burst) (w : Why) : (s.recordFault b w).inspect = s.inspect := rfl
@[simp] theorem State.recordFault_channels (s : State) (b : Burst) (w : Why) : (s.recordFault b w).channels = s.channels := rfl
@[simp] theorem State.recordFault_arbiter (s : State) (b : Burst) (w : Why) : (s.recordFault b w).arbiter = s.arbiter := rfl
@[simp] theorem State.recordFault_packs (s : State) (b : Burst) (w : Why) : (s.recordFault b w).packs = s.packs := rfl
@[simp] theorem State.recordFault_checks (s : State) (b : Burst) (w : Why) : (s.recordFault b w).checks = s.checks := rfl
@[simp] theorem State.recordFault_writer (s : State) (b : Burst) (w : Why) : (s.recordFault b w).writer = s.writer := rfl
@[simp] theorem State.recordFault_idc (s : State) (b : Burst) (w : Why) : (s.recordFault b w).idc = s.idc := rfl
@[simp] theorem State.recordFault_pinAsserted (s : State) (b : Burst) (w : Why) : (s.recordFault b w).pinAsserted = s.pinAsserted := rfl
@[simp] theorem State.recordFault_hostMem (s : State) (b : Burst) (w : Why) : (s.recordFault b w).hostMem = s.hostMem := rfl
@[simp] theorem State.recordFault_freeIndex (s : State) (b : Burst) (w : Why) : (s.recordFault b w).freeIndex = s.freeIndex := rfl
@[simp] theorem State.recordFault_pending (s : State) (b : Burst) (w : Why) : (s.recordFault b w).pending = s.pending := rfl
@[simp] theorem State.recordFault_biu_wanted (s : State) (b : Burst) (w : Why) : (s.recordFault b w).biu.wanted = s.biu.wanted := rfl
@[simp] theorem State.recordFault_biu_requests (s : State) (b : Burst) (w : Why) : (s.recordFault b w).biu.requests = s.biu.requests := rfl
@[simp] theorem State.recordFault_biu_pointer (s : State) (b : Burst) (w : Why) : (s.recordFault b w).biu.pointer = s.biu.pointer := rfl
@[simp] theorem State.recordFault_biu_burst (s : State) (b : Burst) (w : Why) : (s.recordFault b w).biu.burst = s.biu.burst := rfl
@[simp] theorem State.recordFault_biu_timeout (s : State) (b : Burst) (w : Why) : (s.recordFault b w).biu.timeout = s.biu.timeout := rfl
@[simp] theorem State.recordFault_biu_accessError (s : State) (b : Burst) (w : Why) : (s.recordFault b w).biu.accessError = s.biu.accessError := rfl

/-! Another queue -/

@[simp] theorem State.withPending_slots (s : State) (q : List Instr) : (s.withPending q).slots = s.slots := rfl
@[simp] theorem State.withPending_argument (s : State) (q : List Instr) : (s.withPending q).argument = s.argument := rfl
@[simp] theorem State.withPending_result (s : State) (q : List Instr) : (s.withPending q).result = s.result := rfl
@[simp] theorem State.withPending_inspect (s : State) (q : List Instr) : (s.withPending q).inspect = s.inspect := rfl
@[simp] theorem State.withPending_channels (s : State) (q : List Instr) : (s.withPending q).channels = s.channels := rfl
@[simp] theorem State.withPending_arbiter (s : State) (q : List Instr) : (s.withPending q).arbiter = s.arbiter := rfl
@[simp] theorem State.withPending_packs (s : State) (q : List Instr) : (s.withPending q).packs = s.packs := rfl
@[simp] theorem State.withPending_checks (s : State) (q : List Instr) : (s.withPending q).checks = s.checks := rfl
@[simp] theorem State.withPending_writer (s : State) (q : List Instr) : (s.withPending q).writer = s.writer := rfl
@[simp] theorem State.withPending_idc (s : State) (q : List Instr) : (s.withPending q).idc = s.idc := rfl
@[simp] theorem State.withPending_biu (s : State) (q : List Instr) : (s.withPending q).biu = s.biu := rfl
@[simp] theorem State.withPending_pinAsserted (s : State) (q : List Instr) : (s.withPending q).pinAsserted = s.pinAsserted := rfl
@[simp] theorem State.withPending_hostMem (s : State) (q : List Instr) : (s.withPending q).hostMem = s.hostMem := rfl
@[simp] theorem State.withPending_freeIndex (s : State) (q : List Instr) : (s.withPending q).freeIndex = s.freeIndex := rfl

/-! Marking an abort pending -/

@[simp] theorem State.setAbortPending_slots (s : State) (k : AbortKind) (c : ChannelId) : (s.setAbortPending k c).slots = s.slots := rfl
@[simp] theorem State.setAbortPending_argument (s : State) (k : AbortKind) (c : ChannelId) : (s.setAbortPending k c).argument = s.argument := rfl
@[simp] theorem State.setAbortPending_result (s : State) (k : AbortKind) (c : ChannelId) : (s.setAbortPending k c).result = s.result := rfl
@[simp] theorem State.setAbortPending_inspect (s : State) (k : AbortKind) (c : ChannelId) : (s.setAbortPending k c).inspect = s.inspect := rfl
@[simp] theorem State.setAbortPending_arbiter (s : State) (k : AbortKind) (c : ChannelId) : (s.setAbortPending k c).arbiter = s.arbiter := rfl
@[simp] theorem State.setAbortPending_packs (s : State) (k : AbortKind) (c : ChannelId) : (s.setAbortPending k c).packs = s.packs := rfl
@[simp] theorem State.setAbortPending_checks (s : State) (k : AbortKind) (c : ChannelId) : (s.setAbortPending k c).checks = s.checks := rfl
@[simp] theorem State.setAbortPending_writer (s : State) (k : AbortKind) (c : ChannelId) : (s.setAbortPending k c).writer = s.writer := rfl
@[simp] theorem State.setAbortPending_idc (s : State) (k : AbortKind) (c : ChannelId) : (s.setAbortPending k c).idc = s.idc := rfl
@[simp] theorem State.setAbortPending_biu (s : State) (k : AbortKind) (c : ChannelId) : (s.setAbortPending k c).biu = s.biu := rfl
@[simp] theorem State.setAbortPending_pinAsserted (s : State) (k : AbortKind) (c : ChannelId) : (s.setAbortPending k c).pinAsserted = s.pinAsserted := rfl
@[simp] theorem State.setAbortPending_hostMem (s : State) (k : AbortKind) (c : ChannelId) : (s.setAbortPending k c).hostMem = s.hostMem := rfl
@[simp] theorem State.setAbortPending_freeIndex (s : State) (k : AbortKind) (c : ChannelId) : (s.setAbortPending k c).freeIndex = s.freeIndex := rfl
@[simp] theorem State.setAbortPending_pending (s : State) (k : AbortKind) (c : ChannelId) : (s.setAbortPending k c).pending = s.pending := rfl

/-! Writing halt-on-error -/

@[simp] theorem State.setHaltOnError_slots (s : State) (c : ChannelId) (b : Bool) : (s.setHaltOnError c b).slots = s.slots := rfl
@[simp] theorem State.setHaltOnError_argument (s : State) (c : ChannelId) (b : Bool) : (s.setHaltOnError c b).argument = s.argument := rfl
@[simp] theorem State.setHaltOnError_result (s : State) (c : ChannelId) (b : Bool) : (s.setHaltOnError c b).result = s.result := rfl
@[simp] theorem State.setHaltOnError_inspect (s : State) (c : ChannelId) (b : Bool) : (s.setHaltOnError c b).inspect = s.inspect := rfl
@[simp] theorem State.setHaltOnError_arbiter (s : State) (c : ChannelId) (b : Bool) : (s.setHaltOnError c b).arbiter = s.arbiter := rfl
@[simp] theorem State.setHaltOnError_packs (s : State) (c : ChannelId) (b : Bool) : (s.setHaltOnError c b).packs = s.packs := rfl
@[simp] theorem State.setHaltOnError_checks (s : State) (c : ChannelId) (b : Bool) : (s.setHaltOnError c b).checks = s.checks := rfl
@[simp] theorem State.setHaltOnError_writer (s : State) (c : ChannelId) (b : Bool) : (s.setHaltOnError c b).writer = s.writer := rfl
@[simp] theorem State.setHaltOnError_idc (s : State) (c : ChannelId) (b : Bool) : (s.setHaltOnError c b).idc = s.idc := rfl
@[simp] theorem State.setHaltOnError_biu (s : State) (c : ChannelId) (b : Bool) : (s.setHaltOnError c b).biu = s.biu := rfl
@[simp] theorem State.setHaltOnError_pinAsserted (s : State) (c : ChannelId) (b : Bool) : (s.setHaltOnError c b).pinAsserted = s.pinAsserted := rfl
@[simp] theorem State.setHaltOnError_hostMem (s : State) (c : ChannelId) (b : Bool) : (s.setHaltOnError c b).hostMem = s.hostMem := rfl
@[simp] theorem State.setHaltOnError_freeIndex (s : State) (c : ChannelId) (b : Bool) : (s.setHaltOnError c b).freeIndex = s.freeIndex := rfl
@[simp] theorem State.setHaltOnError_pending (s : State) (c : ChannelId) (b : Bool) : (s.setHaltOnError c b).pending = s.pending := rfl

/-! Coming to a stage of the fetch -/

@[simp] theorem State.setStage_slots (s : State) (c : ChannelId) (g : FetchStage) : (s.setStage c g).slots = s.slots := rfl
@[simp] theorem State.setStage_argument (s : State) (c : ChannelId) (g : FetchStage) : (s.setStage c g).argument = s.argument := rfl
@[simp] theorem State.setStage_result (s : State) (c : ChannelId) (g : FetchStage) : (s.setStage c g).result = s.result := rfl
@[simp] theorem State.setStage_inspect (s : State) (c : ChannelId) (g : FetchStage) : (s.setStage c g).inspect = s.inspect := rfl
@[simp] theorem State.setStage_arbiter (s : State) (c : ChannelId) (g : FetchStage) : (s.setStage c g).arbiter = s.arbiter := rfl
@[simp] theorem State.setStage_packs (s : State) (c : ChannelId) (g : FetchStage) : (s.setStage c g).packs = s.packs := rfl
@[simp] theorem State.setStage_checks (s : State) (c : ChannelId) (g : FetchStage) : (s.setStage c g).checks = s.checks := rfl
@[simp] theorem State.setStage_writer (s : State) (c : ChannelId) (g : FetchStage) : (s.setStage c g).writer = s.writer := rfl
@[simp] theorem State.setStage_idc (s : State) (c : ChannelId) (g : FetchStage) : (s.setStage c g).idc = s.idc := rfl
@[simp] theorem State.setStage_biu (s : State) (c : ChannelId) (g : FetchStage) : (s.setStage c g).biu = s.biu := rfl
@[simp] theorem State.setStage_pinAsserted (s : State) (c : ChannelId) (g : FetchStage) : (s.setStage c g).pinAsserted = s.pinAsserted := rfl
@[simp] theorem State.setStage_hostMem (s : State) (c : ChannelId) (g : FetchStage) : (s.setStage c g).hostMem = s.hostMem := rfl
@[simp] theorem State.setStage_freeIndex (s : State) (c : ChannelId) (g : FetchStage) : (s.setStage c g).freeIndex = s.freeIndex := rfl
@[simp] theorem State.setStage_pending (s : State) (c : ChannelId) (g : FetchStage) : (s.setStage c g).pending = s.pending := rfl

/-! A job ended before its run -/

@[simp] theorem State.endJob_slots (s : State) (c : ChannelId) (st : Status) (f : Option FaultDetail) : (s.endJob c st f).slots = s.slots := rfl
@[simp] theorem State.endJob_argument (s : State) (c : ChannelId) (st : Status) (f : Option FaultDetail) : (s.endJob c st f).argument = s.argument := rfl
@[simp] theorem State.endJob_result (s : State) (c : ChannelId) (st : Status) (f : Option FaultDetail) : (s.endJob c st f).result = s.result := rfl
@[simp] theorem State.endJob_inspect (s : State) (c : ChannelId) (st : Status) (f : Option FaultDetail) : (s.endJob c st f).inspect = s.inspect := rfl
@[simp] theorem State.endJob_arbiter (s : State) (c : ChannelId) (st : Status) (f : Option FaultDetail) : (s.endJob c st f).arbiter = s.arbiter := rfl
@[simp] theorem State.endJob_packs (s : State) (c : ChannelId) (st : Status) (f : Option FaultDetail) : (s.endJob c st f).packs = s.packs := rfl
@[simp] theorem State.endJob_checks (s : State) (c : ChannelId) (st : Status) (f : Option FaultDetail) : (s.endJob c st f).checks = s.checks := rfl
@[simp] theorem State.endJob_writer (s : State) (c : ChannelId) (st : Status) (f : Option FaultDetail) : (s.endJob c st f).writer = s.writer := rfl
@[simp] theorem State.endJob_idc (s : State) (c : ChannelId) (st : Status) (f : Option FaultDetail) : (s.endJob c st f).idc = s.idc := rfl
@[simp] theorem State.endJob_biu (s : State) (c : ChannelId) (st : Status) (f : Option FaultDetail) : (s.endJob c st f).biu = s.biu := rfl
@[simp] theorem State.endJob_pinAsserted (s : State) (c : ChannelId) (st : Status) (f : Option FaultDetail) : (s.endJob c st f).pinAsserted = s.pinAsserted := rfl
@[simp] theorem State.endJob_hostMem (s : State) (c : ChannelId) (st : Status) (f : Option FaultDetail) : (s.endJob c st f).hostMem = s.hostMem := rfl
@[simp] theorem State.endJob_freeIndex (s : State) (c : ChannelId) (st : Status) (f : Option FaultDetail) : (s.endJob c st f).freeIndex = s.freeIndex := rfl
@[simp] theorem State.endJob_pending (s : State) (c : ChannelId) (st : Status) (f : Option FaultDetail) : (s.endJob c st f).pending = s.pending := rfl

/-! Leaving the waiting set -/

@[simp] theorem State.leaveWaitingSet_slots (s : State) (c : ChannelId) : (s.leaveWaitingSet c).slots = s.slots := rfl
@[simp] theorem State.leaveWaitingSet_argument (s : State) (c : ChannelId) : (s.leaveWaitingSet c).argument = s.argument := rfl
@[simp] theorem State.leaveWaitingSet_result (s : State) (c : ChannelId) : (s.leaveWaitingSet c).result = s.result := rfl
@[simp] theorem State.leaveWaitingSet_inspect (s : State) (c : ChannelId) : (s.leaveWaitingSet c).inspect = s.inspect := rfl
@[simp] theorem State.leaveWaitingSet_channels (s : State) (c : ChannelId) : (s.leaveWaitingSet c).channels = s.channels := rfl
@[simp] theorem State.leaveWaitingSet_packs (s : State) (c : ChannelId) : (s.leaveWaitingSet c).packs = s.packs := rfl
@[simp] theorem State.leaveWaitingSet_checks (s : State) (c : ChannelId) : (s.leaveWaitingSet c).checks = s.checks := rfl
@[simp] theorem State.leaveWaitingSet_writer (s : State) (c : ChannelId) : (s.leaveWaitingSet c).writer = s.writer := rfl
@[simp] theorem State.leaveWaitingSet_idc (s : State) (c : ChannelId) : (s.leaveWaitingSet c).idc = s.idc := rfl
@[simp] theorem State.leaveWaitingSet_biu (s : State) (c : ChannelId) : (s.leaveWaitingSet c).biu = s.biu := rfl
@[simp] theorem State.leaveWaitingSet_pinAsserted (s : State) (c : ChannelId) : (s.leaveWaitingSet c).pinAsserted = s.pinAsserted := rfl
@[simp] theorem State.leaveWaitingSet_hostMem (s : State) (c : ChannelId) : (s.leaveWaitingSet c).hostMem = s.hostMem := rfl
@[simp] theorem State.leaveWaitingSet_freeIndex (s : State) (c : ChannelId) : (s.leaveWaitingSet c).freeIndex = s.freeIndex := rfl
@[simp] theorem State.leaveWaitingSet_pending (s : State) (c : ChannelId) : (s.leaveWaitingSet c).pending = s.pending := rfl

/-! Leaving the requesting set -/

@[simp] theorem State.withdrawRecord_slots (s : State) (c : ChannelId) : (s.withdrawRecord c).slots = s.slots := rfl
@[simp] theorem State.withdrawRecord_argument (s : State) (c : ChannelId) : (s.withdrawRecord c).argument = s.argument := rfl
@[simp] theorem State.withdrawRecord_result (s : State) (c : ChannelId) : (s.withdrawRecord c).result = s.result := rfl
@[simp] theorem State.withdrawRecord_inspect (s : State) (c : ChannelId) : (s.withdrawRecord c).inspect = s.inspect := rfl
@[simp] theorem State.withdrawRecord_channels (s : State) (c : ChannelId) : (s.withdrawRecord c).channels = s.channels := rfl
@[simp] theorem State.withdrawRecord_arbiter (s : State) (c : ChannelId) : (s.withdrawRecord c).arbiter = s.arbiter := rfl
@[simp] theorem State.withdrawRecord_packs (s : State) (c : ChannelId) : (s.withdrawRecord c).packs = s.packs := rfl
@[simp] theorem State.withdrawRecord_checks (s : State) (c : ChannelId) : (s.withdrawRecord c).checks = s.checks := rfl
@[simp] theorem State.withdrawRecord_idc (s : State) (c : ChannelId) : (s.withdrawRecord c).idc = s.idc := rfl
@[simp] theorem State.withdrawRecord_biu (s : State) (c : ChannelId) : (s.withdrawRecord c).biu = s.biu := rfl
@[simp] theorem State.withdrawRecord_pinAsserted (s : State) (c : ChannelId) : (s.withdrawRecord c).pinAsserted = s.pinAsserted := rfl
@[simp] theorem State.withdrawRecord_hostMem (s : State) (c : ChannelId) : (s.withdrawRecord c).hostMem = s.hostMem := rfl
@[simp] theorem State.withdrawRecord_freeIndex (s : State) (c : ChannelId) : (s.withdrawRecord c).freeIndex = s.freeIndex := rfl
@[simp] theorem State.withdrawRecord_pending (s : State) (c : ChannelId) : (s.withdrawRecord c).pending = s.pending := rfl

/-! Channel RESET at the channel -/

@[simp] theorem State.clearChannel_slots (s : State) (c : ChannelId) : (s.clearChannel c).slots = s.slots := rfl
@[simp] theorem State.clearChannel_argument (s : State) (c : ChannelId) : (s.clearChannel c).argument = s.argument := rfl
@[simp] theorem State.clearChannel_result (s : State) (c : ChannelId) : (s.clearChannel c).result = s.result := rfl
@[simp] theorem State.clearChannel_inspect (s : State) (c : ChannelId) : (s.clearChannel c).inspect = s.inspect := rfl
@[simp] theorem State.clearChannel_arbiter (s : State) (c : ChannelId) : (s.clearChannel c).arbiter = s.arbiter := rfl
@[simp] theorem State.clearChannel_packs (s : State) (c : ChannelId) : (s.clearChannel c).packs = s.packs := rfl
@[simp] theorem State.clearChannel_checks (s : State) (c : ChannelId) : (s.clearChannel c).checks = s.checks := rfl
@[simp] theorem State.clearChannel_writer (s : State) (c : ChannelId) : (s.clearChannel c).writer = s.writer := rfl
@[simp] theorem State.clearChannel_idc (s : State) (c : ChannelId) : (s.clearChannel c).idc = s.idc := rfl
@[simp] theorem State.clearChannel_biu (s : State) (c : ChannelId) : (s.clearChannel c).biu = s.biu := rfl
@[simp] theorem State.clearChannel_pinAsserted (s : State) (c : ChannelId) : (s.clearChannel c).pinAsserted = s.pinAsserted := rfl
@[simp] theorem State.clearChannel_hostMem (s : State) (c : ChannelId) : (s.clearChannel c).hostMem = s.hostMem := rfl
@[simp] theorem State.clearChannel_freeIndex (s : State) (c : ChannelId) : (s.clearChannel c).freeIndex = s.freeIndex := rfl
@[simp] theorem State.clearChannel_pending (s : State) (c : ChannelId) : (s.clearChannel c).pending = s.pending := rfl

/-! Entering HALTED -/

@[simp] theorem State.halt_slots (s : State) (c : ChannelId) (w : HaltCause) : (s.halt c w).slots = s.slots := rfl
@[simp] theorem State.halt_argument (s : State) (c : ChannelId) (w : HaltCause) : (s.halt c w).argument = s.argument := rfl
@[simp] theorem State.halt_result (s : State) (c : ChannelId) (w : HaltCause) : (s.halt c w).result = s.result := rfl
@[simp] theorem State.halt_inspect (s : State) (c : ChannelId) (w : HaltCause) : (s.halt c w).inspect = s.inspect := rfl
@[simp] theorem State.halt_arbiter (s : State) (c : ChannelId) (w : HaltCause) : (s.halt c w).arbiter = s.arbiter := rfl
@[simp] theorem State.halt_packs (s : State) (c : ChannelId) (w : HaltCause) : (s.halt c w).packs = s.packs := rfl
@[simp] theorem State.halt_checks (s : State) (c : ChannelId) (w : HaltCause) : (s.halt c w).checks = s.checks := rfl
@[simp] theorem State.halt_writer (s : State) (c : ChannelId) (w : HaltCause) : (s.halt c w).writer = s.writer := rfl
@[simp] theorem State.halt_biu (s : State) (c : ChannelId) (w : HaltCause) : (s.halt c w).biu = s.biu := rfl
@[simp] theorem State.halt_pinAsserted (s : State) (c : ChannelId) (w : HaltCause) : (s.halt c w).pinAsserted = s.pinAsserted := rfl
@[simp] theorem State.halt_hostMem (s : State) (c : ChannelId) (w : HaltCause) : (s.halt c w).hostMem = s.hostMem := rfl
@[simp] theorem State.halt_freeIndex (s : State) (c : ChannelId) (w : HaltCause) : (s.halt c w).freeIndex = s.freeIndex := rfl
@[simp] theorem State.halt_pending (s : State) (c : ChannelId) (w : HaltCause) : (s.halt c w).pending = s.pending := rfl
@[simp] theorem State.halt_idc_enable (s : State) (c : ChannelId) (w : HaltCause) : (s.halt c w).idc.enable = s.idc.enable := rfl
@[simp] theorem State.halt_idc_resetPending (s : State) (c : ChannelId) (w : HaltCause) : (s.halt c w).idc.resetPending = s.idc.resetPending := rfl

/-! Beginning a fetch -/

@[simp] theorem State.beginFetch_slots (s : State) (c : ChannelId) : (s.beginFetch c).slots = s.slots := rfl
@[simp] theorem State.beginFetch_argument (s : State) (c : ChannelId) : (s.beginFetch c).argument = s.argument := rfl
@[simp] theorem State.beginFetch_result (s : State) (c : ChannelId) : (s.beginFetch c).result = s.result := rfl
@[simp] theorem State.beginFetch_inspect (s : State) (c : ChannelId) : (s.beginFetch c).inspect = s.inspect := rfl
@[simp] theorem State.beginFetch_arbiter (s : State) (c : ChannelId) : (s.beginFetch c).arbiter = s.arbiter := rfl
@[simp] theorem State.beginFetch_packs (s : State) (c : ChannelId) : (s.beginFetch c).packs = s.packs := rfl
@[simp] theorem State.beginFetch_checks (s : State) (c : ChannelId) : (s.beginFetch c).checks = s.checks := rfl
@[simp] theorem State.beginFetch_writer (s : State) (c : ChannelId) : (s.beginFetch c).writer = s.writer := rfl
@[simp] theorem State.beginFetch_idc (s : State) (c : ChannelId) : (s.beginFetch c).idc = s.idc := rfl
@[simp] theorem State.beginFetch_pinAsserted (s : State) (c : ChannelId) : (s.beginFetch c).pinAsserted = s.pinAsserted := rfl
@[simp] theorem State.beginFetch_hostMem (s : State) (c : ChannelId) : (s.beginFetch c).hostMem = s.hostMem := rfl
@[simp] theorem State.beginFetch_freeIndex (s : State) (c : ChannelId) : (s.beginFetch c).freeIndex = s.freeIndex := rfl
@[simp] theorem State.beginFetch_pending (s : State) (c : ChannelId) : (s.beginFetch c).pending = s.pending := rfl
@[simp] theorem State.beginFetch_biu_requests (s : State) (c : ChannelId) : (s.beginFetch c).biu.requests = s.biu.requests := rfl
@[simp] theorem State.beginFetch_biu_pointer (s : State) (c : ChannelId) : (s.beginFetch c).biu.pointer = s.biu.pointer := rfl
@[simp] theorem State.beginFetch_biu_burst (s : State) (c : ChannelId) : (s.beginFetch c).biu.burst = s.biu.burst := rfl
@[simp] theorem State.beginFetch_biu_timeout (s : State) (c : ChannelId) : (s.beginFetch c).biu.timeout = s.biu.timeout := rfl
@[simp] theorem State.beginFetch_biu_accessError (s : State) (c : ChannelId) : (s.beginFetch c).biu.accessError = s.biu.accessError := rfl
@[simp] theorem State.beginFetch_biu_lastFault (s : State) (c : ChannelId) : (s.beginFetch c).biu.lastFault = s.biu.lastFault := rfl

/-! A threshold write -/

@[simp] theorem State.takeThreshold_slots (s : State) (v : Word) : (s.takeThreshold v).slots = s.slots := rfl
@[simp] theorem State.takeThreshold_argument (s : State) (v : Word) : (s.takeThreshold v).argument = s.argument := rfl
@[simp] theorem State.takeThreshold_result (s : State) (v : Word) : (s.takeThreshold v).result = s.result := rfl
@[simp] theorem State.takeThreshold_inspect (s : State) (v : Word) : (s.takeThreshold v).inspect = s.inspect := rfl
@[simp] theorem State.takeThreshold_channels (s : State) (v : Word) : (s.takeThreshold v).channels = s.channels := rfl
@[simp] theorem State.takeThreshold_arbiter (s : State) (v : Word) : (s.takeThreshold v).arbiter = s.arbiter := rfl
@[simp] theorem State.takeThreshold_packs (s : State) (v : Word) : (s.takeThreshold v).packs = s.packs := rfl
@[simp] theorem State.takeThreshold_checks (s : State) (v : Word) : (s.takeThreshold v).checks = s.checks := rfl
@[simp] theorem State.takeThreshold_idc (s : State) (v : Word) : (s.takeThreshold v).idc = s.idc := rfl
@[simp] theorem State.takeThreshold_biu (s : State) (v : Word) : (s.takeThreshold v).biu = s.biu := rfl
@[simp] theorem State.takeThreshold_pinAsserted (s : State) (v : Word) : (s.takeThreshold v).pinAsserted = s.pinAsserted := rfl
@[simp] theorem State.takeThreshold_hostMem (s : State) (v : Word) : (s.takeThreshold v).hostMem = s.hostMem := rfl
@[simp] theorem State.takeThreshold_freeIndex (s : State) (v : Word) : (s.takeThreshold v).freeIndex = s.freeIndex := rfl
@[simp] theorem State.takeThreshold_pending (s : State) (v : Word) : (s.takeThreshold v).pending = s.pending := rfl

/-! A clear -/

@[simp] theorem State.takeInterruptClear_slots (s : State) (v : Word) : (s.takeInterruptClear v).slots = s.slots := rfl
@[simp] theorem State.takeInterruptClear_argument (s : State) (v : Word) : (s.takeInterruptClear v).argument = s.argument := rfl
@[simp] theorem State.takeInterruptClear_result (s : State) (v : Word) : (s.takeInterruptClear v).result = s.result := rfl
@[simp] theorem State.takeInterruptClear_inspect (s : State) (v : Word) : (s.takeInterruptClear v).inspect = s.inspect := rfl
@[simp] theorem State.takeInterruptClear_channels (s : State) (v : Word) : (s.takeInterruptClear v).channels = s.channels := rfl
@[simp] theorem State.takeInterruptClear_arbiter (s : State) (v : Word) : (s.takeInterruptClear v).arbiter = s.arbiter := rfl
@[simp] theorem State.takeInterruptClear_packs (s : State) (v : Word) : (s.takeInterruptClear v).packs = s.packs := rfl
@[simp] theorem State.takeInterruptClear_checks (s : State) (v : Word) : (s.takeInterruptClear v).checks = s.checks := rfl
@[simp] theorem State.takeInterruptClear_writer (s : State) (v : Word) : (s.takeInterruptClear v).writer = s.writer := rfl
@[simp] theorem State.takeInterruptClear_biu (s : State) (v : Word) : (s.takeInterruptClear v).biu = s.biu := rfl
@[simp] theorem State.takeInterruptClear_pinAsserted (s : State) (v : Word) : (s.takeInterruptClear v).pinAsserted = s.pinAsserted := rfl
@[simp] theorem State.takeInterruptClear_hostMem (s : State) (v : Word) : (s.takeInterruptClear v).hostMem = s.hostMem := rfl
@[simp] theorem State.takeInterruptClear_freeIndex (s : State) (v : Word) : (s.takeInterruptClear v).freeIndex = s.freeIndex := rfl
@[simp] theorem State.takeInterruptClear_pending (s : State) (v : Word) : (s.takeInterruptClear v).pending = s.pending := rfl
@[simp] theorem State.takeInterruptClear_idc_enable (s : State) (v : Word) : (s.takeInterruptClear v).idc.enable = s.idc.enable := rfl
@[simp] theorem State.takeInterruptClear_idc_resetPending (s : State) (v : Word) : (s.takeInterruptClear v).idc.resetPending = s.idc.resetPending := rfl

/-! An enable write -/

@[simp] theorem State.takeInterruptEnable_slots (s : State) (v : Word) : (s.takeInterruptEnable v).slots = s.slots := rfl
@[simp] theorem State.takeInterruptEnable_argument (s : State) (v : Word) : (s.takeInterruptEnable v).argument = s.argument := rfl
@[simp] theorem State.takeInterruptEnable_result (s : State) (v : Word) : (s.takeInterruptEnable v).result = s.result := rfl
@[simp] theorem State.takeInterruptEnable_inspect (s : State) (v : Word) : (s.takeInterruptEnable v).inspect = s.inspect := rfl
@[simp] theorem State.takeInterruptEnable_channels (s : State) (v : Word) : (s.takeInterruptEnable v).channels = s.channels := rfl
@[simp] theorem State.takeInterruptEnable_arbiter (s : State) (v : Word) : (s.takeInterruptEnable v).arbiter = s.arbiter := rfl
@[simp] theorem State.takeInterruptEnable_packs (s : State) (v : Word) : (s.takeInterruptEnable v).packs = s.packs := rfl
@[simp] theorem State.takeInterruptEnable_checks (s : State) (v : Word) : (s.takeInterruptEnable v).checks = s.checks := rfl
@[simp] theorem State.takeInterruptEnable_writer (s : State) (v : Word) : (s.takeInterruptEnable v).writer = s.writer := rfl
@[simp] theorem State.takeInterruptEnable_biu (s : State) (v : Word) : (s.takeInterruptEnable v).biu = s.biu := rfl
@[simp] theorem State.takeInterruptEnable_pinAsserted (s : State) (v : Word) : (s.takeInterruptEnable v).pinAsserted = s.pinAsserted := rfl
@[simp] theorem State.takeInterruptEnable_hostMem (s : State) (v : Word) : (s.takeInterruptEnable v).hostMem = s.hostMem := rfl
@[simp] theorem State.takeInterruptEnable_freeIndex (s : State) (v : Word) : (s.takeInterruptEnable v).freeIndex = s.freeIndex := rfl
@[simp] theorem State.takeInterruptEnable_pending (s : State) (v : Word) : (s.takeInterruptEnable v).pending = s.pending := rfl
@[simp] theorem State.takeInterruptEnable_idc_status (s : State) (v : Word) : (s.takeInterruptEnable v).idc.status = s.idc.status := rfl
@[simp] theorem State.takeInterruptEnable_idc_resetPending (s : State) (v : Word) : (s.takeInterruptEnable v).idc.resetPending = s.idc.resetPending := rfl

/-! A timeout write -/

@[simp] theorem State.takeTimeout_slots (s : State) (v : Word) : (s.takeTimeout v).slots = s.slots := rfl
@[simp] theorem State.takeTimeout_argument (s : State) (v : Word) : (s.takeTimeout v).argument = s.argument := rfl
@[simp] theorem State.takeTimeout_result (s : State) (v : Word) : (s.takeTimeout v).result = s.result := rfl
@[simp] theorem State.takeTimeout_inspect (s : State) (v : Word) : (s.takeTimeout v).inspect = s.inspect := rfl
@[simp] theorem State.takeTimeout_channels (s : State) (v : Word) : (s.takeTimeout v).channels = s.channels := rfl
@[simp] theorem State.takeTimeout_arbiter (s : State) (v : Word) : (s.takeTimeout v).arbiter = s.arbiter := rfl
@[simp] theorem State.takeTimeout_packs (s : State) (v : Word) : (s.takeTimeout v).packs = s.packs := rfl
@[simp] theorem State.takeTimeout_checks (s : State) (v : Word) : (s.takeTimeout v).checks = s.checks := rfl
@[simp] theorem State.takeTimeout_writer (s : State) (v : Word) : (s.takeTimeout v).writer = s.writer := rfl
@[simp] theorem State.takeTimeout_idc (s : State) (v : Word) : (s.takeTimeout v).idc = s.idc := rfl
@[simp] theorem State.takeTimeout_pinAsserted (s : State) (v : Word) : (s.takeTimeout v).pinAsserted = s.pinAsserted := rfl
@[simp] theorem State.takeTimeout_hostMem (s : State) (v : Word) : (s.takeTimeout v).hostMem = s.hostMem := rfl
@[simp] theorem State.takeTimeout_freeIndex (s : State) (v : Word) : (s.takeTimeout v).freeIndex = s.freeIndex := rfl
@[simp] theorem State.takeTimeout_pending (s : State) (v : Word) : (s.takeTimeout v).pending = s.pending := rfl
@[simp] theorem State.takeTimeout_biu_wanted (s : State) (v : Word) : (s.takeTimeout v).biu.wanted = s.biu.wanted := rfl
@[simp] theorem State.takeTimeout_biu_requests (s : State) (v : Word) : (s.takeTimeout v).biu.requests = s.biu.requests := rfl
@[simp] theorem State.takeTimeout_biu_pointer (s : State) (v : Word) : (s.takeTimeout v).biu.pointer = s.biu.pointer := rfl
@[simp] theorem State.takeTimeout_biu_burst (s : State) (v : Word) : (s.takeTimeout v).biu.burst = s.biu.burst := rfl
@[simp] theorem State.takeTimeout_biu_accessError (s : State) (v : Word) : (s.takeTimeout v).biu.accessError = s.biu.accessError := rfl
@[simp] theorem State.takeTimeout_biu_lastFault (s : State) (v : Word) : (s.takeTimeout v).biu.lastFault = s.biu.lastFault := rfl

/-! Releasing the reset pin -/

@[simp] theorem State.releasePin_slots (s : State) : (s.releasePin).slots = s.slots := rfl
@[simp] theorem State.releasePin_argument (s : State) : (s.releasePin).argument = s.argument := rfl
@[simp] theorem State.releasePin_result (s : State) : (s.releasePin).result = s.result := rfl
@[simp] theorem State.releasePin_inspect (s : State) : (s.releasePin).inspect = s.inspect := rfl
@[simp] theorem State.releasePin_channels (s : State) : (s.releasePin).channels = s.channels := rfl
@[simp] theorem State.releasePin_arbiter (s : State) : (s.releasePin).arbiter = s.arbiter := rfl
@[simp] theorem State.releasePin_packs (s : State) : (s.releasePin).packs = s.packs := rfl
@[simp] theorem State.releasePin_checks (s : State) : (s.releasePin).checks = s.checks := rfl
@[simp] theorem State.releasePin_writer (s : State) : (s.releasePin).writer = s.writer := rfl
@[simp] theorem State.releasePin_idc (s : State) : (s.releasePin).idc = s.idc := rfl
@[simp] theorem State.releasePin_biu (s : State) : (s.releasePin).biu = s.biu := rfl
@[simp] theorem State.releasePin_hostMem (s : State) : (s.releasePin).hostMem = s.hostMem := rfl
@[simp] theorem State.releasePin_freeIndex (s : State) : (s.releasePin).freeIndex = s.freeIndex := rfl
@[simp] theorem State.releasePin_pending (s : State) : (s.releasePin).pending = s.pending := rfl

/-! ### Reading one of several after one was replaced -/

/-- Reading a vector after one entry was set. -/
theorem Vector.get_set_fin {α : Type} {n : Nat} (v : Vector α n) (i j : Fin n) (x : α) :
    (v.set i x).get j = if j = i then x else v.get j := by
  simp only [Vector.get_eq_getElem, Vector.getElem_set, Fin.ext_iff, eq_comm]

@[simp] theorem State.setSlot_slot (s : State) (i j : SlotId) (x : Slot) :
    (s.setSlot i x).slot j = if j = i then x else s.slot j := Vector.get_set_fin s.slots i j x

@[simp] theorem State.setChannel_channel (s : State) (c d : ChannelId) (x : Channel) :
    (s.setChannel c x).channel d = if d = c then x else s.channel d := Vector.get_set_fin s.channels c d x

@[simp] theorem State.setPack_pack (s : State) (p q : PackId) (x : PackUnit) :
    (s.setPack p x).pack q = if q = p then x else s.pack q := Vector.get_set_fin s.packs p q x

@[simp] theorem State.setCheck_check (s : State) (k l : CheckId) (x : CheckUnit) :
    (s.setCheck k x).check l = if l = k then x else s.check l := Vector.get_set_fin s.checks k l x

/-! A slot, channel or unit reads the same where its table is the same. -/

theorem State.slot_congr {s t : State} (h : t.slots = s.slots) (i : SlotId) : t.slot i = s.slot i := by
  simp [State.slot, h]

theorem State.channel_congr {s t : State} (h : t.channels = s.channels) (c : ChannelId) : t.channel c = s.channel c := by
  simp [State.channel, h]

theorem State.pack_congr {s t : State} (h : t.packs = s.packs) (p : PackId) : t.pack p = s.pack p := by
  simp [State.pack, h]

theorem State.check_congr {s t : State} (h : t.checks = s.checks) (k : CheckId) : t.check k = s.check k := by
  simp [State.check, h]

@[simp] theorem State.setSlot_channel (s : State) (i : SlotId) (x : Slot) (c2 : ChannelId) : (s.setSlot i x).channel c2 = s.channel c2 := rfl
@[simp] theorem State.setSlot_pack (s : State) (i : SlotId) (x : Slot) (p2 : PackId) : (s.setSlot i x).pack p2 = s.pack p2 := rfl
@[simp] theorem State.setSlot_check (s : State) (i : SlotId) (x : Slot) (k2 : CheckId) : (s.setSlot i x).check k2 = s.check k2 := rfl
@[simp] theorem State.setChannel_slot (s : State) (c : ChannelId) (x : Channel) (i2 : SlotId) : (s.setChannel c x).slot i2 = s.slot i2 := rfl
@[simp] theorem State.setChannel_pack (s : State) (c : ChannelId) (x : Channel) (p2 : PackId) : (s.setChannel c x).pack p2 = s.pack p2 := rfl
@[simp] theorem State.setChannel_check (s : State) (c : ChannelId) (x : Channel) (k2 : CheckId) : (s.setChannel c x).check k2 = s.check k2 := rfl
@[simp] theorem State.setPack_slot (s : State) (p : PackId) (x : PackUnit) (i2 : SlotId) : (s.setPack p x).slot i2 = s.slot i2 := rfl
@[simp] theorem State.setPack_channel (s : State) (p : PackId) (x : PackUnit) (c2 : ChannelId) : (s.setPack p x).channel c2 = s.channel c2 := rfl
@[simp] theorem State.setPack_check (s : State) (p : PackId) (x : PackUnit) (k2 : CheckId) : (s.setPack p x).check k2 = s.check k2 := rfl
@[simp] theorem State.setCheck_slot (s : State) (k : CheckId) (x : CheckUnit) (i2 : SlotId) : (s.setCheck k x).slot i2 = s.slot i2 := rfl
@[simp] theorem State.setCheck_channel (s : State) (k : CheckId) (x : CheckUnit) (c2 : ChannelId) : (s.setCheck k x).channel c2 = s.channel c2 := rfl
@[simp] theorem State.setCheck_pack (s : State) (k : CheckId) (x : CheckUnit) (p2 : PackId) : (s.setCheck k x).pack p2 = s.pack p2 := rfl
@[simp] theorem State.raise_slot (s : State) (i : IntStatus) (i2 : SlotId) : (s.raise i).slot i2 = s.slot i2 := rfl
@[simp] theorem State.raise_channel (s : State) (i : IntStatus) (c2 : ChannelId) : (s.raise i).channel c2 = s.channel c2 := rfl
@[simp] theorem State.raise_pack (s : State) (i : IntStatus) (p2 : PackId) : (s.raise i).pack p2 = s.pack p2 := rfl
@[simp] theorem State.raise_check (s : State) (i : IntStatus) (k2 : CheckId) : (s.raise i).check k2 = s.check k2 := rfl
@[simp] theorem State.want_slot (s : State) (r : Requester) (q : BurstRequest) (i2 : SlotId) : (s.want r q).slot i2 = s.slot i2 := rfl
@[simp] theorem State.want_channel (s : State) (r : Requester) (q : BurstRequest) (c2 : ChannelId) : (s.want r q).channel c2 = s.channel c2 := rfl
@[simp] theorem State.want_pack (s : State) (r : Requester) (q : BurstRequest) (p2 : PackId) : (s.want r q).pack p2 = s.pack p2 := rfl
@[simp] theorem State.want_check (s : State) (r : Requester) (q : BurstRequest) (k2 : CheckId) : (s.want r q).check k2 = s.check k2 := rfl
@[simp] theorem State.withdraw_slot (s : State) (r : Requester) (i2 : SlotId) : (s.withdraw r).slot i2 = s.slot i2 := rfl
@[simp] theorem State.withdraw_channel (s : State) (r : Requester) (c2 : ChannelId) : (s.withdraw r).channel c2 = s.channel c2 := rfl
@[simp] theorem State.withdraw_pack (s : State) (r : Requester) (p2 : PackId) : (s.withdraw r).pack p2 = s.pack p2 := rfl
@[simp] theorem State.withdraw_check (s : State) (r : Requester) (k2 : CheckId) : (s.withdraw r).check k2 = s.check k2 := rfl
@[simp] theorem State.refuse_slot (s : State) (o : Nat) (w : AccessReason) (i2 : SlotId) : (s.refuse o w).slot i2 = s.slot i2 := rfl
@[simp] theorem State.refuse_channel (s : State) (o : Nat) (w : AccessReason) (c2 : ChannelId) : (s.refuse o w).channel c2 = s.channel c2 := rfl
@[simp] theorem State.refuse_pack (s : State) (o : Nat) (w : AccessReason) (p2 : PackId) : (s.refuse o w).pack p2 = s.pack p2 := rfl
@[simp] theorem State.refuse_check (s : State) (o : Nat) (w : AccessReason) (k2 : CheckId) : (s.refuse o w).check k2 = s.check k2 := rfl
@[simp] theorem State.memoryTakes_slot (s : State) (l : List (Word × Byte)) (i2 : SlotId) : (s.memoryTakes l).slot i2 = s.slot i2 := rfl
@[simp] theorem State.memoryTakes_channel (s : State) (l : List (Word × Byte)) (c2 : ChannelId) : (s.memoryTakes l).channel c2 = s.channel c2 := rfl
@[simp] theorem State.memoryTakes_pack (s : State) (l : List (Word × Byte)) (p2 : PackId) : (s.memoryTakes l).pack p2 = s.pack p2 := rfl
@[simp] theorem State.memoryTakes_check (s : State) (l : List (Word × Byte)) (k2 : CheckId) : (s.memoryTakes l).check k2 = s.check k2 := rfl
@[simp] theorem State.memoryMayTake_slot (s : State) (l : List (Word × Byte)) (i2 : SlotId) : (s.memoryMayTake l).slot i2 = s.slot i2 := rfl
@[simp] theorem State.memoryMayTake_channel (s : State) (l : List (Word × Byte)) (c2 : ChannelId) : (s.memoryMayTake l).channel c2 = s.channel c2 := rfl
@[simp] theorem State.memoryMayTake_pack (s : State) (l : List (Word × Byte)) (p2 : PackId) : (s.memoryMayTake l).pack p2 = s.pack p2 := rfl
@[simp] theorem State.memoryMayTake_check (s : State) (l : List (Word × Byte)) (k2 : CheckId) : (s.memoryMayTake l).check k2 = s.check k2 := rfl
@[simp] theorem State.complete_slot (s : State) (r : StreamResult) (h : Half) (i2 : SlotId) : (s.complete r h).slot i2 = s.slot i2 := rfl
@[simp] theorem State.complete_channel (s : State) (r : StreamResult) (h : Half) (c2 : ChannelId) : (s.complete r h).channel c2 = s.channel c2 := rfl
@[simp] theorem State.complete_pack (s : State) (r : StreamResult) (h : Half) (p2 : PackId) : (s.complete r h).pack p2 = s.pack p2 := rfl
@[simp] theorem State.complete_check (s : State) (r : StreamResult) (h : Half) (k2 : CheckId) : (s.complete r h).check k2 = s.check k2 := rfl
@[simp] theorem State.releaseBus_slot (s : State) (i2 : SlotId) : (s.releaseBus).slot i2 = s.slot i2 := rfl
@[simp] theorem State.releaseBus_channel (s : State) (c2 : ChannelId) : (s.releaseBus).channel c2 = s.channel c2 := rfl
@[simp] theorem State.releaseBus_pack (s : State) (p2 : PackId) : (s.releaseBus).pack p2 = s.pack p2 := rfl
@[simp] theorem State.releaseBus_check (s : State) (k2 : CheckId) : (s.releaseBus).check k2 = s.check k2 := rfl
@[simp] theorem State.recordFault_slot (s : State) (b : Burst) (w : Why) (i2 : SlotId) : (s.recordFault b w).slot i2 = s.slot i2 := rfl
@[simp] theorem State.recordFault_channel (s : State) (b : Burst) (w : Why) (c2 : ChannelId) : (s.recordFault b w).channel c2 = s.channel c2 := rfl
@[simp] theorem State.recordFault_pack (s : State) (b : Burst) (w : Why) (p2 : PackId) : (s.recordFault b w).pack p2 = s.pack p2 := rfl
@[simp] theorem State.recordFault_check (s : State) (b : Burst) (w : Why) (k2 : CheckId) : (s.recordFault b w).check k2 = s.check k2 := rfl
@[simp] theorem State.withPending_slot (s : State) (q : List Instr) (i2 : SlotId) : (s.withPending q).slot i2 = s.slot i2 := rfl
@[simp] theorem State.withPending_channel (s : State) (q : List Instr) (c2 : ChannelId) : (s.withPending q).channel c2 = s.channel c2 := rfl
@[simp] theorem State.withPending_pack (s : State) (q : List Instr) (p2 : PackId) : (s.withPending q).pack p2 = s.pack p2 := rfl
@[simp] theorem State.withPending_check (s : State) (q : List Instr) (k2 : CheckId) : (s.withPending q).check k2 = s.check k2 := rfl
@[simp] theorem State.setAbortPending_slot (s : State) (k : AbortKind) (c : ChannelId) (i2 : SlotId) : (s.setAbortPending k c).slot i2 = s.slot i2 := rfl
@[simp] theorem State.setAbortPending_pack (s : State) (k : AbortKind) (c : ChannelId) (p2 : PackId) : (s.setAbortPending k c).pack p2 = s.pack p2 := rfl
@[simp] theorem State.setAbortPending_check (s : State) (k : AbortKind) (c : ChannelId) (k2 : CheckId) : (s.setAbortPending k c).check k2 = s.check k2 := rfl
@[simp] theorem State.setHaltOnError_slot (s : State) (c : ChannelId) (b : Bool) (i2 : SlotId) : (s.setHaltOnError c b).slot i2 = s.slot i2 := rfl
@[simp] theorem State.setHaltOnError_pack (s : State) (c : ChannelId) (b : Bool) (p2 : PackId) : (s.setHaltOnError c b).pack p2 = s.pack p2 := rfl
@[simp] theorem State.setHaltOnError_check (s : State) (c : ChannelId) (b : Bool) (k2 : CheckId) : (s.setHaltOnError c b).check k2 = s.check k2 := rfl
@[simp] theorem State.setStage_slot (s : State) (c : ChannelId) (g : FetchStage) (i2 : SlotId) : (s.setStage c g).slot i2 = s.slot i2 := rfl
@[simp] theorem State.setStage_pack (s : State) (c : ChannelId) (g : FetchStage) (p2 : PackId) : (s.setStage c g).pack p2 = s.pack p2 := rfl
@[simp] theorem State.setStage_check (s : State) (c : ChannelId) (g : FetchStage) (k2 : CheckId) : (s.setStage c g).check k2 = s.check k2 := rfl
@[simp] theorem State.endJob_slot (s : State) (c : ChannelId) (st : Status) (f : Option FaultDetail) (i2 : SlotId) : (s.endJob c st f).slot i2 = s.slot i2 := rfl
@[simp] theorem State.endJob_pack (s : State) (c : ChannelId) (st : Status) (f : Option FaultDetail) (p2 : PackId) : (s.endJob c st f).pack p2 = s.pack p2 := rfl
@[simp] theorem State.endJob_check (s : State) (c : ChannelId) (st : Status) (f : Option FaultDetail) (k2 : CheckId) : (s.endJob c st f).check k2 = s.check k2 := rfl
@[simp] theorem State.leaveWaitingSet_slot (s : State) (c : ChannelId) (i2 : SlotId) : (s.leaveWaitingSet c).slot i2 = s.slot i2 := rfl
@[simp] theorem State.leaveWaitingSet_channel (s : State) (c : ChannelId) (c2 : ChannelId) : (s.leaveWaitingSet c).channel c2 = s.channel c2 := rfl
@[simp] theorem State.leaveWaitingSet_pack (s : State) (c : ChannelId) (p2 : PackId) : (s.leaveWaitingSet c).pack p2 = s.pack p2 := rfl
@[simp] theorem State.leaveWaitingSet_check (s : State) (c : ChannelId) (k2 : CheckId) : (s.leaveWaitingSet c).check k2 = s.check k2 := rfl
@[simp] theorem State.withdrawRecord_slot (s : State) (c : ChannelId) (i2 : SlotId) : (s.withdrawRecord c).slot i2 = s.slot i2 := rfl
@[simp] theorem State.withdrawRecord_channel (s : State) (c : ChannelId) (c2 : ChannelId) : (s.withdrawRecord c).channel c2 = s.channel c2 := rfl
@[simp] theorem State.withdrawRecord_pack (s : State) (c : ChannelId) (p2 : PackId) : (s.withdrawRecord c).pack p2 = s.pack p2 := rfl
@[simp] theorem State.withdrawRecord_check (s : State) (c : ChannelId) (k2 : CheckId) : (s.withdrawRecord c).check k2 = s.check k2 := rfl
@[simp] theorem State.clearChannel_slot (s : State) (c : ChannelId) (i2 : SlotId) : (s.clearChannel c).slot i2 = s.slot i2 := rfl
@[simp] theorem State.clearChannel_pack (s : State) (c : ChannelId) (p2 : PackId) : (s.clearChannel c).pack p2 = s.pack p2 := rfl
@[simp] theorem State.clearChannel_check (s : State) (c : ChannelId) (k2 : CheckId) : (s.clearChannel c).check k2 = s.check k2 := rfl
@[simp] theorem State.halt_slot (s : State) (c : ChannelId) (w : HaltCause) (i2 : SlotId) : (s.halt c w).slot i2 = s.slot i2 := rfl
@[simp] theorem State.halt_pack (s : State) (c : ChannelId) (w : HaltCause) (p2 : PackId) : (s.halt c w).pack p2 = s.pack p2 := rfl
@[simp] theorem State.halt_check (s : State) (c : ChannelId) (w : HaltCause) (k2 : CheckId) : (s.halt c w).check k2 = s.check k2 := rfl
@[simp] theorem State.beginFetch_slot (s : State) (c : ChannelId) (i2 : SlotId) : (s.beginFetch c).slot i2 = s.slot i2 := rfl
@[simp] theorem State.beginFetch_pack (s : State) (c : ChannelId) (p2 : PackId) : (s.beginFetch c).pack p2 = s.pack p2 := rfl
@[simp] theorem State.beginFetch_check (s : State) (c : ChannelId) (k2 : CheckId) : (s.beginFetch c).check k2 = s.check k2 := rfl
@[simp] theorem State.takeThreshold_slot (s : State) (v : Word) (i2 : SlotId) : (s.takeThreshold v).slot i2 = s.slot i2 := rfl
@[simp] theorem State.takeThreshold_channel (s : State) (v : Word) (c2 : ChannelId) : (s.takeThreshold v).channel c2 = s.channel c2 := rfl
@[simp] theorem State.takeThreshold_pack (s : State) (v : Word) (p2 : PackId) : (s.takeThreshold v).pack p2 = s.pack p2 := rfl
@[simp] theorem State.takeThreshold_check (s : State) (v : Word) (k2 : CheckId) : (s.takeThreshold v).check k2 = s.check k2 := rfl
@[simp] theorem State.takeInterruptClear_slot (s : State) (v : Word) (i2 : SlotId) : (s.takeInterruptClear v).slot i2 = s.slot i2 := rfl
@[simp] theorem State.takeInterruptClear_channel (s : State) (v : Word) (c2 : ChannelId) : (s.takeInterruptClear v).channel c2 = s.channel c2 := rfl
@[simp] theorem State.takeInterruptClear_pack (s : State) (v : Word) (p2 : PackId) : (s.takeInterruptClear v).pack p2 = s.pack p2 := rfl
@[simp] theorem State.takeInterruptClear_check (s : State) (v : Word) (k2 : CheckId) : (s.takeInterruptClear v).check k2 = s.check k2 := rfl
@[simp] theorem State.takeInterruptEnable_slot (s : State) (v : Word) (i2 : SlotId) : (s.takeInterruptEnable v).slot i2 = s.slot i2 := rfl
@[simp] theorem State.takeInterruptEnable_channel (s : State) (v : Word) (c2 : ChannelId) : (s.takeInterruptEnable v).channel c2 = s.channel c2 := rfl
@[simp] theorem State.takeInterruptEnable_pack (s : State) (v : Word) (p2 : PackId) : (s.takeInterruptEnable v).pack p2 = s.pack p2 := rfl
@[simp] theorem State.takeInterruptEnable_check (s : State) (v : Word) (k2 : CheckId) : (s.takeInterruptEnable v).check k2 = s.check k2 := rfl
@[simp] theorem State.takeTimeout_slot (s : State) (v : Word) (i2 : SlotId) : (s.takeTimeout v).slot i2 = s.slot i2 := rfl
@[simp] theorem State.takeTimeout_channel (s : State) (v : Word) (c2 : ChannelId) : (s.takeTimeout v).channel c2 = s.channel c2 := rfl
@[simp] theorem State.takeTimeout_pack (s : State) (v : Word) (p2 : PackId) : (s.takeTimeout v).pack p2 = s.pack p2 := rfl
@[simp] theorem State.takeTimeout_check (s : State) (v : Word) (k2 : CheckId) : (s.takeTimeout v).check k2 = s.check k2 := rfl
@[simp] theorem State.releasePin_slot (s : State) (i2 : SlotId) : (s.releasePin).slot i2 = s.slot i2 := rfl
@[simp] theorem State.releasePin_channel (s : State) (c2 : ChannelId) : (s.releasePin).channel c2 = s.channel c2 := rfl
@[simp] theorem State.releasePin_pack (s : State) (p2 : PackId) : (s.releasePin).pack p2 = s.pack p2 := rfl
@[simp] theorem State.releasePin_check (s : State) (k2 : CheckId) : (s.releasePin).check k2 = s.check k2 := rfl

/-! ### What the updates write -/

@[simp] theorem State.endJob_channel (s : State) (c d : ChannelId) (st : Status) (f : Option FaultDetail) :
    (s.endJob c st f).channel d =
      if d = c then
        { s.channel c with
          state := .retire, stage := none, work := some (Working.refused st f), recordWritten := false }
      else s.channel d := State.setChannel_channel ..

@[simp] theorem State.clearChannel_channel (s : State) (c d : ChannelId) :
    (s.clearChannel c).channel d =
      if d = c then
        { s.channel c with
          state := .off, post := 0, fetch := 0, done := 0, stopRequest := false, haltCause := .none
          abortPending := none, job := none, work := none, stage := none, recordWritten := false
          leavings := s.leaving c }
      else s.channel d := State.setChannel_channel ..

@[simp] theorem State.halt_channel (s : State) (c d : ChannelId) (w : HaltCause) :
    (s.halt c w).channel d =
      if d = c then
        { s.channel c with
          state := .halted, haltCause := w, stopRequest := false, abortPending := none, job := none, work := none
          stage := none, recordWritten := false, leavings := s.leaving c }
      else s.channel d := State.setChannel_channel ..

@[simp] theorem State.beginFetch_channel (s : State) (c d : ChannelId) :
    (s.beginFetch c).channel d =
      if d = c then
        { s.channel c with
          state := .fetch, fetch := (s.channel c).fetch + 1, job := none, work := none, stage := some .entry
          recordWritten := false }
      else s.channel d := State.setChannel_channel ..

@[simp] theorem State.setAbortPending_channel (s : State) (k : AbortKind) (c d : ChannelId) :
    (s.setAbortPending k c).channel d = if d = c then { s.channel c with abortPending := some k } else s.channel d :=
  State.setChannel_channel ..

@[simp] theorem State.setHaltOnError_channel (s : State) (c d : ChannelId) (b : Bool) :
    (s.setHaltOnError c b).channel d = if d = c then { s.channel c with haltOnError := b } else s.channel d :=
  State.setChannel_channel ..

@[simp] theorem State.setStage_channel (s : State) (c d : ChannelId) (g : FetchStage) :
    (s.setStage c g).channel d = if d = c then { s.channel c with stage := some g } else s.channel d :=
  State.setChannel_channel ..

end Sys2Proof.Machine
end

