-- ==== Sys2Proof/Laws/Frames.lean ====
section
/-! SUPPORT. For each operation of the blocks one lemma that names all the state it leaves as it was. -/

namespace Sys2Proof.Machine

/-- OPEN changes the table and the result register. -/
@[simp] theorem State.takeOpen_frame (s : State) :
    (s.takeOpen).argument = s.argument ∧ (s.takeOpen).inspect = s.inspect ∧ (s.takeOpen).channels = s.channels ∧
    (s.takeOpen).arbiter = s.arbiter ∧ (s.takeOpen).packs = s.packs ∧ (s.takeOpen).checks = s.checks ∧
    (s.takeOpen).writer = s.writer ∧ (s.takeOpen).idc = s.idc ∧ (s.takeOpen).biu = s.biu ∧
    (s.takeOpen).pinAsserted = s.pinAsserted ∧ (s.takeOpen).hostMem = s.hostMem ∧
    (s.takeOpen).freeIndex = s.freeIndex ∧ (s.takeOpen).pending = s.pending := by
  unfold State.takeOpen
  try dsimp only
  (repeat' split) <;> simp

/-- CLOSE changes the table and the result register. -/
@[simp] theorem State.takeClose_frame (s : State) :
    (s.takeClose).argument = s.argument ∧ (s.takeClose).inspect = s.inspect ∧ (s.takeClose).channels = s.channels ∧
    (s.takeClose).arbiter = s.arbiter ∧ (s.takeClose).packs = s.packs ∧ (s.takeClose).checks = s.checks ∧
    (s.takeClose).writer = s.writer ∧ (s.takeClose).idc = s.idc ∧ (s.takeClose).biu = s.biu ∧
    (s.takeClose).pinAsserted = s.pinAsserted ∧ (s.takeClose).hostMem = s.hostMem ∧
    (s.takeClose).freeIndex = s.freeIndex ∧ (s.takeClose).pending = s.pending := by
  unfold State.takeClose
  try dsimp only
  (repeat' split) <;> simp

/-- REWIND changes the table and the result register. -/
@[simp] theorem State.takeRewind_frame (s : State) :
    (s.takeRewind).argument = s.argument ∧ (s.takeRewind).inspect = s.inspect ∧
    (s.takeRewind).channels = s.channels ∧ (s.takeRewind).arbiter = s.arbiter ∧ (s.takeRewind).packs = s.packs ∧
    (s.takeRewind).checks = s.checks ∧ (s.takeRewind).writer = s.writer ∧ (s.takeRewind).idc = s.idc ∧
    (s.takeRewind).biu = s.biu ∧ (s.takeRewind).pinAsserted = s.pinAsserted ∧ (s.takeRewind).hostMem = s.hostMem ∧
    (s.takeRewind).freeIndex = s.freeIndex ∧ (s.takeRewind).pending = s.pending := by
  unfold State.takeRewind
  try dsimp only
  (repeat' split) <;> simp

/-- INSPECT changes the inspect and result registers. -/
@[simp] theorem State.takeInspect_frame (s : State) :
    (s.takeInspect).slots = s.slots ∧ (s.takeInspect).argument = s.argument ∧
    (s.takeInspect).channels = s.channels ∧ (s.takeInspect).arbiter = s.arbiter ∧ (s.takeInspect).packs = s.packs ∧
    (s.takeInspect).checks = s.checks ∧ (s.takeInspect).writer = s.writer ∧ (s.takeInspect).idc = s.idc ∧
    (s.takeInspect).biu = s.biu ∧ (s.takeInspect).pinAsserted = s.pinAsserted ∧
    (s.takeInspect).hostMem = s.hostMem ∧ (s.takeInspect).freeIndex = s.freeIndex ∧
    (s.takeInspect).pending = s.pending := by
  unfold State.takeInspect
  try dsimp only
  (repeat' split) <;> simp

/-- A stream command changes the table and the stream command registers. -/
@[simp] theorem State.takeStreamCommand_frame (s : State) (v : Word) :
    (s.takeStreamCommand v).argument = s.argument ∧ (s.takeStreamCommand v).channels = s.channels ∧
    (s.takeStreamCommand v).arbiter = s.arbiter ∧ (s.takeStreamCommand v).packs = s.packs ∧
    (s.takeStreamCommand v).checks = s.checks ∧ (s.takeStreamCommand v).writer = s.writer ∧
    (s.takeStreamCommand v).idc = s.idc ∧ (s.takeStreamCommand v).biu = s.biu ∧
    (s.takeStreamCommand v).pinAsserted = s.pinAsserted ∧ (s.takeStreamCommand v).hostMem = s.hostMem ∧
    (s.takeStreamCommand v).freeIndex = s.freeIndex ∧ (s.takeStreamCommand v).pending = s.pending := by
  unfold State.takeStreamCommand
  try dsimp only
  (repeat' split) <;> simp

/-- A hold granted changes its channel alone. -/
@[simp] theorem State.takeHold_frame (s : State) (c : ChannelId) (sl : Slot) :
    (s.takeHold c sl).slots = s.slots ∧ (s.takeHold c sl).argument = s.argument ∧
    (s.takeHold c sl).result = s.result ∧ (s.takeHold c sl).inspect = s.inspect ∧
    (s.takeHold c sl).arbiter = s.arbiter ∧ (s.takeHold c sl).packs = s.packs ∧
    (s.takeHold c sl).checks = s.checks ∧ (s.takeHold c sl).writer = s.writer ∧ (s.takeHold c sl).idc = s.idc ∧
    (s.takeHold c sl).biu = s.biu ∧ (s.takeHold c sl).pinAsserted = s.pinAsserted ∧
    (s.takeHold c sl).hostMem = s.hostMem ∧ (s.takeHold c sl).freeIndex = s.freeIndex ∧
    (s.takeHold c sl).pending = s.pending := by
  unfold State.takeHold
  try dsimp only
  (repeat' split) <;> simp

/-- A hold request changes its slot and its channel. -/
@[simp] theorem State.takeHoldRequest_frame (s : State) (c : ChannelId) (h : Half) :
    (s.takeHoldRequest c h).argument = s.argument ∧ (s.takeHoldRequest c h).result = s.result ∧
    (s.takeHoldRequest c h).inspect = s.inspect ∧ (s.takeHoldRequest c h).arbiter = s.arbiter ∧
    (s.takeHoldRequest c h).packs = s.packs ∧ (s.takeHoldRequest c h).checks = s.checks ∧
    (s.takeHoldRequest c h).writer = s.writer ∧ (s.takeHoldRequest c h).idc = s.idc ∧
    (s.takeHoldRequest c h).biu = s.biu ∧ (s.takeHoldRequest c h).pinAsserted = s.pinAsserted ∧
    (s.takeHoldRequest c h).hostMem = s.hostMem ∧ (s.takeHoldRequest c h).freeIndex = s.freeIndex ∧
    (s.takeHoldRequest c h).pending = s.pending := by
  unfold State.takeHoldRequest
  try dsimp only
  (repeat' split) <;> simp

/-- A withdrawal from a wait list changes that slot. -/
@[simp] theorem State.withdrawWaiter_frame (s : State) (c : ChannelId) :
    (s.withdrawWaiter c).argument = s.argument ∧ (s.withdrawWaiter c).result = s.result ∧
    (s.withdrawWaiter c).inspect = s.inspect ∧ (s.withdrawWaiter c).channels = s.channels ∧
    (s.withdrawWaiter c).arbiter = s.arbiter ∧ (s.withdrawWaiter c).packs = s.packs ∧
    (s.withdrawWaiter c).checks = s.checks ∧ (s.withdrawWaiter c).writer = s.writer ∧
    (s.withdrawWaiter c).idc = s.idc ∧ (s.withdrawWaiter c).biu = s.biu ∧
    (s.withdrawWaiter c).pinAsserted = s.pinAsserted ∧ (s.withdrawWaiter c).hostMem = s.hostMem ∧
    (s.withdrawWaiter c).freeIndex = s.freeIndex ∧ (s.withdrawWaiter c).pending = s.pending := by
  unfold State.withdrawWaiter
  try dsimp only
  (repeat' split) <;> simp

/-- Refused waiters. -/
@[simp] theorem State.refuseWaiters_frame (s : State) (ws : List ChannelId) :
    (s.refuseWaiters ws).slots = s.slots ∧ (s.refuseWaiters ws).argument = s.argument ∧
    (s.refuseWaiters ws).result = s.result ∧ (s.refuseWaiters ws).inspect = s.inspect ∧
    (s.refuseWaiters ws).arbiter = s.arbiter ∧ (s.refuseWaiters ws).packs = s.packs ∧
    (s.refuseWaiters ws).checks = s.checks ∧ (s.refuseWaiters ws).writer = s.writer ∧
    (s.refuseWaiters ws).idc = s.idc ∧ (s.refuseWaiters ws).biu = s.biu ∧
    (s.refuseWaiters ws).pinAsserted = s.pinAsserted ∧ (s.refuseWaiters ws).hostMem = s.hostMem ∧
    (s.refuseWaiters ws).freeIndex = s.freeIndex ∧ (s.refuseWaiters ws).pending = s.pending := by
  induction ws generalizing s with
  | nil => simp [State.refuseWaiters]
  | cons w ws ih =>
    simp only [State.refuseWaiters, List.foldl_cons] at ih ⊢
    simpa using ih (s.endJob w .badHandle none)

/-- A slot passed on. -/
@[simp] theorem State.passOn_frame (s : State) (i : SlotId) (sl : Slot) :
    (s.passOn i sl).argument = s.argument ∧ (s.passOn i sl).result = s.result ∧
    (s.passOn i sl).inspect = s.inspect ∧ (s.passOn i sl).arbiter = s.arbiter ∧ (s.passOn i sl).packs = s.packs ∧
    (s.passOn i sl).checks = s.checks ∧ (s.passOn i sl).writer = s.writer ∧ (s.passOn i sl).biu = s.biu ∧
    (s.passOn i sl).pinAsserted = s.pinAsserted ∧ (s.passOn i sl).hostMem = s.hostMem ∧
    (s.passOn i sl).freeIndex = s.freeIndex ∧ (s.passOn i sl).pending = s.pending ∧
    (s.passOn i sl).idc.enable = s.idc.enable ∧ (s.passOn i sl).idc.resetPending = s.idc.resetPending := by
  unfold State.passOn
  try dsimp only
  (repeat' split) <;> simp

/-- A slot let go. -/
@[simp] theorem State.release_frame (s : State) (c : ChannelId) (k : Option Commit) :
    (s.release c k).argument = s.argument ∧ (s.release c k).result = s.result ∧
    (s.release c k).inspect = s.inspect ∧ (s.release c k).arbiter = s.arbiter ∧ (s.release c k).packs = s.packs ∧
    (s.release c k).checks = s.checks ∧ (s.release c k).writer = s.writer ∧ (s.release c k).biu = s.biu ∧
    (s.release c k).pinAsserted = s.pinAsserted ∧ (s.release c k).hostMem = s.hostMem ∧
    (s.release c k).freeIndex = s.freeIndex ∧ (s.release c k).pending = s.pending ∧
    (s.release c k).idc.enable = s.idc.enable ∧ (s.release c k).idc.resetPending = s.idc.resetPending := by
  unfold State.release
  try dsimp only
  (repeat' split) <;> simp

/-- An abort or channel RESET that takes effect at its channel. -/
@[simp] theorem State.abortTakesEffect_frame (s : State) (k : AbortKind) (c : ChannelId) :
    (s.abortTakesEffect k c).slots = s.slots ∧ (s.abortTakesEffect k c).argument = s.argument ∧
    (s.abortTakesEffect k c).result = s.result ∧ (s.abortTakesEffect k c).inspect = s.inspect ∧
    (s.abortTakesEffect k c).arbiter = s.arbiter ∧ (s.abortTakesEffect k c).packs = s.packs ∧
    (s.abortTakesEffect k c).checks = s.checks ∧ (s.abortTakesEffect k c).writer = s.writer ∧
    (s.abortTakesEffect k c).biu = s.biu ∧ (s.abortTakesEffect k c).pinAsserted = s.pinAsserted ∧
    (s.abortTakesEffect k c).hostMem = s.hostMem ∧ (s.abortTakesEffect k c).freeIndex = s.freeIndex ∧
    (s.abortTakesEffect k c).pending = s.pending ∧ (s.abortTakesEffect k c).idc.enable = s.idc.enable ∧
    (s.abortTakesEffect k c).idc.resetPending = s.idc.resetPending := by
  unfold State.abortTakesEffect
  try dsimp only
  (repeat' split) <;> simp

/-- Bytes offered through a tap. -/
@[simp] theorem State.offerTo_frame (s : State) (j : Option (CheckId × Tap)) (l : List Byte) :
    (s.offerTo j l).slots = s.slots ∧ (s.offerTo j l).argument = s.argument ∧ (s.offerTo j l).result = s.result ∧
    (s.offerTo j l).inspect = s.inspect ∧ (s.offerTo j l).channels = s.channels ∧
    (s.offerTo j l).arbiter = s.arbiter ∧ (s.offerTo j l).packs = s.packs ∧ (s.offerTo j l).writer = s.writer ∧
    (s.offerTo j l).idc = s.idc ∧ (s.offerTo j l).biu = s.biu ∧ (s.offerTo j l).pinAsserted = s.pinAsserted ∧
    (s.offerTo j l).hostMem = s.hostMem ∧ (s.offerTo j l).freeIndex = s.freeIndex ∧
    (s.offerTo j l).pending = s.pending := by
  unfold State.offerTo
  try dsimp only
  (repeat' split) <;> simp

/-- A pack unit at work. -/
@[simp] theorem State.drivePack_frame (s : State) (p : PackId) :
    (s.drivePack p).slots = s.slots ∧ (s.drivePack p).argument = s.argument ∧ (s.drivePack p).result = s.result ∧
    (s.drivePack p).inspect = s.inspect ∧ (s.drivePack p).channels = s.channels ∧
    (s.drivePack p).arbiter = s.arbiter ∧ (s.drivePack p).writer = s.writer ∧ (s.drivePack p).idc = s.idc ∧
    (s.drivePack p).pinAsserted = s.pinAsserted ∧ (s.drivePack p).hostMem = s.hostMem ∧
    (s.drivePack p).freeIndex = s.freeIndex ∧ (s.drivePack p).pending = s.pending ∧
    (s.drivePack p).biu.requests = s.biu.requests ∧ (s.drivePack p).biu.pointer = s.biu.pointer ∧
    (s.drivePack p).biu.burst = s.biu.burst ∧ (s.drivePack p).biu.timeout = s.biu.timeout ∧
    (s.drivePack p).biu.accessError = s.biu.accessError ∧ (s.drivePack p).biu.lastFault = s.biu.lastFault := by
  unfold State.drivePack
  try dsimp only
  (repeat' split) <;> simp

/-- A check unit at work. -/
@[simp] theorem State.driveCheck_frame (s : State) (k : CheckId) :
    (s.driveCheck k).slots = s.slots ∧ (s.driveCheck k).argument = s.argument ∧
    (s.driveCheck k).result = s.result ∧ (s.driveCheck k).inspect = s.inspect ∧
    (s.driveCheck k).channels = s.channels ∧ (s.driveCheck k).arbiter = s.arbiter ∧
    (s.driveCheck k).packs = s.packs ∧ (s.driveCheck k).writer = s.writer ∧ (s.driveCheck k).idc = s.idc ∧
    (s.driveCheck k).pinAsserted = s.pinAsserted ∧ (s.driveCheck k).hostMem = s.hostMem ∧
    (s.driveCheck k).freeIndex = s.freeIndex ∧ (s.driveCheck k).pending = s.pending ∧
    (s.driveCheck k).biu.requests = s.biu.requests ∧ (s.driveCheck k).biu.pointer = s.biu.pointer ∧
    (s.driveCheck k).biu.burst = s.biu.burst ∧ (s.driveCheck k).biu.timeout = s.biu.timeout ∧
    (s.driveCheck k).biu.accessError = s.biu.accessError ∧ (s.driveCheck k).biu.lastFault = s.biu.lastFault := by
  unfold State.driveCheck
  try dsimp only
  (repeat' split) <;> simp

/-- Units loaded. -/
@[simp] theorem State.loadUnits_frame (s : State) (j : Job) (x : Context) (p : Option PackId) (k : Option CheckId) :
    (s.loadUnits j x p k).slots = s.slots ∧ (s.loadUnits j x p k).argument = s.argument ∧
    (s.loadUnits j x p k).result = s.result ∧ (s.loadUnits j x p k).inspect = s.inspect ∧
    (s.loadUnits j x p k).channels = s.channels ∧ (s.loadUnits j x p k).arbiter = s.arbiter ∧
    (s.loadUnits j x p k).writer = s.writer ∧ (s.loadUnits j x p k).idc = s.idc ∧
    (s.loadUnits j x p k).pinAsserted = s.pinAsserted ∧ (s.loadUnits j x p k).hostMem = s.hostMem ∧
    (s.loadUnits j x p k).freeIndex = s.freeIndex ∧ (s.loadUnits j x p k).pending = s.pending ∧
    (s.loadUnits j x p k).biu.requests = s.biu.requests ∧ (s.loadUnits j x p k).biu.pointer = s.biu.pointer ∧
    (s.loadUnits j x p k).biu.burst = s.biu.burst ∧ (s.loadUnits j x p k).biu.timeout = s.biu.timeout ∧
    (s.loadUnits j x p k).biu.accessError = s.biu.accessError ∧
    (s.loadUnits j x p k).biu.lastFault = s.biu.lastFault := by
  unfold State.loadUnits
  try dsimp only
  (repeat' split) <;> simp

/-- A grant. -/
@[simp] theorem State.grant_frame (s : State) (c : ChannelId) (n : Need) :
    (s.grant c n).slots = s.slots ∧ (s.grant c n).argument = s.argument ∧ (s.grant c n).result = s.result ∧
    (s.grant c n).inspect = s.inspect ∧ (s.grant c n).writer = s.writer ∧ (s.grant c n).idc = s.idc ∧
    (s.grant c n).pinAsserted = s.pinAsserted ∧ (s.grant c n).hostMem = s.hostMem ∧
    (s.grant c n).freeIndex = s.freeIndex ∧ (s.grant c n).pending = s.pending ∧
    (s.grant c n).biu.requests = s.biu.requests ∧ (s.grant c n).biu.pointer = s.biu.pointer ∧
    (s.grant c n).biu.burst = s.biu.burst ∧ (s.grant c n).biu.timeout = s.biu.timeout ∧
    (s.grant c n).biu.accessError = s.biu.accessError ∧ (s.grant c n).biu.lastFault = s.biu.lastFault := by
  unfold State.grant
  try dsimp only
  (repeat' split) <;> simp

/-- One waiting channel examined. -/
@[simp] theorem State.examine_frame (s : State) (c : ChannelId) :
    (s.examine c).slots = s.slots ∧ (s.examine c).argument = s.argument ∧ (s.examine c).result = s.result ∧
    (s.examine c).inspect = s.inspect ∧ (s.examine c).writer = s.writer ∧ (s.examine c).idc = s.idc ∧
    (s.examine c).pinAsserted = s.pinAsserted ∧ (s.examine c).hostMem = s.hostMem ∧
    (s.examine c).freeIndex = s.freeIndex ∧ (s.examine c).pending = s.pending ∧
    (s.examine c).biu.requests = s.biu.requests ∧ (s.examine c).biu.pointer = s.biu.pointer ∧
    (s.examine c).biu.burst = s.biu.burst ∧ (s.examine c).biu.timeout = s.biu.timeout ∧
    (s.examine c).biu.accessError = s.biu.accessError ∧ (s.examine c).biu.lastFault = s.biu.lastFault := by
  unfold State.examine
  try dsimp only
  (repeat' split) <;> simp

/-- The scan of an evaluation. -/
@[simp] theorem State.scan_frame (s : State) :
    (s.scan).slots = s.slots ∧ (s.scan).argument = s.argument ∧ (s.scan).result = s.result ∧
    (s.scan).inspect = s.inspect ∧ (s.scan).writer = s.writer ∧ (s.scan).idc = s.idc ∧
    (s.scan).pinAsserted = s.pinAsserted ∧ (s.scan).hostMem = s.hostMem ∧ (s.scan).freeIndex = s.freeIndex ∧
    (s.scan).pending = s.pending ∧ (s.scan).biu.requests = s.biu.requests ∧ (s.scan).biu.pointer = s.biu.pointer ∧
    (s.scan).biu.burst = s.biu.burst ∧ (s.scan).biu.timeout = s.biu.timeout ∧
    (s.scan).biu.accessError = s.biu.accessError ∧ (s.scan).biu.lastFault = s.biu.lastFault := by
  simp [State.scan, rotationAfter]

/-- Units released. -/
@[simp] theorem State.releaseUnits_frame (s : State) (c : ChannelId) :
    (s.releaseUnits c).slots = s.slots ∧ (s.releaseUnits c).argument = s.argument ∧
    (s.releaseUnits c).result = s.result ∧ (s.releaseUnits c).inspect = s.inspect ∧
    (s.releaseUnits c).channels = s.channels ∧ (s.releaseUnits c).writer = s.writer ∧
    (s.releaseUnits c).idc = s.idc ∧ (s.releaseUnits c).biu = s.biu ∧
    (s.releaseUnits c).pinAsserted = s.pinAsserted ∧ (s.releaseUnits c).hostMem = s.hostMem ∧
    (s.releaseUnits c).freeIndex = s.freeIndex ∧ (s.releaseUnits c).pending = s.pending := by
  unfold State.releaseUnits
  try dsimp only
  (repeat' split) <;> simp

/-- The end of a run. -/
@[simp] theorem State.finishRun_frame (s : State) (c : ChannelId) :
    (s.finishRun c).slots = s.slots ∧ (s.finishRun c).argument = s.argument ∧ (s.finishRun c).result = s.result ∧
    (s.finishRun c).inspect = s.inspect ∧ (s.finishRun c).writer = s.writer ∧ (s.finishRun c).idc = s.idc ∧
    (s.finishRun c).biu = s.biu ∧ (s.finishRun c).pinAsserted = s.pinAsserted ∧
    (s.finishRun c).hostMem = s.hostMem ∧ (s.finishRun c).freeIndex = s.freeIndex ∧
    (s.finishRun c).pending = s.pending := by
  unfold State.finishRun
  try dsimp only
  (repeat' split) <;> simp

/-- An evaluation. -/
@[simp] theorem State.evaluate_frame (s : State) (n : Nat) :
    (s.evaluate n).slots = s.slots ∧ (s.evaluate n).argument = s.argument ∧ (s.evaluate n).result = s.result ∧
    (s.evaluate n).inspect = s.inspect ∧ (s.evaluate n).writer = s.writer ∧ (s.evaluate n).idc = s.idc ∧
    (s.evaluate n).pinAsserted = s.pinAsserted ∧ (s.evaluate n).hostMem = s.hostMem ∧
    (s.evaluate n).freeIndex = s.freeIndex ∧ (s.evaluate n).pending = s.pending ∧
    (s.evaluate n).biu.requests = s.biu.requests ∧ (s.evaluate n).biu.pointer = s.biu.pointer ∧
    (s.evaluate n).biu.burst = s.biu.burst ∧ (s.evaluate n).biu.timeout = s.biu.timeout ∧
    (s.evaluate n).biu.accessError = s.biu.accessError ∧ (s.evaluate n).biu.lastFault = s.biu.lastFault := by
  induction n generalizing s with
  | zero => simp [State.evaluate]
  | succ n ih =>
    rw [State.evaluate]
    generalize ((rotationAfter s.arbiter.pointer).filter fun c => (s.arbiter.waiting.get c).isSome) = l
    have key : ∀ (l : List ChannelId) (t : State), 
        (l.foldl (fun t c => if t.runIsOver c then State.evaluate n (t.finishRun c) else t) t).slots = t.slots ∧
        (l.foldl (fun t c => if t.runIsOver c then State.evaluate n (t.finishRun c) else t) t).argument = t.argument ∧
        (l.foldl (fun t c => if t.runIsOver c then State.evaluate n (t.finishRun c) else t) t).result = t.result ∧
        (l.foldl (fun t c => if t.runIsOver c then State.evaluate n (t.finishRun c) else t) t).inspect = t.inspect ∧
        (l.foldl (fun t c => if t.runIsOver c then State.evaluate n (t.finishRun c) else t) t).writer = t.writer ∧
        (l.foldl (fun t c => if t.runIsOver c then State.evaluate n (t.finishRun c) else t) t).idc = t.idc ∧
        (l.foldl (fun t c => if t.runIsOver c then State.evaluate n (t.finishRun c) else t) t).pinAsserted = t.pinAsserted ∧
        (l.foldl (fun t c => if t.runIsOver c then State.evaluate n (t.finishRun c) else t) t).hostMem = t.hostMem ∧
        (l.foldl (fun t c => if t.runIsOver c then State.evaluate n (t.finishRun c) else t) t).freeIndex = t.freeIndex ∧
        (l.foldl (fun t c => if t.runIsOver c then State.evaluate n (t.finishRun c) else t) t).pending = t.pending ∧
        (l.foldl (fun t c => if t.runIsOver c then State.evaluate n (t.finishRun c) else t) t).biu.requests = t.biu.requests ∧
        (l.foldl (fun t c => if t.runIsOver c then State.evaluate n (t.finishRun c) else t) t).biu.pointer = t.biu.pointer ∧
        (l.foldl (fun t c => if t.runIsOver c then State.evaluate n (t.finishRun c) else t) t).biu.burst = t.biu.burst ∧
        (l.foldl (fun t c => if t.runIsOver c then State.evaluate n (t.finishRun c) else t) t).biu.timeout = t.biu.timeout ∧
        (l.foldl (fun t c => if t.runIsOver c then State.evaluate n (t.finishRun c) else t) t).biu.accessError = t.biu.accessError ∧
        (l.foldl (fun t c => if t.runIsOver c then State.evaluate n (t.finishRun c) else t) t).biu.lastFault = t.biu.lastFault := by
      intro l
      induction l with
      | nil => intro t; simp
      | cons c l il =>
        intro t
        rw [List.foldl_cons]
        have h1 := il (if t.runIsOver c then State.evaluate n (t.finishRun c) else t)
        split at h1 <;> rename_i hc <;> simp only [hc, if_true, if_false, Bool.false_eq_true] at h1 ⊢
        · simpa [ih] using h1
        · exact h1
    simpa using key l s.scan

/-- A whole evaluation. -/
@[simp] theorem State.reevaluate_frame (s : State) :
    (s.reevaluate).slots = s.slots ∧ (s.reevaluate).argument = s.argument ∧ (s.reevaluate).result = s.result ∧
    (s.reevaluate).inspect = s.inspect ∧ (s.reevaluate).writer = s.writer ∧ (s.reevaluate).idc = s.idc ∧
    (s.reevaluate).pinAsserted = s.pinAsserted ∧ (s.reevaluate).hostMem = s.hostMem ∧
    (s.reevaluate).freeIndex = s.freeIndex ∧ (s.reevaluate).pending = s.pending ∧
    (s.reevaluate).biu.requests = s.biu.requests ∧ (s.reevaluate).biu.pointer = s.biu.pointer ∧
    (s.reevaluate).biu.burst = s.biu.burst ∧ (s.reevaluate).biu.timeout = s.biu.timeout ∧
    (s.reevaluate).biu.accessError = s.biu.accessError ∧ (s.reevaluate).biu.lastFault = s.biu.lastFault := State.evaluate_frame ..

/-- A run settled. -/
@[simp] theorem State.settleRun_frame (s : State) (c : ChannelId) :
    (s.settleRun c).slots = s.slots ∧ (s.settleRun c).argument = s.argument ∧ (s.settleRun c).result = s.result ∧
    (s.settleRun c).inspect = s.inspect ∧ (s.settleRun c).writer = s.writer ∧ (s.settleRun c).idc = s.idc ∧
    (s.settleRun c).pinAsserted = s.pinAsserted ∧ (s.settleRun c).hostMem = s.hostMem ∧
    (s.settleRun c).freeIndex = s.freeIndex ∧ (s.settleRun c).pending = s.pending ∧
    (s.settleRun c).biu.requests = s.biu.requests ∧ (s.settleRun c).biu.pointer = s.biu.pointer ∧
    (s.settleRun c).biu.burst = s.biu.burst ∧ (s.settleRun c).biu.timeout = s.biu.timeout ∧
    (s.settleRun c).biu.accessError = s.biu.accessError ∧ (s.settleRun c).biu.lastFault = s.biu.lastFault := by
  unfold State.settleRun
  try dsimp only
  (repeat' split) <;> simp

/-- A join. -/
@[simp] theorem State.join_frame (s : State) (c : ChannelId) (n : Need) :
    (s.join c n).slots = s.slots ∧ (s.join c n).argument = s.argument ∧ (s.join c n).result = s.result ∧
    (s.join c n).inspect = s.inspect ∧ (s.join c n).writer = s.writer ∧ (s.join c n).idc = s.idc ∧
    (s.join c n).pinAsserted = s.pinAsserted ∧ (s.join c n).hostMem = s.hostMem ∧
    (s.join c n).freeIndex = s.freeIndex ∧ (s.join c n).pending = s.pending ∧
    (s.join c n).biu.requests = s.biu.requests ∧ (s.join c n).biu.pointer = s.biu.pointer ∧
    (s.join c n).biu.burst = s.biu.burst ∧ (s.join c n).biu.timeout = s.biu.timeout ∧
    (s.join c n).biu.accessError = s.biu.accessError ∧ (s.join c n).biu.lastFault = s.biu.lastFault := by
  simp [State.join]

/-- Units stopped. -/
@[simp] theorem State.stopUnits_frame (s : State) (c : ChannelId) :
    (s.stopUnits c).slots = s.slots ∧ (s.stopUnits c).argument = s.argument ∧ (s.stopUnits c).result = s.result ∧
    (s.stopUnits c).inspect = s.inspect ∧ (s.stopUnits c).channels = s.channels ∧
    (s.stopUnits c).arbiter = s.arbiter ∧ (s.stopUnits c).writer = s.writer ∧ (s.stopUnits c).idc = s.idc ∧
    (s.stopUnits c).pinAsserted = s.pinAsserted ∧ (s.stopUnits c).hostMem = s.hostMem ∧
    (s.stopUnits c).freeIndex = s.freeIndex ∧ (s.stopUnits c).pending = s.pending ∧
    (s.stopUnits c).biu.pointer = s.biu.pointer ∧ (s.stopUnits c).biu.burst = s.biu.burst ∧
    (s.stopUnits c).biu.timeout = s.biu.timeout ∧ (s.stopUnits c).biu.accessError = s.biu.accessError ∧
    (s.stopUnits c).biu.lastFault = s.biu.lastFault := by
  unfold State.stopUnits
  try dsimp only
  (repeat' split) <;> simp

/-- An abort of a run that takes effect. -/
@[simp] theorem State.abortRun_frame (s : State) (k : AbortKind) (c : ChannelId) :
    (s.abortRun k c).argument = s.argument ∧ (s.abortRun k c).result = s.result ∧
    (s.abortRun k c).inspect = s.inspect ∧ (s.abortRun k c).writer = s.writer ∧
    (s.abortRun k c).pinAsserted = s.pinAsserted ∧ (s.abortRun k c).hostMem = s.hostMem ∧
    (s.abortRun k c).freeIndex = s.freeIndex ∧ (s.abortRun k c).pending = s.pending ∧
    (s.abortRun k c).biu.requests = s.biu.requests ∧ (s.abortRun k c).biu.pointer = s.biu.pointer ∧
    (s.abortRun k c).biu.burst = s.biu.burst ∧ (s.abortRun k c).biu.timeout = s.biu.timeout ∧
    (s.abortRun k c).biu.accessError = s.biu.accessError ∧ (s.abortRun k c).biu.lastFault = s.biu.lastFault ∧
    (s.abortRun k c).idc.enable = s.idc.enable ∧ (s.abortRun k c).idc.resetPending = s.idc.resetPending := by
  simp [State.abortRun]

/-- A unit that has stopped. -/
@[simp] theorem State.unitStopped_frame (s : State) (c : ChannelId) :
    (s.unitStopped c).argument = s.argument ∧ (s.unitStopped c).result = s.result ∧
    (s.unitStopped c).inspect = s.inspect ∧ (s.unitStopped c).writer = s.writer ∧
    (s.unitStopped c).pinAsserted = s.pinAsserted ∧ (s.unitStopped c).hostMem = s.hostMem ∧
    (s.unitStopped c).freeIndex = s.freeIndex ∧ (s.unitStopped c).pending = s.pending ∧
    (s.unitStopped c).biu.requests = s.biu.requests ∧ (s.unitStopped c).biu.pointer = s.biu.pointer ∧
    (s.unitStopped c).biu.burst = s.biu.burst ∧ (s.unitStopped c).biu.timeout = s.biu.timeout ∧
    (s.unitStopped c).biu.accessError = s.biu.accessError ∧ (s.unitStopped c).biu.lastFault = s.biu.lastFault ∧
    (s.unitStopped c).idc.enable = s.idc.enable ∧ (s.unitStopped c).idc.resetPending = s.idc.resetPending := by
  unfold State.unitStopped
  try dsimp only
  (repeat' split) <;> simp

/-- A record begun. -/
@[simp] theorem State.beginRecord_frame (s : State) :
    (s.beginRecord).slots = s.slots ∧ (s.beginRecord).argument = s.argument ∧ (s.beginRecord).result = s.result ∧
    (s.beginRecord).inspect = s.inspect ∧ (s.beginRecord).channels = s.channels ∧
    (s.beginRecord).arbiter = s.arbiter ∧ (s.beginRecord).packs = s.packs ∧ (s.beginRecord).checks = s.checks ∧
    (s.beginRecord).idc = s.idc ∧ (s.beginRecord).pinAsserted = s.pinAsserted ∧
    (s.beginRecord).hostMem = s.hostMem ∧ (s.beginRecord).freeIndex = s.freeIndex ∧
    (s.beginRecord).pending = s.pending ∧ (s.beginRecord).biu.requests = s.biu.requests ∧
    (s.beginRecord).biu.pointer = s.biu.pointer ∧ (s.beginRecord).biu.burst = s.biu.burst ∧
    (s.beginRecord).biu.timeout = s.biu.timeout ∧ (s.beginRecord).biu.accessError = s.biu.accessError ∧
    (s.beginRecord).biu.lastFault = s.biu.lastFault := by
  unfold State.beginRecord
  try dsimp only
  (repeat' split) <;> simp

/-- A channel that asks for its record. -/
@[simp] theorem State.requestRecord_frame (s : State) (c : ChannelId) :
    (s.requestRecord c).slots = s.slots ∧ (s.requestRecord c).argument = s.argument ∧
    (s.requestRecord c).result = s.result ∧ (s.requestRecord c).inspect = s.inspect ∧
    (s.requestRecord c).channels = s.channels ∧ (s.requestRecord c).arbiter = s.arbiter ∧
    (s.requestRecord c).packs = s.packs ∧ (s.requestRecord c).checks = s.checks ∧ (s.requestRecord c).idc = s.idc ∧
    (s.requestRecord c).pinAsserted = s.pinAsserted ∧ (s.requestRecord c).hostMem = s.hostMem ∧
    (s.requestRecord c).freeIndex = s.freeIndex ∧ (s.requestRecord c).pending = s.pending ∧
    (s.requestRecord c).biu.requests = s.biu.requests ∧ (s.requestRecord c).biu.pointer = s.biu.pointer ∧
    (s.requestRecord c).biu.burst = s.biu.burst ∧ (s.requestRecord c).biu.timeout = s.biu.timeout ∧
    (s.requestRecord c).biu.accessError = s.biu.accessError ∧ (s.requestRecord c).biu.lastFault = s.biu.lastFault := by
  simp [State.requestRecord]

/-- CQ_LEVEL evaluated. -/
@[simp] theorem State.evaluateLevel_frame (s : State) :
    (s.evaluateLevel).slots = s.slots ∧ (s.evaluateLevel).argument = s.argument ∧
    (s.evaluateLevel).result = s.result ∧ (s.evaluateLevel).inspect = s.inspect ∧
    (s.evaluateLevel).channels = s.channels ∧ (s.evaluateLevel).arbiter = s.arbiter ∧
    (s.evaluateLevel).packs = s.packs ∧ (s.evaluateLevel).checks = s.checks ∧ (s.evaluateLevel).writer = s.writer ∧
    (s.evaluateLevel).biu = s.biu ∧ (s.evaluateLevel).pinAsserted = s.pinAsserted ∧
    (s.evaluateLevel).hostMem = s.hostMem ∧ (s.evaluateLevel).freeIndex = s.freeIndex ∧
    (s.evaluateLevel).pending = s.pending ∧ (s.evaluateLevel).idc.enable = s.idc.enable ∧
    (s.evaluateLevel).idc.resetPending = s.idc.resetPending := by
  unfold State.evaluateLevel
  try dsimp only
  (repeat' split) <;> simp

/-- CQ_FLUSH evaluated. -/
@[simp] theorem State.evaluateFlush_frame (s : State) (q : Bool) :
    (s.evaluateFlush q).slots = s.slots ∧ (s.evaluateFlush q).argument = s.argument ∧
    (s.evaluateFlush q).result = s.result ∧ (s.evaluateFlush q).inspect = s.inspect ∧
    (s.evaluateFlush q).channels = s.channels ∧ (s.evaluateFlush q).arbiter = s.arbiter ∧
    (s.evaluateFlush q).packs = s.packs ∧ (s.evaluateFlush q).checks = s.checks ∧
    (s.evaluateFlush q).writer = s.writer ∧ (s.evaluateFlush q).biu = s.biu ∧
    (s.evaluateFlush q).pinAsserted = s.pinAsserted ∧ (s.evaluateFlush q).hostMem = s.hostMem ∧
    (s.evaluateFlush q).freeIndex = s.freeIndex ∧ (s.evaluateFlush q).pending = s.pending ∧
    (s.evaluateFlush q).idc.enable = s.idc.enable ∧ (s.evaluateFlush q).idc.resetPending = s.idc.resetPending := by
  unfold State.evaluateFlush
  try dsimp only
  (repeat' split) <;> simp

/-- A leaving of the group that reaches the writer. -/
@[simp] theorem State.takeLeaving_frame (s : State) (c : ChannelId) :
    (s.takeLeaving c).slots = s.slots ∧ (s.takeLeaving c).argument = s.argument ∧
    (s.takeLeaving c).result = s.result ∧ (s.takeLeaving c).inspect = s.inspect ∧
    (s.takeLeaving c).arbiter = s.arbiter ∧ (s.takeLeaving c).packs = s.packs ∧
    (s.takeLeaving c).checks = s.checks ∧ (s.takeLeaving c).writer = s.writer ∧ (s.takeLeaving c).biu = s.biu ∧
    (s.takeLeaving c).pinAsserted = s.pinAsserted ∧ (s.takeLeaving c).hostMem = s.hostMem ∧
    (s.takeLeaving c).freeIndex = s.freeIndex ∧ (s.takeLeaving c).pending = s.pending ∧
    (s.takeLeaving c).idc.enable = s.idc.enable ∧ (s.takeLeaving c).idc.resetPending = s.idc.resetPending := by
  unfold State.takeLeaving
  try dsimp only
  (repeat' split) <;> simp

/-- Every leaving of the group taken. -/
@[simp] theorem State.takeLeavings_frame (s : State)  :
    (s.takeLeavings).slots = s.slots ∧ (s.takeLeavings).argument = s.argument ∧
    (s.takeLeavings).result = s.result ∧ (s.takeLeavings).inspect = s.inspect ∧
    (s.takeLeavings).arbiter = s.arbiter ∧ (s.takeLeavings).packs = s.packs ∧ (s.takeLeavings).checks = s.checks ∧
    (s.takeLeavings).writer = s.writer ∧ (s.takeLeavings).biu = s.biu ∧
    (s.takeLeavings).pinAsserted = s.pinAsserted ∧ (s.takeLeavings).hostMem = s.hostMem ∧
    (s.takeLeavings).freeIndex = s.freeIndex ∧ (s.takeLeavings).pending = s.pending ∧
    (s.takeLeavings).idc.enable = s.idc.enable ∧ (s.takeLeavings).idc.resetPending = s.idc.resetPending := by
  simp [State.takeLeavings]

/-- A record written. -/
@[simp] theorem State.recordWriteEnds_frame (s : State) :
    (s.recordWriteEnds).slots = s.slots ∧ (s.recordWriteEnds).argument = s.argument ∧
    (s.recordWriteEnds).result = s.result ∧ (s.recordWriteEnds).inspect = s.inspect ∧
    (s.recordWriteEnds).arbiter = s.arbiter ∧ (s.recordWriteEnds).packs = s.packs ∧
    (s.recordWriteEnds).checks = s.checks ∧ (s.recordWriteEnds).pinAsserted = s.pinAsserted ∧
    (s.recordWriteEnds).hostMem = s.hostMem ∧ (s.recordWriteEnds).freeIndex = s.freeIndex ∧
    (s.recordWriteEnds).pending = s.pending ∧ (s.recordWriteEnds).biu.requests = s.biu.requests ∧
    (s.recordWriteEnds).biu.pointer = s.biu.pointer ∧ (s.recordWriteEnds).biu.burst = s.biu.burst ∧
    (s.recordWriteEnds).biu.timeout = s.biu.timeout ∧ (s.recordWriteEnds).biu.accessError = s.biu.accessError ∧
    (s.recordWriteEnds).biu.lastFault = s.biu.lastFault ∧ (s.recordWriteEnds).idc.enable = s.idc.enable ∧
    (s.recordWriteEnds).idc.resetPending = s.idc.resetPending := by
  unfold State.recordWriteEnds
  try dsimp only
  (repeat' split) <;> simp

/-- A record write that faulted. -/
@[simp] theorem State.recordWriteFaults_frame (s : State) :
    (s.recordWriteFaults).slots = s.slots ∧ (s.recordWriteFaults).argument = s.argument ∧
    (s.recordWriteFaults).result = s.result ∧ (s.recordWriteFaults).inspect = s.inspect ∧
    (s.recordWriteFaults).channels = s.channels ∧ (s.recordWriteFaults).arbiter = s.arbiter ∧
    (s.recordWriteFaults).packs = s.packs ∧ (s.recordWriteFaults).checks = s.checks ∧
    (s.recordWriteFaults).biu = s.biu ∧ (s.recordWriteFaults).pinAsserted = s.pinAsserted ∧
    (s.recordWriteFaults).hostMem = s.hostMem ∧ (s.recordWriteFaults).freeIndex = s.freeIndex ∧
    (s.recordWriteFaults).pending = s.pending ∧ (s.recordWriteFaults).idc.enable = s.idc.enable ∧
    (s.recordWriteFaults).idc.resetPending = s.idc.resetPending := by
  unfold State.recordWriteFaults
  try dsimp only
  (repeat' split) <;> simp

/-- ENABLE. -/
@[simp] theorem State.takeEnable_frame (s : State) :
    (s.takeEnable).slots = s.slots ∧ (s.takeEnable).argument = s.argument ∧ (s.takeEnable).result = s.result ∧
    (s.takeEnable).inspect = s.inspect ∧ (s.takeEnable).channels = s.channels ∧
    (s.takeEnable).arbiter = s.arbiter ∧ (s.takeEnable).packs = s.packs ∧ (s.takeEnable).checks = s.checks ∧
    (s.takeEnable).idc = s.idc ∧ (s.takeEnable).pinAsserted = s.pinAsserted ∧ (s.takeEnable).hostMem = s.hostMem ∧
    (s.takeEnable).freeIndex = s.freeIndex ∧ (s.takeEnable).pending = s.pending ∧
    (s.takeEnable).biu.requests = s.biu.requests ∧ (s.takeEnable).biu.pointer = s.biu.pointer ∧
    (s.takeEnable).biu.burst = s.biu.burst ∧ (s.takeEnable).biu.timeout = s.biu.timeout ∧
    (s.takeEnable).biu.accessError = s.biu.accessError ∧ (s.takeEnable).biu.lastFault = s.biu.lastFault := by
  unfold State.takeEnable
  try dsimp only
  (repeat' split) <;> simp

/-- DISABLE. -/
@[simp] theorem State.takeDisable_frame (s : State) :
    (s.takeDisable).slots = s.slots ∧ (s.takeDisable).argument = s.argument ∧ (s.takeDisable).result = s.result ∧
    (s.takeDisable).inspect = s.inspect ∧ (s.takeDisable).channels = s.channels ∧
    (s.takeDisable).arbiter = s.arbiter ∧ (s.takeDisable).packs = s.packs ∧ (s.takeDisable).checks = s.checks ∧
    (s.takeDisable).idc = s.idc ∧ (s.takeDisable).biu = s.biu ∧ (s.takeDisable).pinAsserted = s.pinAsserted ∧
    (s.takeDisable).hostMem = s.hostMem ∧ (s.takeDisable).freeIndex = s.freeIndex ∧
    (s.takeDisable).pending = s.pending := by
  unfold State.takeDisable
  try dsimp only
  (repeat' split) <;> simp

/-- RESTART. -/
@[simp] theorem State.takeRestart_frame (s : State) :
    (s.takeRestart).slots = s.slots ∧ (s.takeRestart).argument = s.argument ∧ (s.takeRestart).result = s.result ∧
    (s.takeRestart).inspect = s.inspect ∧ (s.takeRestart).channels = s.channels ∧
    (s.takeRestart).arbiter = s.arbiter ∧ (s.takeRestart).packs = s.packs ∧ (s.takeRestart).checks = s.checks ∧
    (s.takeRestart).idc = s.idc ∧ (s.takeRestart).pinAsserted = s.pinAsserted ∧
    (s.takeRestart).hostMem = s.hostMem ∧ (s.takeRestart).freeIndex = s.freeIndex ∧
    (s.takeRestart).pending = s.pending ∧ (s.takeRestart).biu.requests = s.biu.requests ∧
    (s.takeRestart).biu.pointer = s.biu.pointer ∧ (s.takeRestart).biu.burst = s.biu.burst ∧
    (s.takeRestart).biu.timeout = s.biu.timeout ∧ (s.takeRestart).biu.accessError = s.biu.accessError ∧
    (s.takeRestart).biu.lastFault = s.biu.lastFault := by
  unfold State.takeRestart
  try dsimp only
  (repeat' split) <;> simp

/-- A writer control write. -/
@[simp] theorem State.takeWriterControl_frame (s : State) (v : Word) :
    (s.takeWriterControl v).slots = s.slots ∧ (s.takeWriterControl v).argument = s.argument ∧
    (s.takeWriterControl v).result = s.result ∧ (s.takeWriterControl v).inspect = s.inspect ∧
    (s.takeWriterControl v).channels = s.channels ∧ (s.takeWriterControl v).arbiter = s.arbiter ∧
    (s.takeWriterControl v).packs = s.packs ∧ (s.takeWriterControl v).checks = s.checks ∧
    (s.takeWriterControl v).idc = s.idc ∧ (s.takeWriterControl v).pinAsserted = s.pinAsserted ∧
    (s.takeWriterControl v).hostMem = s.hostMem ∧ (s.takeWriterControl v).freeIndex = s.freeIndex ∧
    (s.takeWriterControl v).pending = s.pending ∧ (s.takeWriterControl v).biu.requests = s.biu.requests ∧
    (s.takeWriterControl v).biu.pointer = s.biu.pointer ∧ (s.takeWriterControl v).biu.burst = s.biu.burst ∧
    (s.takeWriterControl v).biu.timeout = s.biu.timeout ∧
    (s.takeWriterControl v).biu.accessError = s.biu.accessError ∧
    (s.takeWriterControl v).biu.lastFault = s.biu.lastFault := by
  unfold State.takeWriterControl
  try dsimp only
  (repeat' split) <;> simp

/-- A completion ring base write. -/
@[simp] theorem State.takeCompletionBase_frame (s : State) (v : Word) :
    (s.takeCompletionBase v).slots = s.slots ∧ (s.takeCompletionBase v).argument = s.argument ∧
    (s.takeCompletionBase v).result = s.result ∧ (s.takeCompletionBase v).inspect = s.inspect ∧
    (s.takeCompletionBase v).channels = s.channels ∧ (s.takeCompletionBase v).arbiter = s.arbiter ∧
    (s.takeCompletionBase v).packs = s.packs ∧ (s.takeCompletionBase v).checks = s.checks ∧
    (s.takeCompletionBase v).pinAsserted = s.pinAsserted ∧ (s.takeCompletionBase v).hostMem = s.hostMem ∧
    (s.takeCompletionBase v).freeIndex = s.freeIndex ∧ (s.takeCompletionBase v).pending = s.pending ∧
    (s.takeCompletionBase v).biu.wanted = s.biu.wanted ∧ (s.takeCompletionBase v).biu.requests = s.biu.requests ∧
    (s.takeCompletionBase v).biu.pointer = s.biu.pointer ∧ (s.takeCompletionBase v).biu.burst = s.biu.burst ∧
    (s.takeCompletionBase v).biu.timeout = s.biu.timeout ∧
    (s.takeCompletionBase v).biu.lastFault = s.biu.lastFault ∧ (s.takeCompletionBase v).idc.enable = s.idc.enable ∧
    (s.takeCompletionBase v).idc.resetPending = s.idc.resetPending := by
  unfold State.takeCompletionBase
  try dsimp only
  (repeat' split) <;> simp

/-- A completion ring size write. -/
@[simp] theorem State.takeCompletionSize_frame (s : State) (v : Word) :
    (s.takeCompletionSize v).slots = s.slots ∧ (s.takeCompletionSize v).argument = s.argument ∧
    (s.takeCompletionSize v).result = s.result ∧ (s.takeCompletionSize v).inspect = s.inspect ∧
    (s.takeCompletionSize v).channels = s.channels ∧ (s.takeCompletionSize v).arbiter = s.arbiter ∧
    (s.takeCompletionSize v).packs = s.packs ∧ (s.takeCompletionSize v).checks = s.checks ∧
    (s.takeCompletionSize v).pinAsserted = s.pinAsserted ∧ (s.takeCompletionSize v).hostMem = s.hostMem ∧
    (s.takeCompletionSize v).freeIndex = s.freeIndex ∧ (s.takeCompletionSize v).pending = s.pending ∧
    (s.takeCompletionSize v).biu.wanted = s.biu.wanted ∧ (s.takeCompletionSize v).biu.requests = s.biu.requests ∧
    (s.takeCompletionSize v).biu.pointer = s.biu.pointer ∧ (s.takeCompletionSize v).biu.burst = s.biu.burst ∧
    (s.takeCompletionSize v).biu.timeout = s.biu.timeout ∧
    (s.takeCompletionSize v).biu.lastFault = s.biu.lastFault ∧ (s.takeCompletionSize v).idc.enable = s.idc.enable ∧
    (s.takeCompletionSize v).idc.resetPending = s.idc.resetPending := by
  unfold State.takeCompletionSize
  try dsimp only
  (repeat' split) <;> simp

/-- A HEAD write at the counts. -/
@[simp] theorem State.moveHead_frame (s : State) (v : Word) :
    (s.moveHead v).slots = s.slots ∧ (s.moveHead v).argument = s.argument ∧ (s.moveHead v).result = s.result ∧
    (s.moveHead v).inspect = s.inspect ∧ (s.moveHead v).channels = s.channels ∧
    (s.moveHead v).arbiter = s.arbiter ∧ (s.moveHead v).packs = s.packs ∧ (s.moveHead v).checks = s.checks ∧
    (s.moveHead v).pinAsserted = s.pinAsserted ∧ (s.moveHead v).hostMem = s.hostMem ∧
    (s.moveHead v).freeIndex = s.freeIndex ∧ (s.moveHead v).pending = s.pending ∧
    (s.moveHead v).biu.requests = s.biu.requests ∧ (s.moveHead v).biu.pointer = s.biu.pointer ∧
    (s.moveHead v).biu.burst = s.biu.burst ∧ (s.moveHead v).biu.timeout = s.biu.timeout ∧
    (s.moveHead v).biu.lastFault = s.biu.lastFault ∧ (s.moveHead v).idc.enable = s.idc.enable ∧
    (s.moveHead v).idc.resetPending = s.idc.resetPending := by
  unfold State.moveHead
  try dsimp only
  (repeat' split) <;> simp

/-- A HEAD write. -/
@[simp] theorem State.takeHead_frame (s : State) (v : Word) :
    (s.takeHead v).slots = s.slots ∧ (s.takeHead v).argument = s.argument ∧ (s.takeHead v).result = s.result ∧
    (s.takeHead v).inspect = s.inspect ∧ (s.takeHead v).arbiter = s.arbiter ∧ (s.takeHead v).packs = s.packs ∧
    (s.takeHead v).checks = s.checks ∧ (s.takeHead v).pinAsserted = s.pinAsserted ∧
    (s.takeHead v).hostMem = s.hostMem ∧ (s.takeHead v).freeIndex = s.freeIndex ∧
    (s.takeHead v).pending = s.pending ∧ (s.takeHead v).biu.requests = s.biu.requests ∧
    (s.takeHead v).biu.pointer = s.biu.pointer ∧ (s.takeHead v).biu.burst = s.biu.burst ∧
    (s.takeHead v).biu.timeout = s.biu.timeout ∧ (s.takeHead v).biu.lastFault = s.biu.lastFault ∧
    (s.takeHead v).idc.enable = s.idc.enable ∧ (s.takeHead v).idc.resetPending = s.idc.resetPending := by
  simp [State.takeHead]

/-- A fetch begun if a job is posted. -/
@[simp] theorem State.fetchIfPosted_frame (s : State) (c : ChannelId) :
    (s.fetchIfPosted c).slots = s.slots ∧ (s.fetchIfPosted c).argument = s.argument ∧
    (s.fetchIfPosted c).result = s.result ∧ (s.fetchIfPosted c).inspect = s.inspect ∧
    (s.fetchIfPosted c).arbiter = s.arbiter ∧ (s.fetchIfPosted c).packs = s.packs ∧
    (s.fetchIfPosted c).checks = s.checks ∧ (s.fetchIfPosted c).writer = s.writer ∧
    (s.fetchIfPosted c).idc = s.idc ∧ (s.fetchIfPosted c).pinAsserted = s.pinAsserted ∧
    (s.fetchIfPosted c).hostMem = s.hostMem ∧ (s.fetchIfPosted c).freeIndex = s.freeIndex ∧
    (s.fetchIfPosted c).pending = s.pending ∧ (s.fetchIfPosted c).biu.requests = s.biu.requests ∧
    (s.fetchIfPosted c).biu.pointer = s.biu.pointer ∧ (s.fetchIfPosted c).biu.burst = s.biu.burst ∧
    (s.fetchIfPosted c).biu.timeout = s.biu.timeout ∧ (s.fetchIfPosted c).biu.accessError = s.biu.accessError ∧
    (s.fetchIfPosted c).biu.lastFault = s.biu.lastFault := by
  unfold State.fetchIfPosted
  try dsimp only
  (repeat' split) <;> simp

/-- A job ring base write. -/
@[simp] theorem State.takeJobRingBase_frame (s : State) (c : ChannelId) (v : Word) :
    (s.takeJobRingBase c v).slots = s.slots ∧ (s.takeJobRingBase c v).argument = s.argument ∧
    (s.takeJobRingBase c v).result = s.result ∧ (s.takeJobRingBase c v).inspect = s.inspect ∧
    (s.takeJobRingBase c v).arbiter = s.arbiter ∧ (s.takeJobRingBase c v).packs = s.packs ∧
    (s.takeJobRingBase c v).checks = s.checks ∧ (s.takeJobRingBase c v).writer = s.writer ∧
    (s.takeJobRingBase c v).pinAsserted = s.pinAsserted ∧ (s.takeJobRingBase c v).hostMem = s.hostMem ∧
    (s.takeJobRingBase c v).freeIndex = s.freeIndex ∧ (s.takeJobRingBase c v).pending = s.pending ∧
    (s.takeJobRingBase c v).biu.wanted = s.biu.wanted ∧ (s.takeJobRingBase c v).biu.requests = s.biu.requests ∧
    (s.takeJobRingBase c v).biu.pointer = s.biu.pointer ∧ (s.takeJobRingBase c v).biu.burst = s.biu.burst ∧
    (s.takeJobRingBase c v).biu.timeout = s.biu.timeout ∧ (s.takeJobRingBase c v).biu.lastFault = s.biu.lastFault ∧
    (s.takeJobRingBase c v).idc.enable = s.idc.enable ∧
    (s.takeJobRingBase c v).idc.resetPending = s.idc.resetPending := by
  unfold State.takeJobRingBase
  try dsimp only
  (repeat' split) <;> simp

/-- A job ring size write. -/
@[simp] theorem State.takeJobRingSize_frame (s : State) (c : ChannelId) (v : Word) :
    (s.takeJobRingSize c v).slots = s.slots ∧ (s.takeJobRingSize c v).argument = s.argument ∧
    (s.takeJobRingSize c v).result = s.result ∧ (s.takeJobRingSize c v).inspect = s.inspect ∧
    (s.takeJobRingSize c v).arbiter = s.arbiter ∧ (s.takeJobRingSize c v).packs = s.packs ∧
    (s.takeJobRingSize c v).checks = s.checks ∧ (s.takeJobRingSize c v).writer = s.writer ∧
    (s.takeJobRingSize c v).pinAsserted = s.pinAsserted ∧ (s.takeJobRingSize c v).hostMem = s.hostMem ∧
    (s.takeJobRingSize c v).freeIndex = s.freeIndex ∧ (s.takeJobRingSize c v).pending = s.pending ∧
    (s.takeJobRingSize c v).biu.wanted = s.biu.wanted ∧ (s.takeJobRingSize c v).biu.requests = s.biu.requests ∧
    (s.takeJobRingSize c v).biu.pointer = s.biu.pointer ∧ (s.takeJobRingSize c v).biu.burst = s.biu.burst ∧
    (s.takeJobRingSize c v).biu.timeout = s.biu.timeout ∧ (s.takeJobRingSize c v).biu.lastFault = s.biu.lastFault ∧
    (s.takeJobRingSize c v).idc.enable = s.idc.enable ∧
    (s.takeJobRingSize c v).idc.resetPending = s.idc.resetPending := by
  unfold State.takeJobRingSize
  try dsimp only
  (repeat' split) <;> simp

/-- A POST write. -/
@[simp] theorem State.takePost_frame (s : State) (c : ChannelId) (v : Word) :
    (s.takePost c v).slots = s.slots ∧ (s.takePost c v).argument = s.argument ∧
    (s.takePost c v).result = s.result ∧ (s.takePost c v).inspect = s.inspect ∧
    (s.takePost c v).arbiter = s.arbiter ∧ (s.takePost c v).packs = s.packs ∧ (s.takePost c v).checks = s.checks ∧
    (s.takePost c v).writer = s.writer ∧ (s.takePost c v).pinAsserted = s.pinAsserted ∧
    (s.takePost c v).hostMem = s.hostMem ∧ (s.takePost c v).freeIndex = s.freeIndex ∧
    (s.takePost c v).pending = s.pending ∧ (s.takePost c v).biu.requests = s.biu.requests ∧
    (s.takePost c v).biu.pointer = s.biu.pointer ∧ (s.takePost c v).biu.burst = s.biu.burst ∧
    (s.takePost c v).biu.timeout = s.biu.timeout ∧ (s.takePost c v).biu.lastFault = s.biu.lastFault ∧
    (s.takePost c v).idc.enable = s.idc.enable ∧ (s.takePost c v).idc.resetPending = s.idc.resetPending := by
  unfold State.takePost
  try dsimp only
  (repeat' split) <;> simp

/-- START. -/
@[simp] theorem State.takeStart_frame (s : State) (c : ChannelId) :
    (s.takeStart c).slots = s.slots ∧ (s.takeStart c).argument = s.argument ∧ (s.takeStart c).result = s.result ∧
    (s.takeStart c).inspect = s.inspect ∧ (s.takeStart c).arbiter = s.arbiter ∧ (s.takeStart c).packs = s.packs ∧
    (s.takeStart c).checks = s.checks ∧ (s.takeStart c).writer = s.writer ∧ (s.takeStart c).idc = s.idc ∧
    (s.takeStart c).pinAsserted = s.pinAsserted ∧ (s.takeStart c).hostMem = s.hostMem ∧
    (s.takeStart c).freeIndex = s.freeIndex ∧ (s.takeStart c).pending = s.pending ∧
    (s.takeStart c).biu.requests = s.biu.requests ∧ (s.takeStart c).biu.pointer = s.biu.pointer ∧
    (s.takeStart c).biu.burst = s.biu.burst ∧ (s.takeStart c).biu.timeout = s.biu.timeout ∧
    (s.takeStart c).biu.accessError = s.biu.accessError ∧ (s.takeStart c).biu.lastFault = s.biu.lastFault := by
  unfold State.takeStart
  try dsimp only
  (repeat' split) <;> simp

/-- STOP. -/
@[simp] theorem State.takeStop_frame (s : State) (c : ChannelId) :
    (s.takeStop c).slots = s.slots ∧ (s.takeStop c).argument = s.argument ∧ (s.takeStop c).result = s.result ∧
    (s.takeStop c).inspect = s.inspect ∧ (s.takeStop c).arbiter = s.arbiter ∧ (s.takeStop c).packs = s.packs ∧
    (s.takeStop c).checks = s.checks ∧ (s.takeStop c).writer = s.writer ∧ (s.takeStop c).idc = s.idc ∧
    (s.takeStop c).biu = s.biu ∧ (s.takeStop c).pinAsserted = s.pinAsserted ∧ (s.takeStop c).hostMem = s.hostMem ∧
    (s.takeStop c).freeIndex = s.freeIndex ∧ (s.takeStop c).pending = s.pending := by
  unfold State.takeStop
  try dsimp only
  (repeat' split) <;> simp

/-- An ABORT or channel RESET taken. -/
@[simp] theorem State.disposeOf_frame (s : State) (k : AbortKind) (c : ChannelId) :
    (s.disposeOf k c).argument = s.argument ∧ (s.disposeOf k c).result = s.result ∧
    (s.disposeOf k c).inspect = s.inspect ∧ (s.disposeOf k c).pinAsserted = s.pinAsserted ∧
    (s.disposeOf k c).hostMem = s.hostMem ∧ (s.disposeOf k c).freeIndex = s.freeIndex ∧
    (s.disposeOf k c).pending = s.pending ∧ (s.disposeOf k c).biu.pointer = s.biu.pointer ∧
    (s.disposeOf k c).biu.burst = s.biu.burst ∧ (s.disposeOf k c).biu.timeout = s.biu.timeout ∧
    (s.disposeOf k c).biu.accessError = s.biu.accessError ∧ (s.disposeOf k c).biu.lastFault = s.biu.lastFault ∧
    (s.disposeOf k c).idc.enable = s.idc.enable ∧ (s.disposeOf k c).idc.resetPending = s.idc.resetPending := by
  unfold State.disposeOf
  try dsimp only
  (repeat' split) <;> simp

/-- ABORT. -/
@[simp] theorem State.takeAbort_frame (s : State) (c : ChannelId) :
    (s.takeAbort c).argument = s.argument ∧ (s.takeAbort c).result = s.result ∧
    (s.takeAbort c).inspect = s.inspect ∧ (s.takeAbort c).pinAsserted = s.pinAsserted ∧
    (s.takeAbort c).hostMem = s.hostMem ∧ (s.takeAbort c).freeIndex = s.freeIndex ∧
    (s.takeAbort c).pending = s.pending ∧ (s.takeAbort c).biu.pointer = s.biu.pointer ∧
    (s.takeAbort c).biu.burst = s.biu.burst ∧ (s.takeAbort c).biu.timeout = s.biu.timeout ∧
    (s.takeAbort c).biu.accessError = s.biu.accessError ∧ (s.takeAbort c).biu.lastFault = s.biu.lastFault ∧
    (s.takeAbort c).idc.enable = s.idc.enable ∧ (s.takeAbort c).idc.resetPending = s.idc.resetPending := by
  unfold State.takeAbort
  try dsimp only
  (repeat' split) <;> simp

/-- Channel RESET. -/
@[simp] theorem State.takeReset_frame (s : State) (c : ChannelId) :
    (s.takeReset c).argument = s.argument ∧ (s.takeReset c).result = s.result ∧
    (s.takeReset c).inspect = s.inspect ∧ (s.takeReset c).pinAsserted = s.pinAsserted ∧
    (s.takeReset c).hostMem = s.hostMem ∧ (s.takeReset c).freeIndex = s.freeIndex ∧
    (s.takeReset c).pending = s.pending ∧ (s.takeReset c).biu.pointer = s.biu.pointer ∧
    (s.takeReset c).biu.burst = s.biu.burst ∧ (s.takeReset c).biu.timeout = s.biu.timeout ∧
    (s.takeReset c).biu.accessError = s.biu.accessError ∧ (s.takeReset c).biu.lastFault = s.biu.lastFault ∧
    (s.takeReset c).idc.enable = s.idc.enable ∧ (s.takeReset c).idc.resetPending = s.idc.resetPending := by
  unfold State.takeReset
  try dsimp only
  (repeat' split) <;> simp

/-- A channel control write. -/
@[simp] theorem State.takeChannelControl_frame (s : State) (c : ChannelId) (v : Word) :
    (s.takeChannelControl c v).argument = s.argument ∧ (s.takeChannelControl c v).result = s.result ∧
    (s.takeChannelControl c v).inspect = s.inspect ∧ (s.takeChannelControl c v).pinAsserted = s.pinAsserted ∧
    (s.takeChannelControl c v).hostMem = s.hostMem ∧ (s.takeChannelControl c v).freeIndex = s.freeIndex ∧
    (s.takeChannelControl c v).pending = s.pending ∧ (s.takeChannelControl c v).biu.pointer = s.biu.pointer ∧
    (s.takeChannelControl c v).biu.burst = s.biu.burst ∧ (s.takeChannelControl c v).biu.timeout = s.biu.timeout ∧
    (s.takeChannelControl c v).biu.accessError = s.biu.accessError ∧
    (s.takeChannelControl c v).biu.lastFault = s.biu.lastFault ∧
    (s.takeChannelControl c v).idc.enable = s.idc.enable ∧
    (s.takeChannelControl c v).idc.resetPending = s.idc.resetPending := by
  unfold State.takeChannelControl
  try dsimp only
  (repeat' split) <;> simp

/-- The end of a fetch. -/
@[simp] theorem State.completeFetch_frame (s : State) (c : ChannelId) (j : Job) :
    (s.completeFetch c j).slots = s.slots ∧ (s.completeFetch c j).argument = s.argument ∧
    (s.completeFetch c j).result = s.result ∧ (s.completeFetch c j).inspect = s.inspect ∧
    (s.completeFetch c j).arbiter = s.arbiter ∧ (s.completeFetch c j).packs = s.packs ∧
    (s.completeFetch c j).checks = s.checks ∧ (s.completeFetch c j).writer = s.writer ∧
    (s.completeFetch c j).idc = s.idc ∧ (s.completeFetch c j).biu = s.biu ∧
    (s.completeFetch c j).pinAsserted = s.pinAsserted ∧ (s.completeFetch c j).hostMem = s.hostMem ∧
    (s.completeFetch c j).freeIndex = s.freeIndex ∧ (s.completeFetch c j).pending = s.pending := by
  unfold State.completeFetch
  try dsimp only
  (repeat' split) <;> simp

/-- The destination table turn of a fetch. -/
@[simp] theorem State.fetchDest_frame (s : State) (c : ChannelId) (j : Job) :
    (s.fetchDest c j).slots = s.slots ∧ (s.fetchDest c j).argument = s.argument ∧
    (s.fetchDest c j).result = s.result ∧ (s.fetchDest c j).inspect = s.inspect ∧
    (s.fetchDest c j).arbiter = s.arbiter ∧ (s.fetchDest c j).packs = s.packs ∧
    (s.fetchDest c j).checks = s.checks ∧ (s.fetchDest c j).writer = s.writer ∧ (s.fetchDest c j).idc = s.idc ∧
    (s.fetchDest c j).pinAsserted = s.pinAsserted ∧ (s.fetchDest c j).hostMem = s.hostMem ∧
    (s.fetchDest c j).freeIndex = s.freeIndex ∧ (s.fetchDest c j).pending = s.pending ∧
    (s.fetchDest c j).biu.requests = s.biu.requests ∧ (s.fetchDest c j).biu.pointer = s.biu.pointer ∧
    (s.fetchDest c j).biu.burst = s.biu.burst ∧ (s.fetchDest c j).biu.timeout = s.biu.timeout ∧
    (s.fetchDest c j).biu.accessError = s.biu.accessError ∧ (s.fetchDest c j).biu.lastFault = s.biu.lastFault := by
  unfold State.fetchDest
  try dsimp only
  (repeat' split) <;> simp

/-- A job entry read. -/
@[simp] theorem State.entryRead_frame (s : State) (c : ChannelId) (e : JobEntry) :
    (s.entryRead c e).slots = s.slots ∧ (s.entryRead c e).argument = s.argument ∧
    (s.entryRead c e).result = s.result ∧ (s.entryRead c e).inspect = s.inspect ∧
    (s.entryRead c e).arbiter = s.arbiter ∧ (s.entryRead c e).packs = s.packs ∧
    (s.entryRead c e).checks = s.checks ∧ (s.entryRead c e).writer = s.writer ∧ (s.entryRead c e).idc = s.idc ∧
    (s.entryRead c e).pinAsserted = s.pinAsserted ∧ (s.entryRead c e).hostMem = s.hostMem ∧
    (s.entryRead c e).freeIndex = s.freeIndex ∧ (s.entryRead c e).pending = s.pending ∧
    (s.entryRead c e).biu.requests = s.biu.requests ∧ (s.entryRead c e).biu.pointer = s.biu.pointer ∧
    (s.entryRead c e).biu.burst = s.biu.burst ∧ (s.entryRead c e).biu.timeout = s.biu.timeout ∧
    (s.entryRead c e).biu.accessError = s.biu.accessError ∧ (s.entryRead c e).biu.lastFault = s.biu.lastFault := by
  unfold State.entryRead
  try dsimp only
  (repeat' split) <;> simp

/-- Source table bytes read. -/
@[simp] theorem State.sourceTableRead_frame (s : State) (c : ChannelId) (j : Job) (l : List Byte) :
    (s.sourceTableRead c j l).slots = s.slots ∧ (s.sourceTableRead c j l).argument = s.argument ∧
    (s.sourceTableRead c j l).result = s.result ∧ (s.sourceTableRead c j l).inspect = s.inspect ∧
    (s.sourceTableRead c j l).arbiter = s.arbiter ∧ (s.sourceTableRead c j l).packs = s.packs ∧
    (s.sourceTableRead c j l).checks = s.checks ∧ (s.sourceTableRead c j l).writer = s.writer ∧
    (s.sourceTableRead c j l).idc = s.idc ∧ (s.sourceTableRead c j l).pinAsserted = s.pinAsserted ∧
    (s.sourceTableRead c j l).hostMem = s.hostMem ∧ (s.sourceTableRead c j l).freeIndex = s.freeIndex ∧
    (s.sourceTableRead c j l).pending = s.pending ∧ (s.sourceTableRead c j l).biu.requests = s.biu.requests ∧
    (s.sourceTableRead c j l).biu.pointer = s.biu.pointer ∧ (s.sourceTableRead c j l).biu.burst = s.biu.burst ∧
    (s.sourceTableRead c j l).biu.timeout = s.biu.timeout ∧
    (s.sourceTableRead c j l).biu.accessError = s.biu.accessError ∧
    (s.sourceTableRead c j l).biu.lastFault = s.biu.lastFault := by
  unfold State.sourceTableRead
  try dsimp only
  (repeat' split) <;> simp

/-- Destination table bytes read. -/
@[simp] theorem State.destTableRead_frame (s : State) (c : ChannelId) (j : Job) (l : List Byte) :
    (s.destTableRead c j l).slots = s.slots ∧ (s.destTableRead c j l).argument = s.argument ∧
    (s.destTableRead c j l).result = s.result ∧ (s.destTableRead c j l).inspect = s.inspect ∧
    (s.destTableRead c j l).arbiter = s.arbiter ∧ (s.destTableRead c j l).packs = s.packs ∧
    (s.destTableRead c j l).checks = s.checks ∧ (s.destTableRead c j l).writer = s.writer ∧
    (s.destTableRead c j l).idc = s.idc ∧ (s.destTableRead c j l).pinAsserted = s.pinAsserted ∧
    (s.destTableRead c j l).hostMem = s.hostMem ∧ (s.destTableRead c j l).freeIndex = s.freeIndex ∧
    (s.destTableRead c j l).pending = s.pending ∧ (s.destTableRead c j l).biu.requests = s.biu.requests ∧
    (s.destTableRead c j l).biu.pointer = s.biu.pointer ∧ (s.destTableRead c j l).biu.burst = s.biu.burst ∧
    (s.destTableRead c j l).biu.timeout = s.biu.timeout ∧
    (s.destTableRead c j l).biu.accessError = s.biu.accessError ∧
    (s.destTableRead c j l).biu.lastFault = s.biu.lastFault := by
  unfold State.destTableRead
  try dsimp only
  (repeat' split) <;> simp

/-- A fetch transfer that ends with ready. -/
@[simp] theorem State.fetchReadEnds_frame (s : State) (c : ChannelId) (l : List Byte) :
    (s.fetchReadEnds c l).slots = s.slots ∧ (s.fetchReadEnds c l).argument = s.argument ∧
    (s.fetchReadEnds c l).result = s.result ∧ (s.fetchReadEnds c l).inspect = s.inspect ∧
    (s.fetchReadEnds c l).arbiter = s.arbiter ∧ (s.fetchReadEnds c l).packs = s.packs ∧
    (s.fetchReadEnds c l).checks = s.checks ∧ (s.fetchReadEnds c l).writer = s.writer ∧
    (s.fetchReadEnds c l).pinAsserted = s.pinAsserted ∧ (s.fetchReadEnds c l).hostMem = s.hostMem ∧
    (s.fetchReadEnds c l).freeIndex = s.freeIndex ∧ (s.fetchReadEnds c l).pending = s.pending ∧
    (s.fetchReadEnds c l).biu.requests = s.biu.requests ∧ (s.fetchReadEnds c l).biu.pointer = s.biu.pointer ∧
    (s.fetchReadEnds c l).biu.burst = s.biu.burst ∧ (s.fetchReadEnds c l).biu.timeout = s.biu.timeout ∧
    (s.fetchReadEnds c l).biu.accessError = s.biu.accessError ∧
    (s.fetchReadEnds c l).biu.lastFault = s.biu.lastFault ∧ (s.fetchReadEnds c l).idc.enable = s.idc.enable ∧
    (s.fetchReadEnds c l).idc.resetPending = s.idc.resetPending := by
  unfold State.fetchReadEnds
  try dsimp only
  (repeat' split) <;> simp

/-- A fetch transfer that faults. -/
@[simp] theorem State.fetchReadFaults_frame (s : State) (c : ChannelId) (w : Why) :
    (s.fetchReadFaults c w).slots = s.slots ∧ (s.fetchReadFaults c w).argument = s.argument ∧
    (s.fetchReadFaults c w).result = s.result ∧ (s.fetchReadFaults c w).inspect = s.inspect ∧
    (s.fetchReadFaults c w).arbiter = s.arbiter ∧ (s.fetchReadFaults c w).packs = s.packs ∧
    (s.fetchReadFaults c w).checks = s.checks ∧ (s.fetchReadFaults c w).writer = s.writer ∧
    (s.fetchReadFaults c w).biu = s.biu ∧ (s.fetchReadFaults c w).pinAsserted = s.pinAsserted ∧
    (s.fetchReadFaults c w).hostMem = s.hostMem ∧ (s.fetchReadFaults c w).freeIndex = s.freeIndex ∧
    (s.fetchReadFaults c w).pending = s.pending ∧ (s.fetchReadFaults c w).idc.enable = s.idc.enable ∧
    (s.fetchReadFaults c w).idc.resetPending = s.idc.resetPending := by
  unfold State.fetchReadFaults
  try dsimp only
  (repeat' split) <;> simp

/-- The next-state choice. -/
@[simp] theorem State.chooseNext_frame (s : State) (c : ChannelId) (st : Option Status) :
    (s.chooseNext c st).slots = s.slots ∧ (s.chooseNext c st).argument = s.argument ∧
    (s.chooseNext c st).result = s.result ∧ (s.chooseNext c st).inspect = s.inspect ∧
    (s.chooseNext c st).arbiter = s.arbiter ∧ (s.chooseNext c st).packs = s.packs ∧
    (s.chooseNext c st).checks = s.checks ∧ (s.chooseNext c st).writer = s.writer ∧
    (s.chooseNext c st).pinAsserted = s.pinAsserted ∧ (s.chooseNext c st).hostMem = s.hostMem ∧
    (s.chooseNext c st).freeIndex = s.freeIndex ∧ (s.chooseNext c st).pending = s.pending ∧
    (s.chooseNext c st).biu.requests = s.biu.requests ∧ (s.chooseNext c st).biu.pointer = s.biu.pointer ∧
    (s.chooseNext c st).biu.burst = s.biu.burst ∧ (s.chooseNext c st).biu.timeout = s.biu.timeout ∧
    (s.chooseNext c st).biu.accessError = s.biu.accessError ∧ (s.chooseNext c st).biu.lastFault = s.biu.lastFault ∧
    (s.chooseNext c st).idc.enable = s.idc.enable ∧ (s.chooseNext c st).idc.resetPending = s.idc.resetPending := by
  unfold State.chooseNext
  try dsimp only
  (repeat' split) <;> simp

/-- A retirement. -/
@[simp] theorem State.retire_frame (s : State) (c : ChannelId) :
    (s.retire c).argument = s.argument ∧ (s.retire c).result = s.result ∧ (s.retire c).inspect = s.inspect ∧
    (s.retire c).arbiter = s.arbiter ∧ (s.retire c).packs = s.packs ∧ (s.retire c).checks = s.checks ∧
    (s.retire c).writer = s.writer ∧ (s.retire c).pinAsserted = s.pinAsserted ∧ (s.retire c).hostMem = s.hostMem ∧
    (s.retire c).freeIndex = s.freeIndex ∧ (s.retire c).pending = s.pending ∧
    (s.retire c).biu.requests = s.biu.requests ∧ (s.retire c).biu.pointer = s.biu.pointer ∧
    (s.retire c).biu.burst = s.biu.burst ∧ (s.retire c).biu.timeout = s.biu.timeout ∧
    (s.retire c).biu.accessError = s.biu.accessError ∧ (s.retire c).biu.lastFault = s.biu.lastFault ∧
    (s.retire c).idc.enable = s.idc.enable ∧ (s.retire c).idc.resetPending = s.idc.resetPending := by
  unfold State.retire
  try dsimp only
  simp

/-- A pack unit transfer that ends with ready. -/
@[simp] theorem State.packTransferEnds_frame (s : State) (p : PackId) (q : BurstRequest) (l : List Byte) :
    (s.packTransferEnds p q l).argument = s.argument ∧ (s.packTransferEnds p q l).result = s.result ∧
    (s.packTransferEnds p q l).inspect = s.inspect ∧ (s.packTransferEnds p q l).writer = s.writer ∧
    (s.packTransferEnds p q l).pinAsserted = s.pinAsserted ∧ (s.packTransferEnds p q l).hostMem = s.hostMem ∧
    (s.packTransferEnds p q l).freeIndex = s.freeIndex ∧ (s.packTransferEnds p q l).pending = s.pending ∧
    (s.packTransferEnds p q l).biu.requests = s.biu.requests ∧
    (s.packTransferEnds p q l).biu.pointer = s.biu.pointer ∧ (s.packTransferEnds p q l).biu.burst = s.biu.burst ∧
    (s.packTransferEnds p q l).biu.timeout = s.biu.timeout ∧
    (s.packTransferEnds p q l).biu.accessError = s.biu.accessError ∧
    (s.packTransferEnds p q l).biu.lastFault = s.biu.lastFault ∧
    (s.packTransferEnds p q l).idc.enable = s.idc.enable ∧
    (s.packTransferEnds p q l).idc.resetPending = s.idc.resetPending := by
  unfold State.packTransferEnds
  try dsimp only
  (repeat' split) <;> simp

/-- A pack unit transfer that faults. -/
@[simp] theorem State.packTransferFaults_frame (s : State) (p : PackId) (q : BurstRequest) (w : Why) :
    (s.packTransferFaults p q w).argument = s.argument ∧ (s.packTransferFaults p q w).result = s.result ∧
    (s.packTransferFaults p q w).inspect = s.inspect ∧ (s.packTransferFaults p q w).writer = s.writer ∧
    (s.packTransferFaults p q w).pinAsserted = s.pinAsserted ∧ (s.packTransferFaults p q w).hostMem = s.hostMem ∧
    (s.packTransferFaults p q w).freeIndex = s.freeIndex ∧ (s.packTransferFaults p q w).pending = s.pending ∧
    (s.packTransferFaults p q w).biu.requests = s.biu.requests ∧
    (s.packTransferFaults p q w).biu.pointer = s.biu.pointer ∧
    (s.packTransferFaults p q w).biu.burst = s.biu.burst ∧
    (s.packTransferFaults p q w).biu.timeout = s.biu.timeout ∧
    (s.packTransferFaults p q w).biu.accessError = s.biu.accessError ∧
    (s.packTransferFaults p q w).biu.lastFault = s.biu.lastFault ∧
    (s.packTransferFaults p q w).idc.enable = s.idc.enable ∧
    (s.packTransferFaults p q w).idc.resetPending = s.idc.resetPending := by
  unfold State.packTransferFaults
  try dsimp only
  (repeat' split) <;> simp

/-- A check unit read that ends with ready. -/
@[simp] theorem State.checkReadEnds_frame (s : State) (k : CheckId) (l : List Byte) :
    (s.checkReadEnds k l).argument = s.argument ∧ (s.checkReadEnds k l).result = s.result ∧
    (s.checkReadEnds k l).inspect = s.inspect ∧ (s.checkReadEnds k l).writer = s.writer ∧
    (s.checkReadEnds k l).pinAsserted = s.pinAsserted ∧ (s.checkReadEnds k l).hostMem = s.hostMem ∧
    (s.checkReadEnds k l).freeIndex = s.freeIndex ∧ (s.checkReadEnds k l).pending = s.pending ∧
    (s.checkReadEnds k l).biu.requests = s.biu.requests ∧ (s.checkReadEnds k l).biu.pointer = s.biu.pointer ∧
    (s.checkReadEnds k l).biu.burst = s.biu.burst ∧ (s.checkReadEnds k l).biu.timeout = s.biu.timeout ∧
    (s.checkReadEnds k l).biu.accessError = s.biu.accessError ∧
    (s.checkReadEnds k l).biu.lastFault = s.biu.lastFault ∧ (s.checkReadEnds k l).idc.enable = s.idc.enable ∧
    (s.checkReadEnds k l).idc.resetPending = s.idc.resetPending := by
  unfold State.checkReadEnds
  try dsimp only
  (repeat' split) <;> simp

/-- A check unit read that faults. -/
@[simp] theorem State.checkReadFaults_frame (s : State) (k : CheckId) (w : Why) :
    (s.checkReadFaults k w).argument = s.argument ∧ (s.checkReadFaults k w).result = s.result ∧
    (s.checkReadFaults k w).inspect = s.inspect ∧ (s.checkReadFaults k w).writer = s.writer ∧
    (s.checkReadFaults k w).pinAsserted = s.pinAsserted ∧ (s.checkReadFaults k w).hostMem = s.hostMem ∧
    (s.checkReadFaults k w).freeIndex = s.freeIndex ∧ (s.checkReadFaults k w).pending = s.pending ∧
    (s.checkReadFaults k w).biu.requests = s.biu.requests ∧ (s.checkReadFaults k w).biu.pointer = s.biu.pointer ∧
    (s.checkReadFaults k w).biu.burst = s.biu.burst ∧ (s.checkReadFaults k w).biu.timeout = s.biu.timeout ∧
    (s.checkReadFaults k w).biu.accessError = s.biu.accessError ∧
    (s.checkReadFaults k w).biu.lastFault = s.biu.lastFault ∧ (s.checkReadFaults k w).idc.enable = s.idc.enable ∧
    (s.checkReadFaults k w).idc.resetPending = s.idc.resetPending := by
  unfold State.checkReadFaults
  try dsimp only
  (repeat' split) <;> simp

/-- An owner told of ready. -/
@[simp] theorem State.tellReady_frame (s : State) (b : Burst) (l : List Byte) :
    (s.tellReady b l).argument = s.argument ∧ (s.tellReady b l).result = s.result ∧
    (s.tellReady b l).inspect = s.inspect ∧ (s.tellReady b l).pinAsserted = s.pinAsserted ∧
    (s.tellReady b l).hostMem = s.hostMem ∧ (s.tellReady b l).freeIndex = s.freeIndex ∧
    (s.tellReady b l).pending = s.pending ∧ (s.tellReady b l).biu.requests = s.biu.requests ∧
    (s.tellReady b l).biu.pointer = s.biu.pointer ∧ (s.tellReady b l).biu.burst = s.biu.burst ∧
    (s.tellReady b l).biu.timeout = s.biu.timeout ∧ (s.tellReady b l).biu.accessError = s.biu.accessError ∧
    (s.tellReady b l).biu.lastFault = s.biu.lastFault ∧ (s.tellReady b l).idc.enable = s.idc.enable ∧
    (s.tellReady b l).idc.resetPending = s.idc.resetPending := by
  unfold State.tellReady
  try dsimp only
  (repeat' split) <;> simp

/-- An owner told of a fault. -/
@[simp] theorem State.tellFault_frame (s : State) (b : Burst) (w : Why) :
    (s.tellFault b w).argument = s.argument ∧ (s.tellFault b w).result = s.result ∧
    (s.tellFault b w).inspect = s.inspect ∧ (s.tellFault b w).pinAsserted = s.pinAsserted ∧
    (s.tellFault b w).hostMem = s.hostMem ∧ (s.tellFault b w).freeIndex = s.freeIndex ∧
    (s.tellFault b w).pending = s.pending ∧ (s.tellFault b w).biu.requests = s.biu.requests ∧
    (s.tellFault b w).biu.pointer = s.biu.pointer ∧ (s.tellFault b w).biu.burst = s.biu.burst ∧
    (s.tellFault b w).biu.timeout = s.biu.timeout ∧ (s.tellFault b w).biu.accessError = s.biu.accessError ∧
    (s.tellFault b w).biu.lastFault = s.biu.lastFault ∧ (s.tellFault b w).idc.enable = s.idc.enable ∧
    (s.tellFault b w).idc.resetPending = s.idc.resetPending := by
  unfold State.tellFault
  try dsimp only
  (repeat' split) <;> simp

/-- A bus grant. -/
@[simp] theorem State.takeGrant_frame (s : State) :
    (s.takeGrant).slots = s.slots ∧ (s.takeGrant).argument = s.argument ∧ (s.takeGrant).result = s.result ∧
    (s.takeGrant).inspect = s.inspect ∧ (s.takeGrant).channels = s.channels ∧ (s.takeGrant).arbiter = s.arbiter ∧
    (s.takeGrant).packs = s.packs ∧ (s.takeGrant).checks = s.checks ∧ (s.takeGrant).writer = s.writer ∧
    (s.takeGrant).idc = s.idc ∧ (s.takeGrant).pinAsserted = s.pinAsserted ∧ (s.takeGrant).hostMem = s.hostMem ∧
    (s.takeGrant).freeIndex = s.freeIndex ∧ (s.takeGrant).pending = s.pending ∧
    (s.takeGrant).biu.wanted = s.biu.wanted ∧ (s.takeGrant).biu.timeout = s.biu.timeout ∧
    (s.takeGrant).biu.accessError = s.biu.accessError ∧ (s.takeGrant).biu.lastFault = s.biu.lastFault := by
  unfold State.takeGrant
  try dsimp only
  (repeat' split) <;> simp

/-- A request that joins the request set. -/
@[simp] theorem State.joinPort_frame (s : State) (r : Requester) :
    (s.joinPort r).slots = s.slots ∧ (s.joinPort r).argument = s.argument ∧ (s.joinPort r).result = s.result ∧
    (s.joinPort r).inspect = s.inspect ∧ (s.joinPort r).channels = s.channels ∧
    (s.joinPort r).arbiter = s.arbiter ∧ (s.joinPort r).packs = s.packs ∧ (s.joinPort r).checks = s.checks ∧
    (s.joinPort r).writer = s.writer ∧ (s.joinPort r).idc = s.idc ∧ (s.joinPort r).pinAsserted = s.pinAsserted ∧
    (s.joinPort r).hostMem = s.hostMem ∧ (s.joinPort r).freeIndex = s.freeIndex ∧
    (s.joinPort r).pending = s.pending ∧ (s.joinPort r).biu.pointer = s.biu.pointer ∧
    (s.joinPort r).biu.burst = s.biu.burst ∧ (s.joinPort r).biu.timeout = s.biu.timeout ∧
    (s.joinPort r).biu.accessError = s.biu.accessError ∧ (s.joinPort r).biu.lastFault = s.biu.lastFault := by
  unfold State.joinPort
  try dsimp only
  (repeat' split) <;> simp

end Sys2Proof.Machine
end

