-- ==== Sys2Proof/Laws/Memory.lean ====
section
/-! SUPPORT. Host memory as the part's writes leave it: every operation keeps the canonical form, a read after a write gives the
byte written, and a write leaves every other address alone. -/

namespace Sys2Proof.Machine

theorem Memory.wf_iff (m : List Host.Cell) :
    Memory.wf m = true ↔ m.Pairwise (fun x y => x.1 < y.1) ∧ ∀ c ∈ m, c.1 < 2 ^ 32 := by
  simp [Memory.wf, List.pairwise_map]

/-- The addresses of a memory after a write: the written one and those that were there. -/
theorem Memory.mem_write {m : List Host.Cell} {a : Nat} {b : Byte} {c : Host.Cell} (h : c ∈ Memory.write m a b) :
    c = (a, b) ∨ c ∈ m := by
  induction m with
  | nil => simpa [Memory.write] using h
  | cons x m ih =>
    unfold Memory.write at h
    split at h
    · simpa using h
    · split at h
      · simp only [List.mem_cons] at h ⊢
        exact h.imp_right .inr
      · simp only [List.mem_cons] at h ⊢
        rcases h with h | h
        · exact .inr (.inl h)
        · exact (ih h).imp_right .inr

/-- A write keeps the canonical form. -/
theorem Memory.write_wf {m : List Host.Cell} {a : Nat} (b : Byte) (ha : a < 2 ^ 32) (h : Memory.wf m = true) :
    Memory.wf (Memory.write m a b) = true := by
  induction m with
  | nil => simpa [Memory.write, Memory.wf] using ha
  | cons x m ih =>
    rw [Memory.wf_iff] at h ih ⊢
    obtain ⟨hp, hb⟩ := h
    rw [List.pairwise_cons] at hp
    obtain ⟨hx, hp⟩ := hp
    have hm : ∀ c ∈ m, c.1 < 2 ^ 32 := fun c hc => hb c (.tail _ hc)
    unfold Memory.write
    split
    · rename_i hlt
      refine ⟨List.pairwise_cons.2 ⟨?_, List.pairwise_cons.2 ⟨hx, hp⟩⟩, ?_⟩
      · intro y hy
        rcases List.mem_cons.1 hy with rfl | hy
        · exact hlt
        · exact hlt.trans (hx y hy)
      · intro y hy
        rcases List.mem_cons.1 hy with rfl | hy
        · exact ha
        · exact hb y hy
    · split
      · rename_i heq
        refine ⟨List.pairwise_cons.2 ⟨fun y hy => ?_, hp⟩, fun y hy => ?_⟩
        · simpa [heq] using hx y hy
        · rcases List.mem_cons.1 hy with rfl | hy
          · exact ha
          · exact hm y hy
      · rename_i h1 h2
        rw [Memory.wf_iff] at ih
        obtain ⟨ip, ib⟩ := ih ⟨hp, hm⟩
        refine ⟨List.pairwise_cons.2 ⟨fun y hy => ?_, ip⟩, fun y hy => ?_⟩
        · rcases Memory.mem_write hy with rfl | hy
          · exact by simp only; omega
          · exact hx y hy
        · rcases List.mem_cons.1 hy with rfl | hy
          · exact hb _ (.head _)
          · exact ib y hy

/-- Several writes keep the canonical form. -/
theorem Memory.writeAll_wf {m : List Host.Cell} (cells : List (Word × Byte)) (h : Memory.wf m = true) :
    Memory.wf (Memory.writeAll m cells) = true := by
  induction cells generalizing m with
  | nil => exact h
  | cons c cs ih => exact ih (Memory.write_wf c.2 c.1.isLt h)

/-- A read of the address just written. -/
@[simp] theorem Memory.read_write_same (m : List Host.Cell) (a : Nat) (b : Byte) :
    Memory.read (Memory.write m a b) a = some b := by
  induction m with
  | nil => simp [Memory.write, Memory.read]
  | cons x m ih =>
    unfold Memory.write
    split
    · simp [Memory.read]
    · split
      · simp [Memory.read]
      · rename_i h1 h2
        rw [Memory.read, if_neg (fun h => h2 h.symm), ih]

/-- A write leaves every other address as it was. -/
theorem Memory.read_write_other {m : List Host.Cell} {a a' : Nat} (b : Byte) (hne : a' ≠ a) :
    Memory.read (Memory.write m a b) a' = Memory.read m a' := by
  induction m with
  | nil => simp [Memory.write, Memory.read, hne.symm]
  | cons x m ih =>
    unfold Memory.write
    split
    · rw [Memory.read, if_neg hne.symm]
    · split
      · rename_i heq
        simp only [Memory.read]
        rw [if_neg hne.symm, if_neg (by omega)]
      · simp only [Memory.read, ih]

/-- Several writes leave every address outside them as it was. -/
theorem Memory.read_writeAll_other {m : List Host.Cell} {cells : List (Word × Byte)} {a : Nat}
    (h : ∀ c ∈ cells, c.1.toNat ≠ a) : Memory.read (Memory.writeAll m cells) a = Memory.read m a := by
  induction cells generalizing m with
  | nil => rfl
  | cons c cs ih =>
    rw [Memory.writeAll, List.foldl_cons]
    rw [← Memory.writeAll, ih fun x hx => h x (.tail _ hx)]
    exact Memory.read_write_other _ (h c (.head _)).symm

/-- Reset lists nothing, in canonical form. -/
theorem State.reset_memory_wf : Memory.wf State.reset.hostMem = true := by decide

/-- Bytes taken by host memory keep its canonical form. -/
theorem State.memoryTakes_wf {s : State} (l : List (Word × Byte)) (h : Memory.wf s.hostMem = true) :
    Memory.wf (s.memoryTakes l).hostMem = true := Memory.writeAll_wf l h

/-- Bytes that host memory may have taken keep its canonical form. -/
theorem State.memoryMayTake_wf {s : State} (l : List (Word × Byte)) (h : Memory.wf s.hostMem = true) :
    Memory.wf (s.memoryMayTake l).hostMem = true := Memory.writeAll_wf _ h

end Sys2Proof.Machine
end

