-- ==== Sys2Proof/Laws/Operations.lean ====
section
/-! SUPPORT. What each shared operation does, said once in the terms of Sys2Proof/Safety.lean, for proofs to cite in place of
unfolding it. -/

namespace Sys2Proof.Machine

/-! ### Vectors indexed by their numbers -/

/-- Reading the place just set. -/
theorem vector_get_set {α : Type} {n : Nat} (v : Vector α n) (i : Fin n) (x : α) :
    (v.set i.val x i.isLt).get i = x := by
  simp [Vector.get_eq_getElem]

/-- Reading another place. -/
theorem vector_get_set_ne {α : Type} {n : Nat} (v : Vector α n) {i j : Fin n} (x : α) (h : i ≠ j) :
    (v.set i.val x i.isLt).get j = v.get j := by
  have hv : i.val ≠ j.val := fun e => h (Fin.ext e)
  simp [Vector.get_eq_getElem, hv]

/-- Setting a place to what it holds. -/
theorem vector_set_get {α : Type} {n : Nat} (v : Vector α n) (i : Fin n) : v.set i.val (v.get i) i.isLt = v := by
  ext k hk
  simp [Vector.get_eq_getElem]

/-- The first number that passes a test, when every smaller one fails it. -/
theorem finRange_find {n : Nat} (p : Fin n → Bool) (i : Fin n) (hi : p i = true) (hl : ∀ j, j < i → p j = false) :
    (List.finRange n).find? p = some i := by
  rw [List.find?_eq_some_iff_append]
  refine ⟨hi, (List.finRange n).take i.val, (List.finRange n).drop (i.val + 1), ?_, ?_⟩
  · have he : (List.finRange n)[i.val]'(by simp) = i := by simp
    conv_lhs => rw [← List.take_append_drop i.val (List.finRange n)]
    rw [List.drop_eq_getElem_cons (by simp), he]
  · intro j hj
    rw [List.mem_take_iff_getElem] at hj
    obtain ⟨m, hm, e⟩ := hj
    have hjm : j.val = m := by rw [← e]; simp
    have hlt : j < i := by rw [Fin.lt_def]; omega
    simp [hl j hlt]

/-! ### The stream context table -/

/-- The initial context is the spec's (R3). -/
theorem Context.initial_eq (st : SlotState) (op : Op) (kind : CodeKind) :
    Context.initial st op kind = Spec.initial st op kind := by
  cases op <;> cases kind <;> rfl

/-- No slot is named by an invalid handle (R6). -/
theorem State.validHandle_none {s : State} {h : Half} (hn : ∀ i, ¬ Spec.handleValid s h i) :
    s.validHandle h = none := by
  unfold State.validHandle
  split
  · rename_i hlt
    dsimp only
    split
    · rename_i hh
      exact absurd ⟨rfl, hh.1, hh.2.1, hh.2.2.symm⟩ (hn ⟨handleSlot h, hlt⟩)
    · rfl
  · rfl

/-- The slot a valid handle names (R6). -/
theorem State.validHandle_some {s : State} {h : Half} {i : SlotId} (hv : Spec.handleValid s h i) :
    s.validHandle h = some i := by
  obtain ⟨h1, h2, h3, h4⟩ := hv
  have hs : handleSlot h = i.val := h1
  have hlt : handleSlot h < 32 := by rw [hs]; exact i.isLt
  have he : (⟨handleSlot h, hlt⟩ : SlotId) = i := Fin.ext hs
  unfold State.validHandle
  rw [dif_pos hlt, he]
  exact if_pos ⟨h2, h3, h4.symm⟩

/-- A channel that holds no slot. -/
theorem State.heldSlot_none {s : State} {c : ChannelId} (h : ∀ i : SlotId, (s.slots.get i).holder ≠ some c) :
    s.heldSlot c = none := by
  simp only [State.heldSlot, List.find?_eq_none]
  intro i _
  simp [State.slot, h i]

/-- The one slot a channel holds. -/
theorem State.heldSlot_some {s : State} {c : ChannelId} {i : SlotId} (h : (s.slots.get i).holder = some c)
    (hu : ∀ j : SlotId, (s.slots.get j).holder = some c → j = i) : s.heldSlot c = some i := by
  unfold State.heldSlot
  cases e : (List.finRange 32).find? (fun i => (s.slot i).holder == some c) with
  | none =>
    simp only [List.find?_eq_none] at e
    have := e i (by simp)
    simp [State.slot, h] at this
  | some j =>
    have := List.find?_some e
    rw [hu j (by simpa [State.slot] using this)]

/-- The one slot in whose wait list a channel stands. -/
theorem State.waitedSlot_some {s : State} {c : ChannelId} {i : SlotId} (h : c ∈ (s.slots.get i).waiters)
    (hu : ∀ j : SlotId, c ∈ (s.slots.get j).waiters → j = i) : s.waitedSlot c = some i := by
  unfold State.waitedSlot
  cases e : (List.finRange 32).find? _ with
  | none =>
    simp only [List.find?_eq_none] at e
    have := e i (by simp)
    simp [State.slot, h] at this
  | some j =>
    have := List.find?_some e
    rw [hu j (by simpa [State.slot] using this)]

/-- The slot checks are the spec's (R37, R38). -/
theorem Slot.checkJob_eq (sl : Slot) (e : JobEntry) : sl.checkJob e = Spec.slotChecks sl e := by
  unfold Slot.checkJob Spec.slotChecks
  have hk : sl.kindMatches e = true ↔ (Op.ofByte e.opByte = some sl.op ∧ CodeKind.ofByte e.kindByte = some sl.kind ∧
      (sl.kind ≠ .none → Tap.ofByte e.tapByte = some sl.tap)) := by
    simp only [Slot.kindMatches, Bool.and_eq_true, Bool.or_eq_true, beq_iff_eq, JobEntry.op, JobEntry.kind,
      JobEntry.tap, and_assoc]
    refine and_congr_right fun _ => and_congr_right fun _ => ?_
    by_cases hh : sl.kind = .none <;> simp [hh]
  by_cases h : sl.kindMatches e = true
  · rw [if_pos h, if_neg (c := ¬ _) (not_not.2 (hk.1 h))]
    unfold Slot.sequenceFits JobEntry.position
    cases Position.ofByte e.positionByte with
    | none => rfl
    | some p => cases p <;> cases sl.ctx.state <;> simp
  · rw [if_neg h, if_pos]
    exact fun x => h (hk.2 x)

/-- A hold granted is the spec's (R16, R39, R63). -/
theorem State.takeHold_eq {s : State} {c : ChannelId} {sl : Slot} {j : Job} (hj : (s.channels.get c).job = some j) :
    s.takeHold c sl = { s with channels := s.channels.set c (Spec.holding (s.channels.get c) sl j.entry) } := by
  simp only [State.takeHold, State.channel, hj, Slot.checkJob_eq, Spec.holding]
  cases Spec.slotChecks sl j.entry <;> rfl

/-- The commit of a completed job is the spec's (R21, R22). -/
theorem Slot.commit_eq (sl : Slot) (pos : Position) (seg : Half) (x : Context) :
    sl.commit { position := pos, segment := seg, ctx := x } = Spec.committed sl pos seg x := by
  unfold Slot.commit Spec.committed
  cases pos <;> simp [Position.isEnd, Context.initial_eq, nextSegment]

/-- A slot let go that is not closing and has no waiter (R18). -/
theorem State.passOn_none {s : State} {i : SlotId} {sl : Slot} (hc : sl.closing = false) (hw : sl.waiters = []) :
    s.passOn i sl = { s with slots := s.slots.set i { sl with holder := none } } := by
  unfold State.passOn
  rw [hc, hw]
  rfl

/-- A slot let go that is not closing passes to its oldest waiter (R18). -/
theorem State.passOn_some {s : State} {i : SlotId} {sl : Slot} {w : ChannelId} {ws : List ChannelId} {j : Job}
    (hc : sl.closing = false) (hw : sl.waiters = w :: ws) (hj : (s.channels.get w).job = some j) :
    s.passOn i sl =
      { s with
        slots := s.slots.set i { sl with holder := some w, waiters := ws }
        channels := s.channels.set w (Spec.holding (s.channels.get w) sl j.entry) } := by
  have h := State.takeHold_eq (s := s.setSlot i { sl with holder := some w, waiters := ws }) (sl := sl) hj
  unfold State.passOn
  rw [if_neg (by simp [hc])]
  split
  · rename_i e
    rw [hw] at e
    cases e
  · rename_i w' ws' e
    rw [hw] at e
    cases e
    exact h

/-- The waiters of a freed slot are all in RETIRE with BAD_HANDLE, and every other channel is unchanged (R20). -/
theorem State.refuseWaiters_channel (ws : List ChannelId) (s : State) (d : ChannelId) :
    (s.refuseWaiters ws).channels.get d =
      if d ∈ ws then Spec.endedBeforeRun (s.channels.get d) .badHandle none else s.channels.get d := by
  induction ws generalizing s with
  | nil => simp [State.refuseWaiters]
  | cons w ws ih =>
    have he : s.refuseWaiters (w :: ws) = (s.endJob w .badHandle none).refuseWaiters ws := rfl
    rw [he, ih]
    simp only [State.endJob, State.setChannel, State.channel]
    by_cases hd : w = d
    · subst hd
      rw [vector_get_set]
      by_cases hw : w ∈ ws <;> simp [hw] <;> rfl
    · rw [vector_get_set_ne _ _ hd]
      simp [Ne.symm hd]

/-- Refusing waiters changes their channels alone. -/
theorem State.refuseWaiters_rest (ws : List ChannelId) (s : State) :
    s.refuseWaiters ws = { s with channels := (s.refuseWaiters ws).channels } := by
  induction ws generalizing s with
  | nil => rfl
  | cons w ws ih =>
    have he : s.refuseWaiters (w :: ws) = (s.endJob w .badHandle none).refuseWaiters ws := rfl
    rw [he, ih]
    rfl

/-- A slot freed is the spec's (R10, R20). -/
theorem Slot.freed_eq (sl : Slot) : sl.freed = Spec.freed sl := by
  simp only [Slot.freed, Spec.freed, Context.initial_eq]

/-- A slot let go is the spec's, whether it is closing, has waiters or has none (R18, R20). -/
theorem State.passOn_eq {s : State} {i : SlotId} {sl : Slot}
    (hj : ∀ w ∈ sl.waiters, (s.channels.get w).job.isSome = true) : s.passOn i sl = Spec.letGo i sl s := by
  unfold Spec.letGo
  by_cases hc : sl.closing = true
  · rw [if_pos hc]
    unfold State.passOn
    rw [if_pos hc]
    have hch : ((s.setSlot i sl.freed).refuseWaiters sl.waiters).channels =
        Vector.ofFn fun d =>
          if d ∈ sl.waiters then Spec.endedBeforeRun (s.channels.get d) .badHandle none else s.channels.get d := by
      ext k hk
      have := State.refuseWaiters_channel sl.waiters (s.setSlot i sl.freed) ⟨k, hk⟩
      simpa [Vector.get_eq_getElem, State.setSlot] using this
    have hrest : (s.setSlot i sl.freed).refuseWaiters sl.waiters =
        { s with slots := s.slots.set i sl.freed
                 channels := ((s.setSlot i sl.freed).refuseWaiters sl.waiters).channels } :=
      State.refuseWaiters_rest _ _
    rw [hrest, hch, Slot.freed_eq]
    rfl
  · rw [if_neg hc]
    have hf : sl.closing = false := by simpa using hc
    cases hw : sl.waiters with
    | nil =>
      rw [State.passOn_none hf hw]
      simp only [hw]
    | cons w ws =>
      obtain ⟨j, e⟩ := Option.isSome_iff_exists.1 (hj w (by simp [hw]))
      rw [State.passOn_some hf hw e]
      simp only [e]

/-- A plain release of a channel without a slot changes nothing (R18). -/
theorem State.release_none {s : State} {c : ChannelId} (h : ∀ i : SlotId, (s.slots.get i).holder ≠ some c)
    (k : Option Commit) : s.release c k = s := by
  simp only [State.release, State.heldSlot_none h]

/-- A release lets the one slot that the channel holds go, any commit made (R18, R20 to R22). -/
theorem State.release_held {s : State} {c : ChannelId} {i : SlotId} (h : Spec.holdsAlone c i s)
    (k : Option Commit) :
    s.release c k =
      Spec.letGo i
        (match k with
          | none => s.slots.get i
          | some k => (s.slots.get i).commit k) s := by
  have hs := State.heldSlot_some h.1 h.2.1
  cases k with
  | none =>
    simp only [State.release, hs]
    exact State.passOn_eq h.2.2.2
  | some k =>
    have hw : ((s.slots.get i).commit k).waiters = (s.slots.get i).waiters := by
      unfold Slot.commit
      split <;> rfl
    simp only [State.release, hs]
    exact State.passOn_eq (by simpa only [State.slot, hw] using h.2.2.2)

/-! ### The channels -/

/-- What a leaving of the group finds is the spec's (R147). -/
theorem State.quietWithout_eq (s : State) (c : ChannelId) :
    s.quietWithout c =
      decide ((∀ d, d ≠ c → (s.channels.get d).state.inGroup = false) ∧ s.writer.tail ≠ s.writer.head) := by
  have hl : 0 < s.writer.level ↔ s.writer.tail ≠ s.writer.head := by
    simp only [Writer.level, ne_eq]
    constructor
    · intro h e
      simp [e] at h
    · intro h
      have : s.writer.tail - s.writer.head ≠ 0 := fun e => h (by bv_omega)
      bv_omega
  rw [Bool.eq_iff_iff]
  simp only [State.quietWithout, State.channel, Bool.and_eq_true, List.all_eq_true, List.mem_finRange, true_imp_iff,
    Bool.or_eq_true, beq_iff_eq, Bool.not_eq_true', decide_eq_true_eq, hl]
  refine and_congr_left fun _ => forall_congr' fun d => ?_
  by_cases h : d = c <;> simp [h]

/-- A channel is in one of the eight states (R51). -/
theorem ChannelState.all (x : ChannelState) : x = .off ∨ x = .idle ∨ x = .fetch ∨ x = .waitSlot ∨ x = .waitUnits ∨
    x = .run ∨ x = .retire ∨ x = .halted := by
  cases x <;> decide

/-- What a leaving of the group adds is the spec's (R51, R147). -/
theorem State.leaving_eq (s : State) (c : ChannelId) : s.leaving c = Spec.leaves c (s.channels.get c) s := by
  obtain e | e | e | e | e | e | e | e := ChannelState.all (s.channels.get c).state <;>
    simp [State.leaving, State.quietWithout_eq, State.channel, Spec.leaves, ChannelState.inGroup, e]

/-- Every leaving taken is the spec's (R147). -/
theorem State.takeLeavings_eq (s : State) : s.takeLeavings = Spec.leavingsTaken s := by
  have hc : s.channels.map (fun ch => { ch with leavings := [] }) =
      Vector.ofFn fun c => { s.channels.get c with leavings := [] } := by
    ext k hk
    simp [Vector.get_eq_getElem]
  have hd : s.flushDue = decide (∃ c, true ∈ (s.channels.get c).leavings) := by
    rw [Bool.eq_iff_iff]
    simp [State.flushDue, State.channel]
  unfold State.takeLeavings Spec.leavingsTaken State.evaluateFlush
  rw [hc, hd]
  by_cases h : ∃ c, true ∈ (s.channels.get c).leavings <;> simp [h, State.raise, IntStatus.mask, IntStatus.bit]

/-- Channel RESET taken is the spec's (R76). -/
theorem State.clearChannel_eq (s : State) (c : ChannelId) : s.clearChannel c = Spec.cleared c (s.channels.get c) s := by
  simp only [State.clearChannel, Spec.cleared, State.setChannel, State.channel, State.leaving_eq]

/-- Entering HALTED is the spec's (R69, R75). -/
theorem State.halt_eq (s : State) (c : ChannelId) (k : HaltCause) :
    s.halt c k = Spec.halted c k (s.channels.get c) s := by
  simp only [State.halt, Spec.halted, State.setChannel, State.channel, State.leaving_eq, State.raise,
    IntStatus.mask, IntStatus.bit]

/-- What a leaving of the group adds does not hang on what its own channel holds (R147). -/
theorem Spec.leaves_set (c : ChannelId) (ch x : Channel) (s : State) :
    Spec.leaves c ch { s with channels := s.channels.set c x } = Spec.leaves c ch s := by
  have h : (∀ d, d ≠ c → ((s.channels.set c x).get d).state.inGroup = false) ↔
      ∀ d, d ≠ c → (s.channels.get d).state.inGroup = false :=
    forall_congr' fun d => forall_congr' fun hd => by rw [vector_get_set_ne _ _ (Ne.symm hd)]
  cases e : ch.state <;> simp only [Spec.leaves, e, h]

/-- What a leaving of the group adds does not hang on FETCH (R51, R147). -/
theorem Spec.leaves_fetch (c : ChannelId) (ch : Channel) (n : Half) (s : State) :
    Spec.leaves c { ch with fetch := n } s = Spec.leaves c ch s := rfl

/-- An ABORT or channel RESET that takes effect is the spec's (R70 to R74, R76). -/
theorem State.abortTakesEffect_eq (s : State) (c : ChannelId) (k : AbortKind) :
    s.abortTakesEffect k c = Spec.abortDone k c (s.channels.get c) s := by
  cases k
  · simp only [State.abortTakesEffect, State.halt_eq, Spec.abortDone, Spec.halted, State.setChannel, State.channel,
      vector_get_set, Vector.set_set, Spec.leaves_set]
  · simp only [State.abortTakesEffect, State.clearChannel_eq, Spec.abortDone]

/-- A fetch begun is the spec's (R52, R59). -/
theorem State.beginFetch_eq (s : State) (c : ChannelId) : s.beginFetch c = Spec.fetchBegun c (s.channels.get c) s := rfl

/-- The next state after a retirement is the spec's (R69). -/
theorem State.chooseNext_eq (s : State) (c : ChannelId) (st : Status) :
    s.chooseNext c (some st) = Spec.nextState c st (s.channels.get c) s := by
  unfold State.chooseNext Spec.nextState
  simp only [State.channel]
  cases ha : (s.channels.get c).abortPending with
  | some k => cases k <;> simp only [State.halt_eq, State.clearChannel_eq]
  | none =>
    simp only [ne_eq, Option.some.injEq, State.halt_eq, State.setChannel, State.leaving_eq, State.beginFetch_eq]

/-! ### The completion writer -/

/-- With no channel asking the writer chooses none (R137). -/
theorem Writer.choice_none {w : Writer} (h : ∀ c, w.requesting.get c = false) : w.choice = none := by
  simp [Writer.choice, rotationAfter, h]

/-- The writer's choice is the spec's (R137). -/
theorem Writer.choice_some {w : Writer} {c : ChannelId} (h : Spec.chosen w c) : w.choice = some c := by
  obtain ⟨h1, h2⟩ := h
  simp only [Writer.choice, rotationAfter]
  generalize w.serving = p at *
  have e (d : ChannelId) (hd : w.requesting.get d = true) := h2 d hd
  have e0 := e 0
  have e1 := e 1
  have e2 := e 2
  have e3 := e 3
  generalize h0' : w.requesting.get 0 = a0 at *
  generalize h1' : w.requesting.get 1 = a1 at *
  generalize h2' : w.requesting.get 2 = a2 at *
  generalize h3' : w.requesting.get 3 = a3 at *
  clear h2 e
  fin_cases p <;> fin_cases c <;> simp [List.find?, h0', h1', h2', h3'] at * <;> revert e0 e1 e2 e3 <;>
    revert h1 <;> cases a0 <;> cases a1 <;> cases a2 <;> cases a3 <;> simp <;> decide

/-- A writer that is not READY, has no room or has no channel asking begins nothing (R137). -/
theorem State.beginRecord_none {s : State}
    (h : s.writer.state ≠ .ready ∨ s.writer.ringSize ≤ (s.writer.tail - s.writer.head).toNat ∨
      ∀ c, s.writer.requesting.get c = false) : s.beginRecord = s := by
  unfold State.beginRecord
  split
  · rename_i hh
    have hl : s.writer.level = (s.writer.tail - s.writer.head).toNat := rfl
    rcases h with h | h | h
    · exact absurd hh.1 h
    · omega
    · rw [Writer.choice_none h]
  · rfl

/-- The record formed is the spec's (R47, R48, R135). -/
theorem State.recordOf_eq {s : State} {c : ChannelId} {e : JobEntry} {k : Working} {st : Status}
    (h : Spec.hasRecord s c e k st) : s.recordOf c = some (Spec.record s.writer c (s.channels.get c) e k st) := by
  obtain ⟨⟨j, hj, rfl⟩, hk, hst⟩ := h
  have hcd : (if st.isCompleted then k.code else none) =
      (if st = .ok ∨ st = .mismatch ∨ st = .truncated then k.code else none) := by
    cases st <;> simp [Status.isCompleted]
  simp only [State.recordOf, State.channel, hj, hk, hst, Option.map_some, Spec.record, phaseFlag, hcd]

/-- A READY writer with room begins the record of the channel it chooses (R134, R137). -/
theorem State.beginRecord_some {s : State} {w : Writer} {c : ChannelId} {e : JobEntry} {k : Working} {st : Status}
    (hs : w.state = .ready) (hl : (w.tail - w.head).toNat < w.ringSize) (hc : Spec.chosen w c)
    (hr : Spec.hasRecord s c e k st) :
    State.beginRecord { s with writer := w } =
      Spec.recordBegun w c (Spec.record w c (s.channels.get c) e k st) s := by
  have hrec : State.recordOf c { s with writer := w } = some (Spec.record w c (s.channels.get c) e k st) :=
    State.recordOf_eq (s := { s with writer := w }) hr
  unfold State.beginRecord
  rw [if_pos ⟨hs, hl⟩]
  simp only [Writer.choice_some hc, hrec]
  rfl

/-! ### Bursts -/

/-- The bytes a data phase carries are bytes of the burst (R170). -/
theorem BurstRequest.mem_cells {q : BurstRequest} {i : Nat} {c : Word × Byte} (h : c ∈ q.cells i) :
    ∃ k, k < q.length ∧ c = (q.address + BitVec.ofNat 32 k, q.data.getD k 0) := by
  simp only [BurstRequest.cells, List.mem_filterMap] at h
  obtain ⟨lane, _, hl⟩ := h
  split at hl
  · rename_i k hk
    refine ⟨k, ?_, by simpa using hl.symm⟩
    simp only [BurstRequest.byteIndex] at hk
    split at hk
    · simp at hk
      omega
    · contradiction
  · contradiction

/-- The same of the data phases that a reset pin leaves undone (R159). -/
theorem BurstRequest.mem_cellsFrom {q : BurstRequest} {i n : Nat} {c : Word × Byte} (h : c ∈ q.cellsFrom i n) :
    ∃ k, k < q.length ∧ c = (q.address + BitVec.ofNat 32 k, q.data.getD k 0) := by
  induction n generalizing i with
  | zero => simp [BurstRequest.cellsFrom] at h
  | succ n ih =>
    simp only [BurstRequest.cellsFrom, List.mem_append] at h
    rcases h with h | h
    · exact BurstRequest.mem_cells h
    · exact ih h

/-- Both resets put every block at its reset values (R158, R159). -/
theorem State.takeResetValues_spec (s : State) (n : Nat) : Spec.AtResetValues (s.takeResetValues n) := by
  constructor <;> first | rfl | (intro i; fin_cases i <;> rfl)

/-! ### The unit arbiter -/

/-- A grant records the lowest-numbered free unit of each kind needed (R82, R83). -/
theorem State.grant_arbiter (s : State) (c : ChannelId) (n : Need) :
    (s.grant c n).arbiter = s.arbiter.granting c (if n.pack then s.freePack else none) (if n.check then s.freeCheck else none) := by
  unfold State.grant
  dsimp only
  split <;> simp

/-- The pack unit chosen is the lowest-numbered free one (R83). -/
theorem State.freePack_eq (s : State) : s.freePack = Spec.lowestFree s.arbiter.packs := by
  have h : ∀ o : Option ChannelId, o.isNone = (o == none) := fun o => by cases o <;> rfl
  simp only [State.freePack, Spec.lowestFree, h] 

/-- The check unit chosen is the lowest-numbered free one (R83). -/
theorem State.freeCheck_eq (s : State) : s.freeCheck = Spec.lowestFree s.arbiter.checks := by
  have h : ∀ o : Option ChannelId, o.isNone = (o == none) := fun o => by cases o <;> rfl
  simp only [State.freeCheck, Spec.lowestFree, h]

/-- What the examination of a channel does to the arbiter (R82). -/
theorem State.examine_arbiter (s : State) (c : ChannelId) : (s.examine c).arbiter = Spec.examined s.arbiter c := by
  unfold State.examine Spec.examined
  cases s.arbiter.waiting.get c with
  | none => rfl
  | some n =>
    have hm : s.meets n = true ↔ (n.pack = true → Spec.lowestFree s.arbiter.packs ≠ none) ∧
        (n.check = true → Spec.lowestFree s.arbiter.checks ≠ none) := by
      rcases n with ⟨_ | _, _ | _⟩ <;>
        simp [State.meets, State.freePack_eq, State.freeCheck_eq, Option.isSome_iff_ne_none]
    simp only [hm]
    split
    · rw [State.grant_arbiter, State.freePack_eq, State.freeCheck_eq]
      rcases n with ⟨_ | _, _ | _⟩ <;> cases Spec.lowestFree s.arbiter.packs <;>
        cases Spec.lowestFree s.arbiter.checks <;> rfl
    · rfl

/-- What the scan of an evaluation does to the arbiter (R82). -/
theorem State.scan_arbiter (s : State) : s.scan.arbiter = Spec.scanned s.arbiter := by
  have key (l : List ChannelId) : ∀ t : State, (l.foldl State.examine t).arbiter = l.foldl Spec.examined t.arbiter := by
    induction l with
    | nil => exact fun _ => rfl
    | cons c l ih => exact fun t => by rw [List.foldl_cons, List.foldl_cons, ih, State.examine_arbiter]
  exact key _ s

/-- No number passes a test when the search for one finds none. -/
theorem finRange_find_none {n : Nat} {p : Fin n → Bool} (h : (List.finRange n).find? p = none) (i : Fin n) : p i = false := by
  simpa using List.find?_eq_none.1 h i (List.mem_finRange i)

/-- Freeing the one unit of a kind that a channel holds frees every unit it holds. -/
theorem vector_map_released {n : Nat} (v : Vector (Option ChannelId) n) (c : ChannelId)
    (h : ∀ i j, v.get i = some c → v.get j = some c → i = j) :
    (match (List.finRange n).find? fun i => v.get i == some c with
      | some i => v.set i.val none i.isLt
      | none => v) = v.map fun g => if g = some c then none else g := by
  split
  · rename_i i hi
    have hc : v.get i = some c := by simpa using List.find?_some hi
    ext k hk : 1
    by_cases e : i.val = k
    · subst e
      have : v[i.val] = some c := by simpa [Vector.get_eq_getElem] using hc
      simp [this]
    · have hne : v[k] ≠ some c := fun hk' => e (congrArg Fin.val (h i ⟨k, hk⟩ hc (by simpa [Vector.get_eq_getElem] using hk')))
      simp [e, hne]
  · rename_i hn
    ext k hk : 1
    have := finRange_find_none hn ⟨k, hk⟩
    have hne : v[k] ≠ some c := by simpa [Vector.get_eq_getElem] using this
    simp [hne]

/-- The release of a channel's units frees them all (R85). -/
theorem State.releaseUnits_arbiter {s : State} (h : s.UnitsKept) (c : ChannelId) :
    (s.releaseUnits c).arbiter = Spec.unitsFree c s.arbiter := by
  rw [Spec.unitsFree, ← vector_map_released _ c (fun i j => h.packOnce i j c), ← vector_map_released _ c (fun i j => h.checkOnce i j c)]
  unfold State.releaseUnits State.packOf State.checkOf
  dsimp only
  (repeat' split) <;> simp_all

end Sys2Proof.Machine
end

