-- ==== Sys2Proof/Laws/Pack.lean ====
section
/-! SUPPORT. A pack unit accepting output (R97, R99): what accepting a byte, and several bytes, does to the unit and to what its
joined check unit is offered, in the spec's own terms. Later proofs cite these and do not unfold `PackUnit.accept` or
`acceptBytes`. -/

namespace Sys2Proof.Machine

/-- A place below the last of a 32-byte block: the next place is one further in the same block. -/
theorem blockOffset_succ (a : Word) (n : Nat) (h : (a + BitVec.ofNat 32 n).toNat % 32 < 31) :
    (a + BitVec.ofNat 32 (n + 1)).toNat % 32 = (a + BitVec.ofNat 32 n).toNat % 32 + 1 := by
  simp only [BitVec.toNat_add, BitVec.toNat_ofNat] at *
  omega

/-- With more than one place left in the buffer's block and fragment, a byte accepted leaves one place fewer. -/
theorem PackUnit.accept_short (u : PackUnit) (b : Byte) (h : 1 < Spec.bufferSpace u) :
    u.fillsBuffer = false ∧ u.accept b = Spec.accepting u 0 [b] ∧
      Spec.bufferSpace (u.accept b) = Spec.bufferSpace u - 1 := by
  unfold Spec.bufferSpace at h
  split at h
  case h_2 => omega
  case h_1 f hf =>
    have hb := blockOffset_succ f.address u.destCursor.offset (by omega)
    have hc : u.destCursor.advance u.dest 1 = { u.destCursor with offset := u.destCursor.offset + 1 } := by
      simp only [Cursor.advance, hf]
      rw [if_pos (by omega)]
    refine ⟨?_, ?_, ?_⟩
    · simp only [PackUnit.fillsBuffer, hf, toBlockEnd, Config.block, Fragment.byteAddress, Bool.or_eq_false_iff, beq_eq_false_iff_ne]
      omega
    · simp only [PackUnit.accept, hf, hc, Spec.accepting, Spec.destAddress, Fragment.byteAddress, List.length_singleton]
      simp
    · simp only [PackUnit.accept, hf, hc, Spec.bufferSpace, hb]
      omega

/-- With one place left, a byte accepted fills the buffer, and the cursor passes the end of the fragment if it was there. -/
theorem PackUnit.accept_fills (u : PackUnit) (b : Byte) (h : Spec.bufferSpace u = 1) :
    u.fillsBuffer = true ∧ u.accept b = { Spec.accepting u 0 [b] with destCursor := Spec.destMoved u 1 } := by
  unfold Spec.bufferSpace at h
  split at h
  case h_2 => omega
  case h_1 f hf =>
    refine ⟨?_, ?_⟩
    · simp only [PackUnit.fillsBuffer, hf, toBlockEnd, Config.block, Fragment.byteAddress, Bool.or_eq_true, beq_iff_eq]
      omega
    · have hc : u.destCursor.advance u.dest 1 = Spec.destMoved u 1 := by
        simp only [Cursor.advance, Spec.destMoved, hf]
        by_cases hl : u.destCursor.offset + 1 = f.length.toNat
        · rw [if_neg (by omega), if_pos hl]
        · rw [if_pos (by omega), if_neg hl]
      simp only [PackUnit.accept, hf, hc, Spec.accepting, Spec.destAddress, Fragment.byteAddress, List.length_singleton]
      simp

/-- The bytes that a joined check unit with an OUT tap is offered of bytes accepted (R99). -/
def PackUnit.outOffered (u : PackUnit) (bytes : List Byte) : List Byte :=
  match u.joined with
  | some (_, .outTap) => bytes
  | some (_, .inTap) | none => []

theorem PackStep.accept_eq (w : PackStep) (b : Byte) :
    w.accept b = { unit := w.unit.accept b, offered := w.offered ++ w.unit.outOffered [b] } := by
  have hj : (w.unit.accept b).joined = w.unit.joined := by
    unfold PackUnit.accept
    split <;> rfl
  unfold PackStep.accept PackStep.offer PackUnit.outOffered
  simp only [hj]
  cases w.unit.joined with
  | none => simp
  | some x =>
    obtain ⟨k, t⟩ := x
    cases t <;> simp

@[simp] theorem Spec.accepting_nil (u : PackUnit) : Spec.accepting u 0 [] = u := by
  cases u
  simp [Spec.accepting]

/-- Bytes accepted one after another are accepted together. -/
theorem Spec.accepting_cons (u : PackUnit) (b : Byte) (bs : List Byte) :
    Spec.accepting (Spec.accepting u 0 [b]) 0 bs = Spec.accepting u 0 (b :: bs) := by
  simp [Spec.accepting, Nat.add_assoc, Nat.add_comm 1]

/-- Fewer bytes than the buffer has places for: all are accepted, and no write is due (R97, R99). -/
theorem acceptBytes_short (bs : List Byte) (w : PackStep) (h : bs.length < Spec.bufferSpace w.unit) :
    acceptBytes bs w =
        ([], { unit := Spec.accepting w.unit 0 bs, offered := w.offered ++ w.unit.outOffered bs }, false) ∧
      Spec.bufferSpace (Spec.accepting w.unit 0 bs) = Spec.bufferSpace w.unit - bs.length := by
  induction bs generalizing w with
  | nil =>
    have h0 : w.unit.outOffered [] = [] := by
      unfold PackUnit.outOffered
      split <;> rfl
    simp [acceptBytes, h0]
  | cons b bs ih =>
    obtain ⟨hf, ha, hs⟩ := w.unit.accept_short b (by simp only [List.length_cons] at h; omega)
    have h1 := PackStep.accept_eq w b
    rw [ha] at h1 hs
    have := ih (w.accept b) (by rw [h1, hs]; simp only [List.length_cons] at h; omega)
    rw [h1, hs, Spec.accepting_cons] at this
    refine ⟨?_, by rw [this.2, List.length_cons]; omega⟩
    simp only [acceptBytes, hf, Bool.false_eq_true, if_false, h1, this.1]
    unfold PackUnit.outOffered
    cases hj : w.unit.joined with
    | none => simp [Spec.accepting, hj]
    | some x =>
      obtain ⟨k, t⟩ := x
      cases t <;> simp [Spec.accepting, hj]

/-- As many bytes as the buffer has places for, or more: those that fill it are accepted, and its write is due (R97, R99). -/
theorem acceptBytes_fills (bs : List Byte) (w : PackStep) (h0 : 1 ≤ Spec.bufferSpace w.unit)
    (h : Spec.bufferSpace w.unit ≤ bs.length) :
    acceptBytes bs w =
      (bs.drop (Spec.bufferSpace w.unit),
        { unit :=
            { Spec.accepting w.unit 0 (bs.take (Spec.bufferSpace w.unit)) with
              destCursor := Spec.destMoved w.unit (Spec.bufferSpace w.unit) }
          offered := w.offered ++ w.unit.outOffered (bs.take (Spec.bufferSpace w.unit)) }, true) := by
  induction bs generalizing w with
  | nil => simp only [List.length_nil] at h; omega
  | cons b bs ih =>
    have h1 := PackStep.accept_eq w b
    by_cases hone : Spec.bufferSpace w.unit = 1
    · obtain ⟨hf, ha⟩ := w.unit.accept_fills b hone
      rw [ha] at h1
      simp [acceptBytes, hf, h1, hone]
    · obtain ⟨hf, ha, hs⟩ := w.unit.accept_short b (by omega)
      rw [ha] at h1 hs
      have := ih (w.accept b) (by rw [h1, hs]; omega) (by rw [h1, hs]; simp only [List.length_cons] at h; omega)
      obtain ⟨n, hn⟩ : ∃ n, Spec.bufferSpace w.unit = n + 1 := ⟨Spec.bufferSpace w.unit - 1, by omega⟩
      rw [h1, hs, hn, Nat.add_sub_cancel, Spec.accepting_cons] at this
      simp only [acceptBytes, hf, Bool.false_eq_true, if_false, h1, this, hn, List.drop_succ_cons, List.take_succ_cons]
      have hd : Spec.destMoved (Spec.accepting w.unit 0 [b]) n = Spec.destMoved w.unit (n + 1) := by
        unfold Spec.destMoved
        simp only [Spec.accepting, List.length_singleton]
        cases hf : w.unit.dest[w.unit.destCursor.fragment]? with
        | none => simp [Spec.bufferSpace, hf] at hn
        | some f => simp [Nat.add_assoc, Nat.add_comm 1]
      rw [hd]
      unfold PackUnit.outOffered
      cases hj : w.unit.joined with
      | none => simp [Spec.accepting, hj]
      | some x =>
        obtain ⟨k, t⟩ := x
        cases t <;> simp [Spec.accepting, hj]

/-- A piece of output for which the destination has no room stops the work, and nothing of it is accepted (R99, R105). -/
theorem acceptItems_noRoom (it : OutItem) (its : List OutItem) (w : PackStep)
    (h : Spec.capacity w.unit < it.bytes.length) : acceptItems (it :: its) w = (w, .noRoom) := by
  simp only [acceptItems]
  exact if_pos h

end Sys2Proof.Machine
end

