-- ==== Sys2Proof/WellFormed.lean ====
section
/-! DEFINITION. Which commands stand for their own row of the opcode table. A command that fails a check is still a command
the part can be given (its meaning is that of the same window write), but another row is the row for it. -/

namespace Sys2Proof

/-- The word names one of the four stream commands (R180). -/
def namesStreamCommand (v : Word) : Bool :=
  v == 1#32 || v == 2#32 || v == 3#32 || v == 4#32

/-- The offset, 0 to 511, of the word that a window address names (R161, R166). -/
def wordOffset (address : Word) : Nat :=
  4 * (address.toNat % 512 / 4)

/-- The access is full-width: four lanes of a word-aligned offset (R162). -/
def fullWidth (address : Word) (lanes : BitVec 4) : Bool :=
  lanes == 0xF#4 && address.toNat % 4 == 0

/-- A full-width write to this register offset with this value has a row of its own in the table: every register that takes
writes but the argument register, the writer control register when the write names no command of its own, and the global
control register when the write does not name the reset command (R177, R178). -/
def hasOwnRow (offset : Nat) (value : Word) : Bool :=
  [0x00C, 0x010, 0x014, 0x048, 0x04C, 0x054, 0x058, 0x084].contains offset ||
    (offset == 0x008 && value.getLsbD 0) ||
    (offset == 0x040 && [1#3, 2#3, 4#3].contains (value.extractLsb' 0 3)) ||
    (decide (0x100 ≤ offset ∧ offset < 0x180) && [0x00, 0x08, 0x0C, 0x10].contains (offset % 32))

/-- The checks, one for each form that another row of the table claims. -/
def WellFormed : Instr → Bool
  | .unknownStreamCommand v => !namesStreamCommand v
  | .registerWrite a lanes v => !(fullWidth a lanes && hasOwnRow (wordOffset a) v)
  | .openStream | .closeStream | .rewindStream | .inspectSlot => true
  | .startChannel _ _ | .stopChannel _ _ | .abortChannel _ _ | .resetChannel _ _ | .haltOnError _ _ => true
  | .jobRingBaseWrite _ _ | .jobRingSizeWrite _ _ | .postWrite _ _ => true
  | .enableWriter | .disableWriter | .restartWriter => true
  | .completionRingBaseWrite _ | .completionRingSizeWrite _ | .thresholdWrite _ | .headWrite _ => true
  | .interruptStatusWrite _ | .interruptEnableWrite _ | .deviceReset | .initiatorTimeoutWrite _ => true
  | .resetPinAssert | .resetPinRelease | .busGrant | .portRequest _ => true
  | .dataPhaseReady _ | .burstEndsWithReady _ | .burstEndsWithError | .burstEndsWithTimeout => true
  | .holdRequest _ | .unitJoin _ | .recordRequest _ | .retirement _ | .recordWithdrawal _ | .groupLeave _ => true

end Sys2Proof
end

