-- ==== Sys2Proof/Tests/Slice0.lean ====
section
/-! SUPPORT. The model's own tests: the checks of WellFormed, one step at a time on small states with the values the spec's
rules and worked sequences give, and for every statement with hypotheses a state that meets them. -/

namespace Sys2Proof.Tests

open Sys2Proof.Machine

-- One theorem at a time: each kernel evaluation holds a stack of its own, and all at once they pass the memory limit.
set_option Elab.async false

/-! ### Small states -/

/-- The state a command leaves. -/
def after (c : Instr) (s : State) : State :=
  match exec c s with
  | .next t => t
  | .fault _ | .refused _ => s

/-- A PACK job with a C32 code on slot 0, generation 1, one fragment each way; its source table is at 0x1000 and its
destination table at 0x1008. -/
def packEntry : JobEntry :=
  { opByte := 2, positionByte := 0, kindByte := 1, tapByte := 0, verify := false, sourceCount := 1, destCount := 1
    handle := 0x0100, segment := 0, tag := 7, sourceTable := 0x1000, destTable := 0x1008, expectedCode := 0 }

def packJob : Job := { entry := packEntry, source := [⟨0x2000, 16⟩], dest := [⟨0x3000, 16⟩] }

/-- A CHECK job without a stream. -/
def checkEntry : JobEntry :=
  { packEntry with opByte := 0, destCount := 0, handle := 0xFFFF }

def checkJob : Job := { entry := checkEntry, source := [⟨0x2000, 2⟩], dest := [] }

/-- A PASS job without a code and without a stream. -/
def passJob : Job :=
  { entry := { packEntry with opByte := 1, kindByte := 0, handle := 0xFFFF }
    source := [⟨0x2000, 16⟩], dest := [⟨0x3000, 16⟩] }

/-- The slot that `packEntry` names, READY. -/
def packSlot : Slot :=
  { Slot.reset with ctx := Context.initial .ready .pack .c32, generation := 1, op := .pack, kind := .c32 }

/-- Channel `c` in a state, its job not retired: POST 1, FETCH 1 in the group and 0 elsewhere. -/
def channelIn (st : ChannelState) (job : Option Job) : Channel :=
  { Channel.reset with
    state := st, post := 1, fetch := if st.inGroup then 1 else 0, job := job
    work := job.map fun j => Working.start (Context.initial .ready (j.entry.op.getD .pass) (j.entry.kind.getD .none)) }

/-- Channel 0 stands as given, slot 0 as given. -/
def with0 (ch : Channel) (sl : Slot) : State := (State.reset.setChannel 0 ch).setSlot 0 sl

/-- A channel in FETCH at a stage. -/
def fetching (g : FetchStage) (job : Option Job) : Channel :=
  { channelIn .fetch job with work := none, stage := some g }

/-- A channel in RETIRE with a status. -/
def retiring (st : Status) : Channel :=
  { channelIn .retire (some packJob) with
    work := some { Working.start packSlot.ctx with status := some st, inCount := 3, outCount := 4 } }

/-- A read of `n` bytes from 0x2000 in progress for an owner, in its last data phase. -/
def readBurst (owner : Requester) (n : Nat) (timeout : Nat) : Burst :=
  { owner := owner, request := { address := 0x2000, length := n, write := false, data := [] }
    phasesEnded := (n + 3) / 4 - 1, got := List.replicate (4 * ((n + 3) / 4 - 1)) 0, timeout := timeout, periods := 0
    addressPhase := false }

/-- A write of four bytes at 0x3000 in progress for an owner. -/
def writeBurst (owner : Requester) (n : Nat) : Burst :=
  { owner := owner, request := { address := 0x3000, length := n, write := true, data := List.replicate n 0x5A }
    phasesEnded := 0, got := [], timeout := 16, periods := 0, addressPhase := false }

def onBus (b : Burst) (s : State) : State := { s with biu := { s.biu with burst := some b } }

/-- A part at work: channel 0 in RUN with slot 0, PK0 and CK0, PK0's read on the bus; channel 1 in WAIT_SLOT for slot 0;
channel 2 in the waiting set for a pack unit; channel 3 in RUN with PK1. -/
def busy : State :=
  { State.reset with
    slots := State.reset.slots.set 0 { packSlot with holder := some 0, waiters := [1] }
    channels := #v[channelIn .run (some packJob), channelIn .waitSlot (some packJob),
      channelIn .waitUnits (some passJob), channelIn .run (some passJob)]
    arbiter :=
      { waiting := #v[none, none, some { pack := true, check := false }, none], pointer := 3
        packs := #v[some 0, some 3], checks := #v[some 0, none, none] }
    packs := #v[PackUnit.load .pack packJob packSlot.ctx (some (0, .inTap)), PackUnit.load .pass passJob packSlot.ctx none]
    checks := #v[CheckUnit.load packJob packSlot.ctx (some 0), CheckUnit.reset, CheckUnit.reset]
    writer := { Writer.reset with state := .ready }
    biu := { Biu.reset with burst := some (readBurst (.pk 0) 16 16) } }

/-! ### WellFormed and the decoder -/

theorem test_wellFormed_namedCommand : WellFormed (.unknownStreamCommand 1) = false := by decide
theorem test_wellFormed_unknownCommand : WellFormed (.unknownStreamCommand 5) = true := by decide
theorem test_wellFormed_ownRow : WellFormed (.registerWrite 0x00C 0xF 0) = false := by decide
theorem test_wellFormed_channelRow : WellFormed (.registerWrite 0x170 0xF 0) = false := by decide
theorem test_wellFormed_narrow : WellFormed (.registerWrite 0x00C 0x3 0) = true := by decide
theorem test_wellFormed_argument : WellFormed (.registerWrite 0x080 0xF 0) = true := by decide
theorem test_noWordSpellsACommand : decodeTableWord 32 5 = none := rfl
theorem test_withFetchWord : State.reset.withFetchWord 32 5 = State.reset := rfl

/-! ### One step at a time -/

/-- OPEN of PACK, C32, tap IN (11.1): slot 0, generation 1, handle 0x0100. -/
theorem test_open :
    (after .openStream { State.reset with argument := 0x00000102 }).result = ⟨.ok, 0x0100⟩ := by decide +kernel
/-- Code kind 3 is out of range (R8). -/
theorem test_open_badKind :
    (after .openStream { State.reset with argument := 0x00000301 }).result = ⟨.badArgs, 0xFFFF⟩ := by decide +kernel
theorem test_close_held :
    let t := after .closeStream { with0 Channel.reset { packSlot with holder := some 2 } with argument := 0x0100 }
    t.result.result = .deferred ∧ (t.slot 0).closing = true := by decide +kernel
theorem test_close_free :
    let t := after .closeStream { with0 Channel.reset packSlot with argument := 0x0100 }
    t.result.result = .ok ∧ (t.slot 0).ctx.state = .free ∧ (t.slot 0).generation = 1 := by decide +kernel
theorem test_rewind_busy :
    (after .rewindStream { with0 Channel.reset { packSlot with holder := some 2 } with argument := 0x0100 }).result.result
      = .busy := by decide +kernel
theorem test_rewind_generation :
    (after .rewindStream { with0 Channel.reset packSlot with argument := 0x0200 }).result.result = .badHandle := by
  decide +kernel
theorem test_inspect :
    (after .inspectSlot { with0 Channel.reset packSlot with argument := 0 }).inspect
      = #v[0x00010100, 0x00000102, 0, 0, 0xFFFFFFFF, 0, 0, 0] := by decide +kernel
theorem test_unknownCommand : (after (.unknownStreamCommand 0) State.reset).result = ⟨.badArgs, 0xFFFF⟩ := by decide +kernel
theorem test_start_posted :
    let t := after (.startChannel 0 true) (with0 { Channel.reset with post := 1 } Slot.reset)
    (t.channel 0).state = .fetch ∧ (t.channel 0).fetch = 1 ∧ (t.channel 0).haltOnError = true ∧
      t.wantedBy (.ch 0) = some ⟨0, 32, false, []⟩ := by decide +kernel
theorem test_stop_inFlight :
    (after (.stopChannel 0 false) (with0 (retiring .ok) packSlot)).channel 0 = { retiring .ok with stopRequest := true } := by
  decide +kernel
theorem test_abort_fetch :
    let t := after (.abortChannel 0 false) (with0 (fetching .entry none) Slot.reset)
    (t.channel 0).state = .halted ∧ (t.channel 0).haltCause = .aborted ∧ (t.channel 0).fetch = 0 ∧
      t.idc.status = 0x100 := by decide +kernel
theorem test_channelReset_idle :
    let t := after (.resetChannel 1 false) (State.reset.setChannel 1 (channelIn .idle none))
    (t.channel 1).state = .off ∧ (t.channel 1).post = 0 := by decide +kernel
theorem test_haltOnError_twoCommands :
    (after (.haltOnError 0 0x103) State.reset).channel 0 = { Channel.reset with haltOnError := true } := by decide +kernel
theorem test_jobRingBase :
    ((after (.jobRingBaseWrite 2 0x1237) State.reset).channel 2).ringBase = 0x1220 := by decide +kernel
theorem test_jobRingSize : ((after (.jobRingSizeWrite 2 100) State.reset).channel 2).ringSize = 64 := by decide +kernel
theorem test_post_overfill :
    (after (.postWrite 0 5) State.reset).biu.accessError = ⟨0x110, .postRange⟩ := by decide +kernel
theorem test_post_off : ((after (.postWrite 0 4) State.reset).channel 0).post = 4 := by decide +kernel
theorem test_enable : (after .enableWriter { State.reset with writer := { Writer.reset with tail := 5, head := 3 } }).writer
    = { Writer.reset with state := .ready } := by decide +kernel
theorem test_disable_writing :
    (after .disableWriter { State.reset with writer := { Writer.reset with state := .writing } }).writer
      = { Writer.reset with state := .writing, disablePending := true } := by decide +kernel
theorem test_restart :
    (after .restartWriter { State.reset with writer := { Writer.reset with state := .stalled } }).writer.state = .ready := by
  decide +kernel
theorem test_completionRingBase :
    (after (.completionRingBaseWrite 0x3F) State.reset).writer.ringBase = 0x20 := by decide +kernel
theorem test_completionRingSize :
    (after (.completionRingSizeWrite 5000) State.reset).writer.ringSize = 4096 := by decide +kernel
theorem test_threshold : (after (.thresholdWrite 256) State.reset).writer.threshold = 255 := by decide +kernel
theorem test_head_wrap :
    (after (.headWrite 1) { State.reset with writer := { Writer.reset with tail := 2, head := 0xFFFE } }).writer.head = 1 := by
  decide +kernel
theorem test_head_past :
    (after (.headWrite 3) { State.reset with writer := { Writer.reset with tail := 2, head := 0xFFFE } }).biu.accessError
      = ⟨0x054, .headRange⟩ := by decide +kernel
theorem test_interruptClear :
    (after (.interruptStatusWrite 0x101) { State.reset with idc := ⟨0x303, 0, false⟩ }).idc.status = 0x202 := by decide +kernel
theorem test_interruptEnable : (after (.interruptEnableWrite 0xFFFFFFFF) State.reset).idc.enable = 0xF1F := by decide +kernel
theorem test_deviceReset_onBus :
    (after .deviceReset (onBus (readBurst (.pk 0) 4 0) State.reset)).idc.resetPending = true := by decide +kernel
theorem test_timeout : (after (.initiatorTimeoutWrite 15) State.reset).biu.timeout = 16 := by decide +kernel
theorem test_registerWrite_narrow :
    (after (.registerWrite 0x10E 0x3 0) State.reset).biu.accessError = ⟨0x10C, .narrow⟩ := by decide +kernel
theorem test_registerWrite_unmapped :
    (after (.registerWrite 0x11C 0xF 0) State.reset).biu.accessError = ⟨0x11C, .unmapped⟩ := by decide +kernel
theorem test_resetPin : (after .resetPinAssert busy).intLine = false ∧ (after .resetPinAssert busy).windowRead 0 0xF = none :=
  by decide +kernel
theorem test_resetPin_release : (after .resetPinRelease { State.reset with pinAsserted := true }).pinAsserted = false := by
  decide +kernel
theorem test_portRequest :
    let t := after (.portRequest .cw) (State.want .cw ⟨0x40, 32, true, []⟩ State.reset)
    t.wantedBy .cw = none ∧ t.requestOf .cw = some ⟨0x40, 32, true, []⟩ ∧ t.busRequestLine = true := by decide +kernel
/-- A grant takes the first position from the pointer on (R169). -/
theorem test_busGrant :
    let s := { State.reset with biu := { Biu.reset with
      pointer := 5, requests := (Vector.replicate 10 none).set 2 (some ⟨0, 4, false, []⟩) |>.set 9 (some ⟨0x40, 32, true, []⟩) } }
    ((after .busGrant s).biu.burst.map Burst.owner) = some .cw ∧ (after .busGrant s).biu.pointer = 0 := by decide +kernel
/-- The address phase is on the bus from the grant until a period of the bus clock has passed (R170, log entry 23). -/
theorem test_addressPhase :
    let s := after .busGrant (after (.portRequest .cw) (State.want .cw ⟨0x44, 4, true, [1, 2, 3, 4]⟩ State.reset))
    s.busDrive = some (.addressPhase 0x44 true 0xF) ∧
      s.clockPeriod.busDrive = some (.dataPhase 0xF (some 0x04030201) true) := by decide +kernel
/-- A write's word lands on the enabled lanes alone: three bytes from 0x3001. -/
theorem test_dataPhaseReady :
    let b := { writeBurst .cw 8 with request := ⟨0x3001, 8, true, [1, 2, 3, 4, 5, 6, 7, 8]⟩ }
    (after (.dataPhaseReady 0) (onBus b State.reset)).hostMem = [(0x3001, 1), (0x3002, 2), (0x3003, 3)] := by decide +kernel
/-- The last word of a CHECK job's read ends its run OK (R43, R123). -/
theorem test_burstEndsWithReady :
    let s := { State.reset with
      channels := State.reset.channels.set 0 (channelIn .run (some checkJob))
      arbiter := { Arbiter.reset with checks := #v[some 0, none, none] }
      checks := State.reset.checks.set 0 (CheckUnit.load checkJob (Context.initial .ready .check .c32) none) }
    let t := after (.burstEndsWithReady 0x3231) (onBus (readBurst (.ck 0) 2 0) s)
    (t.channel 0).state = .retire ∧ (t.channel 0).status = some .ok ∧ t.arbiter.checks.get 0 = none := by decide +kernel
/-- An error at the job entry's read halts the channel (R61), and is recorded (R174). -/
theorem test_burstEndsWithError :
    let t := after .burstEndsWithError (onBus (readBurst (.ch 0) 32 0) (with0 (fetching .entry none) Slot.reset))
    (t.channel 0).haltCause = .fetchFault ∧ t.biu.lastFault = ⟨0, false, some .error, 0x2000⟩ := by decide +kernel
/-- A timeout at a fragment table's read ends the job BUS_FAULT (R35). -/
theorem test_burstEndsWithTimeout :
    let t := after .burstEndsWithTimeout
      (onBus (readBurst (.ch 0) 8 16) (with0 (fetching (.sourceTable []) (some packJob)) Slot.reset))
    (t.channel 0).status = some .busFault ∧
      ((t.channel 0).work.bind Working.fault) = some ⟨.fragTable, .timeout⟩ := by decide +kernel
/-- A KIND_CONFLICT leaves the slot held (R37, R39). -/
theorem test_holdRequest :
    let s := with0 (fetching .holdRequest (some { packJob with entry := { packEntry with kindByte := 2 } })) packSlot
    let t := after (.holdRequest 0) s
    (t.channel 0).status = some .kindConflict ∧ (t.slot 0).holder = some 0 := by decide +kernel
theorem test_unitJoin :
    let t := after (.unitJoin 0) (with0 (channelIn .waitUnits (some packJob)) packSlot)
    (t.channel 0).state = .run ∧ t.arbiter.packs.get 0 = some 0 ∧ t.arbiter.checks.get 0 = some 0 ∧
      t.wantedBy (.pk 0) = some ⟨0x2000, 16, false, []⟩ := by decide +kernel
/-- A carried run of 3 emitted at the grant (R102, R104): header 3 + 125, then the value. -/
theorem test_unitJoin_carry :
    let job : Job := { packJob with source := [] }
    let ch := { channelIn .waitUnits (some job) with
      work := some (Working.start { packSlot.ctx with carry := some { value := 7, count := 3 } }) }
    (after (.unitJoin 0) (with0 ch packSlot)).wantedBy (.pk 0) = some ⟨0x3000, 2, true, [0x80, 7]⟩ := by decide +kernel
theorem test_recordRequest :
    let t := after (.recordRequest 0) { with0 (retiring .ok) packSlot with writer := { Writer.reset with state := .ready } }
    t.writer.state = .writing ∧ t.writer.serving = 0 ∧ (t.writer.current.map Record.status) = some .ok := by decide +kernel
theorem test_retirement :
    let s := with0 { retiring .ok with recordWritten := true } { packSlot with holder := some 0 }
    let t := after (.retirement 0) s
    (t.channel 0).state = .idle ∧ (t.channel 0).done = 1 ∧ (t.slot 0).messages = 1 ∧ (t.slot 0).holder = none := by
  decide +kernel
theorem test_recordWithdrawal :
    let s := { with0 { retiring .ok with abortPending := some .abort } { packSlot with holder := some 0 } with
      writer := { Writer.reset with requesting := #v[true, false, false, false] } }
    let t := after (.recordWithdrawal 0) s
    (t.channel 0).state = .halted ∧ (t.slot 0).holder = none ∧ t.writer.requesting.get 0 = false := by decide +kernel
theorem test_groupLeave :
    (after (.groupLeave 0) (with0 { Channel.reset with leavings := [true] } Slot.reset)).idc.status = 2 := by decide +kernel
/-- A HEAD write to TAIL after a retirement that left the part quiet finds the event raised (R147). -/
theorem test_headWrite_afterLeaving :
    let s := { with0 { retiring .ok with recordWritten := true } { packSlot with holder := some 0 } with
      writer := { Writer.reset with tail := 1 } }
    let t := after (.retirement 0) s
    t.idc.status = 0 ∧ (after (.headWrite 1) t).idc.status = 2 ∧ (after (.headWrite 1) t).writer.head = 1 := by
  decide +kernel
/-- A PASS unit that must take a byte with no capacity left stops without a read (R100). -/
theorem test_pass_noCapacity :
    let s := with0 (channelIn .waitUnits (some { passJob with dest := [] })) Slot.reset
    let t := after (.unitJoin 0) s
    (t.channel 0).status = some .outOverrun ∧ t.wantedBy (.pk 0) = none ∧ t.arbiter.packs.get 0 = none := by
  decide +kernel
/-- The bytes of a fragment table: one fragment of 16 bytes at 0x2000 (R183). -/
theorem test_fragmentTable : fragmentsOf 1 [0, 0x20, 0, 0, 16, 0, 0, 0] = [⟨0x2000, 16⟩] := by decide

/-! ### The codes and the encoder, with the spec's numbers -/

/-- The check value of C32 over "123456789" (R117). -/
theorem test_c32 : ((RunningCode.initial .c32).feedAll [0x31, 0x32, 0x33, 0x34, 0x35, 0x36, 0x37, 0x38, 0x39]).final
    = 0xE3069283 := by decide +kernel
/-- A run of 131 equal bytes in an END job: a run token of 130, then a literal of 1 (R102). -/
theorem test_encoder :
    (Spec.unitEncoding true ⟨0, 0⟩ (List.replicate 131 0x41)).1 = [[0xFF, 0x41], [0x00, 0x41]] := by decide +kernel

/-! ### Witnesses: states and operands that meet the hypotheses of each statement, clause by clause -/

/-- For the statements whose one hypothesis is a part that takes events. -/
theorem witness_live : State.reset.live = true ∧ busy.live = true := by decide

theorem witness_EmptyQueueStepIsAClockPeriod :
    State.reset.pending = [] ∧ State.reset.biu.burst = none ∧
      (onBus (readBurst .cw 4 0) State.reset).pending = [] ∧ (readBurst .cw 4 0).timeout = 0 ∧
      { readBurst .cw 4 16 with periods := 14 }.periods + 1 < 16 ∧
      16 ≤ { readBurst .cw 4 16 with periods := 15 }.periods + 1 := by decide

theorem witness_QueueUntouched : exec .busGrant State.reset = .next State.reset := rfl

/-- The burst of `busy` holds the bus: the second clause; reset meets the first. -/
theorem witness_DeviceResetCommand : State.reset.biu.burst = none ∧ busy.biu.burst ≠ none := by decide

theorem witness_PendingPeriod :
    let s := { busy with idc := { busy.idc with resetPending := true } }
    s.idc.resetPending = true ∧ s.pinAsserted = false ∧ Spec.goesOn .openStream = false ∧
      Spec.goesOn .resetPinRelease = false ∧ (0x008#32).toNat % 512 / 4 = 2 ∧ (0x1FC#32).toNat % 512 / 4 = 127 := by decide

/-- All three ends: the read of `busy` stands at its last data phase and has a timeout setting. -/
theorem witness_PendingPeriodEnds :
    let s := { busy with idc := { busy.idc with resetPending := true } }
    let b := readBurst (.pk 0) 16 16
    s.idc.resetPending = true ∧ s.biu.burst = some b ∧ b.request.words ≤ b.phasesEnded + 1 ∧ b.timeout ≠ 0 := by decide

/-- A table with one FREE slot, the last. -/
def oneFree : State := { State.reset with slots := (Vector.replicate 32 packSlot).set 31 Slot.reset }

theorem witness_OpenCommand :
    (∃ a : Word, Op.ofByte (a.extractLsb' 0 8) = none) ∧
      ([(0x00000102 : Word), 0x00010203, 0x00000001].all fun a =>
        (Op.ofByte (a.extractLsb' 0 8)).isSome && (CodeKind.ofByte (a.extractLsb' 8 8)).isSome &&
          (Tap.ofByte (a.extractLsb' 16 8)).isSome && Op.ofByte (a.extractLsb' 0 8) != some .check) = true ∧
      (∀ i : SlotId, ((Vector.replicate 32 packSlot).get i).ctx.state ≠ .free) ∧
      (oneFree.slots.get 31).ctx.state = .free ∧ ∀ j : SlotId, j < 31 → (oneFree.slots.get j).ctx.state ≠ .free :=
  ⟨⟨4, rfl⟩, by decide +kernel, by decide +kernel, by decide +kernel, by decide +kernel⟩

/-- A handle of slot 31, valid; the same state has no slot of generation 2, nor a slot 32. -/
theorem witness_handles :
    let s := State.reset.setSlot 31 packSlot
    let held := State.reset.setSlot 31 { packSlot with holder := some 2 }
    Spec.handleValid s 0x011F 31 ∧ (s.slots.get 31).holder = none ∧ Spec.handleValid held 0x011F 31 ∧
      (held.slots.get 31).holder ≠ none ∧ (∀ i, ¬ Spec.handleValid s 0x021F i) ∧ ∀ i, ¬ Spec.handleValid s 0x0120 i := by
  unfold Spec.handleValid
  decide +kernel

/-- The handles of `witness_handles` as the argument register carries them. -/
theorem witness_CloseAndRewindCommands :
    (0x0000011F#32).extractLsb' 0 16 = 0x011F#16 ∧ (0x0000021F#32).extractLsb' 0 16 = 0x021F#16 := by decide

theorem witness_InspectCommand :
    ((0x20#32).extractLsb' 0 16).toNat = 32 ∧ ((0x1F#32).extractLsb' 0 16).toNat = (31 : SlotId).val ∧
      packSlot.waiters.length ≤ 3 ∧ [(1 : ChannelId), 2, 3].length ≤ 3 ∧ 130 ≤ 130 := by decide

theorem witness_UnknownStreamCommand : (0 : Word) ≠ 1 ∧ (5 : Word) ≠ 4 ∧ (0 : Word) ≠ 4 ∧ (5 : Word) ≠ 1 := by decide

theorem witness_GenerationsChangeOnlyByOpenAndReset :
    (∃ t, exec .closeStream busy = .next t) ∧ ¬ Spec.opens .closeStream ∧ ¬ Spec.resets .closeStream ∧
      busy.idc.resetPending = false := ⟨⟨_, rfl⟩, id, id, by decide⟩

/-- Four posts fill a ring of 4, the fifth overfills it; a POST behind FETCH is refused too; an IDLE channel fetches. -/
theorem witness_PostWrite :
    let off := Channel.reset
    let idle := { channelIn .idle none with post := 0 }
    let run := channelIn .run (some packJob)
    ¬ ((5 : Half) - off.done).toNat ≤ off.ringSize ∧ ((4 : Half) - off.done).toNat ≤ off.ringSize ∧
      ¬ (run.fetch - run.done).toNat ≤ ((0 : Half) - run.done).toNat ∧
      (run.fetch - run.done).toNat ≤ ((1 : Half) - run.done).toNat ∧ run.post = 1 ∧ run.state ≠ .idle ∧
      idle.state = .idle ∧ (1 : Half) ≠ idle.fetch ∧ ((1 : Half) - idle.done).toNat ≤ idle.ringSize ∧
      idle.post = idle.fetch := by decide

theorem witness_RingSettings :
    (Channel.reset.state = .off ∧ Channel.reset.post = Channel.reset.done) ∧
      ¬ ((channelIn .off none).state = .off ∧ (channelIn .off none).post = (channelIn .off none).done) ∧
      (3#32).toNat < 4 ∧ 4 ≤ (4#32).toNat ∧ (1024#32).toNat ≤ 1024 ∧ 1024 < (1025#32).toNat := by decide

theorem witness_StartCommand_StopCommand :
    (Channel.reset.state = .off ∧ Channel.reset.post = Channel.reset.fetch) ∧
      ((channelIn .halted none).state = .halted ∧ (channelIn .halted none).post ≠ (channelIn .halted none).fetch) ∧
      (channelIn .idle none).state = .idle ∧ (channelIn .run (some packJob)).state.inGroup = true ∧
      (channelIn .run (some packJob)).abortPending ≠ some .reset ∧
      { channelIn .fetch none with abortPending := some .reset }.abortPending = some .reset := by decide

theorem witness_AbortAndResetApart :
    { channelIn .fetch none with abortPending := some .abort }.abortPending ≠ none ∧ Channel.reset.abortPending = none ∧
      (channelIn .halted none).state = .halted := by decide

/-- Slot 0, held by channel 0: with no waiter, with channel 1 waiting, and closing with two channels waiting. -/
def heldSlots : List Slot :=
  [{ packSlot with holder := some 0 }, { packSlot with holder := some 0, waiters := [1] },
    { packSlot with holder := some 0, waiters := [1, 3], closing := true }]

/-- Channel 0 as given, the waiters of `heldSlots` in WAIT_SLOT, slot 0 as given. -/
def holding0 (ch : Channel) (sl : Slot) : State :=
  ((with0 ch sl).setChannel 1 (channelIn .waitSlot (some packJob))).setChannel 3 (channelIn .waitSlot (some packJob))

/-- The channels that may be let go of a slot by an abort: in WAIT_UNITS, and in RETIRE with an abort pending or without. -/
def holders : List Channel :=
  [channelIn .waitUnits (some packJob), retiring .ok, { retiring .ok with abortPending := some .abort }]

theorem witness_holdsAlone : ∀ ch ∈ holders, ∀ sl ∈ heldSlots, Spec.holdsAlone 0 0 (holding0 ch sl) := by
  unfold Spec.holdsAlone
  decide +kernel

theorem witness_holdsNone : ∀ ch ∈ holders, ∀ i : SlotId, ((holding0 ch packSlot).slots.get i).holder ≠ some 0 := by
  decide +kernel

/-- A plain release of each of `heldSlots`, and of no slot. -/
theorem witness_released :
    ∀ ch ∈ holders, (∀ sl ∈ heldSlots, ∃ t, Spec.released 0 (holding0 ch sl) t) ∧
      ∃ t, Spec.released 0 (holding0 ch packSlot) t :=
  fun ch hc =>
    ⟨fun sl hs => ⟨_, .inr ⟨0, witness_holdsAlone ch hc sl hs, rfl⟩⟩, ⟨_, .inl ⟨witness_holdsNone ch hc, rfl⟩⟩⟩

/-- The cases in the order of the statement: IDLE; FETCH with another owner's burst, and with its own on the bus; WAIT_SLOT for
slot 0; WAIT_UNITS, whose releases are those of `witness_released`. -/
theorem witness_AbortBeforeTheRun :
    (channelIn .idle none).state = .idle ∧
      (let s := onBus (readBurst .cw 4 0) (with0 (fetching .entry none) Slot.reset)
       (s.channels.get 0).state = .fetch ∧ ∀ q, s.biu.burst = some q → q.owner ≠ .ch 0) ∧
      (let s := onBus (readBurst (.ch 0) 4 0) (with0 (fetching .entry none) Slot.reset)
       ∃ q, s.biu.burst = some q ∧ q.owner = .ch 0) ∧
      (let s := with0 (channelIn .waitSlot (some packJob)) { packSlot with holder := some 3, waiters := [0] }
       (s.channels.get 0).state = .waitSlot ∧ 0 ∈ (s.slots.get 0).waiters ∧
         ∀ j : SlotId, 0 ∈ (s.slots.get j).waiters → j = 0) ∧
      ((holding0 (channelIn .waitUnits (some packJob)) packSlot).channels.get 0).state = .waitUnits := by
  refine ⟨by decide, ⟨by decide, ?_⟩, ⟨_, rfl, rfl⟩, by decide +kernel, by decide +kernel⟩
  intro q hq
  cases hq
  decide

/-- The waits of `busy`. -/
theorem busy_waits : busy.WaitsPlaced :=
  { waiters := by decide +kernel, waitersOnce := by decide +kernel, waitersApart := by decide +kernel
    waiting := by decide +kernel }

/-- `busy` meets the invariant of the holds. -/
theorem witness_EveryStepKeepsTheHolds : busy.HoldsKept ∧ ∃ t, step busy = .next t := by
  refine ⟨⟨busy_waits, by decide +kernel, by decide +kernel, by decide +kernel, by decide +kernel, by decide +kernel, ?_⟩,
    ⟨_, rfl⟩⟩
  intro c g hf
  fin_cases c <;> exact absurd hf (by decide)

/-- `busy` meets the invariant of the grants. -/
theorem witness_EveryStepKeepsTheGrants : busy.UnitsKept ∧ ∃ t, step busy = .next t := by
  refine ⟨⟨busy_waits, by decide +kernel, by decide +kernel, by decide +kernel, by decide +kernel, ?_⟩, ⟨_, rfl⟩⟩
  intro c n hn
  fin_cases c
  · cases hn
  · cases hn
  · cases hn
    decide
  · cases hn

/-- `busy` meets the other invariants. -/
theorem witness_EveryStepKeepsTheCounts : busy.CountsKept ∧ ∃ t, step busy = .next t := by
  refine ⟨⟨busy_waits, ?_, ?_⟩, ⟨_, rfl⟩⟩
  · intro c
    fin_cases c <;> simp [isJobRingSize, State.channel, busy, channelIn, Channel.reset, Vector.get]
  · intro c
    fin_cases c <;> constructor <;> decide

theorem witness_EveryStepKeepsTheRingLevel : busy.RingLevelKept ∧ ∃ t, step busy = .next t :=
  ⟨{ current := by decide, level := by decide, room := by decide, pendingDisable := by decide }, ⟨_, rfl⟩⟩

theorem witness_EveryStepKeepsMemoryCanonical :
    State.MemoryCanonical { busy with hostMem := [(0, 1), (4294967295, 2)] } ∧
      ∃ t, step { busy with hostMem := [(0, 1), (4294967295, 2)] } = .next t := by
  refine ⟨?_, ⟨_, rfl⟩⟩
  unfold State.MemoryCanonical
  decide

theorem witness_EveryStepKeepsSettingsLegal : busy.SettingsLegal ∧ ∃ t, step busy = .next t := by
  refine ⟨?_, ⟨_, rfl⟩⟩
  constructor
  · decide +kernel
  · intro c
    fin_cases c <;> simp [isJobRingSize, State.channel, busy, channelIn, Channel.reset, Vector.get]
  · decide
  · simp [isCompletionRingSize, busy, Writer.reset]
  · decide
  · exact .inl rfl
  · intro b hb
    cases hb
    exact .inr (by decide)
  · decide
  · decide
  · decide

/-- `busy` in RUN: the abort of channel 3, none of whose units has a burst on the bus; the abort of channel 0, whose pack unit
reads for a job with a code; and the same part once that unit is STOPPING, at each end of the burst. Both keep the invariants
(`witness_EveryStepKeepsTheGrants`, `witness_EveryStepKeepsTheHolds`). -/
theorem witness_AbortInTheRun :
    (busy.channels.get 3).state = .run ∧ (busy.channels.get 3).abortPending = none ∧
      busy.arbiter.packs.get 0 = some 0 ∧ busy.arbiter.checks.get 0 = some 0 ∧ busy.arbiter.packs.get 1 = some 3 ∧
      busy.biu.burst = some (readBurst (.pk 0) 16 16) ∧ (busy.channels.get 0).abortPending = none ∧
      (let s := after (.abortChannel 0 false) busy
       (s.channels.get 0).abortPending = some .abort ∧ (s.packs.get 0).condition = .stopping ∧
         (s.checks.get 0).condition = .stopped ∧ s.biu.burst = some (readBurst (.pk 0) 16 16)) ∧
      (readBurst (.pk 0) 16 16).request.words ≤ (readBurst (.pk 0) 16 16).phasesEnded + 1 ∧
      (readBurst (.pk 0) 16 16).timeout ≠ 0 := by decide +kernel

/-- The unit of a CHECK job in RUN with its read on the bus, and with another owner's burst there. -/
theorem witness_AbortInTheRun_check :
    let s := State.reset.setChannel 0 (channelIn .run (some checkJob))
    let s := { s with arbiter := { Arbiter.reset with checks := #v[some 0, none, none] } }
    Spec.unitOf (onBus (readBurst (.ck 0) 2 16) s) 0 (.ck 0) ∧ ¬ Spec.unitOf (onBus (writeBurst .cw 4) s) 0 .cw ∧
      ∀ p, s.arbiter.packs.get p ≠ some 0 := by
  unfold Spec.unitOf
  decide

/-- The record begun (the channel told, and its record being written) and not begun; the releases are those of
`witness_released`. -/
theorem witness_AbortInRetire :
    let s := holding0 (retiring .ok) { packSlot with holder := some 0 }
    { retiring .ok with recordWritten := true }.recordWritten = true ∧ (s.channels.get 0).state = .retire ∧
      (s.channels.get 0).abortPending = none ∧ (s.channels.get 0).recordWritten = false ∧ s.writer.current = none ∧
      (Spec.record Writer.reset 0 (retiring .ok) packEntry (Working.start packSlot.ctx) .ok).channel = 0 := by
  decide +kernel

theorem witness_ChannelControlWrite :
    (0x101#32).toNat % 16 = 1 ∧ (0x2#32).toNat % 16 = 2 ∧ (0x104#32).toNat % 16 = 4 ∧ (0x8#32).toNat % 16 = 8 ∧
      (0x100#32).toNat % 16 ∉ [1, 2, 4, 8] ∧ (0xF#32).toNat % 16 ∉ [1, 2, 4, 8] := by decide

/-- The entry's read at its last data phase, and an entry for each clause: 17 source fragments, one, none with a
destination, none with neither and a stream, none with neither and no stream. -/
theorem witness_JobEntryRead :
    (let s := onBus (readBurst (.ch 0) 32 0) (with0 (fetching .entry none) Slot.reset)
     s.live = true ∧ s.biu.burst = some (readBurst (.ch 0) 32 0) ∧ (s.channels.get 0).state = .fetch ∧
       (s.channels.get 0).abortPending = none ∧ (s.channels.get 0).stage = some .entry) ∧
      (readBurst (.ch 0) 32 0).request.words ≤ (readBurst (.ch 0) 32 0).phasesEnded + 1 ∧
      ¬ Spec.entryOk { packEntry with sourceCount := 17 } ∧ Spec.entryOk { packEntry with sourceCount := 16 } ∧
      Spec.entryOk { packEntry with sourceCount := 0 } ∧
      Spec.entryOk { packEntry with sourceCount := 0, destCount := 0 } ∧
      Spec.entryOk { checkEntry with sourceCount := 0 } := by
  unfold Spec.entryOk
  exact ⟨by decide +kernel, by decide, by decide, by decide, by decide, by decide, by decide⟩

/-- The table's read of 8 bytes that carries `bytes`, at its last data phase. -/
def tableBurst (bytes : List Byte) : Burst := { readBurst (.ch 0) 8 0 with got := bytes.take 4 }

/-- A source table of one entry, read whole; of two, read in part; and a destination table of one, with a length of 16, of 0 and
of 0x01000000. The data word of the last phase is 16 where the length is. -/
theorem witness_FragmentTableRead :
    (∀ g ∈ [FetchStage.sourceTable [], .destTable []],
      let s := onBus (tableBurst [0, 0x20, 0, 0]) (with0 (fetching g (some packJob)) Slot.reset)
      s.live = true ∧ (s.channels.get 0).state = .fetch ∧ (s.channels.get 0).abortPending = none ∧
        (s.channels.get 0).job = some packJob ∧ (s.channels.get 0).stage = some g) ∧
      (let b := tableBurst [0, 0x20, 0, 0]
       b.request.write = false ∧ b.request.words ≤ b.phasesEnded + 1 ∧
         b.got ++ b.request.take b.phasesEnded 16 = [0, 0x20, 0, 0, 16, 0, 0, 0] ∧
         ([⟨0x2000, 16⟩].map Spec.fragmentBytes).flatten = [0, 0x20, 0, 0, 16, 0, 0, 0] ∧
         (b.got ++ b.request.take b.phasesEnded 16).length < 8 * 2) ∧
      Spec.fragmentsValid ([⟨0x2000, 16⟩] ++ [⟨0x3000, 0x00FFFFFF⟩]) ∧ ¬ Spec.fragmentsValid [⟨0x2000, 0⟩] ∧
      ¬ Spec.fragmentsValid [⟨0x2000, 0x01000000⟩] ∧ packJob.entry.destCount.toNat ≠ 0 ∧
      checkJob.entry.destCount.toNat = 0 ∧ packJob.entry.handle ≠ 0xFFFF#16 ∧ checkJob.entry.handle = 0xFFFF#16 ∧
      Op.ofByte checkEntry.opByte = some .check ∧ CodeKind.ofByte checkEntry.kindByte = some .c32 := by
  unfold Spec.fragmentsValid
  decide +kernel

/-- A fault on the entry's read, on both tables' reads, and with an abort pending. -/
theorem witness_FetchFaults :
    (fetching .entry none).abortPending = none ∧ (fetching .entry none).stage = some .entry ∧
      (fetching (.sourceTable []) (some packJob)).stage = some (.sourceTable []) ∧
      (fetching (.destTable []) (some packJob)).state = .fetch ∧
      { fetching .entry none with abortPending := some .reset }.abortPending = some .reset ∧
      (readBurst (.ch 0) 32 16).timeout ≠ 0 ∧ (readBurst (.ch 0) 32 16).request.write = false ∧
      (readBurst (.ch 0) 32 16).request.words ≤ (readBurst (.ch 0) 32 16).phasesEnded + 1 := by decide

/-- The three answers to a hold request: slot 0 free of a holder, held, and of another generation. -/
theorem witness_HoldRequest :
    (let s := with0 (fetching .holdRequest (some packJob)) packSlot
     (s.channels.get 0).state = .fetch ∧ (s.channels.get 0).stage = some .holdRequest ∧
       (s.channels.get 0).job = some packJob ∧ (s.slots.get 0).holder = none) ∧
      Spec.handleValid (with0 (fetching .holdRequest (some packJob)) packSlot) packEntry.handle 0 ∧
      Spec.handleValid (with0 (fetching .holdRequest (some packJob)) { packSlot with holder := some 1 })
        packEntry.handle 0 ∧
      ∀ i, ¬ Spec.handleValid (with0 (fetching .holdRequest (some packJob)) { packSlot with generation := 2 })
        packEntry.handle i := by
  unfold Spec.handleValid
  decide +kernel

/-- A part with one channel in WAIT_UNITS that has not joined. -/
def joining (job : Job) : State := with0 (channelIn .waitUnits (some job)) Slot.reset

theorem with0_units (ch : Channel) : (with0 ch Slot.reset).UnitsKept := by
  refine ⟨⟨?_, ?_, ?_, ?_⟩, ?_, ?_, ?_, ?_, ?_⟩
  · intro i c hc
    fin_cases i <;> cases hc
  · intro i
    fin_cases i <;> exact List.nodup_nil
  · intro i j c hc
    fin_cases i <;> cases hc
  · intro c hc
    fin_cases c <;> cases hc
  · intro p c hp
    fin_cases p <;> cases hp
  · intro k c hk
    fin_cases k <;> cases hk
  · intro p q c hp
    fin_cases p <;> cases hp
  · intro k l c hk
    fin_cases k <;> cases hk
  · intro c n hn
    fin_cases c <;> cases hn

theorem joining_units (job : Job) : (joining job).UnitsKept := with0_units _

/-- The three grants: a CHECK, a PASS without a code, a PACK with one. `busy` has no free pack unit for another PASS. -/
theorem witness_UnitJoin :
    (∀ job ∈ [packJob, checkJob, passJob],
      (joining job).live = true ∧ ((joining job).channels.get 0).state = .waitUnits ∧
        (joining job).arbiter.waiting.get 0 = none ∧ ((joining job).channels.get 0).job = some job ∧
        ((joining job).channels.get 0).work.isSome) ∧
      (joining packJob).arbiter.packs.get 0 = none ∧ (joining packJob).arbiter.checks.get 0 = none ∧
      1 ≤ ((16 : Word)).toNat ∧ (∀ p, busy.arbiter.packs.get p ≠ none) := by decide +kernel

/-- The part of `witness_UnitJoin`'s last clause: channel 2 of `busy` before it joins. -/
theorem witness_UnitJoin_noUnit :
    let s := { busy with arbiter := { busy.arbiter with waiting := Vector.replicate 4 none } }
    (s.channels.get 2).state = .waitUnits ∧ s.arbiter.waiting.get 2 = none ∧ (s.channels.get 2).job = some passJob ∧
      ∀ p, s.arbiter.packs.get p ≠ none := by decide +kernel

/-- The runs that end at their grant: a job without a source, and a PASS job with a source and no destination. -/
theorem witness_UnitJoin_atGrant :
    (∀ job ∈ [{ packJob with source := [] }, { checkJob with source := [] }, { passJob with source := [] },
        { passJob with dest := [] }],
      (joining job).live = true ∧ ((joining job).channels.get 0).state = .waitUnits ∧
        ((joining job).channels.get 0).job = some job ∧ ((joining job).channels.get 0).work.isSome) ∧
      (Context.initial .ready .pack .c32).carry = some ⟨0, 0⟩ ∧ Spec.endJob packEntry = true ∧ totalLength [] = 0 ∧
      (joining passJob).arbiter.packs.get 0 = none ∧ (joining packJob).arbiter.checks.get 0 = none := by decide +kernel

/-- A part with one channel in WAIT_UNITS whose PACK END job has no source, a carry, and a destination of `m` bytes. -/
def carrying (count m : Nat) : State :=
  let job : Job := { packJob with source := [], dest := [⟨0x3000, BitVec.ofNat 32 m⟩] }
  with0
    { channelIn .waitUnits (some job) with
      work := some (Working.start { packSlot.ctx with carry := some { value := 7, count := count } }) }
    Slot.reset

theorem carrying_units (count m : Nat) : (carrying count m).UnitsKept := with0_units _

/-- Carries of 1, 2, 3 and 130: their tokens of 2, 3, 2 and 2 bytes into a destination as long, and into one a byte short. -/
theorem witness_UnitJoin_carry :
    (∀ x ∈ [(1, [0, 7]), (2, [1, 7, 7]), (3, [0x80, 7]), (130, ([0xFF, 7] : List Byte))],
      let s := carrying x.1 x.2.length
      s.live = true ∧ (s.channels.get 0).state = .waitUnits ∧ s.arbiter.waiting.get 0 = none ∧
        s.arbiter.packs.get 0 = none ∧ s.arbiter.checks.get 0 = none ∧
        (((s.channels.get 0).work.bind Working.ctx).bind Context.phase) = none ∧
        Spec.bufferSpace (Spec.packLoaded .pack { packJob with source := [], dest := [⟨0x3000, 3⟩] } packSlot.ctx none)
          = 3 ∧
        (if 3 ≤ x.1 then Spec.runTokenOf x.1 7 else BitVec.ofNat 8 (x.1 - 1) :: List.replicate x.1 7) = x.2 ∧
        totalLength [⟨0x3000, BitVec.ofNat 32 (x.2.length - 1)⟩] < x.2.length) ∧
      Spec.endJob packEntry = true := by decide +kernel

/-- A CHECK job at the last phase of a read: of the first of two fragments, and of its one fragment. -/
def checking (job : Job) : State :=
  onBus (readBurst (.ck 0) 2 0)
    { State.reset with
      channels := State.reset.channels.set 0 (channelIn .run (some job))
      arbiter := { Arbiter.reset with checks := #v[some 0, none, none] }
      checks := State.reset.checks.set 0 (CheckUnit.load job (Context.initial .ready .check .c32) none) }

theorem checking_units (job : Job) : (checking job).UnitsKept := by
  refine ⟨⟨?_, ?_, ?_, ?_⟩, ?_, ?_, ?_, ?_, ?_⟩
  · intro i c hc
    fin_cases i <;> cases hc
  · intro i
    fin_cases i <;> exact List.nodup_nil
  · intro i j c hc
    fin_cases i <;> cases hc
  · intro c hc
    fin_cases c <;> cases hc
  · intro p c hp
    fin_cases p <;> cases hp
  · intro k c hk
    fin_cases k <;> cases hk
    rfl
  · intro p q c hp
    fin_cases p <;> cases hp
  · intro k l c hk hl
    fin_cases k <;> cases hk
    fin_cases l <;> cases hl
    rfl
  · intro c n hn
    fin_cases c <;> cases hn

theorem witness_CheckReadTaken :
    ∀ job ∈ [checkJob, { checkJob with source := [⟨0x2000, 2⟩, ⟨0x2100, 5⟩] }],
      (checking job).live = true ∧ (checking job).biu.burst = some (readBurst (.ck 0) 2 0) ∧
        (readBurst (.ck 0) 2 0).request.words ≤ (readBurst (.ck 0) 2 0).phasesEnded + 1 ∧
        (checking job).arbiter.checks.get 0 = some 0 ∧ (∀ p, (checking job).arbiter.packs.get p ≠ some 0) ∧
        ((checking job).checks.get 0).condition = .running ∧ ((checking job).checks.get 0).ending = .none ∧
        ((checking job).channels.get 0).job = some job ∧ ((checking job).channels.get 0).work.isSome ∧
        job.entry.opByte = 0 ∧ ((checking job).checks.get 0).endFlag = Spec.endJob job.entry ∧
        (((checking job).checks.get 0).source[(((checking job).checks.get 0).sourceCursor.advance
          ((checking job).checks.get 0).source 2).fragment]?).isSome = decide (job.source.length = 2) := by decide +kernel

/-- The arbiter of section 4.10's second case once CH2 has released PK0 and CK0: CH0 waits for a pack and a check unit, CH1 for a
pack unit, and CH3 has PK1 and CK1. -/
def contended (pointer : ChannelId) : Arbiter :=
  { waiting := #v[some ⟨true, true⟩, some ⟨true, false⟩, none, none], pointer := pointer
    packs := #v[none, some 3], checks := #v[none, some 3, none] }

/-- With the pointer at CH3 the evaluation grants CH0 PK0 and CK0; with the pointer at CH0 it grants CH1 PK0 (section 4.10). -/
theorem test_rotation :
    { State.reset with arbiter := contended 3 }.scan.arbiter =
        { waiting := #v[none, some ⟨true, false⟩, none, none], pointer := 0, packs := #v[some 0, some 3]
          checks := #v[some 0, some 3, none] } ∧
      { State.reset with arbiter := contended 0 }.scan.arbiter =
        { waiting := #v[some ⟨true, true⟩, none, none, none], pointer := 1, packs := #v[some 1, some 3]
          checks := #v[none, some 3, none] } := by decide +kernel

/-- The part at work has channel 2 waiting for a pack unit, as `Spec.releaseEvaluated` has it of every waiting channel: at the
release of channel 3's PK1 it is granted that unit. -/
theorem witness_releaseEvaluated :
    (∀ d, busy.arbiter.waiting.get d ≠ none → ∃ j x op kind tap, Spec.WaitsFor busy d j x op kind tap) ∧
      (let t := after (.abortChannel 3 false) busy
       t.arbiter = Spec.evaluated (Spec.endsSoon busy) 5 (Spec.unitsFree 3 busy.arbiter) ∧
         t.arbiter.packs.get 1 = some 2 ∧ t.arbiter.pointer = 2 ∧ (t.channels.get 2).state = .run) := by
  refine ⟨fun d hd => ?_, by decide +kernel⟩
  have e : d = 2 := by
    revert d
    decide
  subst e
  refine ⟨passJob, Context.initial .ready .pass .none, .pass, .none, .inTap, ?_⟩
  constructor
  all_goals first
    | rfl
    | (intro f fs h; cases h; decide)
    | decide

/-- A job of channel 0 run by PK0, which stands as `u`, with a burst on the bus. -/
def unitAt (b : Burst) (u : PackUnit) (job : Job) : State :=
  onBus b
    { State.reset with
      channels := State.reset.channels.set 0 (channelIn .run (some job))
      arbiter := { Arbiter.reset with packs := #v[some 0, none] }
      packs := State.reset.packs.set 0 u }

theorem unitAt_units (b : Burst) (u : PackUnit) (job : Job) : (unitAt b u job).UnitsKept := by
  refine ⟨⟨?_, ?_, ?_, ?_⟩, ?_, ?_, ?_, ?_, ?_⟩
  · intro i c hc
    fin_cases i <;> cases hc
  · intro i
    fin_cases i <;> exact List.nodup_nil
  · intro i j c hc
    fin_cases i <;> cases hc
  · intro c hc
    fin_cases c <;> cases hc
  · intro p c hp
    fin_cases p <;> cases hp
    rfl
  · intro k c hk
    fin_cases k <;> cases hk
  · intro p q c hp hq
    fin_cases p <;> cases hp
    fin_cases q <;> cases hq
    rfl
  · intro k l c hk
    fin_cases k <;> cases hk
  · intro c n hn
    fin_cases c <;> cases hn

/-- A PASS job at the last phase of its last destination write: 4 bytes written before, 4 in the buffer. -/
def passing (ending : EndCondition) : State :=
  unitAt { writeBurst (.pk 0) 4 with request := ⟨0x3004, 4, true, [1, 2, 3, 4]⟩ }
    { PackUnit.load .pass { passJob with dest := [⟨0x3000, 8⟩] } (Context.initial .ready .pass .none) none with
      sourceCursor := ⟨1, 0⟩, destCursor := ⟨1, 0⟩, writeBuffer := [1, 2, 3, 4], writeAddress := 0x3004, taken := 8
      accepted := 8, written := 4, ending := ending }
    passJob

theorem witness_PackRunEnds :
    (∀ e ∈ [EndCondition.none, EndCondition.outOverrun],
      (passing e).live = true ∧ ((passing e).biu.burst.map Burst.owner) = some (.pk 0) ∧
        ((passing e).biu.burst.map fun b => decide (b.request.words ≤ b.phasesEnded + 1 ∧ b.timeout ≠ 0)) = some true ∧
        (passing e).arbiter.packs.get 0 = some 0 ∧ (∀ k, (passing e).arbiter.checks.get k ≠ some 0) ∧
        ((passing e).packs.get 0).condition = .running ∧ ((passing e).packs.get 0).mode = .pass ∧
        ((passing e).channels.get 0).job = some passJob ∧ ((passing e).channels.get 0).work.isSome ∧
        Op.ofByte passJob.entry.opByte = some .pass ∧ ((passing e).packs.get 0).ending = e ∧
        ((passing e).packs.get 0).owed = [] ∧ ((passing e).packs.get 0).readAhead = [] ∧
        ((passing e).packs.get 0).source[((passing e).packs.get 0).sourceCursor.fragment]? = none ∧
        Spec.capacity ((passing e).packs.get 0) = 0) ∧
      (passJob.source ++ [⟨0x2100, 1⟩])[((passing .none).packs.get 0).sourceCursor.fragment]? ≠ none := by decide +kernel

/-- The pack unit of `busy`, joined with CK0, reads with a code; the statuses of a whole source. -/
theorem witness_PackRunEnds_coded :
    (busy.arbiter.packs.get 0 = some 0 ∧ (∀ k, busy.arbiter.checks.get k = some 0 ↔ some (0 : CheckId) = some k) ∧
      (busy.packs.get 0).condition = .running ∧ (busy.checks.get 0).endFlag = Spec.endJob packJob.entry ∧
      (busy.channels.get 0).job = some packJob ∧ (busy.packs.get 0).mode = Spec.modeOf .pack ∧
      (busy.packs.get 0).ending = .none ∧ (busy.biu.burst.map fun b => b.request.write) = some false) ∧
      Spec.doneStatus { packEntry with verify := true } (some 5) .header = .mismatch ∧
      Spec.doneStatus { packEntry with opByte := 3 } none (.literal 1) = .truncated ∧
      Spec.doneStatus packEntry none .header = .ok := by decide +kernel

/-- A job of channel 0 with PK0 in a mode, at the last phase of its first read, of `n` bytes. Its grants are those of
`unitAt_units`. -/
def unitReading (mode : PackMode) (job : Job) (n : Nat) : State :=
  unitAt (readBurst (.pk 0) n 0) (PackUnit.load mode job (Context.initial .ready (job.entry.op.getD .pass) .none) none) job

/-- A PASS job whose source is one fragment of `n` bytes and `more`, into a destination of `m` bytes. -/
def passOf (n m : Nat) (more : List Fragment) : Job :=
  { passJob with source := ⟨0x2000, BitVec.ofNat 32 n⟩ :: more, dest := [⟨0x3000, BitVec.ofNat 32 m⟩] }

/-- An UNPACK job of a source of one byte. -/
def unpackJob : Job := { passOf 1 3 [] with entry := { passJob.entry with opByte := 3 } }

/-- The clauses of `Spec.owedLegal` for a unit whose decoder is at a header, in a form that evaluates. -/
theorem owedLegal_atHeader (u : PackUnit)
    (h : ((∀ it ∈ u.owed, it.bytes ≠ []) ∧ (∀ it ∈ u.owed.dropLast, it.takes = false) ∧
        (u.mode = .unpack → ∀ it ∈ u.owed, it.takes = false) ∧ Spec.owedTakes u ≤ u.readAhead.length) ∧
      (Spec.owedWork u).group.length ≤ 127 ∧ (Spec.owedWork u).runCount ≤ 130 ∧ (Spec.owedWork u).phase = .header ∧
      (u.finishing = true → u.readAhead = [] ∧ (u.mode = .pack → (Spec.owedWork u).group = []))) :
    Spec.owedLegal u := by
  obtain ⟨⟨nonempty, front, copies, taken⟩, group, run, phase, ended⟩ := h
  refine ⟨nonempty, front, copies, taken, ⟨group, run, fun n atValue => ?_⟩, ended⟩
  simp [phase] at atValue

/-- PK0 at the last phase of a write of 4 bytes that filled its first destination fragment; the second holds `m` bytes. The source
is at its end. -/
def owing (mode : PackMode) (op : Byte) (owed : List OutItem) (finishing : Bool) (m : Nat) : State :=
  let job : Job :=
    { passOf 4 4 [] with
      entry := { passJob.entry with opByte := op }, dest := [⟨0x3000, 4⟩, ⟨0x3100, BitVec.ofNat 32 m⟩] }
  unitAt (writeBurst (.pk 0) 4)
    { PackUnit.load mode job (Context.initial .ready (job.entry.op.getD .pass) .none) none with
      sourceCursor := ⟨1, 0⟩, destCursor := ⟨1, 0⟩, writeBuffer := [0x5A, 0x5A, 0x5A, 0x5A], writeAddress := 0x3000
      taken := 4, accepted := 4, owed := owed, finishing := finishing }
    job

/-- The rest of a PACK token called for by the end of the source, and two copies of an UNPACK run value. -/
def tokenRest : List OutItem := [{ bytes := [1, 2, 3], takes := false, after := some PackWork.reset }]
def copiesLeft : List OutItem :=
  [{ bytes := [9], takes := false, after := none }, { bytes := [9], takes := false, after := some PackWork.reset }]

/-- The unit of a state once its burst has ended. -/
def unitAfter (s : State) : PackUnit := Spec.afterTransfer (s.packs.get 0) (s.biu.burst.getD (readBurst (.pk 0) 1 0)) 0

theorem owing_legal :
    (∀ m ∈ [2, 3, 8], Spec.owedLegal (unitAfter (owing .pack 2 tokenRest true m))) ∧
      ∀ m ∈ [1, 2], Spec.owedLegal (unitAfter (owing .unpack 3 copiesLeft false m)) :=
  ⟨fun m hm => owedLegal_atHeader _ (by revert m; decide +kernel),
    fun m hm => owedLegal_atHeader _ (by revert m; decide +kernel)⟩

/-- The two clauses and where they meet: 2 bytes read leave a buffer of 3 one short, 3 bytes fill it; a token's rest of 3 bytes
and two copies fill a fragment of 2 and leave one byte, or nothing, pending. -/
theorem witness_PackTransferTaken :
    (∀ n ∈ [2, 3],
      let s := unitReading .pass (passOf n 3 [⟨0x2100, 16⟩]) n
      let u := unitAfter s
      s.live = true ∧ s.biu.burst = some (readBurst (.pk 0) n 0) ∧
        (readBurst (.pk 0) n 0).request.words ≤ (readBurst (.pk 0) n 0).phasesEnded + 1 ∧
        s.arbiter.packs.get 0 = some 0 ∧ u.condition = .running ∧ u.ending = .none ∧
        u.source[u.sourceCursor.fragment]? = some ⟨0x2100, 16⟩ ∧ Spec.bufferSpace u = 3 ∧ Spec.capacity u = 3 ∧
        Spec.pending u = List.replicate n [0] ∧ Spec.pieceCount u n = n) ∧
      (∀ s ∈ [owing .pack 2 tokenRest true 3, owing .unpack 3 copiesLeft false 3],
        s.live = true ∧ s.arbiter.packs.get 0 = some 0 ∧ (unitAfter s).condition = .running ∧
          (unitAfter s).ending = .none ∧ (unitAfter s).written = 4 ∧ (unitAfter s).writeBuffer = [] ∧
          Spec.capacity (unitAfter s) = 3 ∧ Spec.bufferSpace (unitAfter s) = 3) ∧
      Spec.bufferSpace (unitAfter (owing .pack 2 tokenRest true 2)) = 2 ∧
      Spec.pending (unitAfter (owing .pack 2 tokenRest true 3)) = [] ++ [1, 2, 3] :: [] ∧
      Spec.pending (unitAfter (owing .unpack 3 copiesLeft false 2)) = [[9]] ++ [9] :: [] ∧
      Spec.leftOf 2 [[1, 2, 3]] = [[3]] ∧ Spec.leftOf 3 [[1, 2, 3]] = [] := by
  decide +kernel

theorem witness_PackTransferTaken_legal :
    Spec.owedLegal (unitAfter (unitReading .pass (passOf 3 3 [⟨0x2100, 16⟩]) 3)) ∧
      (unitReading .pass (passOf 3 3 [⟨0x2100, 16⟩]) 3).UnitsKept ∧
      Spec.pieceOfByte (unitAfter (unitReading .pass (passOf 3 3 [⟨0x2100, 16⟩]) 3)) 2 3 ∧
      Spec.pieceOfByte (unitAfter (owing .pack 2 tokenRest true 3)) 0 0 := by
  refine ⟨owedLegal_atHeader _ (by decide +kernel), unitAt_units _ _ _, ?_, ?_⟩ <;>
    · unfold Spec.pieceOfByte
      decide +kernel

/-- A read that is the last, with a byte to write and with none (a header alone, in UNPACK); one whose second byte has no room; a
token's rest that the write ends with, in a fragment with room to spare; the run that the end of a PACK END job's source calls for,
with no room; and a copy of an UNPACK run with no room. -/
theorem witness_PackTransferStops :
    (∀ x ∈ [(PackMode.pass, passOf 2 3 [], 2), (.unpack, unpackJob, 1), (.pass, passOf 2 1 [], 2),
        (.pack, { passOf 2 1 [] with entry := { passJob.entry with opByte := 2 } }, 2)],
      let s := unitReading x.1 x.2.1 x.2.2
      let u := unitAfter s
      s.live = true ∧ s.biu.burst = some (readBurst (.pk 0) x.2.2 0) ∧
        (readBurst (.pk 0) x.2.2 0).request.words ≤ (readBurst (.pk 0) x.2.2 0).phasesEnded + 1 ∧
        (∀ k, s.arbiter.checks.get k ≠ some 0) ∧ u.joined = none ∧ u.endFlag = Spec.endJob x.2.1.entry ∧
        (s.channels.get 0).job = some x.2.1 ∧ (s.channels.get 0).work.isSome ∧ Spec.atSourceEnd u = true ∧
        (Op.ofByte x.2.1.entry.opByte).map Spec.modeOf = some u.mode ∧ u.condition = .running) ∧
      Spec.pending (unitAfter (unitReading .pass (passOf 2 1 []) 2)) = [[0]] ++ [0] :: [] ∧
      Spec.pending (unitAfter (unitReading .unpack unpackJob 1)) = [] ∧
      (let u := unitAfter (unitReading .pack { passOf 2 1 [] with entry := { passJob.entry with opByte := 2 } } 2)
       Spec.pending u = [] ++ [1, 0, 0] :: [] ∧ Spec.capacity u = 1 ∧ Spec.pieceCount u 2 = 0) ∧
      Spec.pending (unitAfter (owing .pack 2 tokenRest true 8)) = [[1, 2, 3]] ∧
      Spec.bufferSpace (unitAfter (owing .pack 2 tokenRest true 8)) = 8 ∧
      Spec.capacity (unitAfter (owing .unpack 3 copiesLeft false 1)) = 1 ∧
      (∀ m ∈ [1, 3], Spec.capacity (unitAfter (unitReading .pass (passOf 2 m []) 2)) = m) := by decide +kernel

theorem passing_units (e : EndCondition) : (passing e).UnitsKept := unitAt_units _ _ _

theorem witness_EveryStepKeepsTheOutputCounts : (passing .none).OutputKept ∧ ∃ t, step (passing .none) = .next t := by
  refine ⟨?_, ⟨_, rfl⟩⟩
  intro p
  fin_cases p <;> decide

theorem witness_HostMemoryChangesInWriteBurstsAlone :
    (∃ t, exec (.burstEndsWithReady 0) (passing .none) = .next t) ∧
      ∀ k < 4, ((0x3004 : Word) + BitVec.ofNat 32 k).toNat ≠ 0x3003 := ⟨⟨_, rfl⟩, by decide⟩

theorem witness_carryLegal : Spec.carryLegal ⟨0, 0⟩ ∧ Spec.carryLegal ⟨0x41, 130⟩ := by
  unfold Spec.carryLegal
  decide

/-- A read and a write of two words in their first data phase, lanes 1 to 3 enabled; and the write at its last. -/
theorem witness_DataPhase :
    let w := { writeBurst .cw 8 with request := ⟨0x3001, 7, true, [1, 2, 3, 4, 5, 6, 7]⟩ }
    let r := { readBurst (.pk 0) 8 0 with phasesEnded := 0 }
    ¬ w.request.words ≤ w.phasesEnded + 1 ∧ ¬ r.request.words ≤ r.phasesEnded + 1 ∧ r.request.write = false ∧
      w.request.byteIndex 0 0 = none ∧ w.request.byteIndex 0 3 = some 2 ∧
      { w with phasesEnded := 1 }.request.words ≤ 1 + 1 ∧ w.request.byteIndex 1 3 = some 6 := by decide

/-- A cursor five bytes before the end of its block, in a fragment that ends sooner; a move within a fragment, and to its end; a
write buffer of one byte with the last byte of its block to come; a burst of a whole block, and one of a single byte at the end
of one. -/
theorem witness_BurstsStayInOneBlock :
    ([⟨0x101B, 3⟩] : List Fragment)[(⟨0, 0⟩ : Cursor).fragment]? = some ⟨0x101B, 3⟩ ∧ 0 < (3 : Word).toNat ∧
      0 + 2 < (3 : Word).toNat ∧ 0 + 3 = (3 : Word).toNat ∧
      (let u := { PackUnit.reset with
        dest := [⟨0x101E, 3⟩], destCursor := ⟨0, 1⟩, writeBuffer := [7], writeAddress := 0x101E }
       u.dest[u.destCursor.fragment]? = some ⟨0x101E, 3⟩ ∧ u.destCursor.offset < (3 : Word).toNat ∧
         u.writeBuffer.length ≤ u.destCursor.offset ∧
         (0x101E : Word) = 0x101E + BitVec.ofNat 32 (u.destCursor.offset - u.writeBuffer.length) ∧
         (0x101E : Word).toNat % 32 + u.writeBuffer.length < 32) ∧
      (0x1000 : Word).toNat % 32 + 32 ≤ 32 ∧ (0x101F : Word).toNat % 32 + 1 ≤ 32 := by decide

/-- Channel 1 in RETIRE with a record to write, and a writer that chooses it. -/
def recording (w : Writer) : State :=
  { State.reset with
    channels := State.reset.channels.set 1 (retiring .ok)
    writer := { w with requesting := #v[false, true, false, false] } }

theorem witness_chosen (w : Writer) :
    Spec.chosen (recording w).writer 1 ∧
      ∃ k, Spec.hasRecord (recording w) 1 packEntry k .ok := by
  refine ⟨⟨rfl, ?_⟩, ⟨_, ⟨packJob, rfl, rfl⟩, rfl, rfl⟩⟩
  intro d hd
  fin_cases d
  · cases hd
  · exact le_refl _
  · cases hd
  · cases hd

/-- Room at a level one below the ring size, and none at the ring size; the states each command acts in. -/
theorem witness_WriterCommands :
    (let w := { Writer.reset with state := .stalled, tail := 7 }
     w.state = .stalled ∧ (w.tail - w.head).toNat < w.ringSize) ∧
      (let w := { Writer.reset with state := .ready, tail := 8 }
       w.state = .ready ∧ w.ringSize ≤ (w.tail - w.head).toNat) ∧
      Writer.reset.state = .disabled ∧ 0 < Writer.reset.ringSize ∧ ∀ c, Writer.reset.requesting.get c = false := by decide

theorem witness_RecordRequest :
    let s := { with0 (retiring .ok) packSlot with writer := { Writer.reset with state := .ready } }
    ((s.channels.get 0).state = .retire ∧ (s.channels.get 0).recordWritten = false ∧ s.writer.current = none ∧
      s.writer.requesting.get 0 = false ∧ s.writer.state = .ready ∧
      (s.writer.tail - s.writer.head).toNat < s.writer.ringSize) ∧
      Spec.chosen { s.writer with requesting := s.writer.requesting.set 0 true } 0 ∧
      ∃ k, Spec.hasRecord s 0 packEntry k .ok := by
  refine ⟨by decide, ⟨by decide, ?_⟩, ⟨_, ⟨packJob, rfl, rfl⟩, rfl, rfl⟩⟩
  intro d hd
  fin_cases d
  · exact le_refl _
  · cases hd
  · cases hd
  · cases hd

theorem witness_WriterCommands_disable :
    { Writer.reset with state := .writing }.state = .writing ∧ Writer.reset.state = .disabled ∧ busy.writer.state = .ready ∧
      { Writer.reset with state := .stalled }.state = .stalled := by decide

theorem witness_RingSettings_completion :
    (Writer.reset.state = .disabled ∧ Writer.reset.tail = Writer.reset.head) ∧
      ¬ ({ Writer.reset with tail := 1 }.tail = { Writer.reset with tail := 1 }.head) ∧ (7#32).toNat < 8 ∧
      8 ≤ (8#32).toNat ∧ (4096#32).toNat ≤ 4096 ∧ 4096 < (4097#32).toNat := by decide

/-- TAIL 2, HEAD 0xFFFE: 0xFFFE, 0xFFFF and 2 are accepted, 3 and 0xFFFD are not; a full ring of 8 that a HEAD write opens; a part
with a leaving still to reach the writer, and one with none. -/
theorem witness_HeadWrite :
    ([(0xFFFE : Half), 0xFFFF, 2].all fun new => ((2 : Half) - new).toNat ≤ ((2 : Half) - 0xFFFE).toNat) = true ∧
      ([(3 : Half), 0xFFFD].any fun new => ((2 : Half) - new).toNat ≤ ((2 : Half) - 0xFFFE).toNat) = false ∧
      ((8 : Half) - 1).toNat ≤ ((8 : Half) - 0).toNat ∧ ((8 : Half) - 1).toNat < 8 ∧ (1 : Half) ≠ 0 ∧
      (∀ c, (State.reset.channels.get c).leavings = []) ∧
      (Spec.leavingsTaken (with0 { Channel.reset with leavings := [false, true] } Slot.reset)).idc.status = 2 := by
  decide +kernel

/-- The last phase of a record's write, with room for another and channel 1 asking (`witness_chosen`), and the ring full at 8; and the same write with a timeout setting. -/
theorem witness_RecordWriteEnds :
    let b := { writeBurst .cw 32 with phasesEnded := 7 }
    let r := Spec.record Writer.reset 0 (retiring .ok) packEntry (Working.start packSlot.ctx) .ok
    let s := onBus b (recording { Writer.reset with state := .writing, tail := 6, current := some r })
    s.live = true ∧ s.biu.burst = some b ∧ b.owner = .cw ∧ b.request.write = true ∧ s.writer.current = some r ∧
      b.request.words ≤ b.phasesEnded + 1 ∧ b.timeout ≠ 0 ∧ s.writer.disablePending = false ∧
      (s.writer.tail + 1 - s.writer.head).toNat < s.writer.ringSize ∧ (1 : ChannelId) ≠ r.channel ∧
      8 ≤ ((7 : Half) + 1 - 0).toNat := by decide +kernel

/-- A retirement holding no slot, and holding each of `heldSlots`, its status completed and refused. -/
theorem witness_Retirement :
    (∀ sl ∈ heldSlots,
      let s := holding0 { retiring .ok with recordWritten := true } sl
      s.live = true ∧ (s.channels.get 0).state = .retire ∧ (s.channels.get 0).recordWritten = true ∧
        (s.channels.get 0).job = some packJob ∧ (s.channels.get 0).work.isSome ∧ (s.slots.get 0).holder = some 0 ∧
        (∀ i' : SlotId, (s.slots.get i').holder = some 0 → i' = 0) ∧ 0 ∉ (s.slots.get 0).waiters ∧
        ∀ w ∈ (s.slots.get 0).waiters, (s.channels.get w).job.isSome = true) ∧
      Position.ofByte packEntry.positionByte = some .whole ∧ Status.seqGap ≠ .ok ∧ Status.seqGap ≠ .mismatch ∧
      Status.seqGap ≠ .truncated ∧
      ∀ i : SlotId, ((with0 { retiring .ok with recordWritten := true } packSlot).slots.get i).holder ≠ some 0 := by
  decide +kernel

/-- The holder of a closing slot with two waiters, with a completed status and with a refused one. -/
theorem witness_DeferredClose :
    ∀ st ∈ [Status.ok, .seqGap],
      let ch := { retiring st with recordWritten := true }
      let s := (with0 ch { packSlot with holder := some 0, waiters := [1, 3], closing := true })
      (s.channels.get 0).state = .retire ∧ (s.channels.get 0).recordWritten = true ∧ (s.slots.get 0).holder = some 0 ∧
        (s.slots.get 0).closing = true ∧ 0 ∉ (s.slots.get 0).waiters ∧
        (∀ i' : SlotId, (s.slots.get i').holder = some 0 → i' = 0) ∧
        ((s.channels.get 0).work.bind Working.ctx).isSome ∧ (s.channels.get 0).status = some st := by decide +kernel

/-- A record write has faulted with an abort pending; the releases are those of `witness_released`. -/
theorem witness_RecordWithdrawal :
    let s := { holding0 { retiring .ok with abortPending := some .abort } { packSlot with holder := some 0 } with
      writer := { Writer.reset with requesting := #v[true, false, false, false] } }
    s.live = true ∧ (s.channels.get 0).state = .retire ∧ (s.channels.get 0).recordWritten = false ∧
      (s.channels.get 0).abortPending = some .abort ∧ s.writer.requesting.get 0 = true ∧ s.writer.current = none := by
  decide +kernel

/-- A leaving that found the part quiet and one that did not; and a channel in FETCH without a transfer on the bus, in a part that
its leaving makes quiet with one record in the ring. -/
theorem witness_GroupLeave :
    { Channel.reset with leavings := [true] }.leavings = true :: [] ∧
      { Channel.reset with leavings := [false, true] }.leavings = false :: [true] ∧
      (let s := { with0 (fetching .entry none) Slot.reset with writer := { Writer.reset with tail := 1 } }
       s.live = true ∧ (s.channels.get 0).state = .fetch ∧ (s.channels.get 0).abortPending = none ∧
         s.biu.burst = none ∧ (s.channels.get 0).leavings = [] ∧
         (∀ d, d ≠ 0 → (s.channels.get d).state.inGroup = false) ∧ s.writer.tail ≠ s.writer.head) ∧
      (busy.channels.get 3).state.inGroup = true := by decide

/-- A record formed, the least and the greatest ring, and a full ring. -/
theorem witness_PhaseFlag :
    ((recording Writer.reset).recordOf 1).isSome ∧ isCompletionRingSize 8 ∧ isCompletionRingSize 4096 ∧
      { Writer.reset with tail := 8 }.ringSize ≤ { Writer.reset with tail := 8 }.level := by
  unfold isCompletionRingSize
  decide

theorem witness_InterruptAndTimeoutRegisters :
    1 ≤ (1#32).toNat ∧ (15#32).toNat ≤ 15 ∧ 16 ≤ (16#32).toNat ∧ (4095#32).toNat ≤ 4095 ∧ 4095 < (4096#32).toNat := by decide

/-- A narrow and an unaligned access, an unmapped offset, a read-only one and one for each register that takes writes. -/
theorem witness_RegisterWrite :
    ¬ ((0x7#4 = 0xF#4) ∧ (0x00C#32).toNat % 512 % 4 = 0) ∧ ¬ ((0x20E#32).toNat % 512 % 4 = 0) ∧
      ¬ Spec.mapped (0x11C : Nat) ∧ Spec.readOnly (0x178 : Nat) ∧ (0x280#32).toNat % 512 = 0x080 ∧
      ∀ o ∈ [0x008, 0x00C, 0x010, 0x014, 0x040, 0x048, 0x04C, 0x054, 0x058, 0x084, 0x100, 0x168, 0x16C, 0x170],
        (BitVec.ofNat 32 o).toNat % 512 = o ∧ o % 4 = 0 := by
  unfold Spec.mapped Spec.readOnly
  decide

/-- Under the asserted pin with no burst in progress, no command but the pin's own changes the state (R159). -/
theorem witness_ResetPin :
    let s := after .resetPinAssert busy
    s.pinAsserted = true ∧ s.biu.burst = none ∧ (.deviceReset : Instr) ≠ .resetPinAssert ∧
      (.deviceReset : Instr) ≠ .resetPinRelease := by decide +kernel

/-- A formed burst; requests at positions 2 and 9 with the pointer at 5, where position 9 comes first. -/
theorem witness_PortRequestAndBusGrant :
    let q : BurstRequest := ⟨0, 4, false, []⟩
    let s := { State.reset with biu := { Biu.reset with
      pointer := 5, requests := ((Vector.replicate 10 none).set 2 (some q)).set 9 (some q) } }
    (State.want .cw q State.reset).biu.wanted.get Requester.cw.position = some q ∧ s.biu.burst = none ∧
      s.biu.requests.get 9 = some q ∧
      (∀ i', s.biu.requests.get i' ≠ none → 9 - s.biu.pointer ≤ i' - s.biu.pointer) ∧
      (∀ i, State.reset.biu.requests.get i = none) ∧ (onBus (readBurst .cw 32 0) s).biu.burst ≠ none ∧
      (after .busGrant s).biu.burst.map Burst.addressPhase = some true ∧ (readBurst .cw 32 0).addressPhase = false := by
  decide +kernel

/-- Seven bytes written from 0x3001: the address phase, the first word and the last; a last word that is disabled on its lane 3;
and a read, whose data the part does not drive (R170). -/
theorem test_busDrive :
    let lines (b : Burst) (phase : Bool) (n : Nat) :=
      (onBus { b with phasesEnded := n, addressPhase := phase } State.reset).busDrive
    let w (length : Nat) := { writeBurst .cw 8 with request := ⟨0x3001, length, true, [1, 2, 3, 4, 5, 6, 7]⟩ }
    lines (w 7) true 0 = some (.addressPhase 0x3000 true 0xE) ∧
      lines (w 7) false 0 = some (.dataPhase 0xE (some 0x03020100) false) ∧
      lines (w 7) false 1 = some (.dataPhase 0xF (some 0x07060504) true) ∧
      lines (w 6) false 1 = some (.dataPhase 0x7 (some 0x00060504) true) ∧
      lines (readBurst .cw 4 0) false 0 = some (.dataPhase 0xF none true) := by decide +kernel

/-- Reads outside the resets: a narrow read of the identification, an unmapped offset, a part at work. -/
theorem witness_WindowReads :
    State.reset.windowRead 0x200 0x2#4 = some 0x00002400#32 ∧ ¬ Spec.mapped (0x024 : Nat) ∧ (0x024 : Nat) % 4 = 0 ∧
      busy.live = true ∧ busy.windowRead 0x004 0xF#4 = some 0x00015435#32 := by
  unfold Spec.mapped
  decide +kernel

end Sys2Proof.Tests
end

