-- ==== Sys2Proof/Proofs/HoldsKept.lean ====
section
/-! SUPPORT. The holds of chapter 1 (R4, R14, R17, R51) split into what the table tells and what each channel tells, and the
updates of one slot, one channel or the waiting set that keep them. -/

namespace Sys2Proof.Machine

-- One theorem at a time, as in the tests: all at once they pass the memory limit.
set_option Elab.async false

/-! ### The holds, split into the table's part and each channel's part -/

/-- The part of the holds that the table alone tells (R14, R17, R20). -/
structure State.TableKept (s : State) : Prop where
  waitersOnce : ∀ i : SlotId, (s.slot i).waiters.Nodup
  waitersApart : ∀ (i j : SlotId) (c : ChannelId), c ∈ (s.slot i).waiters → c ∈ (s.slot j).waiters → i = j
  holdsOne : ∀ (i j : SlotId) (c : ChannelId), (s.slot i).holder = some c → (s.slot j).holder = some c → i = j
  freeUnheld : ∀ i : SlotId, (s.slot i).ctx.state = .free → (s.slot i).holder = none
  unheldQuiet : ∀ i : SlotId, (s.slot i).holder = none → (s.slot i).waiters = [] ∧ (s.slot i).closing = false

/-- The table and the waiting set let the channel stand in this state (R17, R51, R80). -/
structure State.Admits (s : State) (c : ChannelId) (st : ChannelState) : Prop where
  holder : ∀ i : SlotId, (s.slot i).holder = some c → st.mayHold = true
  waiter : ∀ i : SlotId, c ∈ (s.slot i).waiters → st = .waitSlot
  waiting : (s.arbiter.waiting.get c).isSome → st = .waitUnits

/-- A channel past its entry read has a job (R60). -/
structure Channel.HasJob (x : Channel) : Prop where
  inFlight : x.state.mayHold = true ∨ x.state = .waitSlot → x.job.isSome
  inFetch : ∀ g : FetchStage, x.state = .fetch → x.stage = some g → g.hasEntry = true → x.job.isSome

theorem State.holdsKept_iff (s : State) :
    s.HoldsKept ↔ s.TableKept ∧ ∀ c, s.Admits c (s.channel c).state ∧ (s.channel c).HasJob := by
  constructor
  · intro h
    exact ⟨⟨h.waits.waitersOnce, h.waits.waitersApart, h.holdsOne, h.freeUnheld, h.unheldQuiet⟩, fun c =>
      ⟨⟨fun i => h.holderState i c, fun i => h.waits.waiters i c, h.waits.waiting c⟩,
        ⟨h.jobInFlight c, h.jobInFetch c⟩⟩⟩
  · rintro ⟨ht, hc⟩
    exact
      { waits := ⟨fun i c => (hc c).1.waiter i, ht.waitersOnce, ht.waitersApart, fun c => (hc c).1.waiting⟩
        holderState := fun i c => (hc c).1.holder i
        holdsOne := ht.holdsOne
        freeUnheld := ht.freeUnheld
        unheldQuiet := ht.unheldQuiet
        jobInFlight := fun c => (hc c).2.inFlight
        jobInFetch := fun c => (hc c).2.inFetch }

theorem State.HoldsKept.table {s : State} (h : s.HoldsKept) : s.TableKept := (s.holdsKept_iff.1 h).1

theorem State.HoldsKept.admits {s : State} (h : s.HoldsKept) (c : ChannelId) : s.Admits c (s.channel c).state :=
  ((s.holdsKept_iff.1 h).2 c).1

theorem State.HoldsKept.hasJob {s : State} (h : s.HoldsKept) (c : ChannelId) : (s.channel c).HasJob :=
  ((s.holdsKept_iff.1 h).2 c).2

/-- The table and the waiting set do not name the channel. -/
structure State.Unattached (s : State) (c : ChannelId) : Prop where
  holder : ∀ i : SlotId, (s.slot i).holder ≠ some c
  waiter : ∀ i : SlotId, c ∉ (s.slot i).waiters
  waiting : s.arbiter.waiting.get c = none

theorem State.Unattached.admits {s : State} {c : ChannelId} (h : s.Unattached c) (st : ChannelState) :
    s.Admits c st :=
  ⟨fun i e => absurd e (h.holder i), fun i e => absurd e (h.waiter i), fun e => by simp [h.waiting] at e⟩

/-- Outside WAIT_SLOT, WAIT_UNITS, RUN and RETIRE a channel is named nowhere. -/
theorem State.HoldsKept.unattached {s : State} (h : s.HoldsKept) {c : ChannelId} {x : ChannelState}
    (e : (s.channel c).state = x) (hm : x.mayHold = false := by rfl) (hw : x ≠ .waitSlot := by decide) :
    s.Unattached c := by
  have ha := h.admits c
  rw [e] at ha
  refine ⟨fun i e => ?_, fun i e => hw (ha.waiter i e), ?_⟩
  · exact absurd (ha.holder i e) (by simp [hm])
  · by_contra hn
    simp [ha.waiting (Option.isSome_iff_ne_none.2 hn), ChannelState.mayHold] at hm

/-! ### Updates that keep the holds -/

/-- With the table and the waiting set as they were, the holds are kept when every channel is as it was or stands where the
table admits it. -/
theorem State.HoldsKept.of_channels {s t : State} (h : s.HoldsKept) (hs : t.slots = s.slots)
    (hw : t.arbiter.waiting = s.arbiter.waiting)
    (hc : ∀ d, t.channel d = s.channel d ∨ s.Admits d (t.channel d).state ∧ (t.channel d).HasJob) : t.HoldsKept := by
  have hslot : ∀ i, t.slot i = s.slot i := State.slot_congr hs
  obtain ⟨h1, h2, h3, h4, h5⟩ := h.table
  refine t.holdsKept_iff.2 ⟨⟨?_, ?_, ?_, ?_, ?_⟩, fun d => ?_⟩ <;> try simpa only [hslot]
  have hd : s.Admits d (t.channel d).state ∧ (t.channel d).HasJob := by
    rcases hc d with e | e
    · rw [e]
      exact ⟨h.admits d, h.hasJob d⟩
    · exact e
  exact ⟨⟨by simpa only [hslot] using hd.1.holder, by simpa only [hslot] using hd.1.waiter,
    by simpa only [hw] using hd.1.waiting⟩, hd.2⟩

/-- What the holds do not speak of may change. -/
theorem State.HoldsKept.frame {s t : State} (h : s.HoldsKept) (hs : t.slots = s.slots)
    (hc : t.channels = s.channels) (ha : t.arbiter = s.arbiter) : t.HoldsKept :=
  h.of_channels hs (by rw [ha]) fun d => .inl (State.channel_congr hc d)

/-- A channel's state, job and stage are as they were. -/
def Channel.SameStand (x y : Channel) : Prop := y.state = x.state ∧ y.job = x.job ∧ y.stage = x.stage

theorem Channel.HasJob.same {x y : Channel} (h : x.HasJob) (e : x.SameStand y) : y.HasJob := by
  obtain ⟨e1, e2, e3⟩ := e
  exact ⟨by simpa only [e1, e2] using h.inFlight, by simpa only [e1, e2, e3] using h.inFetch⟩

/-- Of its channels only what the holds do not speak of changed. -/
theorem State.HoldsKept.same {s t : State} (h : s.HoldsKept) (hs : t.slots = s.slots)
    (hw : t.arbiter.waiting = s.arbiter.waiting) (hc : ∀ d, (s.channel d).SameStand (t.channel d)) : t.HoldsKept :=
  h.of_channels hs hw fun d => .inr ⟨(hc d).1 ▸ h.admits d, (h.hasJob d).same (hc d)⟩

/-- A channel replaced by one that the table admits. -/
theorem State.HoldsKept.setChannel {s : State} (h : s.HoldsKept) {c : ChannelId} {x : Channel}
    (ha : s.Admits c x.state) (hj : x.HasJob) : (s.setChannel c x).HoldsKept := by
  refine h.of_channels (by simp) (by simp) fun d => ?_
  by_cases e : d = c
  · subst e
    exact .inr (by simpa using ⟨ha, hj⟩)
  · exact .inl (by simp [e])

/-- A channel replaced by one in the same state with the same job at the same stage. -/
theorem State.HoldsKept.setChannel_same {s : State} (h : s.HoldsKept) {c : ChannelId} {x : Channel}
    (e : (s.channel c).SameStand x) : (s.setChannel c x).HoldsKept :=
  h.setChannel (e.1 ▸ h.admits c) ((h.hasJob c).same e)

/-- A slot that may stand at `i`, the rest of the table and the channels given (R4, R14, R17, R20). -/
structure State.Accepts (s : State) (i : SlotId) (x : Slot) : Prop where
  once : x.waiters.Nodup
  waiter : ∀ c ∈ x.waiters, (s.channel c).state = .waitSlot ∧ ∀ j, j ≠ i → c ∉ (s.slot j).waiters
  holder : ∀ c, x.holder = some c → (s.channel c).state.mayHold = true ∧ ∀ j, j ≠ i → (s.slot j).holder ≠ some c
  free : x.ctx.state = .free → x.holder = none
  quiet : x.holder = none → x.waiters = [] ∧ x.closing = false

/-- A slot replaced by one that may stand there. -/
theorem State.HoldsKept.setSlot {s : State} (h : s.HoldsKept) {i : SlotId} {x : Slot} (hx : s.Accepts i x) :
    (s.setSlot i x).HoldsKept := by
  have ht := h.table
  refine (State.holdsKept_iff _).2 ⟨⟨?_, ?_, ?_, ?_, ?_⟩, fun d => ⟨⟨?_, ?_, ?_⟩, h.hasJob d⟩⟩
  · intro j
    rw [State.setSlot_slot]
    split
    · exact hx.once
    · exact ht.waitersOnce j
  · intro j k d hj hk
    by_cases ej : j = i <;> by_cases ek : k = i <;> simp only [State.setSlot_slot, ej, ek, if_true, if_false] at hj hk ⊢
    · exact absurd hk ((hx.waiter d hj).2 k ek)
    · exact absurd hj ((hx.waiter d hk).2 j ej)
    · exact ht.waitersApart j k d hj hk
  · intro j k d hj hk
    by_cases ej : j = i <;> by_cases ek : k = i <;> simp only [State.setSlot_slot, ej, ek, if_true, if_false] at hj hk ⊢
    · exact absurd hk ((hx.holder d hj).2 k ek)
    · exact absurd hj ((hx.holder d hk).2 j ej)
    · exact ht.holdsOne j k d hj hk
  · intro j
    rw [State.setSlot_slot]
    split
    · exact hx.free
    · exact ht.freeUnheld j
  · intro j
    rw [State.setSlot_slot]
    split
    · exact hx.quiet
    · exact ht.unheldQuiet j
  · intro j hj
    rw [State.setSlot_slot] at hj
    split at hj
    · exact (hx.holder d hj).1
    · exact (h.admits d).holder j hj
  · intro j hj
    rw [State.setSlot_slot] at hj
    split at hj
    · exact (hx.waiter d hj).1
    · exact (h.admits d).waiter j hj
  · exact (h.admits d).waiting

end Sys2Proof.Machine
end

