-- ==== Sys2Proof/Proofs/HoldsTable.lean ====
section
/-! SUPPORT. The operations of the stream context table and of the unit arbiter keep the holds. -/

namespace Sys2Proof.Machine

-- One theorem at a time, as in the tests: all at once they pass the memory limit.
set_option Elab.async false

/-! ### A channel comes to rest -/

/-- Where a channel stands that needs neither slot nor job: OFF, IDLE, HALTED, or FETCH before its entry is read. -/
def Channel.Resting (x : Channel) : Prop :=
  x.state = .off ∨ x.state = .idle ∨ x.state = .halted ∨ x.state = .fetch ∧ x.stage = some .entry

theorem Channel.Resting.hasJob {x : Channel} (h : x.Resting) : x.HasJob := by
  constructor
  · rcases h with e | e | e | ⟨e, _⟩ <;> simp [e, ChannelState.mayHold]
  · intro g hf hg
    rcases h with e | e | e | ⟨_, e⟩
    · simp [e] at hf
    · simp [e] at hf
    · simp [e] at hf
    · obtain rfl : FetchStage.entry = g := Option.some.inj (e ▸ hg)
      simp [FetchStage.hasEntry]

/-- A channel named nowhere comes to rest, whatever it was. -/
theorem State.HoldsKept.rest {s t : State} (h : s.HoldsKept) {c : ChannelId} (hu : s.Unattached c)
    (hs : t.slots = s.slots) (hw : t.arbiter.waiting = s.arbiter.waiting)
    (hd : ∀ d, d ≠ c → t.channel d = s.channel d) (hc : (t.channel c).Resting) : t.HoldsKept := by
  refine h.of_channels hs hw fun d => ?_
  by_cases e : d = c
  · subst e
    exact .inr ⟨hu.admits _, hc.hasJob⟩
  · exact .inl (hd d e)

theorem State.abortTakesEffect_channel_ne (s : State) (k : AbortKind) {c d : ChannelId} (h : d ≠ c) :
    (s.abortTakesEffect k c).channel d = s.channel d := by
  cases k <;> simp [State.abortTakesEffect, h]

theorem State.abortTakesEffect_rests (s : State) (k : AbortKind) (c : ChannelId) :
    ((s.abortTakesEffect k c).channel c).Resting := by
  cases k <;> simp [State.abortTakesEffect, Channel.Resting]

theorem State.chooseNext_channel_ne (s : State) (st : Option Status) {c d : ChannelId} (h : d ≠ c) :
    (s.chooseNext c st).channel d = s.channel d := by
  unfold State.chooseNext
  dsimp only
  (repeat' split) <;> simp [h]

theorem State.chooseNext_rests (s : State) (st : Option Status) (c : ChannelId) :
    ((s.chooseNext c st).channel c).Resting := by
  unfold State.chooseNext
  dsimp only
  (repeat' split) <;> simp [Channel.Resting]

/-- An abort takes effect in a channel named nowhere. -/
theorem State.HoldsKept.abortTakesEffect {s : State} (h : s.HoldsKept) {c : ChannelId} (hu : s.Unattached c)
    (k : AbortKind) : (s.abortTakesEffect k c).HoldsKept :=
  h.rest hu (by simp) (by simp) (fun _ hd => s.abortTakesEffect_channel_ne k hd) (s.abortTakesEffect_rests k c)

/-! ### The stream commands -/

/-- A slot that differs at most in what the holds do not speak of, in its context's state short of FREE, and in closing
while it is held, may stand in its place. -/
theorem State.HoldsKept.accepts {s : State} (h : s.HoldsKept) {i : SlotId} {x : Slot}
    (hh : x.holder = (s.slot i).holder) (hw : x.waiters = (s.slot i).waiters) (hf : x.ctx.state ≠ .free)
    (hc : x.holder = none → x.closing = false) : s.Accepts i x where
  once := hw ▸ h.table.waitersOnce i
  waiter c e := ⟨(h.admits c).waiter i (hw ▸ e), fun j hj e' => hj (h.table.waitersApart j i c e' (hw ▸ e))⟩
  holder c e := ⟨(h.admits c).holder i (hh ▸ e), fun j hj e' => hj (h.table.holdsOne j i c e' (hh ▸ e))⟩
  free e := absurd e hf
  quiet e := ⟨hw ▸ (h.table.unheldQuiet i (hh ▸ e)).1, hc e⟩

/-- A slot without holder, waiters and closing may stand anywhere. -/
theorem State.accepts_quiet (s : State) {i : SlotId} {x : Slot} (hh : x.holder = none) (hw : x.waiters = [])
    (hc : x.closing = false) : s.Accepts i x where
  once := by simp [hw]
  waiter c e := by simp [hw] at e
  holder c e := by simp [hh] at e
  free _ := hh
  quiet _ := ⟨hw, hc⟩

/-- The handle is valid only of a slot that is not FREE and not closing (R6). -/
theorem State.validHandle_spec {s : State} {h : Half} {i : SlotId} (hv : s.validHandle h = some i) :
    (s.slot i).ctx.state ≠ .free ∧ (s.slot i).closing = false ∧ (s.slot i).generation = handleGeneration h ∧
      handleSlot h = i.val := by
  unfold State.validHandle at hv
  split at hv
  · dsimp only at hv
    split at hv
    · rename_i hlt hh
      cases hv
      exact ⟨hh.1, hh.2.1, hh.2.2, rfl⟩
    · contradiction
  · contradiction

theorem State.lowestFree_spec {s : State} {i : SlotId} (h : s.lowestFree = some i) : (s.slot i).ctx.state = .free := by
  simpa using List.find?_some h

theorem State.HoldsKept.complete {s : State} (h : s.HoldsKept) (r : StreamResult) (hd : Half) :
    (s.complete r hd).HoldsKept := h.frame (by simp) (by simp) (by simp)

theorem State.HoldsKept.takeOpen {s : State} (h : s.HoldsKept) : s.takeOpen.HoldsKept := by
  unfold State.takeOpen
  split
  · exact h.complete ..
  split
  · exact h.complete ..
  · rename_i i hi
    have hn := h.table.freeUnheld i (State.lowestFree_spec hi)
    obtain ⟨hw, hc⟩ := h.table.unheldQuiet i hn
    dsimp only
    refine (h.setSlot ?_).complete ..
    exact s.accepts_quiet hn hw hc

theorem State.HoldsKept.takeClose {s : State} (h : s.HoldsKept) : s.takeClose.HoldsKept := by
  unfold State.takeClose
  split
  · exact h.complete ..
  · rename_i i hi
    split
    · refine (h.setSlot ?_).complete ..
      exact s.accepts_quiet rfl rfl rfl
    · rename_i hh
      refine (h.setSlot ?_).complete ..
      exact h.accepts rfl rfl (State.validHandle_spec hi).1 fun e => absurd e hh

theorem State.HoldsKept.takeRewind {s : State} (h : s.HoldsKept) : s.takeRewind.HoldsKept := by
  unfold State.takeRewind
  split
  · exact h.complete ..
  · rename_i i hi
    dsimp only
    split
    · refine (h.setSlot ?_).complete ..
      exact h.accepts rfl rfl (by simp [Context.initial]) fun _ => (State.validHandle_spec hi).2.1
    · exact h.complete ..

theorem State.HoldsKept.takeInspect {s : State} (h : s.HoldsKept) : s.takeInspect.HoldsKept :=
  h.frame (by simp) (by simp) (by simp)

theorem State.HoldsKept.takeStreamCommand {s : State} (h : s.HoldsKept) (v : Word) :
    (s.takeStreamCommand v).HoldsKept := by
  unfold State.takeStreamCommand
  split
  · exact h.takeOpen
  · exact h.takeClose
  · exact h.takeRewind
  · exact h.takeInspect
  · exact h.complete ..

/-! ### A hold granted, and a slot let go -/

theorem State.takeHold_channel_ne (s : State) (sl : Slot) {c d : ChannelId} (h : d ≠ c) :
    (s.takeHold c sl).channel d = s.channel d := by
  unfold State.takeHold
  (repeat' split) <;> simp [h]

/-- A channel with a job that has been made the holder is in WAIT_UNITS or RETIRE, its job kept (R39, R63). -/
theorem State.takeHold_channel {s : State} {c : ChannelId} (hj : (s.channel c).job.isSome) (sl : Slot) :
    ((s.takeHold c sl).channel c).state.mayHold = true ∧ ((s.takeHold c sl).channel c).job = (s.channel c).job := by
  unfold State.takeHold
  obtain ⟨j, e⟩ := Option.isSome_iff_exists.1 hj
  rw [e]
  dsimp only
  split <;> simp [e, ChannelState.mayHold]

/-- The table may be written before or after the channel makes its slot checks. -/
theorem State.setSlot_takeHold (s : State) (i : SlotId) (x sl : Slot) (c : ChannelId) :
    (s.setSlot i x).takeHold c sl = (s.takeHold c sl).setSlot i x := by
  unfold State.takeHold
  rw [State.setSlot_channel]
  (repeat' split) <;> rfl

/-- A channel named nowhere that has a job is made the holder of a slot no other channel holds on to. -/
theorem State.HoldsKept.takeHold {s : State} (h : s.HoldsKept) {c : ChannelId} (hu : s.Unattached c)
    (hj : (s.channel c).job.isSome) {i : SlotId} {x : Slot} (hh : x.holder = some c)
    (hw : x.waiters = (s.slot i).waiters) (hf : x.ctx.state ≠ .free) (sl : Slot) :
    ((s.setSlot i x).takeHold c sl).HoldsKept := by
  obtain ⟨hm, hjob⟩ := State.takeHold_channel hj sl
  have hkept : (s.takeHold c sl).HoldsKept := h.of_channels (by simp) (by simp) fun d => by
    by_cases e : d = c
    · subst e
      refine .inr ⟨hu.admits _, ⟨fun _ => hjob ▸ hj, fun g e => ?_⟩⟩
      simp [e, ChannelState.mayHold] at hm
    · exact .inl (s.takeHold_channel_ne sl e)
  have hslot : ∀ j, (s.takeHold c sl).slot j = s.slot j := State.slot_congr (by simp)
  rw [State.setSlot_takeHold]
  refine hkept.setSlot ⟨hw ▸ h.table.waitersOnce i, fun d hd => ?_, fun d hd => ?_, fun e => absurd e hf, fun e => ?_⟩
  · rw [hw] at hd
    have hne : d ≠ c := fun e => hu.waiter i (e ▸ hd)
    rw [s.takeHold_channel_ne sl hne]
    exact ⟨(h.admits d).waiter i hd, fun j hji hj' => hji (h.table.waitersApart j i d (hslot j ▸ hj') hd)⟩
  · obtain rfl : c = d := by simpa [hh] using hd
    exact ⟨hm, fun j _ => by simpa only [hslot] using hu.holder j⟩
  · simp [hh] at e

theorem State.HoldsKept.takeHoldRequest {s : State} (h : s.HoldsKept) {c : ChannelId}
    (hs : (s.channel c).state = .fetch) (hj : (s.channel c).job.isSome) (hd : Half) :
    (s.takeHoldRequest c hd).HoldsKept := by
  have hu : s.Unattached c := h.unattached hs
  unfold State.takeHoldRequest
  split
  · exact h.setChannel (hu.admits _) ⟨fun _ => hj, fun g e => by simp at e⟩
  · rename_i i hi
    dsimp only
    split
    · rename_i hn
      refine h.takeHold (x := { s.slot i with holder := some c }) hu hj rfl rfl ?_ _
      exact (State.validHandle_spec hi).1
    · rename_i hn
      have hc : (s.setChannel c { s.channel c with state := .waitSlot, stage := none }).HoldsKept :=
        h.setChannel (hu.admits _) ⟨fun _ => hj, fun g e => by simp at e⟩
      have hacc := h.accepts (i := i) (x := s.slot i) rfl rfl (State.validHandle_spec hi).1 fun e => absurd e hn
      refine hc.setSlot ⟨?_, fun d hd => ?_, fun d hd => ?_, fun e => absurd e (State.validHandle_spec hi).1,
        fun e => absurd e hn⟩
      · exact List.nodup_append'.2 ⟨hacc.once, by simp, by simpa using hu.waiter i⟩
      · by_cases e : d = c
        · subst e
          exact ⟨by simp, fun j _ => by simpa using hu.waiter j⟩
        · simpa [e] using hacc.waiter d (by simpa [e] using hd)
      · have e : d ≠ c := fun e => hu.holder i (e ▸ hd)
        simpa [e] using hacc.holder d hd

/-- What a release may make of a held slot before it is let go: its context short of FREE and its message count (R20 to
R22). -/
structure Slot.SameHold (x y : Slot) : Prop where
  holder : y.holder = x.holder
  waiters : y.waiters = x.waiters
  closing : y.closing = x.closing
  busy : y.ctx.state ≠ .free

theorem Slot.commit_sameHold (sl : Slot) (k : Commit) : sl.SameHold (sl.commit k) := by
  unfold Slot.commit
  split <;> constructor <;> simp [Context.initial]

/-- The slot that a waiter has left behind at the front of its list. -/
theorem State.HoldsKept.waiterLeaves {s : State} (h : s.HoldsKept) {i : SlotId} {w : ChannelId} {ws : List ChannelId}
    (hw : (s.slot i).waiters = w :: ws) :
    (s.setSlot i { s.slot i with waiters := ws }).HoldsKept ∧
      (s.setSlot i { s.slot i with waiters := ws }).Unattached w := by
  have hn : (w :: ws).Nodup := hw ▸ h.table.waitersOnce i
  have hst : (s.channel w).state = .waitSlot := (h.admits w).waiter i (by simp [hw])
  constructor
  · refine h.setSlot ⟨(List.nodup_cons.1 hn).2, fun c hc => ?_, fun c hc => ?_, h.table.freeUnheld i, fun e => ?_⟩
    · have hm : c ∈ (s.slot i).waiters := by simp [hw, show c ∈ ws from hc]
      exact ⟨(h.admits c).waiter i hm, fun j hj e => hj (h.table.waitersApart j i c e hm)⟩
    · exact ⟨(h.admits c).holder i hc, fun j hj e => hj (h.table.holdsOne j i c e hc)⟩
    · simpa [hw] using (h.table.unheldQuiet i e).1
  · refine ⟨fun j hj => ?_, fun j hj => ?_, ?_⟩
    · have hm := (h.admits w).holder j (by by_cases e : j = i <;> simpa [e] using hj)
      simp [hst, ChannelState.mayHold] at hm
    · by_cases e : j = i
      · subst e
        exact (List.nodup_cons.1 hn).1 (by simpa using hj)
      · exact e (h.table.waitersApart j i w (by simpa [e] using hj) (by simp [hw]))
    · by_contra hj
      have hm := (h.admits w).waiting (Option.isSome_iff_ne_none.2 hj)
      simp [hst] at hm

theorem State.setSlot_setSlot (s : State) (i : SlotId) (x y : Slot) : (s.setSlot i x).setSlot i y = s.setSlot i y := by
  simp [State.setSlot]

/-- A held slot, any commit made, passes on (R18, R20). -/
theorem State.HoldsKept.passOn {s : State} (h : s.HoldsKept) {i : SlotId} {sl : Slot}
    (hsl : (s.slot i).SameHold sl) : (s.passOn i sl).HoldsKept := by
  have hjob : ∀ w ∈ sl.waiters, (s.channel w).job.isSome := fun w hw =>
    (h.hasJob w).inFlight (.inr ((h.admits w).waiter i (hsl.waiters ▸ hw)))
  unfold State.passOn
  split
  · have hfreed : (s.setSlot i sl.freed).HoldsKept := h.setSlot (s.accepts_quiet rfl rfl rfl)
    refine State.HoldsKept.frame (s := (s.setSlot i sl.freed).refuseWaiters sl.waiters) ?_ rfl rfl rfl
    refine hfreed.of_channels (by simp) (by simp) fun d => ?_
    have hd := State.refuseWaiters_channel sl.waiters (s.setSlot i sl.freed) d
    by_cases hm : d ∈ sl.waiters
    · rw [if_pos hm] at hd
      have hst := (h.admits d).waiter i (hsl.waiters ▸ hm)
      refine .inr ⟨⟨fun j hj => ?_, fun j hj => ?_, fun hj => ?_⟩, ⟨fun _ => ?_, fun g hg => ?_⟩⟩
      · exact congrArg (fun x => x.state.mayHold) hd
      · by_cases e : j = i
        · simp [e, Slot.freed] at hj
        · exact absurd (h.table.waitersApart j i d (by simpa [e] using hj) (hsl.waiters ▸ hm)) e
      · rw [(h.admits d).waiting hj] at hst
        contradiction
      · exact (congrArg (fun x => x.job.isSome) hd).trans (hjob d hm)
      · have : ChannelState.retire = .fetch := (congrArg Channel.state hd).symm.trans hg
        contradiction
    · exact .inl (by simpa [hm, State.channel] using hd)
  · rename_i hc
    split
    · rename_i hw
      refine h.setSlot (s.accepts_quiet rfl hw (by simpa using hc))
    · rename_i w ws hw
      obtain ⟨hk, hu⟩ := h.waiterLeaves (hsl.waiters ▸ hw)
      have hg := hk.takeHold (i := i) (x := { sl with holder := some w, waiters := ws }) hu
        (by simpa using hjob w (by simp [hw])) rfl (by simp) hsl.busy sl
      rwa [State.setSlot_setSlot] at hg

/-- The table after a slot has passed on: no slot's wait list has grown, and the slot's holder is none or was waiting. -/
theorem State.passOn_slot (s : State) (i : SlotId) (sl : Slot) (j : SlotId) :
    (j ≠ i → (s.passOn i sl).slot j = s.slot j) ∧
      (∀ c, ((s.passOn i sl).slot i).holder = some c → c ∈ sl.waiters) ∧
      ∀ c ∈ ((s.passOn i sl).slot i).waiters, c ∈ sl.waiters := by
  unfold State.passOn
  split
  · have hslot : ∀ k, ((s.setSlot i sl.freed).refuseWaiters sl.waiters).slot k = (s.setSlot i sl.freed).slot k :=
      State.slot_congr (by simp)
    simp only [State.raise_slot, hslot, State.setSlot_slot, if_true]
    exact ⟨fun e => by simp [e], fun c e => by simp [Slot.freed] at e, fun c e => by simp [Slot.freed] at e⟩
  · split
    · rename_i hw
      simp [hw]
      exact fun e => by simp [e]
    · rename_i w ws hw
      have hslot : ∀ k, ((s.setSlot i { sl with holder := some w, waiters := ws }).takeHold w sl).slot k =
          (s.setSlot i { sl with holder := some w, waiters := ws }).slot k := State.slot_congr (by simp)
      simp only [hslot, State.setSlot_slot, if_true, hw]
      exact ⟨fun e => by simp [e], fun c e => by simp_all, fun c e => List.mem_cons_of_mem _ e⟩

theorem State.heldSlot_spec {s : State} {c : ChannelId} {i : SlotId} (h : s.heldSlot c = some i) :
    (s.slot i).holder = some c := by
  simpa using List.find?_some h

theorem State.heldSlot_eq_none {s : State} {c : ChannelId} (h : s.heldSlot c = none) (i : SlotId) :
    (s.slot i).holder ≠ some c := by
  simpa using finRange_find_none h i

/-- A channel of the group past its wait that lets its slot go is named nowhere after it (R18, R20). -/
theorem State.HoldsKept.release {s : State} (h : s.HoldsKept) {c : ChannelId}
    (hm : (s.channel c).state.mayHold = true) (hj : s.arbiter.waiting.get c = none) (k : Option Commit) :
    (s.release c k).HoldsKept ∧ (s.release c k).Unattached c := by
  have hwait : ∀ i, c ∉ (s.slot i).waiters := fun i hi => by
    simp [(h.admits c).waiter i hi, ChannelState.mayHold] at hm
  unfold State.release
  split
  · rename_i hn
    exact ⟨h, State.heldSlot_eq_none hn, hwait, hj⟩
  · rename_i i hi
    have hh := State.heldSlot_spec hi
    have hbusy : (s.slot i).ctx.state ≠ .free := fun e => by simp [h.table.freeUnheld i e] at hh
    have key : ∀ sl, (s.slot i).SameHold sl → (s.passOn i sl).HoldsKept ∧ (s.passOn i sl).Unattached c := by
      intro sl hsl
      refine ⟨h.passOn hsl, fun j hj => ?_, fun j hj => ?_, by simpa using hj⟩ <;>
        obtain ⟨h1, h2, h3⟩ := s.passOn_slot i sl j <;> by_cases e : j = i
      · subst e
        exact hwait j (hsl.waiters ▸ h2 c hj)
      · exact e (h.table.holdsOne j i c (h1 e ▸ hj) hh)
      · subst e
        exact hwait j (hsl.waiters ▸ h3 c hj)
      · exact hwait j (h1 e ▸ hj)
    cases k with
    | none => exact key _ ⟨rfl, rfl, rfl, hbusy⟩
    | some k => exact key _ (Slot.commit_sameHold _ k)

/-! ### Evaluations -/

/-- The waiting set may change as long as its channels are in WAIT_UNITS (R80). -/
theorem State.HoldsKept.setWaiting {s t : State} (h : s.HoldsKept) (hs : t.slots = s.slots)
    (hc : t.channels = s.channels)
    (hw : ∀ c, (t.arbiter.waiting.get c).isSome → (s.channel c).state = .waitUnits) : t.HoldsKept := by
  have hch : ∀ c, t.channel c = s.channel c := State.channel_congr hc
  have hsl : ∀ i, t.slot i = s.slot i := State.slot_congr hs
  obtain ⟨h1, h2, h3, h4, h5⟩ := h.table
  refine t.holdsKept_iff.2 ⟨⟨?_, ?_, ?_, ?_, ?_⟩, fun d => ?_⟩ <;> try simpa only [hsl]
  rw [hch]
  exact ⟨⟨by simpa only [hsl] using (h.admits d).holder, by simpa only [hsl] using (h.admits d).waiter, hw d⟩,
    h.hasJob d⟩

theorem State.HoldsKept.leaveWaitingSet {s : State} (h : s.HoldsKept) (c : ChannelId) :
    (s.leaveWaitingSet c).HoldsKept :=
  h.setWaiting (by simp) (by simp) fun d hd => by
    by_cases e : d = c
    · subst e
      simp [State.leaveWaitingSet, vector_get_set] at hd
    · exact (h.admits d).waiting (by simpa [State.leaveWaitingSet, vector_get_set_ne _ _ (Ne.symm e)] using hd)

theorem State.leaveWaitingSet_waiting (s : State) (c : ChannelId) :
    (s.leaveWaitingSet c).arbiter.waiting.get c = none := by
  simp [State.leaveWaitingSet, vector_get_set]

theorem State.grant_channels (s : State) (c : ChannelId) (n : Need) :
    (s.grant c n).channels = (s.setChannel c { s.channel c with state := .run }).channels := by
  unfold State.grant
  dsimp only
  split
  · simp only [State.loadUnits_frame]
    rfl
  · rfl

theorem State.grant_waiting (s : State) (c : ChannelId) (n : Need) :
    (s.grant c n).arbiter.waiting = s.arbiter.waiting.set c none := by
  rw [State.grant_arbiter]
  rfl

theorem State.HoldsKept.grant {s : State} (h : s.HoldsKept) {c : ChannelId}
    (hw : (s.channel c).state = .waitUnits) (n : Need) : (s.grant c n).HoldsKept := by
  have hl := h.leaveWaitingSet c
  have hj : (s.channel c).job.isSome := (h.hasJob c).inFlight (.inl (by simp [hw, ChannelState.mayHold]))
  refine hl.of_channels (by simp) (by rw [State.grant_waiting]; rfl) fun d => ?_
  rw [State.channel_congr (s.grant_channels c n)]
  by_cases e : d = c
  · subst e
    refine .inr ⟨⟨fun _ _ => ?_, fun i hi => ?_, fun hd => ?_⟩, ⟨fun _ => ?_, fun g hg => ?_⟩⟩
    · simp [ChannelState.mayHold]
    · simp [(h.admits d).waiter i hi] at hw
    · simp [State.leaveWaitingSet_waiting] at hd
    · simpa using hj
    · simp at hg
  · exact .inl (by simp [e])

theorem State.HoldsKept.examine {s : State} (h : s.HoldsKept) (c : ChannelId) : (s.examine c).HoldsKept := by
  unfold State.examine
  split
  · rename_i n hn
    split
    · exact h.grant ((h.admits c).waiting (by simp [hn])) n
    · exact h
  · exact h

/-- A property that each item keeps is kept along the whole list. -/
theorem foldl_keeps {α β : Type} {P : α → Prop} {f : α → β → α} (hf : ∀ a b, P a → P (f a b)) (l : List β) {a : α}
    (h : P a) : P (l.foldl f a) :=
  List.foldlRecOn l f h fun a ha b _ => hf a b ha

theorem State.HoldsKept.scan {s : State} (h : s.HoldsKept) : s.scan.HoldsKept :=
  foldl_keeps (P := State.HoldsKept) (fun _ c ht => State.HoldsKept.examine ht c) _ h

theorem State.releaseUnits_waiting (s : State) (c : ChannelId) :
    (s.releaseUnits c).arbiter.waiting = s.arbiter.waiting := by
  unfold State.releaseUnits
  dsimp only
  (repeat' split) <;> simp

theorem State.HoldsKept.releaseUnits {s : State} (h : s.HoldsKept) (c : ChannelId) : (s.releaseUnits c).HoldsKept :=
  h.of_channels (by simp) (s.releaseUnits_waiting c) fun d => .inl (State.channel_congr (by simp) d)

theorem State.HoldsKept.finishRun {s : State} (h : s.HoldsKept) {c : ChannelId} (hr : (s.channel c).state = .run) :
    (s.finishRun c).HoldsKept := by
  unfold State.finishRun
  dsimp only
  split
  · rename_i hj _
    have ha := h.admits c
    rw [hr] at ha
    refine (h.setChannel ⟨fun _ _ => rfl, fun i hi => ?_, fun e => ?_⟩ ⟨fun _ => by simp [hj], fun g e => ?_⟩).releaseUnits c
    · exact absurd (ha.waiter i hi) (by simp)
    · exact absurd (ha.waiting e) (by simp)
    · simp at e
  · exact h

theorem State.runIsOver_state {s : State} {c : ChannelId} (h : s.runIsOver c = true) : (s.channel c).state = .run := by
  simp only [State.runIsOver, Bool.and_eq_true, beq_iff_eq] at h
  exact h.1

theorem State.HoldsKept.evaluate (n : Nat) {s : State} (h : s.HoldsKept) : (s.evaluate n).HoldsKept := by
  induction n generalizing s with
  | zero => exact h
  | succ n ih =>
    refine foldl_keeps (fun t c ht => ?_) _ h.scan
    split
    · rename_i hc
      exact ih (State.HoldsKept.finishRun ht (State.runIsOver_state hc))
    · exact ht

theorem State.HoldsKept.settleRun {s : State} (h : s.HoldsKept) (c : ChannelId) : (s.settleRun c).HoldsKept := by
  unfold State.settleRun
  split
  · rename_i hc
    exact (h.finishRun (State.runIsOver_state hc)).evaluate 5
  · exact h

theorem State.HoldsKept.join {s : State} (h : s.HoldsKept) {c : ChannelId} (hw : (s.channel c).state = .waitUnits)
    (n : Need) : (s.join c n).HoldsKept := by
  refine State.HoldsKept.evaluate 5 (h.setWaiting rfl rfl fun d hd => ?_)
  by_cases e : d = c
  · exact e ▸ hw
  · exact (h.admits d).waiting (by simpa [vector_get_set_ne _ _ (Ne.symm e)] using hd)

end Sys2Proof.Machine
end

