-- ==== Sys2Proof/Proofs/HoldsSteps.lean ====
section
/-! PROOF. The channel commands, the fetch, the ends of bursts and the window keep the holds, and so every step does (O57). -/

namespace Sys2Proof.Machine

-- One theorem at a time, as in the tests: all at once they pass the memory limit.
set_option Elab.async false

/-! ### The channel commands -/

/-- A channel that may hold a slot lets it go and its abort takes effect. -/
theorem State.HoldsKept.releaseAndAbort {s : State} (h : s.HoldsKept) {c : ChannelId}
    (hm : (s.channel c).state.mayHold = true) (hj : s.arbiter.waiting.get c = none) (k : AbortKind) :
    ((s.release c none).abortTakesEffect k c).HoldsKept := by
  obtain ⟨hk, hu⟩ := h.release hm hj none
  exact hk.abortTakesEffect hu k

/-- A channel that is not in WAIT_UNITS is not in the waiting set. -/
theorem State.HoldsKept.not_waiting {s : State} (h : s.HoldsKept) {c : ChannelId}
    (hs : (s.channel c).state ≠ .waitUnits) : s.arbiter.waiting.get c = none := by
  by_contra hn
  exact hs ((h.admits c).waiting (Option.isSome_iff_ne_none.2 hn))

theorem State.examine_channel_of_run {s : State} (h : s.HoldsKept) {c : ChannelId} (hr : (s.channel c).state = .run)
    (d : ChannelId) : (s.examine d).channel c = s.channel c := by
  unfold State.examine
  split
  · rename_i n hn
    split
    · have hne : c ≠ d := fun e => by
        have := (h.admits d).waiting (by simp [hn])
        simp [← e, hr] at this
      rw [State.channel_congr (s.grant_channels d n)]
      simp [hne]
    · rfl
  · rfl

theorem State.finishRun_channel_ne (s : State) {c d : ChannelId} (h : d ≠ c) :
    (s.finishRun c).channel d = s.channel d := by
  unfold State.finishRun
  dsimp only
  split
  · rw [State.channel_congr (t := State.releaseUnits c _) (State.releaseUnits_frame _ c).2.2.2.2.1]
    simp [h]
  · rfl

/-- An evaluation leaves a channel that is in RUN at its start as it was (R82, R85). -/
theorem State.evaluate_channel_of_run (n : Nat) {s : State} (h : s.HoldsKept) {c : ChannelId}
    (hr : (s.channel c).state = .run) : (s.evaluate n).channel c = s.channel c := by
  induction n generalizing s with
  | zero => rfl
  | succ n ih =>
    have hscan : s.scan.HoldsKept ∧ s.scan.channel c = s.channel c :=
      foldl_keeps (P := fun t : State => t.HoldsKept ∧ t.channel c = s.channel c)
        (fun t d ht => ⟨State.HoldsKept.examine ht.1 d,
          (State.examine_channel_of_run ht.1 (ht.2 ▸ hr) d).trans ht.2⟩) _ ⟨h, rfl⟩
    refine And.right (List.foldlRecOn (motive := fun t : State => t.HoldsKept ∧ t.channel c = s.channel c) _ _ hscan ?_)
    intro t ht d hd
    have hne : c ≠ d := fun e => by
      simp [List.mem_filter, ← e, h.not_waiting (c := c) (by simp [hr])] at hd
    split
    · rename_i ho
      have hf := ht.1.finishRun (State.runIsOver_state ho)
      have hc : (t.finishRun d).channel c = s.channel c := (t.finishRun_channel_ne hne).trans ht.2
      exact ⟨hf.evaluate n, (ih hf (hc ▸ hr)).trans hc⟩
    · exact ht

theorem State.releaseUnits_channel (s : State) (c d : ChannelId) : (s.releaseUnits c).channel d = s.channel d :=
  State.channel_congr (by simp) d

theorem State.stopUnits_channel (s : State) (c d : ChannelId) : (s.stopUnits c).channel d = s.channel d :=
  State.channel_congr (by simp) d

theorem State.HoldsKept.abortRun {s : State} (h : s.HoldsKept) {c : ChannelId} (hr : (s.channel c).state = .run)
    (k : AbortKind) : (s.abortRun k c).HoldsKept := by
  have hu := h.releaseUnits c
  have hr' : ((s.releaseUnits c).channel c).state = .run := by rwa [State.releaseUnits_channel]
  have he := hu.evaluate 5
  have hc : (((s.releaseUnits c).evaluate 5).channel c).state = .run := by
    rwa [State.evaluate_channel_of_run 5 hu hr']
  exact State.HoldsKept.releaseAndAbort he (by rw [hc]; rfl) (he.not_waiting (by rw [hc]; simp)) k

theorem State.HoldsKept.stopUnits {s : State} (h : s.HoldsKept) (c : ChannelId) : (s.stopUnits c).HoldsKept :=
  h.frame (by simp) (by simp) (by simp)

theorem State.HoldsKept.unitStopped {s : State} (h : s.HoldsKept) (c : ChannelId) : (s.unitStopped c).HoldsKept := by
  unfold State.unitStopped
  split
  · split
    · rename_i hc
      exact h.abortRun hc.1 _
    · exact h
  · exact h

theorem State.HoldsKept.setAbortPending {s : State} (h : s.HoldsKept) (k : AbortKind) (c : ChannelId) :
    (s.setAbortPending k c).HoldsKept :=
  h.setChannel_same ⟨rfl, rfl, rfl⟩

theorem State.waitedSlot_spec {s : State} {c : ChannelId} {i : SlotId} (h : s.waitedSlot c = some i) :
    c ∈ (s.slot i).waiters := by
  simpa using List.find?_some h

theorem State.waitedSlot_eq_none {s : State} {c : ChannelId} (h : s.waitedSlot c = none) (i : SlotId) :
    c ∉ (s.slot i).waiters := by
  simpa using finRange_find_none h i

/-- A channel in WAIT_SLOT is named nowhere once it is out of its wait list (R19). -/
theorem State.HoldsKept.withdrawWaiter {s : State} (h : s.HoldsKept) {c : ChannelId}
    (hs : (s.channel c).state = .waitSlot) : (s.withdrawWaiter c).HoldsKept ∧ (s.withdrawWaiter c).Unattached c := by
  have hh : ∀ i, (s.slot i).holder ≠ some c := fun i e => by
    have hm := (h.admits c).holder i e
    simp [hs, ChannelState.mayHold] at hm
  have hj := h.not_waiting (c := c) (by simp [hs])
  unfold State.withdrawWaiter
  split
  · rename_i hn
    exact ⟨h, hh, State.waitedSlot_eq_none hn, hj⟩
  · rename_i i hi
    have hci := State.waitedSlot_spec hi
    constructor
    · refine h.setSlot ⟨(h.table.waitersOnce i).filter _, fun d hd => ?_, fun d hd => ?_, h.table.freeUnheld i,
        fun e => ?_⟩
      · have hdi := (List.mem_filter.1 hd).1
        exact ⟨(h.admits d).waiter i hdi, fun j hj e => hj (h.table.waitersApart j i d e hdi)⟩
      · exact ⟨(h.admits d).holder i hd, fun j hj e => hj (h.table.holdsOne j i d e hd)⟩
      · simpa [(h.table.unheldQuiet i e).1] using (h.table.unheldQuiet i e).2
    · refine ⟨fun j e => ?_, fun j e => ?_, hj⟩
      · by_cases hji : j = i
        · exact hh i (by simpa [hji] using e)
        · exact hh j (by simpa [hji] using e)
      · by_cases hji : j = i
        · simp [hji] at e
        · exact hji (h.table.waitersApart j i c (by simpa [hji] using e) hci)

theorem State.HoldsKept.disposeOf {s : State} (h : s.HoldsKept) (k : AbortKind) (c : ChannelId) :
    (s.disposeOf k c).HoldsKept := by
  have hclear (hu : s.Unattached c) : (s.clearChannel c).HoldsKept := h.abortTakesEffect hu .reset
  unfold State.disposeOf
  split
  case h_1 e =>
    cases k
    · exact h
    · exact hclear (h.unattached e)
  case h_2 e =>
    cases k
    · exact h
    · exact hclear (h.unattached e)
  case h_3 e => exact h.abortTakesEffect (h.unattached e) k
  case h_4 e =>
    split
    · exact h.setAbortPending k c
    · have hw : (s.withdraw (.ch c)).HoldsKept := h.frame (by simp) (by simp) (by simp)
      exact hw.abortTakesEffect (hw.unattached e) k
  case h_5 e =>
    obtain ⟨hk, hu⟩ := h.withdrawWaiter e
    exact hk.abortTakesEffect hu k
  case h_6 e =>
    exact (h.leaveWaitingSet c).releaseAndAbort (by simp [e, ChannelState.mayHold]) (s.leaveWaitingSet_waiting c) k
  case h_7 e =>
    have hs := h.stopUnits c
    dsimp only
    split
    · exact hs.abortRun (by rwa [State.stopUnits_channel]) k
    · exact hs.setAbortPending k c
  case h_8 e =>
    split
    · exact h.setAbortPending k c
    · have hw : (s.withdrawRecord c).HoldsKept := h.frame (by simp) (by simp) (by simp)
      exact hw.releaseAndAbort (by simp [e, ChannelState.mayHold]) (hw.not_waiting (by simp [e])) k

theorem State.HoldsKept.takeAbort {s : State} (h : s.HoldsKept) (c : ChannelId) : (s.takeAbort c).HoldsKept := by
  unfold State.takeAbort
  split
  · exact h
  · exact h.disposeOf .abort c

theorem State.HoldsKept.takeReset {s : State} (h : s.HoldsKept) (c : ChannelId) : (s.takeReset c).HoldsKept := by
  unfold State.takeReset
  split
  · exact h.setAbortPending .reset c
  · exact h.disposeOf .reset c

theorem State.HoldsKept.setHaltOnError {s : State} (h : s.HoldsKept) (c : ChannelId) (b : Bool) :
    (s.setHaltOnError c b).HoldsKept := h.setChannel_same ⟨rfl, rfl, rfl⟩

theorem State.HoldsKept.beginFetch {s : State} (h : s.HoldsKept) {c : ChannelId} (hu : s.Unattached c) :
    (s.beginFetch c).HoldsKept :=
  h.rest hu rfl rfl (fun d hd => by simp [hd]) (by simp [Channel.Resting])

theorem State.HoldsKept.fetchIfPosted {s : State} (h : s.HoldsKept) (c : ChannelId) : (s.fetchIfPosted c).HoldsKept := by
  unfold State.fetchIfPosted
  split
  · rename_i hc
    exact h.beginFetch (h.unattached hc.1)
  · exact h

theorem State.HoldsKept.takeStart {s : State} (h : s.HoldsKept) (c : ChannelId) : (s.takeStart c).HoldsKept := by
  have key (hu : s.Unattached c) :
      ((s.setChannel c { s.channel c with state := .idle, haltCause := .none }).fetchIfPosted c).HoldsKept :=
    State.HoldsKept.fetchIfPosted (h.setChannel (hu.admits _) (Channel.Resting.hasJob (.inr (.inl rfl)))) c
  unfold State.takeStart
  split
  case h_1 e => exact key (h.unattached e)
  case h_2 e => exact key (h.unattached e)
  case h_3 => exact h

theorem State.HoldsKept.takeStop {s : State} (h : s.HoldsKept) (c : ChannelId) : (s.takeStop c).HoldsKept := by
  have hbusy : (if (s.channel c).abortPending = some .reset then s
      else s.setChannel c { s.channel c with stopRequest := true }).HoldsKept := by
    split
    · exact h
    · exact h.setChannel_same ⟨rfl, rfl, rfl⟩
  unfold State.takeStop
  dsimp only
  split
  case h_1 e =>
    have hu := h.unattached e
    exact h.setChannel (hu.admits _) (Channel.Resting.hasJob (.inl rfl))
  case h_2 => exact h
  case h_3 => exact h
  all_goals exact hbusy

theorem State.HoldsKept.takeChannelControl {s : State} (h : s.HoldsKept) (c : ChannelId) (v : Word) :
    (s.takeChannelControl c v).HoldsKept := by
  have hb := h.setHaltOnError c (v.getLsbD 8)
  unfold State.takeChannelControl
  dsimp only
  split
  · exact hb.takeStart c
  · exact hb.takeStop c
  · exact hb.takeAbort c
  · exact hb.takeReset c
  · exact hb

theorem State.HoldsKept.refuse {s : State} (h : s.HoldsKept) (o : Nat) (w : AccessReason) : (s.refuse o w).HoldsKept :=
  h.frame (by simp) (by simp) (by simp)

theorem State.HoldsKept.takeJobRingBase {s : State} (h : s.HoldsKept) (c : ChannelId) (v : Word) :
    (s.takeJobRingBase c v).HoldsKept := by
  unfold State.takeJobRingBase
  split
  · exact h.setChannel_same ⟨rfl, rfl, rfl⟩
  · exact h.refuse ..

theorem State.HoldsKept.takeJobRingSize {s : State} (h : s.HoldsKept) (c : ChannelId) (v : Word) :
    (s.takeJobRingSize c v).HoldsKept := by
  unfold State.takeJobRingSize
  split
  · exact h.setChannel_same ⟨rfl, rfl, rfl⟩
  · exact h.refuse ..

theorem State.HoldsKept.takePost {s : State} (h : s.HoldsKept) (c : ChannelId) (v : Word) :
    (s.takePost c v).HoldsKept := by
  unfold State.takePost
  dsimp only
  split
  · refine State.HoldsKept.fetchIfPosted (h.setChannel_same ?_) c
    exact ⟨rfl, rfl, rfl⟩
  · exact h.refuse ..

/-! ### The fetch and the retirement -/

/-- A channel in FETCH comes to a stage with its job at hand. -/
theorem State.HoldsKept.setStage {s : State} (h : s.HoldsKept) {c : ChannelId} (hj : (s.channel c).job.isSome)
    (g : FetchStage) : (s.setStage c g).HoldsKept :=
  h.setChannel (h.admits c) ⟨fun _ => hj, fun _ _ _ _ => hj⟩

theorem State.HoldsKept.want {s : State} (h : s.HoldsKept) (r : Requester) (q : BurstRequest) : (s.want r q).HoldsKept :=
  h.frame (by simp) (by simp) (by simp)

/-- A channel in FETCH with its job at hand ends it before its run. -/
theorem State.HoldsKept.endJob {s : State} (h : s.HoldsKept) {c : ChannelId} (hs : (s.channel c).state = .fetch)
    (hj : (s.channel c).job.isSome) (st : Status) (f : Option FaultDetail) : (s.endJob c st f).HoldsKept :=
  h.setChannel ((h.unattached hs).admits _)
    ⟨fun _ => hj, fun _ e => by simp at e⟩

theorem State.HoldsKept.setJob {s : State} (h : s.HoldsKept) (c : ChannelId) (j : Job) :
    (s.setChannel c { s.channel c with job := some j }).HoldsKept :=
  h.setChannel (h.admits c) ⟨fun _ => rfl, fun _ _ _ _ => rfl⟩

section
variable {s : State} {c : ChannelId}

theorem State.HoldsKept.completeFetch (h : s.HoldsKept) (hs : (s.channel c).state = .fetch)
    (hj : (s.channel c).job.isSome) (j : Job) : (s.completeFetch c j).HoldsKept := by
  unfold State.completeFetch
  split
  · split
    · exact h.setStage hj _
    · split
      · exact h.setChannel ((h.unattached hs).admits _)
          ⟨fun _ => hj, fun _ e => by simp at e⟩
      · exact h
  · exact h.endJob hs hj _ _

theorem State.HoldsKept.fetchDest (h : s.HoldsKept) (hs : (s.channel c).state = .fetch)
    (hj : (s.channel c).job.isSome) (j : Job) : (s.fetchDest c j).HoldsKept := by
  unfold State.fetchDest
  split
  · exact h.completeFetch hs hj j
  · exact (h.setStage hj _).want ..

theorem State.HoldsKept.entryRead (h : s.HoldsKept) (hs : (s.channel c).state = .fetch) (e : JobEntry) :
    (s.entryRead c e).HoldsKept := by
  have hjob := h.setJob c { entry := e, source := [], dest := [] }
  unfold State.entryRead
  dsimp only
  split
  · exact hjob.endJob (by simpa using hs) (by simp) _ _
  split
  · exact hjob.fetchDest (by simpa using hs) (by simp) _
  · exact (hjob.setStage (by simp) _).want ..

theorem State.HoldsKept.sourceTableRead (h : s.HoldsKept) (hs : (s.channel c).state = .fetch)
    (hj : (s.channel c).job.isSome) (j : Job) (got : List Byte) : (s.sourceTableRead c j got).HoldsKept := by
  unfold State.sourceTableRead
  dsimp only
  split
  · exact (h.setStage hj _).want ..
  · exact (h.setJob c _).fetchDest (by simpa using hs) (by simp) _

theorem State.HoldsKept.destTableRead (h : s.HoldsKept) (hs : (s.channel c).state = .fetch)
    (hj : (s.channel c).job.isSome) (j : Job) (got : List Byte) : (s.destTableRead c j got).HoldsKept := by
  unfold State.destTableRead
  dsimp only
  split
  · exact (h.setStage hj _).want ..
  · exact (h.setJob c _).completeFetch (by simpa using hs) (by simp) _

theorem State.HoldsKept.fetchReadEnds (h : s.HoldsKept) (c : ChannelId) (bytes : List Byte) :
    (s.fetchReadEnds c bytes).HoldsKept := by
  unfold State.fetchReadEnds
  split
  case isFalse => exact h
  case isTrue hs =>
    split
    · exact h.abortTakesEffect (h.unattached hs) _
    · split
      case h_1 => exact h.entryRead hs _
      case h_2 hj => exact h.sourceTableRead hs (by simp [hj]) _ _
      case h_3 hj => exact h.destTableRead hs (by simp [hj]) _ _
      case h_4 => exact h

theorem State.HoldsKept.fetchReadFaults (h : s.HoldsKept) (c : ChannelId) (why : Why) :
    (s.fetchReadFaults c why).HoldsKept := by
  unfold State.fetchReadFaults
  split
  case isFalse => exact h
  case isTrue hs =>
    have hu := h.unattached hs
    split
    · exact h.abortTakesEffect hu _
    · split
      case h_1 =>
        exact h.rest hu rfl rfl (fun d hd => by simp [hd]) (by simp [Channel.Resting])
      case h_2 e => exact h.endJob hs ((h.hasJob c).inFetch _ hs e rfl) _ _
      case h_3 e => exact h.endJob hs ((h.hasJob c).inFetch _ hs e rfl) _ _
      case h_4 => exact h

theorem State.HoldsKept.retire (h : s.HoldsKept) (hs : (s.channel c).state = .retire) : (s.retire c).HoldsKept := by
  obtain ⟨hk, hu⟩ :=
    h.release (c := c) (by simp [hs, ChannelState.mayHold]) (h.not_waiting (by simp [hs])) (s.channel c).commitOf
  unfold State.retire
  dsimp only
  refine hk.rest hu (by simp) (by simp) (fun d hd => ?_) (State.chooseNext_rests ..)
  rw [State.chooseNext_channel_ne _ _ hd]
  simp [hd]

end

/-! ### The writer, the resets, the bursts and the window -/

theorem State.HoldsKept.takeLeaving {s : State} (h : s.HoldsKept) (c : ChannelId) : (s.takeLeaving c).HoldsKept := by
  unfold State.takeLeaving
  split
  · exact h
  · rename_i q rest _
    have hset : (s.setChannel c { s.channel c with leavings := rest }).HoldsKept := h.setChannel_same ⟨rfl, rfl, rfl⟩
    exact hset.frame (by simp) (by simp) (by simp)

theorem State.takeLeavings_channel (s : State) (c : ChannelId) :
    s.takeLeavings.channel c = { s.channel c with leavings := [] } := by
  simp [State.takeLeavings, State.channel, Vector.get_eq_getElem]

theorem State.HoldsKept.takeHead {s : State} (h : s.HoldsKept) (v : Word) : (s.takeHead v).HoldsKept := by
  have hl : s.takeLeavings.HoldsKept := h.same (by simp) (by simp) fun d => by
    rw [State.takeLeavings_channel]
    exact ⟨rfl, rfl, rfl⟩
  exact hl.frame (by simp [State.takeHead]) (by simp [State.takeHead]) (by simp [State.takeHead])

theorem State.HoldsKept.recordWriteEnds {s : State} (h : s.HoldsKept) : s.recordWriteEnds.HoldsKept := by
  unfold State.recordWriteEnds
  split
  · exact h
  · rename_i r _
    have h1 : (State.evaluateLevel { s with writer := { s.writer with tail := s.writer.tail + 1 } }).HoldsKept :=
      h.frame (by simp) (by simp) (by simp)
    have h2 := h1.setChannel_same (c := r.channel) (x := { State.channel _ r.channel with recordWritten := true })
      ⟨rfl, rfl, rfl⟩
    exact h2.frame (by simp) (by simp) (by simp)

theorem State.takeResetValues_keepsHolds (s : State) (n : Nat) : (s.takeResetValues n).HoldsKept := by
  have hr := s.takeResetValues_spec n
  have hs (i : SlotId) : (s.takeResetValues n).slot i = Slot.reset := hr.slots i
  have hc (c : ChannelId) : (s.takeResetValues n).channel c = Channel.reset := hr.channels c
  refine (State.holdsKept_iff _).2 ⟨⟨?_, ?_, ?_, ?_, ?_⟩, fun c => ⟨⟨?_, ?_, ?_⟩, ?_⟩⟩ <;>
    simp only [hs, hc, hr.waiting]
  case refine_9 => exact Channel.Resting.hasJob (.inl rfl)
  all_goals simp [Slot.reset]

theorem State.HoldsKept.takeDeviceReset {s : State} (h : s.HoldsKept) : s.takeDeviceReset.HoldsKept := by
  unfold State.takeDeviceReset
  split
  · exact State.takeResetValues_keepsHolds ..
  · exact h.frame rfl rfl rfl

theorem State.assertPin_keepsHolds (s : State) : s.assertPin.HoldsKept :=
  (s.abandonBurst.takeResetValues_keepsHolds 0).frame rfl rfl rfl

section
variable {s : State}

theorem State.HoldsKept.setPack (h : s.HoldsKept) (p : PackId) (u : PackUnit) : (s.setPack p u).HoldsKept :=
  h.frame rfl rfl rfl

theorem State.HoldsKept.setCheck (h : s.HoldsKept) (k : CheckId) (u : CheckUnit) : (s.setCheck k u).HoldsKept :=
  h.frame rfl rfl rfl

theorem State.HoldsKept.drivePack (h : s.HoldsKept) (p : PackId) : (s.drivePack p).HoldsKept :=
  h.frame (by simp) (by simp) (by simp)

theorem State.HoldsKept.driveCheck (h : s.HoldsKept) (k : CheckId) : (s.driveCheck k).HoldsKept :=
  h.frame (by simp) (by simp) (by simp)

theorem State.HoldsKept.packTransferEnds (h : s.HoldsKept) (p : PackId) (q : BurstRequest) (bytes : List Byte) :
    (s.packTransferEnds p q bytes).HoldsKept := by
  unfold State.packTransferEnds
  split
  · exact h
  dsimp only
  split
  · exact (h.setPack ..).unitStopped _
  split
  · split
    · exact (h.setPack ..).settleRun _
    · exact ((h.setPack ..).drivePack p).settleRun _
  · exact ((h.setPack ..).drivePack p).settleRun _

theorem State.HoldsKept.packTransferFaults (h : s.HoldsKept) (p : PackId) (q : BurstRequest) (why : Why) :
    (s.packTransferFaults p q why).HoldsKept := by
  unfold State.packTransferFaults
  split
  · exact h
  dsimp only
  split
  · exact (h.setPack ..).unitStopped _
  split <;> exact (h.setPack ..).settleRun _

theorem State.HoldsKept.checkReadEnds (h : s.HoldsKept) (k : CheckId) (bytes : List Byte) :
    (s.checkReadEnds k bytes).HoldsKept := by
  unfold State.checkReadEnds
  split
  · exact h
  dsimp only
  split
  · exact (h.setCheck ..).unitStopped _
  · exact ((h.setCheck ..).driveCheck k).settleRun _

theorem State.HoldsKept.checkReadFaults (h : s.HoldsKept) (k : CheckId) (why : Why) :
    (s.checkReadFaults k why).HoldsKept := by
  unfold State.checkReadFaults
  split
  · exact h
  dsimp only
  split
  · exact (h.setCheck ..).unitStopped _
  · exact (h.setCheck ..).settleRun _

theorem State.HoldsKept.tellReady (h : s.HoldsKept) (b : Burst) (bytes : List Byte) : (s.tellReady b bytes).HoldsKept := by
  unfold State.tellReady
  split
  · exact h.fetchReadEnds ..
  · exact h.packTransferEnds ..
  · exact h.checkReadEnds ..
  · exact h.recordWriteEnds

theorem State.HoldsKept.tellFault (h : s.HoldsKept) (b : Burst) (why : Why) : (s.tellFault b why).HoldsKept := by
  unfold State.tellFault
  split
  · exact h.fetchReadFaults ..
  · exact h.packTransferFaults ..
  · exact h.checkReadFaults ..
  · exact h.frame (by simp) (by simp) (by simp)

theorem State.HoldsKept.releaseBus (h : s.HoldsKept) : s.releaseBus.HoldsKept := h.frame rfl rfl rfl

theorem State.HoldsKept.recordFault (h : s.HoldsKept) (b : Burst) (why : Why) : (s.recordFault b why).HoldsKept :=
  h.frame rfl rfl rfl

theorem State.HoldsKept.withPending (h : s.HoldsKept) (q : List Instr) : (s.withPending q).HoldsKept :=
  h.frame rfl rfl rfl

theorem State.HoldsKept.burstReady (h : s.HoldsKept) (b : Burst) (bytes : List Byte) :
    (s.burstReady b bytes).HoldsKept := by
  unfold State.burstReady
  split
  · exact State.takeResetValues_keepsHolds ..
  · exact h.releaseBus.tellReady ..

theorem State.HoldsKept.burstFaults (h : s.HoldsKept) (b : Burst) (why : Why) : (s.burstFaults b why).HoldsKept := by
  have hm : (if b.request.write then s.memoryMayTake (b.request.cells b.phasesEnded) else s).HoldsKept := by
    split
    · exact h.frame rfl rfl rfl
    · exact h
  unfold State.burstFaults
  dsimp only
  generalize (if b.request.write then s.memoryMayTake (b.request.cells b.phasesEnded) else s) = t at hm ⊢
  split
  · exact State.takeResetValues_keepsHolds ..
  · exact (hm.releaseBus.recordFault b why).tellFault ..

theorem State.HoldsKept.phaseReady (h : s.HoldsKept) (data : Word) : (s.phaseReady data).HoldsKept := by
  unfold State.phaseReady
  split
  · exact h
  · rename_i b _
    have hm : (if b.request.write then s.memoryTakes (b.request.cells b.phasesEnded) else s).HoldsKept := by
      split
      · exact h.frame rfl rfl rfl
      · exact h
    dsimp only
    generalize (if b.request.write then s.memoryTakes (b.request.cells b.phasesEnded) else s) = t at hm ⊢
    split
    · exact hm.frame rfl rfl rfl
    · exact hm.burstReady ..

theorem State.HoldsKept.phaseError (h : s.HoldsKept) : s.phaseError.HoldsKept := by
  unfold State.phaseError
  split
  · exact h
  · exact h.burstFaults ..

theorem State.HoldsKept.phaseTimeout (h : s.HoldsKept) : s.phaseTimeout.HoldsKept := by
  unfold State.phaseTimeout
  split
  · exact h
  · split
    · exact h
    · exact h.burstFaults ..

theorem State.HoldsKept.clockPeriod (h : s.HoldsKept) : s.clockPeriod.HoldsKept := by
  unfold State.clockPeriod
  split
  · exact h
  split
  · exact h.frame rfl rfl rfl
  split
  · exact h.frame rfl rfl rfl
  · exact h.burstFaults ..

theorem State.HoldsKept.ownerTakes (h : s.HoldsKept) (r : Reg) (v : Word) : (s.ownerTakes r v).HoldsKept := by
  unfold State.ownerTakes
  split
  case h_1 =>
    unfold State.takeGlobalControl
    split
    · exact h.takeDeviceReset
    · exact h
  case h_8 => exact h.takeHead v
  case h_11 => exact h.takeStreamCommand v
  case h_12 => exact h.takeChannelControl ..
  case h_13 => exact h.takeJobRingBase ..
  case h_14 => exact h.takeJobRingSize ..
  case h_15 => exact h.takePost ..
  all_goals exact h.frame (by simp) (by simp) (by simp)

theorem State.HoldsKept.windowWrite (h : s.HoldsKept) (a : Word) (lanes : BitVec 4) (v : Word) :
    (s.windowWrite a lanes v).HoldsKept := by
  unfold State.windowWrite
  dsimp only
  split
  · exact h.refuse ..
  split
  · exact h.refuse ..
  split
  · exact h.refuse ..
  · exact h.ownerTakes ..

/-- A command's effect that keeps the holds, taken only in a live part. -/
theorem State.HoldsKept.ifTaken {p : Prop} [Decidable p] {s t u : State} (h : s.HoldsKept)
    (ht : p → t.HoldsKept) (e : Host.Outcome.next (φ := Fault) (ρ := Refusal) (if p then t else s) = .next u) :
    u.HoldsKept := by
  cases e
  split
  · exact ht ‹_›
  · exact h

/-- Every command keeps the holds. -/
theorem State.HoldsKept.exec (h : s.HoldsKept) {c : Instr} {t : State} (e : exec c s = .next t) : t.HoldsKept := by
  have frame {u : State} (hs : u.slots = s.slots) (hc : u.channels = s.channels) (ha : u.arbiter = s.arbiter) :
      u.HoldsKept := h.frame hs hc ha
  cases c
  case openStream => exact h.ifTaken (fun _ => h.takeOpen) e
  case closeStream => exact h.ifTaken (fun _ => h.takeClose) e
  case rewindStream => exact h.ifTaken (fun _ => h.takeRewind) e
  case inspectSlot => exact h.ifTaken (fun _ => h.takeInspect) e
  case unknownStreamCommand v => exact h.ifTaken (fun _ => h.takeStreamCommand v) e
  case startChannel c b => exact h.ifTaken (fun _ => (h.setHaltOnError c b).takeStart c) e
  case stopChannel c b => exact h.ifTaken (fun _ => (h.setHaltOnError c b).takeStop c) e
  case abortChannel c b => exact h.ifTaken (fun _ => (h.setHaltOnError c b).takeAbort c) e
  case resetChannel c b => exact h.ifTaken (fun _ => (h.setHaltOnError c b).takeReset c) e
  case haltOnError c v => exact h.ifTaken (fun _ => h.takeChannelControl c v) e
  case jobRingBaseWrite c v => exact h.ifTaken (fun _ => h.takeJobRingBase c v) e
  case jobRingSizeWrite c v => exact h.ifTaken (fun _ => h.takeJobRingSize c v) e
  case postWrite c v => exact h.ifTaken (fun _ => h.takePost c v) e
  case headWrite v => exact h.ifTaken (fun _ => h.takeHead v) e
  case deviceReset => exact h.ifTaken (fun _ => h.takeDeviceReset) e
  case registerWrite a l v => exact h.ifTaken (fun _ => h.windowWrite a l v) e
  case resetPinAssert => cases e; exact s.assertPin_keepsHolds
  case resetPinRelease => cases e; exact frame rfl rfl rfl
  case dataPhaseReady d => cases e; exact h.phaseReady d
  case burstEndsWithReady d => cases e; exact h.phaseReady d
  case burstEndsWithError => cases e; exact h.phaseError
  case burstEndsWithTimeout => cases e; exact h.phaseTimeout
  case groupLeave c => exact h.ifTaken (fun _ => h.takeLeaving c) e
  case holdRequest c =>
    refine h.ifTaken (fun hc => ?_) e
    split
    · rename_i j hj
      exact h.takeHoldRequest hc.2.1 (by simp [hj]) _
    · exact h
  case unitJoin c =>
    refine h.ifTaken (fun hc => ?_) e
    split
    · exact h.join hc.2.1 _
    · exact h
  case retirement c => exact h.ifTaken (fun hc => h.retire hc.2.1) e
  case recordWithdrawal c =>
    refine h.ifTaken (fun hc => ?_) e
    split
    · have hw : (s.withdrawRecord c).HoldsKept := frame (by simp) (by simp) (by simp)
      exact hw.releaseAndAbort (by simp [hc.2.1, ChannelState.mayHold]) (hw.not_waiting (by simp [hc.2.1])) _
    · exact h
  all_goals exact h.ifTaken (fun _ => frame (by simp) (by simp) (by simp)) e

end

/-- Settles O57: the holds split into the table's part and each channel's, and each operation keeps both. -/
theorem everyStepKeepsTheHolds : Obligations.EveryStepKeepsTheHolds := by
  intro s t h e
  unfold step at e
  split at e
  · cases e
    exact h.clockPeriod
  · exact (h.withPending _).exec e

end Sys2Proof.Machine
end

