-- ==== Sys2Proof/Proofs/StreamCommands.lean ====
section
/-! PROOF. The stream commands (R7 to R13, R180) and the reset state: O9 to O12, O4 and O52. -/

namespace Sys2Proof.Machine

-- One theorem at a time, as in the tests: all at once they pass the memory limit.
set_option Elab.async false

/-! ### Commands in a live part -/

/-- A command that is taken, as its condition holds. -/
theorem next_taken {p : Prop} [Decidable p] (h : p) {s t : State} :
    Host.Outcome.next (φ := Fault) (ρ := Refusal) (if p then t else s) = .next t := by rw [if_pos h]

/-! ### OPEN (R8, R9) -/

theorem openArgument_none {w : Word}
    (h : ¬ ((Op.ofByte (w.extractLsb' 0 8)).isSome ∧ (CodeKind.ofByte (w.extractLsb' 8 8)).isSome ∧
      (Tap.ofByte (w.extractLsb' 16 8)).isSome ∧ ¬ (Op.ofByte (w.extractLsb' 0 8) = some .check ∧
        (CodeKind.ofByte (w.extractLsb' 8 8) = some .none ∨ Tap.ofByte (w.extractLsb' 16 8) = some .outTap)))) :
    openArgument w = none := by
  unfold openArgument
  split
  · rename_i op kind tap ho hk ht
    simp only [ho, hk, ht, Option.isSome_some, Option.some.injEq, true_and, not_not] at h
    rw [if_pos h]
  · rfl

theorem openArgument_some {w : Word} {op : Op} {kind : CodeKind} {tap : Tap}
    (ho : Op.ofByte (w.extractLsb' 0 8) = some op) (hk : CodeKind.ofByte (w.extractLsb' 8 8) = some kind)
    (ht : Tap.ofByte (w.extractLsb' 16 8) = some tap) (hg : ¬ (op = .check ∧ (kind = .none ∨ tap = .outTap))) :
    openArgument w = some (op, kind, tap) := by
  simp only [openArgument, ho, hk, ht, if_neg hg]

theorem State.lowestFree_none {s : State} (h : ∀ i : SlotId, (s.slots.get i).ctx.state ≠ .free) :
    s.lowestFree = none := by
  simp only [State.lowestFree, List.find?_eq_none, List.mem_finRange, true_imp_iff]
  exact fun i => by simpa [State.slot] using h i

theorem State.lowestFree_some {s : State} {i : SlotId} (hi : (s.slots.get i).ctx.state = .free)
    (hl : ∀ j : SlotId, j < i → (s.slots.get j).ctx.state ≠ .free) : s.lowestFree = some i :=
  finRange_find _ i (by simpa [State.slot] using hi) fun j hj => by simpa [State.slot] using hl j hj

/-- Settles O9, by the argument's checks and the search for a FREE slot. -/
theorem openCommand : Obligations.OpenCommand := by
  intro s hlive
  refine ⟨fun hbad => ?_, fun ⟨ho, hk, ht, hg⟩ hfull => ?_, fun o k p i ⟨_, _, _, hg⟩ ho hk ht hi hl => ?_⟩
  · have e : s.takeOpen = Spec.completed .badArgs s := by
      simp only [State.takeOpen, openArgument_none hbad]
      rfl
    exact (next_taken hlive).trans (congrArg _ e)
  · obtain ⟨o, ho⟩ := Option.isSome_iff_exists.1 ho
    obtain ⟨k, hk⟩ := Option.isSome_iff_exists.1 hk
    obtain ⟨p, ht⟩ := Option.isSome_iff_exists.1 ht
    have ha := openArgument_some ho hk ht (by simpa [ho, hk, ht] using hg)
    have e : s.takeOpen = Spec.completed .noSlot s := by
      simp only [State.takeOpen, ha, State.lowestFree_none hfull]
      rfl
    exact (next_taken hlive).trans (congrArg _ e)
  · have ha := openArgument_some ho hk ht (by simpa [ho, hk, ht] using hg)
    refine (next_taken hlive).trans (congrArg _ ?_)
    simp only [State.takeOpen, ha, State.lowestFree_some hi hl, Slot.opened, Context.initial_eq]
    rfl

/-! ### CLOSE and REWIND (R10 to R12) -/

theorem State.takeClose_invalid {s : State} (h : ∀ i, ¬ Spec.handleValid s (s.argument.extractLsb' 0 16) i) :
    s.takeClose = Spec.completed .badHandle s := by
  simp only [State.takeClose, handleArgument, State.validHandle_none h]
  rfl

theorem State.takeClose_unheld {s : State} {i : SlotId} (hv : Spec.handleValid s (s.argument.extractLsb' 0 16) i)
    (hh : (s.slots.get i).holder = none) :
    s.takeClose = Spec.completed .ok { s with slots := s.slots.set i (Spec.freed (s.slots.get i)) } := by
  have hh' : (s.slot i).holder = none := hh
  simp only [State.takeClose, handleArgument, State.validHandle_some hv, if_pos hh', Slot.freed_eq]
  rfl

theorem State.takeClose_held {s : State} {i : SlotId} (hv : Spec.handleValid s (s.argument.extractLsb' 0 16) i)
    (hh : (s.slots.get i).holder ≠ none) :
    s.takeClose = Spec.completed .deferred { s with slots := s.slots.set i { s.slots.get i with closing := true } } := by
  have hh' : (s.slot i).holder ≠ none := hh
  simp only [State.takeClose, handleArgument, State.validHandle_some hv, if_neg hh']
  rfl

theorem State.takeRewind_invalid {s : State} (h : ∀ i, ¬ Spec.handleValid s (s.argument.extractLsb' 0 16) i) :
    s.takeRewind = Spec.completed .badHandle s := by
  simp only [State.takeRewind, handleArgument, State.validHandle_none h]
  rfl

theorem State.takeRewind_held {s : State} {i : SlotId} (hv : Spec.handleValid s (s.argument.extractLsb' 0 16) i)
    (hh : (s.slots.get i).holder ≠ none) : s.takeRewind = Spec.completed .busy s := by
  have hh' : (s.slot i).holder ≠ none := hh
  simp only [State.takeRewind, handleArgument, State.validHandle_some hv, if_neg hh']
  rfl

theorem State.takeRewind_unheld {s : State} {i : SlotId} (hv : Spec.handleValid s (s.argument.extractLsb' 0 16) i)
    (hh : (s.slots.get i).holder = none) :
    s.takeRewind = Spec.completed .ok
      { s with
        slots := s.slots.set i
          { s.slots.get i with ctx := Spec.initial .ready (s.slots.get i).op (s.slots.get i).kind } } := by
  have hh' : (s.slot i).holder = none := hh
  simp only [State.takeRewind, handleArgument, State.validHandle_some hv, if_pos hh', Context.initial_eq]
  rfl

/-- A handle names the slot of its number alone (R182). -/
theorem Spec.handleValid.slot_eq {s t : State} {h : Half} {i j : SlotId} (hi : Spec.handleValid s h i)
    (hj : Spec.handleValid t h j) : j = i := Fin.ext (hj.1.symm.trans hi.1)

/-- A slot that has become FREE or closing leaves its handle naming no slot (R6). -/
theorem Spec.handleInvalid_after {s t : State} {h : Half} {i : SlotId} (hv : Spec.handleValid s h i)
    (ht : (t.slots.get i).ctx.state = .free ∨ (t.slots.get i).closing = true) (j : SlotId) :
    ¬ Spec.handleValid t h j := by
  intro hj
  obtain rfl := hv.slot_eq hj
  obtain ⟨-, hf, hc, -⟩ := hj
  rcases ht with e | e
  · exact hf e
  · simp [hc] at e

/-- Settles O10, by the handle's validity and the slot's holder. -/
theorem closeAndRewindCommands : Obligations.CloseAndRewindCommands := by
  refine ⟨fun s hlive => ⟨fun h => ?_, fun i hv => ⟨fun hh => ?_, fun hh => ?_⟩⟩,
    fun s hlive => ⟨fun h => ?_, fun i hv => ⟨fun hh => ?_, fun hh => ?_⟩⟩, fun s hlive => ⟨_, next_taken hlive, ?_⟩⟩
  · exact (next_taken hlive).trans (congrArg _ (State.takeClose_invalid h))
  · exact (next_taken hlive).trans (congrArg _ (State.takeClose_unheld hv hh))
  · exact (next_taken hlive).trans (congrArg _ (State.takeClose_held hv hh))
  · exact (next_taken hlive).trans (congrArg _ (State.takeRewind_invalid h))
  · exact (next_taken hlive).trans (congrArg _ (State.takeRewind_held hv hh))
  · exact (next_taken hlive).trans (congrArg _ (State.takeRewind_unheld hv hh))
  · by_cases hv : ∃ i, Spec.handleValid s (s.argument.extractLsb' 0 16) i
    · obtain ⟨i, hv⟩ := hv
      refine Spec.handleInvalid_after hv ?_
      by_cases hh : (s.slots.get i).holder = none
      · rw [State.takeClose_unheld hv hh]
        exact .inl (by simp [Spec.completed, vector_get_set, Spec.freed, Spec.initial])
      · rw [State.takeClose_held hv hh]
        exact .inr (by simp [Spec.completed, vector_get_set])
    · have hn := not_exists.1 hv
      rw [State.takeClose_invalid hn]
      exact hn

/-! ### A value that names no command (R7) -/

theorem State.takeStreamCommand_unknown {v : Word} (s : State) (h1 : v ≠ 1) (h2 : v ≠ 2) (h3 : v ≠ 3) (h4 : v ≠ 4) :
    s.takeStreamCommand v = Spec.completed .badArgs s := by
  unfold State.takeStreamCommand
  split
  case h_5 => rfl
  case h_1 e => exact absurd (BitVec.eq_of_toNat_eq e) h1
  case h_2 e => exact absurd (BitVec.eq_of_toNat_eq e) h2
  case h_3 e => exact absurd (BitVec.eq_of_toNat_eq e) h3
  case h_4 e => exact absurd (BitVec.eq_of_toNat_eq e) h4

/-- Settles O12, since the four values that name a command are 1 to 4. -/
theorem unknownStreamCommand : Obligations.UnknownStreamCommand := fun s _ hlive h1 h2 h3 h4 =>
  (next_taken hlive).trans (congrArg _ (s.takeStreamCommand_unknown h1 h2 h3 h4))

/-! ### The reset state -/

/-- Settles O4: the window's 128 words are read one by one, in the kernel. -/
theorem resetStateHoldsTheResetValues : Obligations.ResetStateHoldsTheResetValues :=
  ⟨State.reset.takeResetValues_spec 0, rfl, rfl, rfl, rfl, by decide +kernel, by decide +kernel⟩

theorem State.reset_slot (i : SlotId) : State.reset.slot i = Slot.reset := (State.reset.takeResetValues_spec 0).slots i

theorem State.reset_channel (c : ChannelId) : State.reset.channel c = Channel.reset :=
  (State.reset.takeResetValues_spec 0).channels c

theorem State.reset_settingsLegal : State.reset.SettingsLegal where
  jobRingBase c := by rw [State.reset_channel]; rfl
  jobRingSize c := by simp [State.reset_channel, Channel.reset, isJobRingSize]
  completionRingBase := rfl
  completionRingSize := by simp [State.reset, Writer.reset, isCompletionRingSize]
  threshold := Nat.zero_le _
  timeout := .inl rfl
  burstTimeout b e := by simp [State.reset, Biu.reset] at e
  interruptStatus := rfl
  interruptEnable := rfl
  accessOffset := rfl

theorem State.reset_ringLevelKept : State.reset.RingLevelKept where
  current := by simp [State.reset, Writer.reset]
  level := by simp [State.reset, Writer.reset, Writer.level]
  room e := by simp [State.reset, Writer.reset] at e
  pendingDisable e := by simp [State.reset, Writer.reset] at e

theorem State.reset_holdsKept : State.reset.HoldsKept := State.reset.takeResetValues_keepsHolds 0

theorem State.reset_countsKept : State.reset.CountsKept where
  waits := State.reset_holdsKept.waits
  size := State.reset_settingsLegal.jobRingSize
  counts c := by
    rw [State.reset_channel]
    exact ⟨rfl, Nat.le_refl _, Nat.zero_le _⟩

theorem State.reset_unitsKept : State.reset.UnitsKept := by
  have hr := State.reset.takeResetValues_spec 0
  have hp : ∀ p, State.reset.arbiter.packs.get p = none := hr.packGrants
  have hk : ∀ k, State.reset.arbiter.checks.get k = none := hr.checkGrants
  have hw : ∀ c, State.reset.arbiter.waiting.get c = none := hr.waiting
  exact
    { waits := State.reset_holdsKept.waits
      packState := fun p c e => by simp [hp] at e
      checkState := fun k c e => by simp [hk] at e
      packOnce := fun p q c e => by simp [hp] at e
      checkOnce := fun k l c e => by simp [hk] at e
      noneMet := fun c n e => by simp [hw] at e }

theorem State.reset_outputKept : State.reset.OutputKept := fun p => by
  have hp : State.reset.pack p = PackUnit.reset := (State.reset.takeResetValues_spec 0).packs p
  simp [hp, PackUnit.reset]

/-- Settles O52, invariant by invariant. -/
theorem invariantsHoldAtReset : Obligations.InvariantsHoldAtReset :=
  ⟨rfl, State.reset_settingsLegal, State.reset_ringLevelKept, State.reset_countsKept, State.reset_holdsKept,
    State.reset_unitsKept, State.reset_outputKept⟩

/-! ### INSPECT (R13, R180) -/

/-- Fields laid side by side, as numbers. -/
theorem toNat_append_add {n m : Nat} (x : BitVec n) (y : BitVec m) : (x ++ y).toNat = 2 ^ m * x.toNat + y.toNat := by
  rw [BitVec.toNat_append, ← Nat.shiftLeft_add_eq_or_of_lt y.isLt, Nat.shiftLeft_eq, Nat.mul_comm]

theorem SlotState.code_eq (x : SlotState) : x.code = Spec.slotStateCode x ∧ x.code < 2 ^ 2 := by cases x <;> decide

theorem Op.code_eq (x : Op) : x.code = Spec.opCode x ∧ x.code < 2 ^ 8 := by cases x <;> decide

theorem CodeKind.code_eq (x : CodeKind) : x.code = Spec.kindCode x ∧ x.code < 2 ^ 2 := by cases x <;> decide

theorem Tap.code_eq (x : Tap) : x.code = Spec.tapCode x ∧ x.code < 2 ^ 1 := by cases x <;> decide

theorem channelShown_lt (o : Option ChannelId) : channelShown o < 2 ^ 2 := by
  cases o with
  | none => decide
  | some c => exact c.isLt

theorem phaseShown_lt (p : Option DecoderPhase) : (phaseShown p).1 < 2 ^ 2 := by
  unfold phaseShown
  split <;> simp

theorem carryShown_eq (k : Option Carry) :
    carryShown k = ((k.getD { value := 0, count := 0 }).value.toNat, (k.getD { value := 0, count := 0 }).count) := by
  cases k <;> rfl

/-- A number read back from a field that holds it. -/
theorem toNat_field {w n : Nat} (h : n < 2 ^ w) : (BitVec.ofNat w n).toNat = n := by
  rw [BitVec.toNat_ofNat, Nat.mod_eq_of_lt h]

section
variable (i : SlotId) (sl : Slot)

theorem Slot.snapshot_identity : ((sl.snapshot i).get 0).toNat =
    i.val + 2 ^ 8 * Spec.slotStateCode sl.ctx.state + 2 ^ 16 * sl.generation.toNat := by
  obtain ⟨hs, hl⟩ := SlotState.code_eq sl.ctx.state
  change (0#8 ++ sl.generation ++ 0#6 ++ BitVec.ofNat 2 sl.ctx.state.code ++ 0#3 ++ BitVec.ofNat 5 i.val).toNat = _
  simp only [toNat_append_add, toNat_field hl, toNat_field (w := 5) i.isLt, BitVec.toNat_ofNat, ← hs]
  omega

theorem Slot.snapshot_holder : ((sl.snapshot i).get 1).toNat =
    Spec.opCode sl.op + 2 ^ 8 * Spec.kindCode sl.kind + 2 ^ 12 * Spec.tapCode sl.tap +
      2 ^ 16 * channelShown sl.holder + 2 ^ 18 * sl.holder.isSome.toNat + 2 ^ 20 * sl.closing.toNat := by
  obtain ⟨ho, hol⟩ := Op.code_eq sl.op
  obtain ⟨hk, hkl⟩ := CodeKind.code_eq sl.kind
  obtain ⟨ht, htl⟩ := Tap.code_eq sl.tap
  change (0#11 ++ BitVec.ofBool sl.closing ++ 0#1 ++ BitVec.ofBool sl.holder.isSome ++
    BitVec.ofNat 2 (channelShown sl.holder) ++ 0#3 ++ BitVec.ofNat 1 sl.tap.code ++ 0#2 ++
    BitVec.ofNat 2 sl.kind.code ++ BitVec.ofNat 8 sl.op.code).toNat = _
  simp only [toNat_append_add, toNat_field hol, toNat_field hkl, toNat_field htl, toNat_field (channelShown_lt sl.holder),
    BitVec.toNat_ofBool, BitVec.toNat_ofNat, ← ho, ← hk, ← ht]
  omega

theorem Slot.snapshot_waiters (h : sl.waiters.length ≤ 3) : ((sl.snapshot i).get 2).toNat =
    sl.waiters.length + 2 ^ 8 * channelShown sl.waiters[0]? + 2 ^ 10 * channelShown sl.waiters[1]? +
      2 ^ 12 * channelShown sl.waiters[2]? := by
  change (0#18 ++ BitVec.ofNat 2 (channelShown sl.waiters[2]?) ++ BitVec.ofNat 2 (channelShown sl.waiters[1]?) ++
    BitVec.ofNat 2 (channelShown sl.waiters[0]?) ++ 0#6 ++ BitVec.ofNat 2 sl.waiters.length).toNat = _
  simp only [toNat_append_add, toNat_field (w := 2) (show sl.waiters.length < 2 ^ 2 by omega),
    toNat_field (channelShown_lt _), BitVec.toNat_ofNat]
  omega

theorem Slot.snapshot_messages :
    ((sl.snapshot i).get 3).toNat = sl.ctx.expected.toNat + 2 ^ 16 * sl.messages.toNat := by
  change (sl.messages ++ sl.ctx.expected).toNat = _
  rw [toNat_append_add]
  omega

theorem RunningCode.shown_toNat (r : RunningCode) :
    r.shown.toNat =
      match r with
      | .none => 0
      | .c32 r => r.toNat
      | .d32 a b => a.val + 2 ^ 16 * b.val := by
  cases r with
  | none => rfl
  | c32 r => rfl
  | d32 a b =>
    simp only [RunningCode.shown]
    rw [toNat_field (by omega)]
    omega

theorem Slot.snapshot_work (hc : (carryShown sl.ctx.carry).2 ≤ 130) (hp : (phaseShown sl.ctx.phase).2 ≤ 130) :
    ((sl.snapshot i).get 5).toNat =
      (carryShown sl.ctx.carry).1 + 2 ^ 8 * (carryShown sl.ctx.carry).2 + 2 ^ 16 * (phaseShown sl.ctx.phase).1 +
        2 ^ 24 * (phaseShown sl.ctx.phase).2 := by
  have hv : (carryShown sl.ctx.carry).1 < 2 ^ 8 := by
    rw [carryShown_eq]
    exact BitVec.isLt _
  change (BitVec.ofNat 8 (phaseShown sl.ctx.phase).2 ++ 0#6 ++ BitVec.ofNat 2 (phaseShown sl.ctx.phase).1 ++
    BitVec.ofNat 8 (carryShown sl.ctx.carry).2 ++ BitVec.ofNat 8 (carryShown sl.ctx.carry).1).toNat = _
  simp only [toNat_append_add, toNat_field hv, toNat_field (phaseShown_lt _),
    toNat_field (w := 8) (show (carryShown sl.ctx.carry).2 < 2 ^ 8 by omega),
    toNat_field (w := 8) (show (phaseShown sl.ctx.phase).2 < 2 ^ 8 by omega), BitVec.toNat_ofNat]
  omega

end

theorem slotArgument_none {w : Word} (h : 32 ≤ (w.extractLsb' 0 16).toNat) : slotArgument w = none :=
  dif_neg (Nat.not_lt.2 h)

theorem slotArgument_some {w : Word} {i : SlotId} (h : (w.extractLsb' 0 16).toNat = i.val) :
    slotArgument w = some i := by
  have hlt : (w.extractLsb' 0 16).toNat < 32 := h ▸ i.isLt
  exact (dif_pos hlt).trans (congrArg some (Fin.ext h))

/-- Settles O11: the eight words of the snapshot, each read as the sum of its fields. -/
theorem inspectCommand : Obligations.InspectCommand := by
  intro s hlive
  refine ⟨fun h => (next_taken hlive).trans ?_, fun i h => ?_⟩
  · simp only [State.takeInspect, slotArgument_none h]
    rfl
  · intro sl at' phase carry
    have hat : ∀ k, channelShown sl.waiters[k]? = at' k := fun k => by
      simp only [at']
      cases sl.waiters[k]? <;> rfl
    refine ⟨sl.snapshot i, (next_taken hlive).trans ?_, Slot.snapshot_identity .., ?_, fun hw => ?_,
      Slot.snapshot_messages .., ?_, fun hc hp => ?_, rfl, rfl⟩
    · simp only [State.takeInspect, slotArgument_some h]
      rfl
    · exact ⟨_, channelShown_lt _, fun c hc => by rw [hc]; rfl, Slot.snapshot_holder ..⟩
    · rw [Slot.snapshot_waiters i sl hw, hat 0, hat 1, hat 2]
    · exact RunningCode.shown_toNat _
    · have hw := Slot.snapshot_work i sl (by rw [carryShown_eq]; exact hc) hp
      rw [carryShown_eq] at hw
      exact hw

end Sys2Proof.Machine
end

