-- ==== Sys2Proof/Proofs/Retirements.lean ====
section
/-! PROOF. Aborts outside RUN, the hold request, retirement and the deferred close (R14 to R22, R68 to R76, R145): O19, O21, O26,
O43, O44 and O45. -/

namespace Sys2Proof.Machine

-- One theorem at a time, as in the tests: all at once they pass the memory limit.
set_option Elab.async false

/-! ### What the spec's shared effects do with a channel's entry -/

/-- A state whose channel `c` is replaced. -/
theorem State.setChannel_eq (s : State) (c : ChannelId) (x : Channel) :
    s.setChannel c x = { s with channels := s.channels.set c x } := rfl

theorem Spec.halted_set (c : ChannelId) (k : HaltCause) (ch x : Channel) (s : State) :
    Spec.halted c k ch (s.setChannel c x) = Spec.halted c k ch s := by
  simp only [Spec.halted, State.setChannel_eq, Spec.leaves_set, Vector.set_set]

theorem Spec.cleared_set (c : ChannelId) (ch x : Channel) (s : State) :
    Spec.cleared c ch (s.setChannel c x) = Spec.cleared c ch s := by
  simp only [Spec.cleared, State.setChannel_eq, Spec.leaves_set, Vector.set_set]

/-- An abort that takes effect writes its channel whole. -/
theorem Spec.abortDone_set (kind : AbortKind) (c : ChannelId) (ch x : Channel) (s : State) :
    Spec.abortDone kind c ch (s.setChannel c x) = Spec.abortDone kind c ch s := by
  cases kind
  · exact Spec.halted_set ..
  · exact Spec.cleared_set ..

/-- The next state after a retirement writes its channel whole. -/
theorem Spec.nextState_set (c : ChannelId) (st : Status) (ch x : Channel) (s : State) :
    Spec.nextState c st ch (s.setChannel c x) = Spec.nextState c st ch s := by
  unfold Spec.nextState
  split
  · exact Spec.halted_set ..
  · exact Spec.cleared_set ..
  · rw [Spec.halted_set]
    simp only [Spec.fetchBegun, State.setChannel_eq, Spec.leaves_set, Vector.set_set]

/-- A slot let go does not hang on what a channel outside its wait list holds. -/
theorem Spec.letGo_set {c : ChannelId} {sl : Slot} (h : c ∉ sl.waiters) (i : SlotId) (x : Channel) (s : State) :
    Spec.letGo i sl (s.setChannel c x) = (Spec.letGo i sl s).setChannel c x := by
  unfold Spec.letGo
  split
  · have hch : (Vector.ofFn fun d => if d ∈ sl.waiters then Spec.endedBeforeRun ((s.setChannel c x).channels.get d) .badHandle none
          else (s.setChannel c x).channels.get d) =
        (Vector.ofFn fun d => if d ∈ sl.waiters then Spec.endedBeforeRun (s.channels.get d) .badHandle none
          else s.channels.get d).set c x := by
      ext k hk : 1
      by_cases e : c.val = k
      · obtain rfl : c = ⟨k, hk⟩ := Fin.ext e
        have hx : (s.setChannel ⟨k, hk⟩ x).channels.get ⟨k, hk⟩ = x := vector_get_set ..
        simp [h, hx]
      · have hne : c ≠ ⟨k, hk⟩ := fun he => e (congrArg Fin.val he)
        simp [e, State.setChannel_eq, vector_get_set_ne _ _ hne]
    rw [hch]
    rfl
  · split
    · rfl
    · rename_i w ws hw
      have hne : c ≠ w := fun e => h (by simp [hw, e])
      have hget : (s.setChannel c x).channels.get w = s.channels.get w := vector_get_set_ne _ _ hne
      rw [hget]
      split
      · simp only [State.setChannel_eq]
        rw [Vector.set_comm _ _ (fun e => hne (Fin.ext e))]
      · rfl

/-- A slot let go leaves a channel outside its wait list as it was. -/
theorem Spec.letGo_channel {c : ChannelId} {sl : Slot} (h : c ∉ sl.waiters) (i : SlotId) (s : State) :
    (Spec.letGo i sl s).channels.get c = s.channels.get c := by
  unfold Spec.letGo
  split
  · simp [h, Vector.get_eq_getElem]
  · split
    · rfl
    · rename_i w ws hw
      split
      · exact vector_get_set_ne _ _ fun e => h (by simp [hw, e])
      · rfl

/-- The slot's holder, its other slots and its waiters' jobs do not hang on the holder's own entry. -/
theorem Spec.holdsAlone_set {c : ChannelId} {i : SlotId} {s : State} (h : Spec.holdsAlone c i s) (x : Channel) :
    Spec.holdsAlone c i (s.setChannel c x) := by
  obtain ⟨h1, h2, h3, h4⟩ := h
  refine ⟨h1, h2, h3, fun w hw => ?_⟩
  have hne : c ≠ w := fun e => h3 (e ▸ hw)
  rw [State.setChannel_eq, vector_get_set_ne _ _ hne]
  exact h4 w hw

/-- A plain release is the spec's, and does not hang on what the channel's own entry holds. -/
theorem Spec.released.release_eq {c : ChannelId} {s t : State} (h : Spec.released c s t) (x : Channel) :
    (s.setChannel c x).release c none = t.setChannel c x := by
  rcases h with ⟨h, rfl⟩ | ⟨i, h, rfl⟩
  · exact State.release_none (s := t.setChannel c x) h none
  · rw [State.release_held (Spec.holdsAlone_set h x)]
    exact Spec.letGo_set h.2.2.1 ..

theorem Spec.released.channel_eq {c : ChannelId} {s t : State} (h : Spec.released c s t) :
    t.channels.get c = s.channels.get c := by
  rcases h with ⟨h, rfl⟩ | ⟨i, h, rfl⟩
  · rfl
  · exact Spec.letGo_channel h.2.2.1 ..

theorem State.setAbortPending_set (s : State) (c : ChannelId) (x : Channel) (k : AbortKind) :
    (s.setChannel c x).setAbortPending k c = s.setChannel c { x with abortPending := some k } := by
  rw [State.setAbortPending, State.setChannel_channel, if_pos rfl]
  simp only [State.setChannel_eq, Vector.set_set]

theorem State.setChannel_self (s : State) (c : ChannelId) : s.setChannel c (s.channels.get c) = s := by
  rw [State.setChannel_eq, vector_set_get]

/-! ### ABORT and channel RESET before the run and in RETIRE (R70 to R74) -/

/-- An abort taken with none pending disposes of the channel as it stands with the new halt-on-error. -/
theorem exec_abortCommand {s : State} {c : ChannelId} (b : Bool) (kind : AbortKind) (hlive : s.live = true)
    (hn : (s.channels.get c).abortPending = none) :
    exec (Spec.abortCommand kind c b) s =
      .next ((s.setChannel c { s.channels.get c with haltOnError := b }).disposeOf kind c) := by
  have hn' : ((s.setHaltOnError c b).channel c).abortPending = none := by
    rw [State.setHaltOnError_channel, if_pos rfl]
    exact hn
  cases kind
  · refine (next_taken hlive).trans (congrArg _ ?_)
    rw [State.takeAbort, hn']
    rfl
  · refine (next_taken hlive).trans (congrArg _ ?_)
    rw [State.takeReset, hn']
    rfl

/-- An abort takes effect in a channel that was replaced. -/
theorem State.abortTakesEffect_set (s : State) (c : ChannelId) (ch : Channel) (kind : AbortKind) :
    (s.setChannel c ch).abortTakesEffect kind c = Spec.abortDone kind c ch s := by
  rw [State.abortTakesEffect_eq, Spec.abortDone_set, State.setChannel_eq, vector_get_set]

/-- A slot let go by a plain release, then an abort that takes effect. -/
theorem Spec.released.abort_eq {c : ChannelId} {s t : State} (h : Spec.released c s t) (ch : Channel)
    (kind : AbortKind) :
    ((s.setChannel c ch).release c none).abortTakesEffect kind c = Spec.abortDone kind c ch t := by
  rw [h.release_eq, State.abortTakesEffect_set]

section
variable {s : State} {c : ChannelId} {ch : Channel} {kind : AbortKind}

theorem State.disposeOf_idle (h : ch.state = .idle) :
    (s.setChannel c ch).disposeOf kind c = Spec.abortDone kind c ch s := by
  rw [← State.abortTakesEffect_set]
  simp [State.disposeOf, h]

theorem State.disposeOf_fetch (h : ch.state = .fetch) (hb : s.onBus (.ch c) = false) :
    (s.setChannel c ch).disposeOf kind c = Spec.abortDone kind c ch (s.withdraw (.ch c)) := by
  have hb' : (s.setChannel c ch).onBus (.ch c) = false := hb
  rw [← State.abortTakesEffect_set]
  simp only [State.disposeOf, State.setChannel_channel, if_true, h, hb']
  rfl

theorem State.disposeOf_fetch_onBus (h : ch.state = .fetch) (hb : s.onBus (.ch c) = true) :
    (s.setChannel c ch).disposeOf kind c = s.setChannel c { ch with abortPending := some kind } := by
  have hb' : (s.setChannel c ch).onBus (.ch c) = true := hb
  simp only [State.disposeOf, State.setChannel_channel, if_true, h, hb', State.setAbortPending_set]

theorem State.disposeOf_waitSlot {i : SlotId} (h : ch.state = .waitSlot) (hi : c ∈ (s.slots.get i).waiters)
    (hu : ∀ j : SlotId, c ∈ (s.slots.get j).waiters → j = i) :
    (s.setChannel c ch).disposeOf kind c = Spec.abortDone kind c ch
      (s.setSlot i { s.slots.get i with waiters := (s.slots.get i).waiters.filter (· != c) }) := by
  have hw : (s.setChannel c ch).waitedSlot c = some i := State.waitedSlot_some hi hu
  rw [← State.abortTakesEffect_set]
  simp only [State.disposeOf, State.setChannel_channel, if_true, h, State.withdrawWaiter, hw]
  rfl

theorem State.disposeOf_waitUnits {t : State} (h : ch.state = .waitUnits)
    (ht : Spec.released c (s.leaveWaitingSet c) t) :
    (s.setChannel c ch).disposeOf kind c = Spec.abortDone kind c ch t := by
  rw [← ht.abort_eq]
  simp only [State.disposeOf, State.setChannel_channel, if_true, h]
  rfl

theorem State.disposeOf_retire_begun (h : ch.state = .retire) (hb : (s.setChannel c ch).recordBegun c = true) :
    (s.setChannel c ch).disposeOf kind c = s.setChannel c { ch with abortPending := some kind } := by
  simp only [State.disposeOf, State.setChannel_channel, if_true, h, hb, State.setAbortPending_set]

theorem State.disposeOf_retire {t : State} (h : ch.state = .retire) (hb : (s.setChannel c ch).recordBegun c = false)
    (ht : Spec.released c (s.withdrawRecord c) t) :
    (s.setChannel c ch).disposeOf kind c = Spec.abortDone kind c ch t := by
  rw [← ht.abort_eq]
  simp only [State.disposeOf, State.setChannel_channel, if_true, h, hb]
  rfl

/-- The record is begun: the channel has been told so, or the writer holds it (R74, R137). -/
theorem State.recordBegun_iff : s.recordBegun c = true ↔
    (s.channel c).recordWritten = true ∨ ∃ r, s.writer.current = some r ∧ r.channel = c := by
  unfold State.recordBegun
  cases s.writer.current <;> simp

theorem State.onBus_iff {r : Requester} : s.onBus r = true ↔ ∃ q, s.biu.burst = some q ∧ q.owner = r := by
  unfold State.onBus
  cases s.biu.burst <;> simp

end

/-- Settles O19, state by state. -/
theorem abortBeforeTheRun : Obligations.AbortBeforeTheRun := by
  intro s c b kind hlive ch hn
  rw [exec_abortCommand b kind hlive hn]
  refine ⟨fun h => ?_, fun h hb => ?_, fun h hb => ?_, fun h i hi hu => ?_, fun h t ht => ?_⟩
  · rw [State.disposeOf_idle h]
  · rw [State.disposeOf_fetch h]
    · rfl
    · rw [Bool.eq_false_iff, ne_eq, State.onBus_iff]
      exact fun ⟨q, hq, ho⟩ => hb q hq ho
  · rw [State.disposeOf_fetch_onBus h (State.onBus_iff.2 hb)]
    rfl
  · rw [State.disposeOf_waitSlot h hi hu]
    rfl
  · rw [State.disposeOf_waitUnits h ht]

/-- Settles O21, by whether the record is begun. -/
theorem abortInRetire : Obligations.AbortInRetire := by
  intro s c b kind hlive ch begun hs hn
  have hb : (s.setChannel c ch).recordBegun c = true ↔ begun := by
    rw [State.recordBegun_iff, State.setChannel_channel, if_pos rfl]
    rfl
  rw [exec_abortCommand b kind hlive hn]
  refine ⟨fun h => ?_, fun h t ht => ?_⟩
  · rw [State.disposeOf_retire_begun hs (hb.2 h)]
    rfl
  · rw [State.disposeOf_retire hs (Bool.eq_false_iff.2 fun e => h (hb.1 e)) ht]

/-- Settles O45: the release is the spec's, and the abort takes effect as for a record not begun. -/
theorem recordWithdrawal : Obligations.RecordWithdrawal := by
  intro s c kind hlive hs hw hp hr hcur t ht
  have hb : s.recordBegun c = false := by
    rw [Bool.eq_false_iff, ne_eq, State.recordBegun_iff]
    rintro (e | ⟨r, hr, e⟩)
    · exact absurd (hw.symm.trans e) (by simp)
    · exact hcur r hr e
  have hp' : (s.channel c).abortPending = some kind := hp
  change Spec.released c (s.withdrawRecord c) t at ht
  have he := ht.abort_eq ((s.withdrawRecord c).channels.get c) kind
  rw [State.setChannel_self (s.withdrawRecord c)] at he
  refine (next_taken ⟨hlive, hs, hr, hb⟩).trans (congrArg _ ?_)
  rw [hp']
  exact he

/-! ### A hold request (R14 to R17) -/

/-- A hold request taken: the channel is at the end of the fetch of a bound job. -/
theorem exec_holdRequest {s : State} {c : ChannelId} {j : Job} (hlive : s.live = true)
    (hs : (s.channels.get c).state = .fetch) (hg : (s.channels.get c).stage = some .holdRequest)
    (hj : (s.channels.get c).job = some j) :
    exec (.holdRequest c) s = .next (s.takeHoldRequest c j.entry.handle) := by
  have hj' : (s.channel c).job = some j := hj
  refine (next_taken ⟨hlive, hs, hg⟩).trans (congrArg _ ?_)
  rw [hj']

/-- Settles O26, by the handle's validity and the slot's holder. -/
theorem holdRequest : Obligations.HoldRequest := by
  intro s c j hlive hs hg hj ch
  rw [exec_holdRequest hlive hs hg hj]
  refine ⟨fun h => ?_, fun i hv => ⟨fun hh => ?_, fun hh => ?_⟩⟩
  · rw [State.takeHoldRequest, State.validHandle_none h]
    rfl
  · have hh' : (s.slot i).holder = none := hh
    have ht : (s.setSlot i { s.slot i with holder := some c }).takeHold c (s.slot i) = _ := State.takeHold_eq hj
    simp only [State.takeHoldRequest, State.validHandle_some hv, if_pos hh', ht]
    rfl
  · have hh' : (s.slot i).holder ≠ none := hh
    simp only [State.takeHoldRequest, State.validHandle_some hv, if_neg hh']
    rfl

/-! ### Retirement (R20 to R22, R68, R69) -/

/-- A completed status is one of three (R45). -/
theorem Status.isCompleted_iff (st : Status) : st.isCompleted = true ↔ st = .ok ∨ st = .mismatch ∨ st = .truncated := by
  cases st <;> simp [Status.isCompleted]

section
variable {s : State} {c : ChannelId} {j : Job} {k : Working} {st : Status}

/-- A completed job with a position and a context brings a commit to its slot (R45, R68). -/
theorem Channel.commitOf_completed {ch : Channel} {pos : Position} {x : Context} (hj : ch.job = some j)
    (hk : ch.work = some k) (hst : k.status = some st) (hp : Position.ofByte j.entry.positionByte = some pos)
    (hx : k.ctx = some x) (hc : st = .ok ∨ st = .mismatch ∨ st = .truncated) :
    ch.commitOf = some { position := pos, segment := j.entry.segment, ctx := x } := by
  simp only [Channel.commitOf, hj, hk, hst, JobEntry.position, hp, hx, if_pos ((Status.isCompleted_iff st).2 hc)]

/-- A refused job brings none (R45, R68). -/
theorem Channel.commitOf_refused {ch : Channel} (hj : ch.job = some j) (hk : ch.work = some k)
    (hst : k.status = some st) (hc : ¬ (st = .ok ∨ st = .mismatch ∨ st = .truncated)) : ch.commitOf = none := by
  simp only [Channel.commitOf, hj, hk, hst]
  split
  · rename_i status _ _ e _ _
    cases e
    exact if_neg fun e => hc ((Status.isCompleted_iff st).1 e)
  · rfl

/-- A retirement, once its release is known and leaves the channel itself as it was (R68, R69). -/
theorem exec_retirement {t : State} (hlive : s.live = true) (hs : (s.channels.get c).state = .retire)
    (hw : (s.channels.get c).recordWritten = true) (hk : (s.channels.get c).work = some k) (hst : k.status = some st)
    (ht : s.release c (s.channels.get c).commitOf = t) (hc : t.channels.get c = s.channels.get c) :
    exec (.retirement c) s = .next
      (Spec.nextState c st
        { s.channels.get c with done := (s.channels.get c).done + 1, job := none, work := none, recordWritten := false }
        t) := by
  refine (next_taken ⟨hlive, hs, hw⟩).trans (congrArg _ ?_)
  have hstatus : (s.channel c).status = some st := by
    rw [Channel.status, show (s.channel c).work = some k from hk]
    exact hst
  have ht' : s.release c (s.channel c).commitOf = t := ht
  rw [State.retire]
  dsimp only
  rw [hstatus, ht', State.chooseNext_eq, Spec.nextState_set, show t.channel c = s.channels.get c from hc]
  rw [State.setChannel_eq, vector_get_set]
  rfl

/-- The slot of a retiring job, any commit made (R21, R22, R45). -/
theorem State.release_retired {i : SlotId} {sl : Slot} (h : Spec.holdsAlone c i s)
    (hj : (s.channels.get c).job = some j) (hk : (s.channels.get c).work = some k) (hst : k.status = some st)
    (hsl : (∃ pos x, Position.ofByte j.entry.positionByte = some pos ∧ k.ctx = some x ∧
        (st = .ok ∨ st = .mismatch ∨ st = .truncated) ∧
        sl = Spec.committed (s.slots.get i) pos j.entry.segment x) ∨
      (st ≠ .ok ∧ st ≠ .mismatch ∧ st ≠ .truncated ∧ sl = s.slots.get i)) :
    s.release c (s.channels.get c).commitOf = Spec.letGo i sl s := by
  rw [State.release_held h]
  obtain ⟨pos, x, hp, hx, hc, rfl⟩ | ⟨h1, h2, h3, rfl⟩ := hsl
  · rw [Channel.commitOf_completed hj hk hst hp hx hc]
    dsimp only
    rw [Slot.commit_eq]
  · rw [Channel.commitOf_refused hj hk hst (by simp [h1, h2, h3])]

end

theorem Spec.committed_waiters (sl : Slot) (pos : Position) (seg : Half) (x : Context) :
    (Spec.committed sl pos seg x).waiters = sl.waiters ∧ (Spec.committed sl pos seg x).closing = sl.closing := by
  cases pos <;> exact ⟨rfl, rfl⟩

/-- Settles O43: the release is the spec's, with or without a commit, and so is the next state. -/
theorem retirement : Obligations.Retirement := by
  intro s c j k st hlive hs hw hj hk hst ch
  refine ⟨fun hn => ?_, fun i sl hold hsl => ?_⟩
  · exact exec_retirement hlive hs hw hk hst (State.release_none hn _) rfl
  · have hwait : sl.waiters = (s.slots.get i).waiters := by
      obtain ⟨pos, x, -, -, -, rfl⟩ | ⟨-, -, -, rfl⟩ := hsl
      · exact (Spec.committed_waiters ..).1
      · rfl
    exact exec_retirement hlive hs hw hk hst (State.release_retired hold hj hk hst hsl)
      (Spec.letGo_channel (hwait ▸ hold.2.2.1) i s)

/-! ### What a next state leaves as it was (R69) -/

theorem Spec.nextState_frame (c : ChannelId) (st : Status) (ch : Channel) (s : State) :
    (Spec.nextState c st ch s).slots = s.slots ∧ (Spec.nextState c st ch s).writer = s.writer ∧
      (Spec.nextState c st ch s).hostMem = s.hostMem ∧
      ∀ d, d ≠ c → (Spec.nextState c st ch s).channels.get d = s.channels.get d := by
  have hne (x : Channel) (d : ChannelId) (h : d ≠ c) : (s.channels.set c x).get d = s.channels.get d :=
    vector_get_set_ne _ _ (Ne.symm h)
  unfold Spec.nextState Spec.halted Spec.cleared Spec.fetchBegun
  (repeat' split) <;> exact ⟨rfl, rfl, rfl, hne _⟩

/-- A status set stays set (R151). -/
theorem Spec.nextState_status (c : ChannelId) (st : Status) (ch : Channel) (s : State) (n : Nat)
    (h : s.idc.status.getLsbD n = true) : (Spec.nextState c st ch s).idc.status.getLsbD n = true := by
  unfold Spec.nextState Spec.halted Spec.cleared Spec.fetchBegun
  (repeat' split) <;> simp [h]

theorem Spec.nextState_channel (c : ChannelId) (st : Status) (ch : Channel) (s : State) (hj : ch.job = none) :
    ((Spec.nextState c st ch s).channels.get c).job = none ∧
      (ch.abortPending ≠ some .reset → ((Spec.nextState c st ch s).channels.get c).done = ch.done) := by
  unfold Spec.nextState Spec.halted Spec.cleared Spec.fetchBegun
  (repeat' split) <;> simp_all [vector_get_set]

/-- A job is an END job when its position says so (section 2.3). -/
theorem JobEntry.isEnd_eq (e : JobEntry) : e.isEnd = Spec.endJob e := by
  unfold JobEntry.isEnd JobEntry.position Position.ofByte Spec.endJob
  generalize e.positionByte = b
  have hb (v : Byte) : (b == v) = decide (b.toNat = v.toNat) := by
    rw [Bool.eq_iff_iff, beq_iff_eq, decide_eq_true_iff, BitVec.toNat_inj]
  rw [hb, hb]
  rcases b.toNat with _ | _ | _ | _ | n <;> simp [Position.isEnd]

/-- A freed slot keeps nothing of a commit but the message count. -/
theorem Spec.freed_committed (sl : Slot) {e : JobEntry} {pos : Position}
    (hp : Position.ofByte e.positionByte = some pos) (seg : Half) (x : Context) :
    Spec.freed (Spec.committed sl pos seg x) =
      Spec.freed { sl with messages := if Spec.endJob e = true then sl.messages + 1 else sl.messages } := by
  have he : Spec.endJob e = pos.isEnd := by rw [← JobEntry.isEnd_eq, JobEntry.isEnd, JobEntry.position, hp]
  rw [he]
  cases pos <;> rfl

/-- A closing slot let go is freed, its waiters refused and CLOSED raised (R20). -/
theorem State.passOn_closing {s : State} {i : SlotId} {sl : Slot} (h : sl.closing = true) :
    s.passOn i sl =
      { s with
        slots := s.slots.set i (Spec.freed sl)
        channels := Vector.ofFn fun d =>
          if d ∈ sl.waiters then Spec.endedBeforeRun (s.channels.get d) .badHandle none else s.channels.get d
        idc := { s.idc with status := s.idc.status ||| 8#32 } } := by
  have hch : ((s.setSlot i sl.freed).refuseWaiters sl.waiters).channels = Vector.ofFn fun d =>
      if d ∈ sl.waiters then Spec.endedBeforeRun (s.channels.get d) .badHandle none else s.channels.get d := by
    ext k hk : 1
    simpa [Vector.get_eq_getElem] using State.refuseWaiters_channel sl.waiters (s.setSlot i sl.freed) ⟨k, hk⟩
  rw [State.passOn, if_pos h, State.refuseWaiters_rest, hch, Slot.freed_eq]
  rfl

/-- What a retiring job makes of its slot: a commit when it completed (R21, R22, R45). -/
theorem State.release_closing {s : State} {c : ChannelId} {i : SlotId} {j : Job} {k : Working} {st : Status}
    (hj : (s.channels.get c).job = some j) (hk : (s.channels.get c).work = some k) (hst : k.status = some st)
    (hh : (s.slots.get i).holder = some c) (hu : ∀ i' : SlotId, (s.slots.get i').holder = some c → i' = i)
    (hcomp : st = .ok ∨ st = .mismatch ∨ st = .truncated →
      (Position.ofByte j.entry.positionByte).isSome = true ∧ k.ctx.isSome = true) :
    ∃ sl : Slot, s.release c (s.channels.get c).commitOf = s.passOn i sl ∧
      sl.waiters = (s.slots.get i).waiters ∧ sl.closing = (s.slots.get i).closing ∧
      Spec.freed sl = Spec.freed
        { s.slots.get i with
          messages := if (st = .ok ∨ st = .mismatch ∨ st = .truncated) ∧ Spec.endJob j.entry = true then
            (s.slots.get i).messages + 1 else (s.slots.get i).messages } := by
  have hs := State.heldSlot_some hh hu
  by_cases hc : st = .ok ∨ st = .mismatch ∨ st = .truncated
  · obtain ⟨hp, hx⟩ := hcomp hc
    obtain ⟨pos, hp⟩ := Option.isSome_iff_exists.1 hp
    obtain ⟨x, hx⟩ := Option.isSome_iff_exists.1 hx
    obtain ⟨hw, hcl⟩ := Spec.committed_waiters (s.slots.get i) pos j.entry.segment x
    refine ⟨_, ?_, hw, hcl, ?_⟩
    · simp only [State.release, hs, Channel.commitOf_completed hj hk hst hp hx hc, Slot.commit_eq]
      rfl
    · rw [Spec.freed_committed _ hp]
      simp only [hc, true_and]
  · refine ⟨s.slots.get i, ?_, rfl, rfl, by simp only [hc, false_and, if_false]⟩
    simp only [State.release, hs, Channel.commitOf_refused hj hk hst hc]
    rfl

/-- Settles O44, from what the retirement does with a closing slot and what its next state leaves. -/
theorem deferredClose : Obligations.DeferredClose := by
  intro s c j k st i hlive hs hw hj hk hst hh hu hcl hcw completed hcomp
  obtain ⟨sl, hrel, hwait, hclose, hfreed⟩ := State.release_closing hj hk hst hh hu hcomp
  rw [State.passOn_closing (hclose.trans hcl), hwait, hfreed] at hrel
  have hchan (d : ChannelId) : (s.release c (s.channels.get c).commitOf).channels.get d =
      if d ∈ (s.slots.get i).waiters then Spec.endedBeforeRun (s.channels.get d) .badHandle none
      else s.channels.get d := by
    rw [hrel]
    simp [Vector.get_eq_getElem]
  refine ⟨_, exec_retirement hlive hs hw hk hst rfl (by rw [hchan, if_neg hcw]), ?_⟩
  obtain ⟨hslots, hwriter, hmem, hothers⟩ := Spec.nextState_frame c st
    { s.channels.get c with done := (s.channels.get c).done + 1, job := none, work := none, recordWritten := false }
    (s.release c (s.channels.get c).commitOf)
  obtain ⟨hjob, hdone⟩ := Spec.nextState_channel c st
    { s.channels.get c with done := (s.channels.get c).done + 1, job := none, work := none, recordWritten := false }
    (s.release c (s.channels.get c).commitOf) rfl
  refine ⟨by rw [hslots, hrel], fun w hwm => ?_, hdone, hjob, Spec.nextState_status _ _ _ _ _ ?_, by rw [hwriter, hrel],
    by rw [hmem, hrel]⟩
  · rw [hothers w fun e => hcw (e ▸ hwm), hchan, if_pos hwm]
  · rw [hrel]
    simp

end Sys2Proof.Machine
end

