-- ==== Sys2Proof/Proofs/Generations.lean ====
section
/-! PROOF. Only OPEN and reset change a generation (R5): O13. -/

namespace Sys2Proof.Machine

-- One theorem at a time, as in the tests: all at once they pass the memory limit.
set_option Elab.async false

/-! ### Generations (R5) -/

/-- The generation of every slot is as it was. -/
structure State.SameGenerations (s t : State) : Prop where
  keeps : ∀ i, (t.slot i).generation = (s.slot i).generation

theorem State.SameGenerations.of_slots {s t : State} (h : t.slots = s.slots) : s.SameGenerations t :=
  ⟨fun i => by rw [State.slot_congr h]⟩

theorem State.SameGenerations.trans {s t u : State} (h : s.SameGenerations t) (h' : t.SameGenerations u) :
    s.SameGenerations u := ⟨fun i => (h'.keeps i).trans (h.keeps i)⟩

theorem State.SameGenerations.to_slots {s t u : State} (h : s.SameGenerations t) (hs : u.slots = t.slots) :
    s.SameGenerations u := h.trans (.of_slots hs)

theorem State.SameGenerations.from_slots {s t u : State} (h : t.SameGenerations u) (hs : t.slots = s.slots) :
    s.SameGenerations u := State.SameGenerations.trans (.of_slots hs) h

/-- A slot replaced by one of its generation. -/
theorem State.SameGenerations.setSlot (s : State) {i : SlotId} {x : Slot} (h : x.generation = (s.slot i).generation) :
    s.SameGenerations (s.setSlot i x) := ⟨fun j => by
  by_cases e : j = i
  · simp [e, h]
  · simp [e]⟩

section
variable (s : State)

theorem State.takeClose_generations : s.SameGenerations s.takeClose := by
  unfold State.takeClose
  split
  · exact .of_slots rfl
  split
  · refine (State.SameGenerations.setSlot s ?_).to_slots rfl
    rfl
  · refine (State.SameGenerations.setSlot s ?_).to_slots rfl
    rfl

theorem State.takeRewind_generations : s.SameGenerations s.takeRewind := by
  unfold State.takeRewind
  split
  · exact .of_slots rfl
  dsimp only
  split
  · refine (State.SameGenerations.setSlot s ?_).to_slots rfl
    rfl
  · exact .of_slots rfl

/-- A command-register write other than of OPEN (R5, R7). -/
theorem State.takeStreamCommand_generations {v : Word} (h : v ≠ 1) : s.SameGenerations (s.takeStreamCommand v) := by
  unfold State.takeStreamCommand
  split
  case h_1 e => exact absurd (BitVec.eq_of_toNat_eq e) h
  case h_2 => exact s.takeClose_generations
  case h_3 => exact s.takeRewind_generations
  case h_4 => exact .of_slots (by simp)
  case h_5 => exact .of_slots rfl

theorem State.takeHoldRequest_generations (c : ChannelId) (hd : Half) : s.SameGenerations (s.takeHoldRequest c hd) := by
  unfold State.takeHoldRequest
  split
  · exact .of_slots rfl
  dsimp only
  split
  · refine (State.SameGenerations.setSlot s ?_).to_slots (State.takeHold_frame ..).1
    rfl
  · refine (State.SameGenerations.setSlot s ?_).to_slots rfl
    rfl

theorem State.withdrawWaiter_generations (c : ChannelId) : s.SameGenerations (s.withdrawWaiter c) := by
  unfold State.withdrawWaiter
  split
  · exact .of_slots rfl
  · exact .setSlot s rfl

theorem State.passOn_generations {i : SlotId} {sl : Slot} (h : sl.generation = (s.slot i).generation) :
    s.SameGenerations (s.passOn i sl) := by
  unfold State.passOn
  split
  · refine (State.SameGenerations.setSlot s (i := i) (x := sl.freed) h).to_slots (by simp)
  split
  · exact .setSlot s h
  · rename_i w ws _
    exact (State.SameGenerations.setSlot s (x := { sl with holder := some w, waiters := ws }) h).to_slots
      (State.takeHold_frame ..).1

theorem Slot.commit_generation (sl : Slot) (k : Commit) : (sl.commit k).generation = sl.generation := by
  unfold Slot.commit
  split <;> rfl

theorem State.release_generations (c : ChannelId) (k : Option Commit) : s.SameGenerations (s.release c k) := by
  unfold State.release
  split
  · exact .of_slots rfl
  split
  · exact s.passOn_generations rfl
  · exact s.passOn_generations (Slot.commit_generation ..)

/-- A slot let go and an abort that takes effect. -/
theorem State.releaseAndAbort_generations (c : ChannelId) (kind : AbortKind) :
    s.SameGenerations ((s.release c none).abortTakesEffect kind c) :=
  (s.release_generations c none).to_slots (by simp)

theorem State.abortRun_generations (kind : AbortKind) (c : ChannelId) : s.SameGenerations (s.abortRun kind c) :=
  (State.releaseAndAbort_generations _ c kind).from_slots (by simp)

theorem State.unitStopped_generations (c : ChannelId) : s.SameGenerations (s.unitStopped c) := by
  unfold State.unitStopped
  split
  · split
    · exact s.abortRun_generations ..
    · exact .of_slots rfl
  · exact .of_slots rfl

theorem State.disposeOf_generations (kind : AbortKind) (c : ChannelId) : s.SameGenerations (s.disposeOf kind c) := by
  unfold State.disposeOf
  split
  case h_5 => exact (s.withdrawWaiter_generations c).to_slots (by simp)
  case h_6 => exact (State.releaseAndAbort_generations _ c kind).from_slots (by simp)
  case h_7 =>
    dsimp only
    split
    · exact (State.abortRun_generations _ kind c).from_slots (by simp)
    · exact .of_slots (by simp)
  case h_8 =>
    split
    · exact .of_slots (by simp)
    · exact (State.releaseAndAbort_generations _ c kind).from_slots (by simp)
  all_goals exact .of_slots (by (repeat' split) <;> simp)

theorem State.takeAbort_generations (c : ChannelId) : s.SameGenerations (s.takeAbort c) := by
  unfold State.takeAbort
  split
  · exact .of_slots rfl
  · exact s.disposeOf_generations ..

theorem State.takeReset_generations (c : ChannelId) : s.SameGenerations (s.takeReset c) := by
  unfold State.takeReset
  split
  · exact .of_slots (by simp)
  · exact s.disposeOf_generations ..

theorem State.takeChannelControl_generations (c : ChannelId) (v : Word) :
    s.SameGenerations (s.takeChannelControl c v) := by
  have hb : s.SameGenerations (s.setHaltOnError c (v.getLsbD 8)) := .of_slots (by simp)
  unfold State.takeChannelControl
  dsimp only
  split
  · exact hb.to_slots (by simp)
  · exact hb.to_slots (by simp)
  · exact hb.trans (State.takeAbort_generations ..)
  · exact hb.trans (State.takeReset_generations ..)
  · exact hb

theorem State.retire_generations (c : ChannelId) : s.SameGenerations (s.retire c) :=
  (s.release_generations c (s.channel c).commitOf).to_slots (by simp [State.retire])

/-! The ends of bursts outside a device reset -/

theorem State.packTransferEnds_generations (p : PackId) (q : BurstRequest) (bytes : List Byte) :
    s.SameGenerations (s.packTransferEnds p q bytes) := by
  unfold State.packTransferEnds
  split
  · exact .of_slots rfl
  dsimp only
  split
  · exact (State.unitStopped_generations ..).from_slots (by simp)
  · exact .of_slots (by (repeat' split) <;> simp)

theorem State.packTransferFaults_generations (p : PackId) (q : BurstRequest) (why : Why) :
    s.SameGenerations (s.packTransferFaults p q why) := by
  unfold State.packTransferFaults
  split
  · exact .of_slots rfl
  dsimp only
  split
  · exact (State.unitStopped_generations ..).from_slots (by simp)
  · exact .of_slots (by split <;> simp)

theorem State.checkReadEnds_generations (k : CheckId) (bytes : List Byte) :
    s.SameGenerations (s.checkReadEnds k bytes) := by
  unfold State.checkReadEnds
  split
  · exact .of_slots rfl
  dsimp only
  split
  · exact (State.unitStopped_generations ..).from_slots (by simp)
  · exact .of_slots (by simp)

theorem State.checkReadFaults_generations (k : CheckId) (why : Why) : s.SameGenerations (s.checkReadFaults k why) := by
  unfold State.checkReadFaults
  split
  · exact .of_slots rfl
  dsimp only
  split
  · exact (State.unitStopped_generations ..).from_slots (by simp)
  · exact .of_slots (by simp)

theorem State.tellReady_generations (b : Burst) (bytes : List Byte) : s.SameGenerations (s.tellReady b bytes) := by
  unfold State.tellReady
  split
  · exact .of_slots (by simp)
  · exact s.packTransferEnds_generations ..
  · exact s.checkReadEnds_generations ..
  · exact .of_slots (by simp)

theorem State.tellFault_generations (b : Burst) (why : Why) : s.SameGenerations (s.tellFault b why) := by
  unfold State.tellFault
  split
  · exact .of_slots (by simp)
  · exact s.packTransferFaults_generations ..
  · exact s.checkReadFaults_generations ..
  · exact .of_slots (by simp)

variable {s}

theorem State.burstReady_generations (h : s.idc.resetPending = false) (b : Burst) (bytes : List Byte) :
    s.SameGenerations (s.burstReady b bytes) := by
  unfold State.burstReady
  rw [h]
  exact (State.tellReady_generations ..).from_slots (by simp)

theorem State.burstFaults_generations (h : s.idc.resetPending = false) (b : Burst) (why : Why) :
    s.SameGenerations (s.burstFaults b why) := by
  have hm : ∃ t, (if b.request.write then s.memoryMayTake (b.request.cells b.phasesEnded) else s) = t ∧
      t.slots = s.slots ∧ t.idc = s.idc := by
    split <;> exact ⟨_, rfl, rfl, rfl⟩
  obtain ⟨t, ht, hs, hi⟩ := hm
  unfold State.burstFaults
  simp only [ht, hi, h]
  exact (State.tellFault_generations ..).from_slots (by simp [hs])

theorem State.phaseReady_generations (h : s.idc.resetPending = false) (data : Word) :
    s.SameGenerations (s.phaseReady data) := by
  unfold State.phaseReady
  split
  · exact .of_slots rfl
  · rename_i b _
    have hm : ∃ t, (if b.request.write then s.memoryTakes (b.request.cells b.phasesEnded) else s) = t ∧
        t.slots = s.slots ∧ t.idc = s.idc := by
      split <;> exact ⟨_, rfl, rfl, rfl⟩
    obtain ⟨t, ht, hs, hi⟩ := hm
    simp only [ht]
    split
    · exact .of_slots hs
    · exact (State.burstReady_generations (hi ▸ h) ..).from_slots hs

theorem State.phaseError_generations (h : s.idc.resetPending = false) : s.SameGenerations s.phaseError := by
  unfold State.phaseError
  split
  · exact .of_slots rfl
  · exact State.burstFaults_generations h ..

theorem State.phaseTimeout_generations (h : s.idc.resetPending = false) : s.SameGenerations s.phaseTimeout := by
  unfold State.phaseTimeout
  split
  · exact .of_slots rfl
  split
  · exact .of_slots rfl
  · exact State.burstFaults_generations h ..

end

/-! The window -/

theorem Reg.ofGroupOffset_ne {c : ChannelId} {n : Nat} {r : Reg} (h : Reg.ofGroupOffset c n = some r) :
    r ≠ .command ∧ r ≠ .globalControl := by
  unfold Reg.ofGroupOffset at h
  split at h <;> cases h <;> simp

/-- The command register and the global control register lie at their offsets alone (R177). -/
theorem Reg.ofOffset_spec {o : Nat} {r : Reg} (h : Reg.ofOffset o = some r) :
    (r = .command → o = 0x084) ∧ (r = .globalControl → o = 0x008) := by
  unfold Reg.ofOffset at h
  split at h
  case h_30 =>
    split at h
    · obtain ⟨h1, h2⟩ := Reg.ofGroupOffset_ne h
      exact ⟨fun e => absurd e h1, fun e => absurd e h2⟩
    · contradiction
  all_goals
    cases h
    simp

/-- A full-width access names the word at its own address (R161, R162). -/
theorem windowWord_of_isFullWidth {a : Word} {lanes : BitVec 4} (h : isFullWidth a lanes = true) :
    lanes = 0xF#4 ∧ windowWord a = a.toNat % 512 := by
  simp only [isFullWidth, Bool.and_eq_true, beq_iff_eq] at h
  refine ⟨h.1, ?_⟩
  simp only [windowWord]
  omega

theorem State.ownerTakes_generations (s : State) {r : Reg} {v : Word} (hc : r = .command → v ≠ 1)
    (hg : r = .globalControl → v.getLsbD 0 = false) : s.SameGenerations (s.ownerTakes r v) := by
  unfold State.ownerTakes
  split
  case h_1 =>
    rw [State.takeGlobalControl, hg rfl]
    exact .of_slots rfl
  case h_11 => exact s.takeStreamCommand_generations (hc rfl)
  case h_12 => exact s.takeChannelControl_generations ..
  all_goals exact .of_slots (by simp)

theorem State.windowWrite_generations (s : State) {a : Word} {lanes : BitVec 4} {v : Word}
    (ho : ¬ Spec.opens (.registerWrite a lanes v)) (hr : ¬ Spec.resets (.registerWrite a lanes v)) :
    s.SameGenerations (s.windowWrite a lanes v) := by
  unfold State.windowWrite
  dsimp only
  split
  · exact .of_slots (by simp)
  split
  · exact .of_slots (by simp)
  split
  · exact .of_slots (by simp)
  · rename_i hf _ r hreg _
    obtain ⟨hl, hw⟩ := windowWord_of_isFullWidth (a := a) (lanes := lanes) (by simpa using hf)
    obtain ⟨h1, h2⟩ := Reg.ofOffset_spec hreg
    refine s.ownerTakes_generations (fun e hv => ho ⟨?_, hl, hv⟩) fun e => ?_
    · rw [← hw, h1 e]
    · by_contra hb
      exact hr ⟨by rw [← hw, h2 e], hl, by simpa using hb⟩

/-- A command taken or not. -/
theorem State.SameGenerations.ifTaken {p : Prop} [Decidable p] {s t u : State} (ht : s.SameGenerations t)
    (e : Host.Outcome.next (φ := Fault) (ρ := Refusal) (if p then t else s) = .next u) : s.SameGenerations u := by
  cases e
  split
  · exact ht
  · exact .of_slots rfl

/-- Settles O13, command by command. -/
theorem generationsChangeOnlyByOpenAndReset : Obligations.GenerationsChangeOnlyByOpenAndReset := by
  intro c s t e ho hr hp
  refine State.SameGenerations.keeps (s := s) (t := t) ?_
  cases c
  case openStream => exact absurd trivial ho
  case deviceReset => exact absurd trivial hr
  case resetPinAssert => exact absurd trivial hr
  case closeStream => exact s.takeClose_generations.ifTaken e
  case rewindStream => exact s.takeRewind_generations.ifTaken e
  case unknownStreamCommand v => exact (s.takeStreamCommand_generations ho).ifTaken e
  case abortChannel c b =>
    exact ((State.takeAbort_generations _ c).from_slots (by simp)).ifTaken e
  case resetChannel c b =>
    exact ((State.takeReset_generations _ c).from_slots (by simp)).ifTaken e
  case haltOnError c v => exact (s.takeChannelControl_generations c v).ifTaken e
  case registerWrite a lanes v => exact (s.windowWrite_generations ho hr).ifTaken e
  case dataPhaseReady d => cases e; exact State.phaseReady_generations hp d
  case burstEndsWithReady d => cases e; exact State.phaseReady_generations hp d
  case burstEndsWithError => cases e; exact State.phaseError_generations hp
  case burstEndsWithTimeout => cases e; exact State.phaseTimeout_generations hp
  case resetPinRelease => cases e; exact .of_slots rfl
  case holdRequest c =>
    refine State.SameGenerations.ifTaken ?_ e
    split
    · exact s.takeHoldRequest_generations ..
    · exact .of_slots rfl
  case unitJoin c =>
    refine State.SameGenerations.ifTaken ?_ e
    split <;> exact .of_slots (by simp)
  case retirement c => exact (s.retire_generations c).ifTaken e
  case recordWithdrawal c =>
    refine State.SameGenerations.ifTaken ?_ e
    split
    · exact (State.releaseAndAbort_generations _ c _).from_slots (by simp)
    · exact .of_slots rfl
  all_goals exact State.SameGenerations.ifTaken (.of_slots (by simp)) e

end Sys2Proof.Machine
end

