-- ==== Sys2Proof/Proofs/UnitRuns.lean ====
section
/-! SUPPORT. A unit's work from its load to its next transfer (R95 to R110, R119 to R123): what it leaves as it was, and where a
run ends at its grant. -/

namespace Sys2Proof.Machine

-- One theorem at a time, as in the tests: all at once they pass the memory limit.
set_option Elab.async false

/-! ### What a pack unit's work leaves as it was -/

/-- The joined unit and the end condition are as they were, and a buffer that held bytes still does. -/
structure PackUnit.SameRun (u v : PackUnit) : Prop where
  joined : v.joined = u.joined
  ending : v.ending = u.ending
  buffered : u.writeBuffer ≠ [] → v.writeBuffer ≠ []

theorem PackUnit.SameRun.rfl {u : PackUnit} : u.SameRun u := ⟨Eq.refl _, Eq.refl _, id⟩

theorem PackUnit.SameRun.trans {u v w : PackUnit} (h : u.SameRun v) (h' : v.SameRun w) : u.SameRun w :=
  ⟨h'.joined.trans h.joined, h'.ending.trans h.ending, fun e => h'.buffered (h.buffered e)⟩

theorem PackUnit.accept_sameRun (u : PackUnit) (b : Byte) : u.SameRun (u.accept b) := by
  unfold PackUnit.accept
  split
  · exact ⟨rfl, rfl, fun _ => by simp⟩
  · exact .rfl

theorem PackStep.offer_unit (w : PackStep) (tap : Tap) (b : Byte) : (w.offer tap b).unit = w.unit := by
  unfold PackStep.offer
  split
  · split <;> rfl
  · rfl

theorem PackStep.accept_sameRun (w : PackStep) (b : Byte) : w.unit.SameRun (w.accept b).unit := by
  unfold PackStep.accept
  rw [PackStep.offer_unit]
  exact w.unit.accept_sameRun b

theorem PackStep.takeFront_sameRun (w : PackStep) : w.unit.SameRun w.takeFront.unit := by
  unfold PackStep.takeFront
  split
  · exact .rfl
  · rw [PackStep.offer_unit]
    exact ⟨rfl, rfl, id⟩

theorem PackStep.complete_sameRun (w : PackStep) (it : OutItem) : w.unit.SameRun (w.complete it).unit := by
  have h : w.unit.SameRun (if it.takes then w.takeFront else w).unit := by
    split
    · exact w.takeFront_sameRun
    · exact .rfl
  unfold PackStep.complete
  dsimp only
  split
  · exact h.trans ⟨rfl, rfl, id⟩
  · exact h

theorem acceptBytes_sameRun (bs : List Byte) (w : PackStep) : w.unit.SameRun (acceptBytes bs w).2.1.unit := by
  induction bs generalizing w with
  | nil => exact .rfl
  | cons b bs ih =>
    unfold acceptBytes
    split
    · exact w.accept_sameRun b
    · exact (w.accept_sameRun b).trans (ih _)

/-- Bytes accepted where the destination cursor names a fragment stand in the buffer. -/
theorem acceptBytes_buffered {b : Byte} {bs : List Byte} {w : PackStep}
    (hf : (w.unit.dest[w.unit.destCursor.fragment]?).isSome) :
    (acceptBytes (b :: bs) w).2.1.unit.writeBuffer ≠ [] := by
  have h1 : (w.accept b).unit.writeBuffer ≠ [] := by
    obtain ⟨f, hf⟩ := Option.isSome_iff_exists.1 hf
    simp [PackStep.accept, PackStep.offer_unit, PackUnit.accept, hf]
  unfold acceptBytes
  split
  · exact h1
  · exact (acceptBytes_sameRun ..).buffered h1

theorem acceptItems_sameRun (its : List OutItem) (w : PackStep) : w.unit.SameRun (acceptItems its w).1.unit := by
  induction its generalizing w with
  | nil => exact ⟨rfl, rfl, id⟩
  | cons it its ih =>
    have hb := acceptBytes_sameRun it.bytes w
    unfold acceptItems
    split
    · exact .rfl
    split
    · rename_i w' _ e
      rw [e] at hb
      exact hb.trans ⟨rfl, rfl, id⟩
    · rename_i w' due e
      rw [e] at hb
      have hc := hb.trans (w'.complete_sameRun it)
      split
      · exact hc.trans ⟨rfl, rfl, id⟩
      · exact hc.trans (ih _)

/-- A first piece of output that fits leaves bytes in the buffer. -/
theorem acceptItems_buffered {it : OutItem} {its : List OutItem} {w : PackStep} (hb : it.bytes ≠ [])
    (hr : it.bytes.length ≤ w.unit.room) (hf : (w.unit.dest[w.unit.destCursor.fragment]?).isSome) :
    (acceptItems (it :: its) w).1.unit.writeBuffer ≠ [] := by
  obtain ⟨b, bs, hbs⟩ := List.exists_cons_of_ne_nil hb
  have h1 := acceptBytes_buffered (b := b) (bs := bs) hf
  rw [← hbs] at h1
  unfold acceptItems
  rw [if_neg (by omega)]
  split
  · rename_i w' _ e
    rw [e] at h1
    exact h1
  · rename_i w' due e
    rw [e] at h1
    have hc := (w'.complete_sameRun it).buffered h1
    split
    · exact hc
    · exact (acceptItems_sameRun ..).buffered hc

theorem takeBytes_sameRun (bs : List Byte) (w : PackStep) : w.unit.SameRun (takeBytes bs w).1.unit := by
  induction bs generalizing w with
  | nil => exact .rfl
  | cons b bs ih =>
    have hi := acceptItems_sameRun (w.unit.callsFor b) w
    unfold takeBytes
    split
    · rename_i w' e
      rw [e] at hi
      exact hi.trans (ih _)
    · exact hi

/-- A run with bytes in the buffer or without an end condition is not over. -/
theorem PackUnit.isOver_false {u : PackUnit} (h : u.ending = .none ∨ u.writeBuffer ≠ []) : u.isOver = false := by
  rcases h with h | h <;> simp [PackUnit.isOver, h]

/-- A transfer asked for: its write's bytes are in the buffer, or the run has no end condition. -/
def PackStep.goesOn (r : PackStep × Option BurstRequest) : Prop := r.2.isSome → r.1.unit.isOver = false

theorem PackUnit.lastWrite_isSome {u : PackUnit} (h : u.lastWrite.isSome) : u.writeBuffer ≠ [] := by
  unfold PackUnit.lastWrite at h
  split at h
  · contradiction
  · rename_i e
    simpa using e

theorem PackStep.stopFor_goesOn {w : PackStep} (h : w.unit.ending = .none) (d : Drive) : PackStep.goesOn (w.stopFor d) := by
  cases d
  case noRoom => exact fun e => PackUnit.isOver_false (.inr (PackUnit.lastWrite_isSome e))
  all_goals exact fun _ => PackUnit.isOver_false (.inl h)

theorem PackStep.stopFor_joined (w : PackStep) (d : Drive) : (w.stopFor d).1.unit.joined = w.unit.joined := by
  cases d <;> rfl

theorem PackStep.finish_goesOn {w : PackStep} (h : w.unit.ending = .none) : PackStep.goesOn w.finish := by
  have hs := acceptItems_sameRun (if w.unit.finishing then [] else w.unit.endCallsFor)
    { w with unit := { w.unit with finishing := true } }
  unfold PackStep.finish
  dsimp only
  split
  · rename_i w' e
    rw [e] at hs
    split
    · exact fun _ => PackUnit.isOver_false (.inl (hs.ending.trans h))
    · exact fun e => by simp at e
  · rename_i w' d _ e
    rw [e] at hs
    exact PackStep.stopFor_goesOn (hs.ending.trans h) d

theorem PackStep.finish_joined (w : PackStep) : w.finish.1.unit.joined = w.unit.joined := by
  have hs := acceptItems_sameRun (if w.unit.finishing then [] else w.unit.endCallsFor)
    { w with unit := { w.unit with finishing := true } }
  unfold PackStep.finish
  dsimp only
  split
  · rename_i w' e
    rw [e] at hs
    split <;> exact hs.joined
  · rename_i w' d _ e
    rw [e] at hs
    rw [PackStep.stopFor_joined]
    exact hs.joined

/-- The three ways a unit's work up to its next transfer goes, in the order of the work. -/
theorem PackUnit.advance_cases (u : PackUnit) :
    ∃ w : PackStep, u.SameRun w.unit ∧
      ((∃ d, u.advance = w.stopFor d) ∨ (∃ q, u.advance = (w, some q)) ∨ u.advance = w.finish) := by
  have h1 := acceptItems_sameRun u.owed { unit := u, offered := [] }
  unfold PackUnit.advance
  split
  · rename_i w e
    rw [e] at h1
    have h2 := h1.trans (takeBytes_sameRun w.unit.readAhead w)
    split
    · rename_i w' e'
      rw [e'] at h2
      refine ⟨w', h2, ?_⟩
      split
      · split
        · exact .inl ⟨_, rfl⟩
        · exact .inr (.inl ⟨_, rfl⟩)
      · exact .inr (.inr rfl)
    · rename_i w' d _ e'
      rw [e'] at h2
      exact ⟨w', h2, .inl ⟨d, rfl⟩⟩
  · rename_i w d _ e
    rw [e] at h1
    exact ⟨w, h1, .inl ⟨d, rfl⟩⟩

theorem PackUnit.advance_joined (u : PackUnit) : u.advance.1.unit.joined = u.joined := by
  obtain ⟨w, hw, ⟨d, e⟩ | ⟨q, e⟩ | e⟩ := u.advance_cases <;> rw [e]
  · exact (w.stopFor_joined d).trans hw.joined
  · exact hw.joined
  · exact w.finish_joined.trans hw.joined

/-- A unit whose run had not ended and that asks for a transfer has a run that is not over. -/
theorem PackUnit.advance_goesOn {u : PackUnit} (h : u.ending = .none) : PackStep.goesOn u.advance := by
  obtain ⟨w, hw, ⟨d, e⟩ | ⟨q, e⟩ | e⟩ := u.advance_cases <;> rw [e]
  · exact PackStep.stopFor_goesOn (hw.ending.trans h) d
  · exact fun _ => PackUnit.isOver_false (.inl (hw.ending.trans h))
  · exact PackStep.finish_goesOn (hw.ending.trans h)

/-! ### A pack unit just loaded (R95, R100, R104, R105, R109) -/

/-- A unit that owes nothing and holds nothing read: the next read, the stop of a PASS unit without room, or the finish. -/
theorem PackUnit.advance_fresh {u : PackUnit} (ho : u.owed = []) (hr : u.readAhead = []) :
    u.advance =
      match readAt u.source u.sourceCursor with
      | some q =>
        if u.stopsUnread then PackStep.stopFor { unit := u, offered := [] } .noRoom
        else ({ unit := u, offered := [] }, some q)
      | none => PackStep.finish { unit := u, offered := [] } := by
  cases u
  subst ho hr
  rfl

/-- The op of an entry, told by its byte (R183). -/
theorem Op.ofByte_code {b : Byte} {op : Op} (h : Op.ofByte b = some op) : b = BitVec.ofNat 8 op.code := by
  unfold Op.ofByte at h
  split at h <;> cases h
  all_goals exact BitVec.eq_of_toNat_eq ‹_›

theorem Spec.packLoaded_eq {j : Job} {op : Op} (h : Op.ofByte j.entry.opByte = some op) (x : Context)
    (joined : Option (CheckId × Tap)) :
    PackUnit.load j.entry.mode j x joined = Spec.packLoaded (Spec.modeOf op) j x joined := by
  have hm : j.entry.mode = Spec.modeOf op := by
    rw [JobEntry.mode, JobEntry.op, h]
    cases op <;> rfl
  unfold PackUnit.load Spec.packLoaded
  rw [hm, JobEntry.isEnd_eq]
  cases x.carry <;> rfl

theorem Spec.checkLoaded_eq {j : Job} {kind : CodeKind} {tap : Tap} (hk : CodeKind.ofByte j.entry.kindByte = some kind)
    (ht : Tap.ofByte j.entry.tapByte = some tap) (x : Context) (joined : Option PackId) :
    CheckUnit.load j x joined = Spec.checkLoaded kind tap j x joined := by
  unfold CheckUnit.load Spec.checkLoaded
  rw [JobEntry.kind, hk, JobEntry.tap, ht, JobEntry.isEnd_eq]
  cases joined <;> rfl

/-- The first read of a source table (R96, R122). -/
theorem readAt_first (f : Fragment) (fs : List Fragment) : readAt (f :: fs) ⟨0, 0⟩ = some (Spec.readFrom f 0) := rfl

/-- The length of the carried run's token at the end of a source: two bytes for a run token, one more than its bytes for a
literal token (R104). -/
def carriedLength (count : Nat) : Nat := if 3 ≤ count then 2 else count + 1

/-- The end of a source calls for output of a carried run alone, in an END job (R104). -/
theorem encodeEnd_items (work : PackWork) (endFlag : Bool) (hg : work.group = []) :
    (¬ (endFlag = true ∧ 1 ≤ work.runCount) → (encodeEnd work endFlag).items = []) ∧
      (endFlag = true → 1 ≤ work.runCount →
        ∃ it, (encodeEnd work endFlag).items = [it] ∧ it.bytes.length = carriedLength work.runCount) := by
  obtain ⟨group, v, n, phase⟩ := work
  simp only at hg
  subst hg
  cases endFlag with
  | false => simp [encodeEnd, Encoding.emitGroup]
  | true =>
    match n with
    | 0 => simp [encodeEnd, Encoding.appendRun, Encoding.emitGroup]
    | 1 => simp [encodeEnd, Encoding.appendRun, Encoding.append, Encoding.emitGroup, literalToken, carriedLength]
    | 2 => simp [encodeEnd, Encoding.appendRun, Encoding.append, Encoding.emitGroup, literalToken, carriedLength]
    | n + 3 => simp [encodeEnd, Encoding.emitGroup, Encoding.emitRun, runToken, carriedLength]

section
variable (m : PackMode) (j : Job) (x : Context) (joined : Option (CheckId × Tap))

/-- The carried run's count (R95). -/
def carriedCount : Nat := (x.carry.getD { value := 0, count := 0 }).count

/-- The unit reads its source first, if it has one and, in PASS, room for its bytes (R84, R96, R100). -/
theorem Spec.packLoaded_reads {f : Fragment} {fs : List Fragment} (hs : j.source = f :: fs)
    (hm : ¬ (m = .pass ∧ totalLength j.dest = 0)) :
    (Spec.packLoaded m j x joined).advance =
      ({ unit := Spec.packLoaded m j x joined, offered := [] }, some (Spec.readFrom f 0)) := by
  have hr : readAt (Spec.packLoaded m j x joined).source (Spec.packLoaded m j x joined).sourceCursor =
      some (Spec.readFrom f 0) := by
    simp only [Spec.packLoaded, hs, readAt_first]
  have hu : (Spec.packLoaded m j x joined).stopsUnread = false := by
    simpa [PackUnit.stopsUnread, PackUnit.room, Spec.packLoaded] using hm
  rw [PackUnit.advance_fresh rfl rfl, hr]
  simp only [hu, Bool.false_eq_true, if_false]

/-- A PASS unit without room for its source's bytes stops at once (R100). -/
theorem Spec.packLoaded_stops {f : Fragment} {fs : List Fragment} (hs : j.source = f :: fs) (hm : m = .pass)
    (hd : totalLength j.dest = 0) : (Spec.packLoaded m j x joined).advance.1.unit.isOver = true := by
  have hr : readAt (Spec.packLoaded m j x joined).source (Spec.packLoaded m j x joined).sourceCursor =
      some (Spec.readFrom f 0) := by
    simp only [Spec.packLoaded, hs, readAt_first]
  have hu : (Spec.packLoaded m j x joined).stopsUnread = true := by
    simp [PackUnit.stopsUnread, PackUnit.room, Spec.packLoaded, hm, hd]
  rw [PackUnit.advance_fresh rfl rfl, hr]
  simp only [hu, if_true]
  rfl

/-- Without a source the run goes on only to write a carried run for which there is room (R104, R105, R109). -/
theorem Spec.packLoaded_finishes (hs : j.source = []) :
    (Spec.packLoaded m j x joined).advance.1.unit.isOver =
      !(m == .pack && Spec.endJob j.entry && decide (1 ≤ carriedCount x) &&
        decide (carriedLength (carriedCount x) ≤ totalLength j.dest)) := by
  have hr : readAt (Spec.packLoaded m j x joined).source (Spec.packLoaded m j x joined).sourceCursor = none := by
    simp only [Spec.packLoaded, hs]
    rfl
  rw [PackUnit.advance_fresh rfl rfl, hr]
  have hfin : ∀ its, (Spec.packLoaded m j x joined).endCallsFor = its →
      PackStep.finish { unit := Spec.packLoaded m j x joined, offered := [] } =
        match acceptItems its { unit := { Spec.packLoaded m j x joined with finishing := true }, offered := [] } with
        | (w', .drained) =>
          match w'.unit.lastWrite with
          | some q => (w', some q)
          | none => ({ w' with unit := { w'.unit with ending := .done } }, none)
        | (w', d) => w'.stopFor d := by
    rintro _ rfl
    rfl
  have hrest : ∀ (w : PackStep) (d : Drive), w.unit.writeBuffer ≠ [] → (w.stopFor d).1.unit.isOver = false := by
    intro w d hw
    cases d <;> exact PackUnit.isOver_false (.inr hw)
  by_cases hc : m = .pack ∧ Spec.endJob j.entry = true ∧ 1 ≤ carriedCount x
  · obtain ⟨rfl, he, hn⟩ := hc
    obtain ⟨it, hit, hlen⟩ := (encodeEnd_items (Spec.packLoaded .pack j x joined).work (Spec.endJob j.entry) rfl).2 he hn
    have hitems : (Spec.packLoaded .pack j x joined).endCallsFor = [it] := hit
    change it.bytes.length = carriedLength (carriedCount x) at hlen
    have hpos : 0 < it.bytes.length := by rw [hlen, carriedLength]; split <;> omega
    rw [hfin _ hitems]
    by_cases hroom : carriedLength (carriedCount x) ≤ totalLength j.dest
    · have hdest : (j.dest[0]?).isSome := by
        cases hd : j.dest with
        | nil => simp [hd, totalLength] at hroom; omega
        | cons f fs => rfl
      have hb := acceptItems_buffered (its := [])
        (w := { unit := { Spec.packLoaded .pack j x joined with finishing := true }, offered := [] })
        (List.ne_nil_of_length_pos hpos) (hlen ▸ hroom) hdest
      simp only [he, hn, hroom, decide_true, Bool.and_self, beq_self_eq_true, Bool.not_true]
      split
      · rename_i w' e
        rw [e] at hb
        split
        · exact PackUnit.isOver_false (.inr hb)
        · rename_i hl
          simp [PackUnit.lastWrite, hb] at hl
      · rename_i w' d _ e
        rw [e] at hb
        exact hrest w' d hb
    · have hlt : totalLength j.dest - 0 < it.bytes.length := by omega
      have hacc : ∀ w : PackStep, w.unit.room < it.bytes.length → acceptItems [it] w = (w, .noRoom) := fun w hw => by
        rw [acceptItems, if_pos hw]
      rw [hacc { unit := { Spec.packLoaded .pack j x joined with finishing := true }, offered := [] } hlt]
      simp only [hroom, decide_false, Bool.and_false, Bool.not_false]
      rfl
  · have hitems : (Spec.packLoaded m j x joined).endCallsFor = [] := by
      unfold PackUnit.endCallsFor
      split
      · rename_i e
        exact (encodeEnd_items (Spec.packLoaded m j x joined).work (Spec.endJob j.entry) rfl).1 fun h => hc ⟨e, h⟩
      · rfl
      · rfl
    have hf : (m == .pack && Spec.endJob j.entry && decide (1 ≤ carriedCount x)) = false := by
      simpa [and_assoc] using hc
    rw [hfin _ hitems, hf]
    rfl

end

/-- The run of a loaded and started pack unit is over just where the spec says that it ends at its grant (R100, R104, R105,
R109). -/
theorem Spec.packLoaded_isOver {j : Job} {op : Op} (h : Op.ofByte j.entry.opByte = some op) (hop : op ≠ .check)
    (x : Context) (joined : Option (CheckId × Tap)) :
    (Spec.packLoaded (Spec.modeOf op) j x joined).advance.1.unit.isOver = Spec.endsAtGrant j x := by
  have hb := Op.ofByte_code h
  have h2 : (j.entry.opByte == 2) = (Spec.modeOf op == .pack) := by
    rw [hb]
    cases op <;> rfl
  have h1 : (j.entry.opByte == 1) = (Spec.modeOf op == .pass) := by
    rw [hb]
    cases op
    case check => exact absurd rfl hop
    all_goals rfl
  unfold Spec.endsAtGrant
  dsimp only
  rw [h1, h2]
  cases hs : j.source with
  | nil =>
    rw [if_pos rfl, Spec.packLoaded_finishes _ _ _ _ hs]
    rfl
  | cons f fs =>
    rw [if_neg (by simp)]
    by_cases hm : Spec.modeOf op = .pass ∧ totalLength j.dest = 0
    · rw [Spec.packLoaded_stops _ _ _ _ hs hm.1 hm.2]
      simp [hm]
    · rw [Spec.packLoaded_reads _ _ _ _ hs hm]
      have : (Spec.modeOf op == .pass && totalLength j.dest == 0) = false := by simpa using hm
      rw [this]
      rfl

/-- A run that does not end at its grant, of a job with a source, begins with the read of its first bytes (R84, R96). -/
theorem Spec.packLoaded_begins {j : Job} {op : Op} (h : Op.ofByte j.entry.opByte = some op) (hop : op ≠ .check)
    {x : Context} (he : Spec.endsAtGrant j x = false) (joined : Option (CheckId × Tap)) {f : Fragment}
    {fs : List Fragment} (hs : j.source = f :: fs) :
    (Spec.packLoaded (Spec.modeOf op) j x joined).advance =
      ({ unit := Spec.packLoaded (Spec.modeOf op) j x joined, offered := [] }, some (Spec.readFrom f 0)) := by
  refine Spec.packLoaded_reads _ _ _ _ hs fun ⟨hm, hd⟩ => ?_
  have := Spec.packLoaded_stops _ j x joined hs hm hd
  rw [Spec.packLoaded_isOver h hop, he] at this
  contradiction

/-- The check unit of a CHECK job, loaded and started: the first read, or DONE without a source (R122, R123). -/
theorem Spec.checkLoaded_advance (kind : CodeKind) (tap : Tap) (j : Job) (x : Context) :
    (∀ f fs, j.source = f :: fs → (Spec.checkLoaded kind tap j x none).advance =
        (Spec.checkLoaded kind tap j x none, some (Spec.readFrom f 0))) ∧
      (j.source = [] → (Spec.checkLoaded kind tap j x none).advance =
        ({ Spec.checkLoaded kind tap j x none with ending := .done }, none)) := by
  constructor
  · intro f fs hs
    simp only [CheckUnit.advance, Spec.checkLoaded, hs, readAt_first]
  · intro hs
    simp only [CheckUnit.advance, Spec.checkLoaded, hs]
    rfl

/-- The run of a CHECK job ends at its grant where it has no source (R123). -/
theorem Spec.endsAtGrant_check {j : Job} (h : Op.ofByte j.entry.opByte = some .check) (x : Context) :
    Spec.endsAtGrant j x = decide (j.source = []) := by
  unfold Spec.endsAtGrant
  rw [Op.ofByte_code h]
  by_cases hs : j.source = []
  · simp [hs, Op.code]
  · simp [hs, Op.code]

end Sys2Proof.Machine
end

