-- ==== Sys2Proof/Proofs/Grants.lean ====
section
/-! SUPPORT. The grant map (R79, R83): a channel's units, what a grant, a release and the end of a run do to them, and what they leave
of another channel's. -/

namespace Sys2Proof.Machine

-- One theorem at a time, as in the tests: all at once they pass the memory limit.
set_option Elab.async false

/-! ### Requests formed, by requester (R168) -/

theorem Requester.atPosition_position (r : Requester) : Requester.atPosition r.position = r := by
  cases r with
  | ch c => revert c; decide
  | pk p => revert p; decide
  | ck k => revert k; decide
  | cw => rfl

theorem Requester.position_injective : Function.Injective Requester.position :=
  Function.LeftInverse.injective Requester.atPosition_position

theorem State.want_wantedBy (s : State) (r r' : Requester) (q : BurstRequest) :
    (s.want r q).wantedBy r' = if r' = r then some q else s.wantedBy r' := by
  simp only [State.wantedBy, State.want, Vector.get_set_fin, Requester.position_injective.eq_iff]

theorem State.withdraw_wantedBy (s : State) (r r' : Requester) :
    (s.withdraw r).wantedBy r' = if r' = r then none else s.wantedBy r' := by
  simp only [State.wantedBy, State.withdraw, Vector.get_set_fin, Requester.position_injective.eq_iff]

theorem State.wantedBy_congr {s t : State} (h : t.biu = s.biu) (r : Requester) : t.wantedBy r = s.wantedBy r := by
  rw [State.wantedBy, h]
  rfl

/-! ### The units of a channel (R79, R83) -/

/-- A channel has at most one unit of each kind (R79). -/
structure State.UnitsOnce (s : State) : Prop where
  packOnce : ∀ (p q : PackId) (c : ChannelId),
    s.arbiter.packs.get p = some c → s.arbiter.packs.get q = some c → p = q
  checkOnce : ∀ (k l : CheckId) (c : ChannelId),
    s.arbiter.checks.get k = some c → s.arbiter.checks.get l = some c → k = l

/-- Units are granted to channels in RUN alone, at most one of each kind to a channel: the part of R79 that an evaluation
keeps at every step of it. -/
structure State.GrantsPlaced (s : State) : Prop extends s.UnitsOnce where
  packState : ∀ (p : PackId) (c : ChannelId), s.arbiter.packs.get p = some c → (s.channel c).state = .run
  checkState : ∀ (k : CheckId) (c : ChannelId), s.arbiter.checks.get k = some c → (s.channel c).state = .run

theorem State.UnitsKept.grantsPlaced {s : State} (h : s.UnitsKept) : s.GrantsPlaced :=
  ⟨⟨h.packOnce, h.checkOnce⟩, h.packState, h.checkState⟩

section
variable {s : State} {c : ChannelId}

theorem State.packOf_spec {p : PackId} (h : s.packOf c = some p) : s.arbiter.packs.get p = some c := by
  simpa using List.find?_some h

theorem State.checkOf_spec {k : CheckId} (h : s.checkOf c = some k) : s.arbiter.checks.get k = some c := by
  simpa using List.find?_some h

theorem State.packOf_eq_none : s.packOf c = none ↔ ∀ p, s.arbiter.packs.get p ≠ some c := by
  simp [State.packOf]

theorem State.checkOf_eq_none : s.checkOf c = none ↔ ∀ k, s.arbiter.checks.get k ≠ some c := by
  simp [State.checkOf]

theorem State.UnitsOnce.packOf_eq (h : s.UnitsOnce) {p : PackId} (hp : s.arbiter.packs.get p = some c) :
    s.packOf c = some p := by
  cases e : s.packOf c with
  | none => exact absurd hp (State.packOf_eq_none.1 e p)
  | some q => rw [h.packOnce q p c (State.packOf_spec e) hp]

theorem State.UnitsOnce.checkOf_eq (h : s.UnitsOnce) {k : CheckId} (hk : s.arbiter.checks.get k = some c) :
    s.checkOf c = some k := by
  cases e : s.checkOf c with
  | none => exact absurd hk (State.checkOf_eq_none.1 e k)
  | some l => rw [h.checkOnce l k c (State.checkOf_spec e) hk]

theorem State.freePack_spec {p : PackId} (h : s.freePack = some p) : s.arbiter.packs.get p = none := by
  simpa using List.find?_some h

theorem State.freeCheck_spec {k : CheckId} (h : s.freeCheck = some k) : s.arbiter.checks.get k = none := by
  simpa using List.find?_some h

/-- The units free, as the arbiter has them after a release (R85). -/
theorem State.UnitsOnce.releaseUnits_arbiter (h : s.UnitsOnce) (c : ChannelId) :
    (s.releaseUnits c).arbiter = Spec.unitsFree c s.arbiter := by
  rw [Spec.unitsFree, ← vector_map_released _ c (fun i j => h.packOnce i j c),
    ← vector_map_released _ c (fun i j => h.checkOnce i j c)]
  unfold State.releaseUnits State.packOf State.checkOf
  dsimp only
  (repeat' split) <;> simp_all

end

theorem Spec.unitsFree_packs (c : ChannelId) (a : Arbiter) (p : PackId) :
    (Spec.unitsFree c a).packs.get p = if a.packs.get p = some c then none else a.packs.get p := by
  simp [Spec.unitsFree, Vector.get_eq_getElem]

theorem Spec.unitsFree_checks (c : ChannelId) (a : Arbiter) (k : CheckId) :
    (Spec.unitsFree c a).checks.get k = if a.checks.get k = some c then none else a.checks.get k := by
  simp [Spec.unitsFree, Vector.get_eq_getElem]

/-- Freeing a channel's units changes the grant map just where the channel has one. -/
theorem Spec.unitsFree_eq_self {c : ChannelId} {a : Arbiter} :
    Spec.unitsFree c a = a ↔ (∀ p, a.packs.get p ≠ some c) ∧ ∀ k, a.checks.get k ≠ some c := by
  constructor
  · intro h
    refine ⟨fun p hp => ?_, fun k hk => ?_⟩
    · have := Spec.unitsFree_packs c a p
      simp [h, hp] at this
    · have := Spec.unitsFree_checks c a k
      simp [h, hk] at this
  · rintro ⟨hp, hk⟩
    have h1 : (Spec.unitsFree c a).packs = a.packs := by
      ext i hi : 1
      have := Spec.unitsFree_packs c a ⟨i, hi⟩
      rwa [if_neg (hp _)] at this
    have h2 : (Spec.unitsFree c a).checks = a.checks := by
      ext i hi : 1
      have := Spec.unitsFree_checks c a ⟨i, hi⟩
      rwa [if_neg (hk _)] at this
    cases a
    simp only [Spec.unitsFree] at h1 h2 ⊢
    rw [h1, h2]

/-! ### What a unit's work leaves as it was -/

section
variable (s : State)

theorem State.offerTo_pack (joined : Option (CheckId × Tap)) (bytes : List Byte) (q : PackId) :
    (s.offerTo joined bytes).pack q = s.pack q := by
  unfold State.offerTo
  split <;> rfl

theorem State.offerTo_check (joined : Option (CheckId × Tap)) (bytes : List Byte) {l : CheckId}
    (h : joined.map Prod.fst ≠ some l) : (s.offerTo joined bytes).check l = s.check l := by
  unfold State.offerTo
  split
  · rw [State.setCheck_check, if_neg fun e => h (by simp [e])]
  · rfl

theorem State.drivePack_pack (p q : PackId) :
    (s.drivePack p).pack q = if q = p then (s.pack p).advance.1.unit else s.pack q := by
  unfold State.drivePack
  dsimp only
  split <;> simp [State.offerTo_pack]

theorem State.drivePack_check (p : PackId) {l : CheckId} (h : (s.pack p).joined.map Prod.fst ≠ some l) :
    (s.drivePack p).check l = s.check l := by
  rw [← PackUnit.advance_joined] at h
  unfold State.drivePack
  dsimp only
  split <;> simp [State.offerTo_check _ _ _ h]

theorem State.drivePack_wantedBy (p : PackId) (r : Requester) :
    (s.drivePack p).wantedBy r =
      if r = .pk p ∧ (s.pack p).advance.2.isSome then (s.pack p).advance.2 else s.wantedBy r := by
  unfold State.drivePack
  dsimp only
  split
  · rename_i q e
    rw [State.want_wantedBy, e, State.wantedBy_congr (s := s) (by simp)]
    simp
  · rename_i e
    rw [e, State.wantedBy_congr (s := s) (by simp)]
    simp

theorem State.driveCheck_packs (k : CheckId) : (s.driveCheck k).packs = s.packs := by
  unfold State.driveCheck
  split <;> rfl

theorem State.driveCheck_check (k l : CheckId) :
    (s.driveCheck k).check l = if l = k then (s.check k).advance.1 else s.check l := by
  unfold State.driveCheck
  split <;> rename_i e <;> simp [e]

theorem State.driveCheck_wantedBy (k : CheckId) (r : Requester) :
    (s.driveCheck k).wantedBy r =
      if r = .ck k ∧ (s.check k).advance.2.isSome then (s.check k).advance.2 else s.wantedBy r := by
  unfold State.driveCheck
  split <;> rename_i e
  · rw [State.want_wantedBy, e]
    simp [State.wantedBy_congr (s := s) (t := s.setCheck k _) rfl]
  · rw [e, State.wantedBy_congr (s := s) (t := s.setCheck k _) rfl]
    simp

end

/-! ### Units loaded (R84, R95, R119) -/

section
variable (s : State) (j : Job) (x : Context)

/-- The pack unit that a run brings, as it is loaded (R95). -/
def Job.packUnit (j : Job) (x : Context) (k : Option CheckId) : PackUnit :=
  PackUnit.load j.entry.mode j x (k.map fun k => (k, j.entry.tap.getD .inTap))

theorem Job.packUnit_joined (k : Option CheckId) : (j.packUnit x k).joined.map Prod.fst = k := by
  cases k <;> rfl

/-- The state in which a loaded pack unit begins its work. -/
def State.loadPack (j : Job) (x : Context) (p : PackId) (k : Option CheckId) (s : State) : State :=
  (match k with
    | some k => s.setCheck k (CheckUnit.load j x (some p))
    | none => s).setPack p (j.packUnit x k)

theorem State.loadUnits_pack (p : PackId) (k : Option CheckId) :
    s.loadUnits j x (some p) k = (s.loadPack j x p k).drivePack p := by
  cases k <;> rfl

theorem State.loadUnits_check (k : CheckId) :
    s.loadUnits j x none (some k) = (s.setCheck k (CheckUnit.load j x none)).driveCheck k := rfl

theorem State.loadPack_pack (p : PackId) (k : Option CheckId) (q : PackId) :
    (s.loadPack j x p k).pack q = if q = p then j.packUnit x k else s.pack q := by
  cases k <;> simp [State.loadPack]

theorem State.loadPack_check (p : PackId) (k : Option CheckId) (l : CheckId) :
    (s.loadPack j x p k).check l = if k = some l then CheckUnit.load j x (some p) else s.check l := by
  cases k <;> simp [State.loadPack, eq_comm]

theorem State.loadPack_wantedBy (p : PackId) (k : Option CheckId) (r : Requester) :
    (s.loadPack j x p k).wantedBy r = s.wantedBy r := by
  cases k <;> rfl

theorem State.loadUnits_pack_ne {p : Option PackId} {q : PackId} (h : p ≠ some q) (k : Option CheckId) :
    (s.loadUnits j x p k).pack q = s.pack q := by
  cases p with
  | some p =>
    have hne : q ≠ p := fun e => h (by rw [e])
    rw [State.loadUnits_pack, State.drivePack_pack, if_neg hne, State.loadPack_pack, if_neg hne]
  | none =>
    cases k with
    | none => rfl
    | some k =>
      rw [State.loadUnits_check, State.pack_congr (State.driveCheck_packs ..)]
      rfl

theorem State.loadUnits_check_ne {k : Option CheckId} {l : CheckId} (h : k ≠ some l) (p : Option PackId) :
    (s.loadUnits j x p k).check l = s.check l := by
  cases p with
  | some p =>
    rw [State.loadUnits_pack, State.drivePack_check, State.loadPack_check, if_neg h]
    rwa [State.loadPack_pack, if_pos rfl, Job.packUnit_joined]
  | none =>
    cases k with
    | none => rfl
    | some k =>
      have hne : l ≠ k := fun e => h (by rw [e])
      rw [State.loadUnits_check, State.driveCheck_check, if_neg hne, State.setCheck_check, if_neg hne]

/-- Only the pack unit of a run, or the check unit of a CHECK job, asks for a transfer. -/
theorem State.loadUnits_wantedBy_ne {p : Option PackId} {k : Option CheckId} {r : Requester}
    (hp : p.map .pk ≠ some r) (hk : k.map .ck ≠ some r) : (s.loadUnits j x p k).wantedBy r = s.wantedBy r := by
  cases p with
  | some p =>
    rw [State.loadUnits_pack, State.drivePack_wantedBy, if_neg fun h => hp (by rw [h.1]; rfl), State.loadPack_wantedBy]
  | none =>
    cases k with
    | none => rfl
    | some k =>
      rw [State.loadUnits_check, State.driveCheck_wantedBy, if_neg fun h => hk (by rw [h.1]; rfl)]
      rfl

/-- A check unit that asks for a read has no end condition. -/
theorem CheckUnit.advance_goesOn {u : CheckUnit} (h : u.ending = .none) (hq : u.advance.2.isSome) :
    u.advance.1.ending = .none := by
  unfold CheckUnit.advance at hq ⊢
  split at hq
  · exact h
  · contradiction

/-- No request is formed for a run that is over once its units are loaded. -/
theorem State.loadUnits_wantedBy_of_over {p : Option PackId} {k : Option CheckId}
    (hp : ∀ q, p = some q → ((s.loadUnits j x p k).pack q).isOver = true)
    (hk : ∀ l, p = none → k = some l → ((s.loadUnits j x p k).check l).ending ≠ .none) (r : Requester) :
    (s.loadUnits j x p k).wantedBy r = s.wantedBy r := by
  cases p with
  | some p =>
    have ho := hp p rfl
    rw [State.loadUnits_pack, State.drivePack_pack, if_pos rfl] at ho
    rw [State.loadUnits_pack, State.drivePack_wantedBy, if_neg, State.loadPack_wantedBy]
    rintro ⟨-, hq⟩
    have hf := PackUnit.advance_goesOn (u := (s.loadPack j x p k).pack p) (by rw [State.loadPack_pack, if_pos rfl]; rfl) hq
    exact absurd (hf.symm.trans ho) (by decide)
  | none =>
    cases k with
    | none => rfl
    | some k =>
      have ho := hk k rfl rfl
      rw [State.loadUnits_check, State.driveCheck_check, if_pos rfl] at ho
      rw [State.loadUnits_check, State.driveCheck_wantedBy, if_neg]
      · rfl
      · rintro ⟨-, hq⟩
        exact ho (CheckUnit.advance_goesOn (by rw [State.setCheck_check, if_pos rfl]; rfl) hq)

end

/-! ### A grant (R82 to R84) -/

/-- The pack unit that a grant of this needed set records (R83). -/
def State.packFor (n : Need) (s : State) : Option PackId := if n.pack then s.freePack else none

/-- The check unit that a grant of this needed set records (R83). -/
def State.checkFor (n : Need) (s : State) : Option CheckId := if n.check then s.freeCheck else none

/-- The grant recorded, before its units are loaded. -/
def State.recordGrant (c : ChannelId) (n : Need) (s : State) : State :=
  { s with arbiter := s.arbiter.granting c (s.packFor n) (s.checkFor n) }.setChannel c { s.channel c with state := .run }

section
variable {s : State} {c : ChannelId} {n : Need}

theorem State.grant_eq {j : Job} {x : Context} (hj : (s.channel c).job = some j)
    (hx : (s.channel c).work.bind Working.ctx = some x) :
    s.grant c n = (s.recordGrant c n).loadUnits j x (s.packFor n) (s.checkFor n) := by
  obtain ⟨⟨_, _, _, _, _, _⟩, hw, rfl⟩ := Option.bind_eq_some_iff.1 hx
  unfold State.grant
  dsimp only
  split
  · rename_i e e'
    cases hj.symm.trans e
    cases hw.symm.trans e'
    rfl
  · rename_i hno
    exact absurd hw (hno _ _ _ _ _ _ _ hj)

/-- A grant is recorded, and its units loaded where the channel has a job and a context. -/
theorem State.grant_cases (s : State) (c : ChannelId) (n : Need) :
    s.grant c n = s.recordGrant c n ∨
      ∃ j x, s.grant c n = (s.recordGrant c n).loadUnits j x (s.packFor n) (s.checkFor n) := by
  unfold State.grant
  dsimp only
  split
  · exact .inr ⟨_, _, rfl⟩
  · exact .inl rfl

theorem State.packFor_free {p : PackId} (h : s.packFor n = some p) : s.arbiter.packs.get p = none := by
  unfold State.packFor at h
  split at h
  · exact State.freePack_spec h
  · contradiction

theorem State.checkFor_free {k : CheckId} (h : s.checkFor n = some k) : s.arbiter.checks.get k = none := by
  unfold State.checkFor at h
  split at h
  · exact State.freeCheck_spec h
  · contradiction

theorem State.grant_packs (q : PackId) : (s.grant c n).arbiter.packs.get q =
    if s.packFor n = some q then some c else s.arbiter.packs.get q := by
  rw [State.grant_arbiter, ← State.packFor]
  unfold Arbiter.granting
  cases s.packFor n with
  | none => rfl
  | some p => simp [Vector.get_set_fin, eq_comm]

theorem State.grant_checks (l : CheckId) : (s.grant c n).arbiter.checks.get l =
    if s.checkFor n = some l then some c else s.arbiter.checks.get l := by
  rw [State.grant_arbiter, ← State.checkFor]
  unfold Arbiter.granting
  cases s.checkFor n with
  | none => rfl
  | some p => simp [Vector.get_set_fin, eq_comm]

theorem State.grant_channel (d : ChannelId) : (s.grant c n).channel d =
    if d = c then { s.channel c with state := .run } else s.channel d := by
  rw [State.channel_congr (s.grant_channels c n), State.setChannel_channel]

theorem State.grant_pack_ne {q : PackId} (h : s.packFor n ≠ some q) : (s.grant c n).pack q = s.pack q := by
  rcases s.grant_cases c n with e | ⟨j, x, e⟩ <;> rw [e]
  · rfl
  · rw [State.loadUnits_pack_ne _ _ _ h]
    rfl

theorem State.grant_check_ne {l : CheckId} (h : s.checkFor n ≠ some l) : (s.grant c n).check l = s.check l := by
  rcases s.grant_cases c n with e | ⟨j, x, e⟩ <;> rw [e]
  · rfl
  · rw [State.loadUnits_check_ne _ _ _ h]
    rfl

theorem State.grant_wantedBy_ne {r : Requester} (hp : (s.packFor n).map .pk ≠ some r)
    (hk : (s.checkFor n).map .ck ≠ some r) : (s.grant c n).wantedBy r = s.wantedBy r := by
  rcases s.grant_cases c n with e | ⟨j, x, e⟩ <;> rw [e]
  · rfl
  · rw [State.loadUnits_wantedBy_ne _ _ _ hp hk]
    rfl

/-- A channel without units has just those recorded at its grant. -/
theorem State.GrantsPlaced.grant (h : s.GrantsPlaced) (hc : (s.channel c).state ≠ .run) : (s.grant c n).GrantsPlaced := by
  have hp : ∀ p, s.arbiter.packs.get p ≠ some c := fun p e => hc (h.packState p c e)
  have hk : ∀ k, s.arbiter.checks.get k ≠ some c := fun k e => hc (h.checkState k c e)
  have hrun : ∀ d, (s.channel d).state = .run → ((s.grant c n).channel d).state = .run := fun d e => by
    rw [State.grant_channel]
    split
    · rfl
    · exact e
  have hrun' : ((s.grant c n).channel c).state = .run := by rw [State.grant_channel, if_pos rfl]
  refine ⟨⟨fun p q d e e' => ?_, fun k l d e e' => ?_⟩, fun p d e => ?_, fun k d e => ?_⟩
  · rw [State.grant_packs] at e e'
    split at e <;> split at e'
    · rename_i hp1 hp2
      exact Option.some.inj (hp1.symm.trans hp2)
    · cases e
      exact absurd e' (hp q)
    · cases e'
      exact absurd e (hp p)
    · exact h.packOnce p q d e e'
  · rw [State.grant_checks] at e e'
    split at e <;> split at e'
    · rename_i hk1 hk2
      exact Option.some.inj (hk1.symm.trans hk2)
    · cases e
      exact absurd e' (hk l)
    · cases e'
      exact absurd e (hk k)
    · exact h.checkOnce k l d e e'
  · rw [State.grant_packs] at e
    split at e
    · cases e
      exact hrun'
    · exact hrun d (h.packState p d e)
  · rw [State.grant_checks] at e
    split at e
    · cases e
      exact hrun'
    · exact hrun d (h.checkState k d e)

theorem State.GrantsPlaced.grant_packOf (h : s.GrantsPlaced) (hc : (s.channel c).state ≠ .run) :
    (s.grant c n).packOf c = s.packFor n := by
  cases e : s.packFor n with
  | some p => exact (h.grant hc).toUnitsOnce.packOf_eq (by rw [State.grant_packs, if_pos e])
  | none =>
    refine State.packOf_eq_none.2 fun p hp => ?_
    rw [State.grant_packs, e, if_neg (by simp)] at hp
    exact hc (h.packState p c hp)

theorem State.GrantsPlaced.grant_checkOf (h : s.GrantsPlaced) (hc : (s.channel c).state ≠ .run) :
    (s.grant c n).checkOf c = s.checkFor n := by
  cases e : s.checkFor n with
  | some k => exact (h.grant hc).toUnitsOnce.checkOf_eq (by rw [State.grant_checks, if_pos e])
  | none =>
    refine State.checkOf_eq_none.2 fun k hk => ?_
    rw [State.grant_checks, e, if_neg (by simp)] at hk
    exact hc (h.checkState k c hk)

/-- Whether a run is over is told by its pack unit, or by the check unit of a run without one. -/
theorem State.runIsOver_iff : s.runIsOver c = true ↔ (s.channel c).state = .run ∧
    ((∃ p, s.packOf c = some p ∧ (s.pack p).isOver = true) ∨
      s.packOf c = none ∧ ∃ k, s.checkOf c = some k ∧ (s.check k).ending ≠ .none) := by
  unfold State.runIsOver
  cases s.packOf c <;> cases s.checkOf c <;> simp

/-- A run that is over at its grant has formed no request. -/
theorem State.GrantsPlaced.grant_wantedBy_of_over (h : s.GrantsPlaced) (hc : (s.channel c).state ≠ .run)
    (ho : (s.grant c n).runIsOver c = true) (r : Requester) : (s.grant c n).wantedBy r = s.wantedBy r := by
  obtain ⟨-, ho⟩ := State.runIsOver_iff.1 ho
  rw [h.grant_packOf hc, h.grant_checkOf hc] at ho
  rcases s.grant_cases c n with e | ⟨j, x, e⟩
  · rw [e]
    rfl
  · rw [e] at ho ⊢
    rw [State.loadUnits_wantedBy_of_over]
    · rfl
    · intro q hq
      obtain ⟨p, hp, ho⟩ | ⟨hn, -⟩ := ho
      · cases hp.symm.trans hq
        exact ho
      · cases hn.symm.trans hq
    · intro l hn hl
      obtain ⟨p, hp, -⟩ | ⟨-, k, hk, ho⟩ := ho
      · cases hp.symm.trans hn
      · cases hk.symm.trans hl
        exact ho

end

/-! ### A release of units and the end of a run (R66, R85) -/

section
variable {s : State} {c : ChannelId}

theorem State.releaseUnits_pack_ne {p : PackId} (h : s.arbiter.packs.get p ≠ some c) :
    (s.releaseUnits c).pack p = s.pack p := by
  have hne : ∀ q, s.packOf c = some q → p ≠ q := fun q e e' => h (e' ▸ State.packOf_spec e)
  unfold State.releaseUnits
  dsimp only
  split <;> split <;> simp_all [State.pack, Vector.get_set_fin, State.setPack, State.setCheck]

theorem State.releaseUnits_check_ne {k : CheckId} (h : s.arbiter.checks.get k ≠ some c) :
    (s.releaseUnits c).check k = s.check k := by
  have hne : ∀ l, s.checkOf c = some l → k ≠ l := fun l e e' => h (e' ▸ State.checkOf_spec e)
  unfold State.releaseUnits
  dsimp only
  split <;> split <;> simp_all [State.check, Vector.get_set_fin, State.setPack, State.setCheck]

theorem State.UnitsOnce.releaseUnits_packs (h : s.UnitsOnce) {p : PackId} {d : ChannelId} :
    (s.releaseUnits c).arbiter.packs.get p = some d ↔ s.arbiter.packs.get p = some d ∧ d ≠ c := by
  rw [h.releaseUnits_arbiter, Spec.unitsFree_packs]
  split
  · rename_i e
    simp [e, eq_comm]
  · rename_i e
    exact ⟨fun e' => ⟨e', fun e'' => e (e'' ▸ e')⟩, And.left⟩

theorem State.UnitsOnce.releaseUnits_checks (h : s.UnitsOnce) {k : CheckId} {d : ChannelId} :
    (s.releaseUnits c).arbiter.checks.get k = some d ↔ s.arbiter.checks.get k = some d ∧ d ≠ c := by
  rw [h.releaseUnits_arbiter, Spec.unitsFree_checks]
  split
  · rename_i e
    simp [e, eq_comm]
  · rename_i e
    exact ⟨fun e' => ⟨e', fun e'' => e (e'' ▸ e')⟩, And.left⟩

/-- Units freed leave the units in place, whatever the channel that gives them up has become. -/
theorem State.UnitsOnce.releaseUnits (h : s.UnitsOnce)
    (hp : ∀ p d, d ≠ c → s.arbiter.packs.get p = some d → (s.channel d).state = .run)
    (hk : ∀ k d, d ≠ c → s.arbiter.checks.get k = some d → (s.channel d).state = .run) :
    (s.releaseUnits c).GrantsPlaced where
  packState p d e := by
    obtain ⟨e, hd⟩ := h.releaseUnits_packs.1 e
    rw [State.releaseUnits_channel]
    exact hp p d hd e
  checkState k d e := by
    obtain ⟨e, hd⟩ := h.releaseUnits_checks.1 e
    rw [State.releaseUnits_channel]
    exact hk k d hd e
  packOnce p q d e e' := h.packOnce p q d (h.releaseUnits_packs.1 e).1 (h.releaseUnits_packs.1 e').1
  checkOnce k l d e e' := h.checkOnce k l d (h.releaseUnits_checks.1 e).1 (h.releaseUnits_checks.1 e').1

theorem State.GrantsPlaced.releaseUnits (h : s.GrantsPlaced) : (s.releaseUnits c).GrantsPlaced :=
  h.toUnitsOnce.releaseUnits (fun p d _ => h.packState p d) fun k d _ => h.checkState k d

/-- The channel of a run that ended, its units not yet free. -/
def State.runEnded (c : ChannelId) (s : State) : State :=
  match (s.channel c).job, (s.channel c).work.bind Working.ctx with
  | some j, some x =>
    s.setChannel c
      { s.channel c with
        state := .retire, recordWritten := false, work := some ((s.runEnd c x).working j.entry x) }
  | _, _ => s

/-- The end of a run, where the channel has a job and a context. -/
theorem State.finishRun_eq {j : Job} {x : Context} (hj : (s.channel c).job = some j)
    (hx : (s.channel c).work.bind Working.ctx = some x) : s.finishRun c = (s.runEnded c).releaseUnits c := by
  obtain ⟨⟨_, _, _, _, _, _⟩, hw, rfl⟩ := Option.bind_eq_some_iff.1 hx
  unfold State.finishRun State.runEnded
  dsimp only
  rw [hj, hw]
  rfl

theorem State.finishRun_cases (s : State) (c : ChannelId) :
    s.finishRun c = s ∨ s.finishRun c = (s.runEnded c).releaseUnits c := by
  unfold State.finishRun State.runEnded
  dsimp only
  split
  · rename_i hj hw
    rw [hj, hw]
    exact .inr rfl
  · exact .inl rfl

end

/-! ### What a grant or the end of a run leaves another channel's units (R82, R85) -/

/-- The channel and its units are in `t` as in `s`. -/
structure State.UnitsSame (d : ChannelId) (s t : State) : Prop where
  channel : t.channel d = s.channel d
  packs : ∀ p, t.arbiter.packs.get p = some d ↔ s.arbiter.packs.get p = some d
  checks : ∀ k, t.arbiter.checks.get k = some d ↔ s.arbiter.checks.get k = some d
  pack : ∀ p, s.arbiter.packs.get p = some d → t.pack p = s.pack p
  check : ∀ k, s.arbiter.checks.get k = some d → t.check k = s.check k
  wanted : ∀ r, Spec.unitOf s d r → t.wantedBy r = s.wantedBy r

section
variable {s t : State} {c d : ChannelId}

theorem State.UnitsSame.rfl : s.UnitsSame d s :=
  ⟨Eq.refl _, fun _ => .rfl, fun _ => .rfl, fun _ _ => Eq.refl _, fun _ _ => Eq.refl _, fun _ _ => Eq.refl _⟩

theorem State.UnitsSame.unitOf (h : s.UnitsSame d t) (r : Requester) : Spec.unitOf t d r ↔ Spec.unitOf s d r := by
  cases r with
  | ch => exact .rfl
  | pk p => exact h.packs p
  | ck k => exact h.checks k
  | cw => exact .rfl

theorem State.UnitsSame.packOf (h : s.UnitsSame d t) : t.packOf d = s.packOf d := by
  simp only [State.packOf]
  congr 1
  funext p
  exact Bool.eq_iff_iff.2 (by simpa using h.packs p)

theorem State.UnitsSame.checkOf (h : s.UnitsSame d t) : t.checkOf d = s.checkOf d := by
  simp only [State.checkOf]
  congr 1
  funext k
  exact Bool.eq_iff_iff.2 (by simpa using h.checks k)

theorem State.UnitsSame.runIsOver (h : s.UnitsSame d t) : t.runIsOver d = s.runIsOver d := by
  have hp : ∀ p, s.packOf d = some p → t.pack p = s.pack p := fun p e => h.pack p (State.packOf_spec e)
  have hk : ∀ k, s.checkOf d = some k → t.check k = s.check k := fun k e => h.check k (State.checkOf_spec e)
  rw [Bool.eq_iff_iff, State.runIsOver_iff, State.runIsOver_iff, h.channel, h.packOf, h.checkOf]
  refine and_congr_right' (or_congr (exists_congr fun p => and_congr_right fun e => by rw [hp p e])
    (and_congr_right' (exists_congr fun k => and_congr_right fun e => by rw [hk k e])))

theorem State.grant_unitsSame {n : Need} (h : d ≠ c) : s.UnitsSame d (s.grant c n) where
  channel := by rw [State.grant_channel, if_neg h]
  packs p := by
    rw [State.grant_packs]
    split
    · rename_i e
      simp [State.packFor_free e, Ne.symm h]
    · rfl
  checks k := by
    rw [State.grant_checks]
    split
    · rename_i e
      simp [State.checkFor_free e, Ne.symm h]
    · rfl
  pack p hp := State.grant_pack_ne fun e => by simp [State.packFor_free e] at hp
  check k hk := State.grant_check_ne fun e => by simp [State.checkFor_free e] at hk
  wanted r hr := by
    refine State.grant_wantedBy_ne (fun e => ?_) fun e => ?_
    · obtain ⟨p, hp, rfl⟩ := Option.map_eq_some_iff.1 e
      exact absurd ((State.packFor_free hp).symm.trans hr) (by simp)
    · obtain ⟨k, hk, rfl⟩ := Option.map_eq_some_iff.1 e
      exact absurd ((State.checkFor_free hk).symm.trans hr) (by simp)

theorem State.UnitsOnce.releaseUnits_unitsSame (h : s.UnitsOnce) (hd : d ≠ c) :
    s.UnitsSame d (s.releaseUnits c) where
  channel := State.releaseUnits_channel ..
  packs p := h.releaseUnits_packs.trans (and_iff_left hd)
  checks k := h.releaseUnits_checks.trans (and_iff_left hd)
  pack p hp := State.releaseUnits_pack_ne (by simp [hp, hd])
  check k hk := State.releaseUnits_check_ne (by simp [hk, hd])
  wanted r _ := State.wantedBy_congr (by simp) r

theorem State.UnitsSame.trans {u : State} (h : s.UnitsSame d t) (h' : t.UnitsSame d u) : s.UnitsSame d u where
  channel := h'.channel.trans h.channel
  packs p := (h'.packs p).trans (h.packs p)
  checks k := (h'.checks k).trans (h.checks k)
  pack p hp := (h'.pack p ((h.packs p).2 hp)).trans (h.pack p hp)
  check k hk := (h'.check k ((h.checks k).2 hk)).trans (h.check k hk)
  wanted r hr := (h'.wanted r ((h.unitOf r).2 hr)).trans (h.wanted r hr)

theorem State.runEnded_frame (s : State) (c : ChannelId) :
    (s.runEnded c).arbiter = s.arbiter ∧ (s.runEnded c).packs = s.packs ∧ (s.runEnded c).checks = s.checks ∧
      (s.runEnded c).biu = s.biu ∧ ∀ d, d ≠ c → (s.runEnded c).channel d = s.channel d := by
  unfold State.runEnded
  split
  · exact ⟨Eq.refl _, Eq.refl _, Eq.refl _, Eq.refl _, fun d h => by rw [State.setChannel_channel, if_neg h]⟩
  · exact ⟨Eq.refl _, Eq.refl _, Eq.refl _, Eq.refl _, fun _ _ => Eq.refl _⟩

theorem State.runEnded_unitsSame (s : State) {c d : ChannelId} (h : d ≠ c) : s.UnitsSame d (s.runEnded c) := by
  obtain ⟨ha, hp, hk, hb, hc⟩ := s.runEnded_frame c
  exact
    { channel := hc d h
      packs := fun p => by rw [ha]
      checks := fun k => by rw [ha]
      pack := fun p _ => State.pack_congr hp p
      check := fun k _ => State.check_congr hk k
      wanted := fun r _ => State.wantedBy_congr hb r }

theorem State.UnitsOnce.runEnded (h : s.UnitsOnce) : (s.runEnded c).UnitsOnce := by
  obtain ⟨ha, -⟩ := s.runEnded_frame c
  exact ⟨by simpa only [ha] using h.packOnce, by simpa only [ha] using h.checkOnce⟩

theorem State.UnitsOnce.finishRun_unitsSame (h : s.UnitsOnce) (hd : d ≠ c) : s.UnitsSame d (s.finishRun c) := by
  rcases s.finishRun_cases c with e | e <;> rw [e]
  · exact .rfl
  · exact (s.runEnded_unitsSame hd).trans (h.runEnded.releaseUnits_unitsSame hd)

theorem State.GrantsPlaced.finishRun (h : s.GrantsPlaced) : (s.finishRun c).GrantsPlaced := by
  obtain ⟨ha, -, -, -, hc⟩ := s.runEnded_frame c
  rcases s.finishRun_cases c with e | e <;> rw [e]
  · exact h
  · refine h.toUnitsOnce.runEnded.releaseUnits (fun p d hd e => ?_) fun k d hd e => ?_
    · rw [hc d hd]
      exact h.packState p d (ha ▸ e)
    · rw [hc d hd]
      exact h.checkState k d (ha ▸ e)

/-- The end of a run frees the channel's units or, without a job, leaves them. -/
theorem State.UnitsOnce.finishRun_arbiter (h : s.UnitsOnce) {j : Job} {x : Context} (hj : (s.channel c).job = some j)
    (hx : (s.channel c).work.bind Working.ctx = some x) : (s.finishRun c).arbiter = Spec.unitsFree c s.arbiter := by
  rw [State.finishRun_eq hj hx, h.runEnded.releaseUnits_arbiter, (s.runEnded_frame c).1]

theorem State.finishRun_state {j : Job} {x : Context} (hj : (s.channel c).job = some j)
    (hx : (s.channel c).work.bind Working.ctx = some x) : ((s.finishRun c).channel c).state = .retire := by
  rw [State.finishRun_eq hj hx, State.releaseUnits_channel, State.runEnded, hj, hx]
  simp

end

/-! ### A waiting channel at its grant (R82 to R84) -/

/-- What a grant and the evaluation after it have made of a waiting channel, that stood as `ch`: its run over and its units
free; or RUN with its units, its first read formed unless the run ends at once. -/
def State.Served (t : State) (d : ChannelId) (ch : Channel) (j : Job) (x : Context) (op : Op) (kind : CodeKind)
    (tap : Tap) : Prop :=
  (Spec.endsAtGrant j x = true ∧ (t.channel d).state = .retire) ∨
    (t.channel d = { ch with state := .run } ∧ t.runIsOver d = Spec.endsAtGrant j x ∧
      Spec.unitsFree d t.arbiter ≠ t.arbiter ∧
      (Spec.endsAtGrant j x = false → ∀ f fs, j.source = f :: fs →
        if op = .check then Spec.checkBegun t d j x kind tap f else Spec.packBegun t d j x op kind tap f))

section
variable {s t : State} {d : ChannelId} {j : Job} {x : Context} {op : Op} {kind : CodeKind} {tap : Tap}

theorem State.UnitsSame.unitsFree_eq (h : s.UnitsSame d t) :
    Spec.unitsFree d t.arbiter = t.arbiter ↔ Spec.unitsFree d s.arbiter = s.arbiter := by
  simp only [Spec.unitsFree_eq_self, ne_eq, h.packs, h.checks]

theorem State.UnitsSame.checkBegun (h : s.UnitsSame d t) {f : Fragment} (hb : Spec.checkBegun s d j x kind tap f) :
    Spec.checkBegun t d j x kind tap f := by
  obtain ⟨k, hk, hu, hw⟩ := hb
  exact ⟨k, (h.checks k).2 hk, (h.check k hk).trans hu, (h.wanted (.ck k) hk).trans hw⟩

theorem State.UnitsSame.packBegun (h : s.UnitsSame d t) {f : Fragment} (hb : Spec.packBegun s d j x op kind tap f) :
    Spec.packBegun t d j x op kind tap f := by
  obtain ⟨p, joined, hp, hn, hk, hu, hw⟩ := hb
  refine ⟨p, joined, (h.packs p).2 hp, hn, fun e => ?_, (h.pack p hp).trans hu, (h.wanted (.pk p) hp).trans hw⟩
  obtain ⟨k, hg, hj, hc⟩ := hk e
  exact ⟨k, (h.checks k).2 hg, hj, (h.check k hg).trans hc⟩

theorem State.UnitsSame.served (h : s.UnitsSame d t) {ch : Channel} (hs : s.Served d ch j x op kind tap) :
    t.Served d ch j x op kind tap := by
  rcases hs with ⟨he, hr⟩ | ⟨hc, ho, hu, hb⟩
  · exact .inl ⟨he, by rw [h.channel, hr]⟩
  · refine .inr ⟨h.channel.trans hc, h.runIsOver.trans ho, mt h.unitsFree_eq.1 hu, fun he f fs hf => ?_⟩
    have := hb he f fs hf
    split
    · rename_i e
      rw [if_pos e] at this
      exact h.checkBegun this
    · rename_i e
      rw [if_neg e] at this
      exact h.packBegun this

theorem State.offerTo_nil_check (joined : Option (CheckId × Tap)) (l : CheckId) :
    (s.offerTo joined []).check l = s.check l := by
  unfold State.offerTo
  split
  · rw [State.setCheck_check]
    split
    · rename_i e
      rw [e]
      rfl
    · rfl
  · rfl

/-- The first read of a run that begins so: the units stand as loaded. -/
theorem State.drivePack_of_read {p : PackId} {q : BurstRequest}
    (h : (s.pack p).advance = ({ unit := s.pack p, offered := [] }, some q)) :
    (∀ l, (s.drivePack p).check l = s.check l) ∧ (s.drivePack p).pack p = s.pack p ∧
      (s.drivePack p).wantedBy (.pk p) = some q := by
  refine ⟨fun l => ?_, ?_, ?_⟩
  · unfold State.drivePack
    rw [h]
    exact State.offerTo_nil_check ..
  · rw [State.drivePack_pack, if_pos rfl, h]
  · rw [State.drivePack_wantedBy, h, if_pos ⟨rfl, rfl⟩]

/-- The pack unit of a granted job, as the spec loads it (R40, R95). -/
theorem Spec.WaitsFor.packUnit (hw : Spec.WaitsFor s d j x op kind tap) (k : Option CheckId) :
    j.packUnit x k = Spec.packLoaded (Spec.modeOf op) j x (k.map fun k => (k, tap)) := by
  rw [Job.packUnit, Spec.packLoaded_eq hw.op, JobEntry.tap, hw.tap]
  rfl

theorem State.packFor_of_meets {n : Need} (hm : s.meets n = true) (hn : n.pack = true) : ∃ p, s.packFor n = some p := by
  simp only [State.meets, hn, Bool.not_true, Bool.false_or, Bool.and_eq_true] at hm
  simpa [State.packFor, hn] using Option.isSome_iff_exists.1 hm.1

theorem State.checkFor_of_meets {n : Need} (hm : s.meets n = true) (hn : n.check = true) : ∃ k, s.checkFor n = some k := by
  simp only [State.meets, hn, Bool.not_true, Bool.false_or, Bool.and_eq_true] at hm
  simpa [State.checkFor, hn] using Option.isSome_iff_exists.1 hm.2

section
variable {n : Need} (h : s.GrantsPlaced) (hc : (s.channel d).state ≠ .run) (hw : Spec.WaitsFor s d j x op kind tap)
  (hn : n = { pack := op != .check, check := kind != .none }) (hm : s.meets n = true)
include h hc hw hn hm

/-- The channel of a CHECK job at its grant (R84, R119, R123). -/
theorem State.GrantsPlaced.grant_served_check (hop : op = .check) (hkind : n.check = true) :
    (s.grant d n).Served d (s.channel d) j x op kind tap := by
  have hrun : (s.grant d n).channel d = { s.channel d with state := .run } := by rw [State.grant_channel, if_pos rfl]
  have hp := h.grant_packOf (n := n) hc
  have hk := h.grant_checkOf (n := n) hc
  have hg := State.grant_eq (n := n) hw.job hw.ctx
  have hpn : s.packFor n = none := by
    subst hn
    simp [State.packFor, hop]
  obtain ⟨k, hkk⟩ := State.checkFor_of_meets hm hkind
  rw [hpn] at hp hg
  rw [hkk] at hk hg
  rw [State.loadUnits_check] at hg
  have hgk := State.checkOf_spec hk
  have hload : CheckUnit.load j x none = Spec.checkLoaded kind tap j x none := Spec.checkLoaded_eq hw.kind hw.tap x none
  obtain ⟨hread, hdone⟩ := Spec.checkLoaded_advance kind tap j x
  have hu : (s.grant d n).check k = (Spec.checkLoaded kind tap j x none).advance.1 := by
    rw [hg, State.driveCheck_check, if_pos rfl, State.setCheck_check, if_pos rfl, hload]
  refine .inr ⟨hrun, ?_, fun e => (Spec.unitsFree_eq_self.1 e).2 k hgk, fun he f fs hf => ?_⟩
  · have hend : (Spec.checkLoaded kind tap j x none).ending = .none := rfl
    rw [Bool.eq_iff_iff, State.runIsOver_iff, hp, hk, hrun, Spec.endsAtGrant_check (hop ▸ hw.op)]
    cases hs : j.source with
    | nil => simp [hu, hdone hs]
    | cons f fs => simp [hu, hread f fs hs, hend]
  · rw [if_pos hop]
    refine ⟨k, hgk, hu.trans (by rw [hread f fs hf]), ?_⟩
    change (s.grant d n).wantedBy (.ck k) = _
    rw [hg, State.driveCheck_wantedBy, State.setCheck_check, if_pos rfl, hload, hread f fs hf, if_pos ⟨rfl, rfl⟩]

/-- The channel of a PASS, PACK or UNPACK job at its grant (R84, R95, R100, R109). -/
theorem State.GrantsPlaced.grant_served_pack (hop : op ≠ .check) :
    (s.grant d n).Served d (s.channel d) j x op kind tap := by
  have hrun : (s.grant d n).channel d = { s.channel d with state := .run } := by rw [State.grant_channel, if_pos rfl]
  have hp := h.grant_packOf (n := n) hc
  have hk := h.grant_checkOf (n := n) hc
  have hg := State.grant_eq (n := n) hw.job hw.ctx
  obtain ⟨p, hpp⟩ := State.packFor_of_meets hm (by subst hn; simpa using hop)
  rw [hpp] at hp hg
  rw [State.loadUnits_pack] at hg
  have hgp := State.packOf_spec hp
  generalize hjd : (s.checkFor n).map (fun k => (k, tap)) = joined
  have hload : ((s.recordGrant d n).loadPack j x p (s.checkFor n)).pack p = Spec.packLoaded (Spec.modeOf op) j x joined := by
    rw [State.loadPack_pack, if_pos rfl, hw.packUnit, hjd]
  refine .inr ⟨hrun, ?_, fun e => (Spec.unitsFree_eq_self.1 e).1 p hgp, fun he f fs hf => ?_⟩
  · have hu : ((s.grant d n).pack p).isOver = Spec.endsAtGrant j x := by
      rw [hg, State.drivePack_pack, if_pos rfl, hload, Spec.packLoaded_isOver hw.op hop]
    rw [Bool.eq_iff_iff, State.runIsOver_iff, hp, hrun]
    simp [hu]
  · rw [if_neg hop]
    have ha := Spec.packLoaded_begins hw.op hop he joined hf
    rw [← hload] at ha
    obtain ⟨hch, hpk, hwt⟩ := State.drivePack_of_read ha
    rw [← hg] at hch hpk hwt
    refine ⟨p, joined, hgp, fun e => ?_, fun e => ?_, hpk.trans hload, hwt⟩
    · subst hn hjd
      simp [State.checkFor, e]
    · obtain ⟨k, hkk⟩ := State.checkFor_of_meets hm (by subst hn; simpa using e)
      rw [hkk] at hk hjd
      refine ⟨k, State.checkOf_spec hk, hjd.symm, (hch k).trans ?_⟩
      rw [State.loadPack_check, if_pos hkk, Spec.checkLoaded_eq hw.kind hw.tap]

end

/-- A waiting channel that is granted (R82 to R84). -/
theorem State.GrantsPlaced.grant_served (h : s.GrantsPlaced) (hc : (s.channel d).state ≠ .run)
    (hw : Spec.WaitsFor s d j x op kind tap) {n : Need} (hn : s.arbiter.waiting.get d = some n) (hm : s.meets n = true)
    (hsome : n.pack = true ∨ n.check = true) : (s.grant d n).Served d (s.channel d) j x op kind tap := by
  have he : n = { pack := op != .check, check := kind != .none } := Option.some.inj (hn.symm.trans hw.need)
  by_cases hop : op = .check
  · have hnp : n.pack ≠ true := by simp [he, hop]
    exact h.grant_served_check hc hw he hm hop (hsome.resolve_left hnp)
  · exact h.grant_served_pack hc hw he hm hop

end

end Sys2Proof.Machine
end

