-- ==== Sys2Proof/Proofs/Evaluations.lean ====
section
/-! SUPPORT. An evaluation with those it brings about (R82, R85), against the spec's scan, and that five levels are enough. -/

namespace Sys2Proof.Machine

-- One theorem at a time, as in the tests: all at once they pass the memory limit.
set_option Elab.async false

/-! ### Evaluations (R82, R85) -/

/-- What grants keep, a scan keeps. -/
theorem State.scan_keeps {P : State → Prop}
    (hgrant : ∀ t d n, P t → t.arbiter.waiting.get d = some n → t.meets n = true → P (t.grant d n)) {s : State}
    (h : P s) : P s.scan := by
  refine foldl_keeps (fun t d ht => ?_) _ h
  unfold State.examine
  split
  · split
    · exact hgrant t d _ ht ‹_› ‹_›
    · exact ht
  · exact ht

/-- What grants and ends of runs keep, an evaluation keeps. -/
theorem State.evaluate_keeps {P : State → Prop}
    (hgrant : ∀ t d n, P t → t.arbiter.waiting.get d = some n → t.meets n = true → P (t.grant d n))
    (hfinish : ∀ t d, P t → t.runIsOver d = true → P (t.finishRun d)) (n : Nat) {s : State} (h : P s) :
    P (s.evaluate n) := by
  induction n generalizing s with
  | zero => exact h
  | succ n ih =>
    refine foldl_keeps (fun t d ht => ?_) _ (State.scan_keeps hgrant h)
    split
    · exact ih (hfinish t d ht ‹_›)
    · exact ht

/-- `t` has come of `s` by grants and ends of runs: a channel still waiting stands as it did, one granted is served, and a unit
that is free, or whose run is over, has formed no request. -/
structure State.Evaluating (s t : State) : Prop where
  holds : t.HoldsKept
  grants : t.GrantsPlaced
  waiting : ∀ d n, t.arbiter.waiting.get d = some n → s.arbiter.waiting.get d = some n ∧ t.channel d = s.channel d
  wanted : ∀ r, (∀ d, Spec.unitOf t d r → t.runIsOver d = true) → t.wantedBy r = s.wantedBy r
  served : ∀ d j x op kind tap, Spec.WaitsFor s d j x op kind tap → t.arbiter.waiting.get d = none →
    t.Served d (s.channel d) j x op kind tap

/-- Each waiting channel's needed set names a kind of unit. -/
def State.NeedsUnits (s : State) : Prop :=
  ∀ d n, s.arbiter.waiting.get d = some n → n.pack = true ∨ n.check = true

/-- A needed set with no kind in it would be met at once (R80). -/
theorem State.UnitsKept.needsUnits {s : State} (h : s.UnitsKept) : s.NeedsUnits := by
  intro d n hn
  by_contra hno
  rw [not_or] at hno
  exact h.noneMet d n hn ⟨fun e => absurd e hno.1, fun e => absurd e hno.2⟩

section
variable {s t : State}

theorem State.Evaluating.refl (h : s.HoldsKept) (hg : s.GrantsPlaced) : s.Evaluating s where
  holds := h
  grants := hg
  waiting d n hn := ⟨hn, rfl⟩
  wanted r _ := rfl
  served d j x op kind tap hw hn := absurd (hw.need.symm.trans hn) (by simp)

theorem State.Evaluating.waitsFor (h : s.Evaluating t) {d : ChannelId} {n : Need} (hn : t.arbiter.waiting.get d = some n)
    {j : Job} {x : Context} {op : Op} {kind : CodeKind} {tap : Tap} (hw : Spec.WaitsFor s d j x op kind tap) :
    Spec.WaitsFor t d j x op kind tap := by
  obtain ⟨hs, hc⟩ := h.waiting d n hn
  have hc' : t.channels.get d = s.channels.get d := hc
  exact
    { hw with
      need := hn.trans (hs.symm.trans hw.need)
      job := by rw [hc', hw.job]
      ctx := by rw [hc', hw.ctx] }

/-- A channel of the waiting set is not in RUN. -/
theorem State.HoldsKept.waiting_state (h : s.HoldsKept) {d : ChannelId} {n : Need}
    (hn : s.arbiter.waiting.get d = some n) : (s.channel d).state = .waitUnits :=
  (h.admits d).waiting (by simp [hn])

theorem Spec.unitOf_pack_or_check {d : ChannelId} {r : Requester} (h : Spec.unitOf s d r) :
    (∃ p, r = .pk p ∧ s.arbiter.packs.get p = some d) ∨ ∃ k, r = .ck k ∧ s.arbiter.checks.get k = some d := by
  cases r with
  | ch => exact h.elim
  | pk p => exact .inl ⟨p, rfl, h⟩
  | ck k => exact .inr ⟨k, rfl, h⟩
  | cw => exact h.elim

theorem State.GrantsPlaced.unitOf_state (h : s.GrantsPlaced) {d : ChannelId} {r : Requester} (hr : Spec.unitOf s d r) :
    (s.channel d).state = .run := by
  rcases Spec.unitOf_pack_or_check hr with ⟨p, rfl, hp⟩ | ⟨k, rfl, hk⟩
  · exact h.packState p d hp
  · exact h.checkState k d hk

/-- A unit that a grant records was free. -/
theorem State.grant_unitOf {c : ChannelId} {n : Need} {r : Requester}
    (h : (s.packFor n).map .pk = some r ∨ (s.checkFor n).map .ck = some r) :
    Spec.unitOf (s.grant c n) c r ∧ ∀ d, ¬ Spec.unitOf s d r := by
  rcases h with h | h
  · obtain ⟨p, hp, rfl⟩ := Option.map_eq_some_iff.1 h
    refine ⟨?_, fun d e => absurd ((State.packFor_free hp).symm.trans e) (by simp)⟩
    change (s.grant c n).arbiter.packs.get p = some c
    rw [State.grant_packs, if_pos hp]
  · obtain ⟨k, hk, rfl⟩ := Option.map_eq_some_iff.1 h
    refine ⟨?_, fun d e => absurd ((State.checkFor_free hk).symm.trans e) (by simp)⟩
    change (s.grant c n).arbiter.checks.get k = some c
    rw [State.grant_checks, if_pos hk]

theorem State.Evaluating.grant (h : s.Evaluating t) (hneed : s.NeedsUnits) {c : ChannelId} {n : Need}
    (hn : t.arbiter.waiting.get c = some n) (hm : t.meets n = true) : s.Evaluating (t.grant c n) := by
  have hst := h.holds.waiting_state hn
  have hrun : (t.channel c).state ≠ .run := by simp [hst]
  have hwait : ∀ d, (t.grant c n).arbiter.waiting.get d = if d = c then none else t.arbiter.waiting.get d := fun d => by
    rw [State.grant_waiting, Vector.get_set_fin]
  refine ⟨h.holds.grant hst n, h.grants.grant hrun, fun d m hd => ?_, fun r hr => ?_,
    fun d j x op kind tap hw hd => ?_⟩
  · rw [hwait] at hd
    split at hd
    · contradiction
    · rename_i hdc
      obtain ⟨h1, h2⟩ := h.waiting d m hd
      exact ⟨h1, (State.grant_unitsSame hdc).channel.trans h2⟩
  · by_cases hnew : (t.packFor n).map .pk = some r ∨ (t.checkFor n).map .ck = some r
    · obtain ⟨hu, hfree⟩ := State.grant_unitOf (c := c) hnew
      rw [h.grants.grant_wantedBy_of_over hrun (hr c hu)]
      exact h.wanted r fun d e => absurd e (hfree d)
    · rw [not_or] at hnew
      rw [State.grant_wantedBy_ne hnew.1 hnew.2]
      refine h.wanted r fun d e => ?_
      have hdc : d ≠ c := fun hdc => hrun (hdc ▸ h.grants.unitOf_state e)
      have hsame := State.grant_unitsSame (s := t) (n := n) hdc
      rw [← hsame.runIsOver]
      exact hr d ((hsame.unitOf r).2 e)
  · by_cases hdc : d = c
    · subst hdc
      rw [← (h.waiting d n hn).2]
      exact h.grants.grant_served hrun (h.waitsFor hn hw) hn hm (hneed d n (h.waiting d n hn).1)
    · rw [hwait, if_neg hdc] at hd
      exact (State.grant_unitsSame hdc).served (h.served d j x op kind tap hw hd)

theorem State.finishRun_waiting (s : State) (c : ChannelId) : (s.finishRun c).arbiter.waiting = s.arbiter.waiting := by
  rcases s.finishRun_cases c with e | e <;> rw [e]
  rw [State.releaseUnits_waiting, (s.runEnded_frame c).1]

/-- A channel served whose run is over: its job ends at its grant, and it stands as it did but in RUN. -/
theorem State.Served.of_over {d : ChannelId} {ch : Channel} {j : Job} {x : Context} {op : Op} {kind : CodeKind}
    {tap : Tap} (h : t.Served d ch j x op kind tap) (ho : t.runIsOver d = true) :
    t.channel d = { ch with state := .run } ∧ Spec.endsAtGrant j x = true := by
  rcases h with ⟨-, hr⟩ | ⟨hc, he, -, -⟩
  · exact absurd (hr.symm.trans (State.runIsOver_state ho)) (by simp)
  · exact ⟨hc, he ▸ ho⟩

theorem State.Evaluating.finishRun (h : s.Evaluating t) {c : ChannelId} (ho : t.runIsOver c = true) :
    s.Evaluating (t.finishRun c) := by
  have hst := State.runIsOver_state ho
  refine ⟨h.holds.finishRun hst, h.grants.finishRun, fun d m hd => ?_, fun r hr => ?_,
    fun d j x op kind tap hw hd => ?_⟩
  · rw [State.finishRun_waiting] at hd
    have hdc : d ≠ c := fun hdc => by
      have := h.holds.waiting_state hd
      simp [hdc, hst] at this
    obtain ⟨h1, h2⟩ := h.waiting d m hd
    exact ⟨h1, (t.finishRun_channel_ne hdc).trans h2⟩
  · rw [State.wantedBy_congr (s := t) (by simp)]
    refine h.wanted r fun d e => ?_
    by_cases hdc : d = c
    · exact hdc ▸ ho
    · have hsame := h.grants.toUnitsOnce.finishRun_unitsSame hdc
      rw [← hsame.runIsOver]
      exact hr d ((hsame.unitOf r).2 e)
  · rw [State.finishRun_waiting] at hd
    have hserved := h.served d j x op kind tap hw hd
    by_cases hdc : d = c
    · subst hdc
      obtain ⟨hc, he⟩ := hserved.of_over ho
      refine .inl ⟨he, State.finishRun_state (j := j) (x := x) ?_ ?_⟩
      · rw [hc]
        exact hw.job
      · rw [hc]
        exact hw.ctx
    · exact (h.grants.toUnitsOnce.finishRun_unitsSame hdc).served hserved

theorem State.Evaluating.evaluate (h : s.Evaluating t) (hneed : s.NeedsUnits) (n : Nat) : s.Evaluating (t.evaluate n) :=
  State.evaluate_keeps (P := s.Evaluating) (fun _ _ _ ht hn hm => ht.grant hneed hn hm) (fun _ _ ht ho => ht.finishRun ho) n h

/-- The run of a channel that waited is over just where the spec releases its units again (R85). -/
theorem State.Evaluating.runIsOver_iff (h : s.Evaluating t) {d : ChannelId} {j : Job} {x : Context} {op : Op}
    {kind : CodeKind} {tap : Tap} (hw : Spec.WaitsFor s d j x op kind tap) :
    t.runIsOver d = true ↔ Spec.endsSoon s d = true ∧ Spec.unitsFree d t.arbiter ≠ t.arbiter := by
  have hends : Spec.endsSoon s d = Spec.endsAtGrant j x := by
    unfold Spec.endsSoon
    rw [hw.job, hw.ctx]
  have hidle : (t.channel d).state ≠ .run → (t.runIsOver d = true ↔
      Spec.endsSoon s d = true ∧ Spec.unitsFree d t.arbiter ≠ t.arbiter) := fun hst =>
    iff_of_false (fun ho => hst (State.runIsOver_state ho)) fun ⟨_, hne⟩ =>
      hne (Spec.unitsFree_eq_self.2 ⟨fun p e => hst (h.grants.packState p d e), fun k e => hst (h.grants.checkState k d e)⟩)
  cases hn : t.arbiter.waiting.get d with
  | some n => exact hidle (by simp [h.holds.waiting_state hn])
  | none =>
    rcases h.served d j x op kind tap hw hn with ⟨-, hr⟩ | ⟨-, ho, hu, -⟩
    · exact hidle (by simp [hr])
    · rw [ho, hends]
      exact ⟨fun e => ⟨e, hu⟩, And.left⟩

/-- The end of such a run frees its units. -/
theorem State.Evaluating.finishRun_arbiter (h : s.Evaluating t) {d : ChannelId} {j : Job} {x : Context} {op : Op}
    {kind : CodeKind} {tap : Tap} (hw : Spec.WaitsFor s d j x op kind tap) (ho : t.runIsOver d = true) :
    (t.finishRun d).arbiter = Spec.unitsFree d t.arbiter := by
  have hn : t.arbiter.waiting.get d = none := h.holds.not_waiting (by simp [State.runIsOver_state ho])
  obtain ⟨hc, -⟩ := (h.served d j x op kind tap hw hn).of_over ho
  refine h.grants.toUnitsOnce.finishRun_arbiter (j := j) (x := x) ?_ ?_ <;> rw [hc]
  · exact hw.job
  · exact hw.ctx

/-- The arbiter after an evaluation is the spec's, where the waiting channels stand as they should (R82, R85). -/
theorem State.Evaluating.evaluate_arbiter (hneed : s.NeedsUnits)
    (hall : ∀ d, s.arbiter.waiting.get d ≠ none → ∃ j x op kind tap, Spec.WaitsFor s d j x op kind tap) (n : Nat)
    (h : s.Evaluating t) : (t.evaluate n).arbiter = Spec.evaluated (Spec.endsSoon s) n t.arbiter := by
  induction n generalizing t with
  | zero => rfl
  | succ n ih =>
    have hscan : s.Evaluating t.scan := State.scan_keeps (P := s.Evaluating) (fun _ _ _ hu hn hm => hu.grant hneed hn hm) h
    have hfold (l : List ChannelId) (hl : ∀ d ∈ l, s.arbiter.waiting.get d ≠ none) (u : State) (hu : s.Evaluating u) :
        (l.foldl (fun v d => if v.runIsOver d then State.evaluate n (v.finishRun d) else v) u).arbiter =
          l.foldl (fun b d => if Spec.endsSoon s d = true ∧ Spec.unitsFree d b ≠ b then
            Spec.evaluated (Spec.endsSoon s) n (Spec.unitsFree d b) else b) u.arbiter := by
      induction l generalizing u with
      | nil => rfl
      | cons d l ihl =>
        obtain ⟨j, x, op, kind, tap, hw⟩ := hall d (hl d (by simp))
        have hl' : ∀ d ∈ l, s.arbiter.waiting.get d ≠ none := fun d hd => hl d (by simp [hd])
        rw [List.foldl_cons, List.foldl_cons]
        by_cases ho : u.runIsOver d = true
        · rw [if_pos ho, if_pos ((hu.runIsOver_iff hw).1 ho), ihl hl' _ ((hu.finishRun ho).evaluate hneed n),
            ih (hu.finishRun ho), hu.finishRun_arbiter hw ho]
        · rw [if_neg ho, if_neg (mt (hu.runIsOver_iff hw).2 ho), ihl hl' u hu]
    unfold Spec.evaluated
    rw [← State.scan_arbiter]
    refine hfold _ (fun d hd => ?_) t.scan hscan
    obtain ⟨m, hm⟩ := Option.isSome_iff_exists.1 (List.mem_filter.1 hd).2
    simp [(h.waiting d m hm).1]

end

/-! ### Five levels are enough (R85, log entry 14) -/

/-- How many channels wait. -/
def State.waitingCount (s : State) : Nat := (Finset.univ.filter fun d => (s.arbiter.waiting.get d).isSome).card

/-- Fewer channels wait where one of them no longer does. -/
theorem State.waitingCount_lt {s t : State} (h : ∀ d, (t.arbiter.waiting.get d).isSome → (s.arbiter.waiting.get d).isSome)
    {c : ChannelId} (hs : (s.arbiter.waiting.get c).isSome) (ht : t.arbiter.waiting.get c = none) :
    t.waitingCount < s.waitingCount := by
  refine Finset.card_lt_card ((Finset.ssubset_iff_of_subset fun d hd => ?_).2 ⟨c, ?_, ?_⟩)
  · simpa using h d (by simpa using hd)
  · simpa using hs
  · simp [ht]

theorem State.waitingCount_le (s : State) : s.waitingCount ≤ 4 := Finset.card_le_univ _

/-- An evaluation adds no channel to the waiting set. -/
theorem State.evaluate_waiting_subset (n : Nat) {s t : State}
    (h : ∀ d, (t.arbiter.waiting.get d).isSome → (s.arbiter.waiting.get d).isSome) :
    ∀ d, ((t.evaluate n).arbiter.waiting.get d).isSome → (s.arbiter.waiting.get d).isSome := by
  refine State.evaluate_keeps (P := fun u : State => ∀ d, (u.arbiter.waiting.get d).isSome → (s.arbiter.waiting.get d).isSome)
    (fun u c n hu _ _ d hd => hu d ?_) (fun u c hu _ d hd => hu d ?_) n h
  · rw [State.grant_waiting, Vector.get_set_fin] at hd
    split at hd
    · contradiction
    · exact hd
  · rwa [State.finishRun_waiting] at hd

/-- Every channel has its turn in an evaluation (R82). -/
theorem mem_rotationAfter (p d : ChannelId) : d ∈ rotationAfter p := by
  revert p d
  decide

/-- The end of a run leaves over only what was over, and no longer its own channel. -/
theorem State.Evaluating.over_of_finishRun {s t : State}
    (hall : ∀ d, s.arbiter.waiting.get d ≠ none → ∃ j x op kind tap, Spec.WaitsFor s d j x op kind tap) (h : s.Evaluating t)
    {c d : ChannelId} (hc : s.arbiter.waiting.get c ≠ none)
    (ho : t.runIsOver c = true) (hd : (t.finishRun c).runIsOver d = true) : t.runIsOver d = true ∧ d ≠ c := by
  obtain ⟨j, x, op, kind, tap, hw⟩ := hall c hc
  have hn : (t.finishRun c).arbiter.waiting.get c = none := by
    rw [State.finishRun_waiting]
    exact h.holds.not_waiting (by simp [State.runIsOver_state ho])
  have hne : d ≠ c := fun e => by
    subst e
    have hf := (h.finishRun ho).runIsOver_iff hw
    rw [h.finishRun_arbiter hw ho] at hf
    refine (hf.1 hd).2 (Spec.unitsFree_eq_self.2 ⟨fun p e => ?_, fun k e => ?_⟩)
    · rw [Spec.unitsFree_packs] at e
      split at e <;> contradiction
    · rw [Spec.unitsFree_checks] at e
      split at e <;> contradiction
  exact ⟨(h.grants.toUnitsOnce.finishRun_unitsSame hne).runIsOver ▸ hd, hne⟩

section
variable {s t : State} (hneed : s.NeedsUnits)
  (hall : ∀ d, s.arbiter.waiting.get d ≠ none → ∃ j x op kind tap, Spec.WaitsFor s d j x op kind tap)
include hneed

/-- The runs over after a scan were so before it, or are of channels that waited. -/
theorem State.Evaluating.scan (h : s.Evaluating t) :
    s.Evaluating t.scan ∧ (∀ d, (t.scan.arbiter.waiting.get d).isSome → (t.arbiter.waiting.get d).isSome) ∧
      ∀ d, t.scan.runIsOver d = true → t.runIsOver d = true ∨ (t.arbiter.waiting.get d).isSome := by
  refine State.scan_keeps (P := fun u => s.Evaluating u ∧
    (∀ d, (u.arbiter.waiting.get d).isSome → (t.arbiter.waiting.get d).isSome) ∧
      ∀ d, u.runIsOver d = true → t.runIsOver d = true ∨ (t.arbiter.waiting.get d).isSome)
    (fun u c n ⟨hu, hw, ho⟩ hn hm => ⟨hu.grant hneed hn hm, fun d hd => hw d ?_, fun d hd => ?_⟩)
    ⟨h, fun _ => id, fun _ => .inl⟩
  · rw [State.grant_waiting, Vector.get_set_fin] at hd
    split at hd
    · contradiction
    · exact hd
  · by_cases hdc : d = c
    · exact .inr (hw d (by simp [hdc, hn]))
    · rw [(State.grant_unitsSame hdc).runIsOver] at hd
      exact ho d hd

include hall

/-- An evaluation of more levels than channels wait settles every run that it begins: the runs over after it were over
before. -/
theorem State.Evaluating.over_of_evaluate (n : Nat) (h : s.Evaluating t) (hlt : t.waitingCount < n) (d : ChannelId)
    (hd : (t.evaluate n).runIsOver d = true) : t.runIsOver d = true := by
  induction n generalizing t d with
  | zero => omega
  | succ n ih =>
    obtain ⟨hscan, hsub, hover⟩ := h.scan hneed
    have hfold (l : List ChannelId) (hl : ∀ c ∈ l, (t.arbiter.waiting.get c).isSome) (u : State) (hu : s.Evaluating u)
        (hw : ∀ c, (u.arbiter.waiting.get c).isSome → (t.arbiter.waiting.get c).isSome)
        (ho : (l.foldl (fun v c => if v.runIsOver c then State.evaluate n (v.finishRun c) else v) u).runIsOver d = true) :
        u.runIsOver d = true ∧ d ∉ l := by
      induction l generalizing u with
      | nil => exact ⟨ho, by simp⟩
      | cons c l ihl =>
        have hl' : ∀ c ∈ l, (t.arbiter.waiting.get c).isSome := fun e he => hl e (by simp [he])
        have hwc := hl c (by simp)
        rw [List.foldl_cons] at ho
        by_cases hc : u.runIsOver c = true
        · have hf := hu.finishRun hc
          have hfw : ∀ c', ((u.finishRun c).arbiter.waiting.get c').isSome → (t.arbiter.waiting.get c').isSome := by
            rwa [State.finishRun_waiting]
          have hnone : (u.finishRun c).arbiter.waiting.get c = none := by
            rw [State.finishRun_waiting]
            exact hu.holds.not_waiting (by simp [State.runIsOver_state hc])
          have hsc : s.arbiter.waiting.get c ≠ none := by
            obtain ⟨m, hm⟩ := Option.isSome_iff_exists.1 hwc
            simp [(h.waiting c m hm).1]
          rw [if_pos hc] at ho
          obtain ⟨ho', hmem⟩ := ihl hl' _ (hf.evaluate hneed n) (State.evaluate_waiting_subset n hfw) ho
          have hlt' := State.waitingCount_lt hfw hwc hnone
          obtain ⟨hu', hne⟩ := hu.over_of_finishRun hall hsc hc (ih hf (by omega) d ho')
          exact ⟨hu', by simp [hne, hmem]⟩
        · rw [if_neg hc] at ho
          obtain ⟨ho', hmem⟩ := ihl hl' u hu hw ho
          exact ⟨ho', fun hm => (List.mem_cons.1 hm).elim (fun e => hc (e ▸ ho')) hmem⟩
    obtain ⟨ho, hmem⟩ := hfold _ (fun c hc => (List.mem_filter.1 hc).2) t.scan hscan hsub hd
    exact (hover d ho).resolve_right fun hwd => hmem (List.mem_filter.2 ⟨mem_rotationAfter _ d, hwd⟩)

/-- After a whole evaluation the run of no channel that waited is over. -/
theorem State.NeedsUnits.evaluate_settled (hk : s.HoldsKept) (hg : s.GrantsPlaced) {d : ChannelId}
    (hd : s.arbiter.waiting.get d ≠ none) : (s.evaluate 5).runIsOver d = false := by
  obtain ⟨n, hn⟩ := Option.ne_none_iff_exists'.1 hd
  refine Bool.eq_false_iff.2 fun ho => ?_
  have hover := (State.Evaluating.refl hk hg).over_of_evaluate hneed hall 5 (Nat.lt_succ_of_le s.waitingCount_le) d ho
  exact absurd (State.runIsOver_state hover) (by simp [hk.waiting_state hn])

end

end Sys2Proof.Machine
end

