-- ==== Sys2Proof/Proofs/AbortedRuns.lean ====
section
/-! PROOF. ABORT and channel RESET in RUN (R73, R86, R114, R127): O20. -/

namespace Sys2Proof.Machine

-- One theorem at a time, as in the tests: all at once they pass the memory limit.
set_option Elab.async false

/-! ### A slot let go, whatever else has changed (R18, R20) -/

/-- A channel in RUN holds its slot alone. -/
theorem State.HoldsKept.holdsAlone {s : State} (h : s.HoldsKept) {c : ChannelId} (hr : (s.channel c).state = .run)
    {i : SlotId} (hi : (s.slots.get i).holder = some c) : Spec.holdsAlone c i s := by
  refine ⟨hi, fun j hj => h.table.holdsOne j i c hj hi, fun hw => ?_, fun w hw => ?_⟩
  · exact absurd ((h.admits c).waiter i hw) (by simp [hr])
  · exact (h.hasJob w).inFlight (.inr ((h.admits w).waiter i hw))

/-- The release of a channel in RUN is the spec's. -/
theorem State.HoldsKept.released {s : State} (h : s.HoldsKept) {c : ChannelId} (hr : (s.channel c).state = .run) :
    Spec.released c s (s.release c none) := by
  by_cases hi : ∃ i : SlotId, (s.slots.get i).holder = some c
  · obtain ⟨i, hi⟩ := hi
    have ha := h.holdsAlone hr hi
    exact .inr ⟨i, ha, State.release_held ha none⟩
  · exact .inl ⟨not_exists.1 hi, State.release_none (not_exists.1 hi) none⟩

/-- What becomes of the slots does not hang on the channels, as long as each waiter has a job. -/
theorem Spec.letGo_slots {i : SlotId} {sl : Slot} {s t : State} (hslots : t.slots = s.slots)
    (hs : ∀ w ∈ sl.waiters, (s.channels.get w).job.isSome = true)
    (ht : ∀ w ∈ sl.waiters, (t.channels.get w).job.isSome = true) :
    (Spec.letGo i sl t).slots = (Spec.letGo i sl s).slots := by
  unfold Spec.letGo
  split
  · simp only [hslots]
  · split
    · simp only [hslots]
    · rename_i w ws hw
      obtain ⟨j, hj⟩ := Option.isSome_iff_exists.1 (hs w (by simp [hw]))
      obtain ⟨j', hj'⟩ := Option.isSome_iff_exists.1 (ht w (by simp [hw]))
      rw [hj, hj']
      simp only [hslots]

/-- A release leaves a channel that does not wait for a slot as it was. -/
theorem Spec.released.channel_of_state {c d : ChannelId} {s t : State} (h : Spec.released c s t) (hk : s.HoldsKept)
    (hd : (s.channel d).state ≠ .waitSlot) : t.channel d = s.channel d := by
  rcases h with ⟨-, rfl⟩ | ⟨i, -, rfl⟩
  · rfl
  · exact Spec.letGo_channel (fun hw => hd ((hk.admits d).waiter i hw)) ..

/-! ### An abort under way in RUN (R73) -/

/-- `t` is `s` with an abort of channel `c` under way: units may have stopped and the bus moved on, but the slots, the arbiter,
the writer and the channels stand, but for what the command sets in its own channel. -/
structure State.AbortUnderWay (c : ChannelId) (s t : State) : Prop where
  slots : t.slots = s.slots
  arbiter : t.arbiter = s.arbiter
  writer : t.writer = s.writer
  channels : ∃ b p, t.channels = s.channels.set c { s.channel c with haltOnError := b, abortPending := p }

section
variable {s t : State} {c : ChannelId}

theorem State.AbortUnderWay.channel (h : State.AbortUnderWay c s t) {d : ChannelId} (hd : d ≠ c) :
    t.channel d = s.channel d := by
  obtain ⟨b, p, e⟩ := h.channels
  rw [State.channel, e, Vector.get_set_fin, if_neg hd]
  rfl

theorem State.AbortUnderWay.own (h : State.AbortUnderWay c s t) :
    ∃ b p, t.channel c = { s.channel c with haltOnError := b, abortPending := p } := by
  obtain ⟨b, p, e⟩ := h.channels
  exact ⟨b, p, by rw [State.channel, e, Vector.get_set_fin, if_pos rfl]⟩

theorem State.AbortUnderWay.state (h : State.AbortUnderWay c s t) (d : ChannelId) :
    (t.channel d).state = (s.channel d).state := by
  by_cases hd : d = c
  · obtain ⟨b, p, e⟩ := h.own
    rw [hd, e]
  · rw [h.channel hd]

theorem State.AbortUnderWay.holds (h : State.AbortUnderWay c s t) (hs : s.HoldsKept) : t.HoldsKept := by
  obtain ⟨b, p, e⟩ := h.channels
  have hset : (s.setChannel c { s.channel c with haltOnError := b, abortPending := p }).HoldsKept :=
    hs.setChannel_same ⟨rfl, rfl, rfl⟩
  exact hset.frame h.slots e h.arbiter

theorem State.AbortUnderWay.grants (h : State.AbortUnderWay c s t) (hs : s.GrantsPlaced) : t.GrantsPlaced where
  packState p d e := by
    rw [h.state]
    exact hs.packState p d (h.arbiter ▸ e)
  checkState k d e := by
    rw [h.state]
    exact hs.checkState k d (h.arbiter ▸ e)
  packOnce := by
    rw [h.arbiter]
    exact hs.packOnce
  checkOnce := by
    rw [h.arbiter]
    exact hs.checkOnce

/-- An evaluation leaves a channel in RUN whose run is not over, and its units, as they were. -/
theorem State.GrantsPlaced.evaluate_unitsSame (h : s.GrantsPlaced) (hk : s.HoldsKept)
    (hr : (s.channel c).state = .run) (ho : s.runIsOver c = false) (n : Nat) : s.UnitsSame c (s.evaluate n) := by
  refine (State.evaluate_keeps (P := fun u => s.UnitsSame c u ∧ u.HoldsKept ∧ u.GrantsPlaced) (fun u d m hu hn _ => ?_)
    (fun u d hu hd => ?_) n ⟨.rfl, hk, h⟩).1
  · obtain ⟨hsame, huk, hug⟩ := hu
    have hst := huk.waiting_state hn
    have hne : c ≠ d := fun e => by
      subst e
      simp [hsame.channel, hr] at hst
    exact ⟨hsame.trans (State.grant_unitsSame hne), huk.grant hst m, hug.grant (by simp [hst])⟩
  · obtain ⟨hsame, huk, hug⟩ := hu
    have hne : c ≠ d := fun e => by
      subst e
      rw [hsame.runIsOver, ho] at hd
      contradiction
    exact ⟨hsame.trans (hug.toUnitsOnce.finishRun_unitsSame hne), huk.finishRun (State.runIsOver_state hd), hug.finishRun⟩

end

/-- The channel of an abort that took effect (R73, R76). -/
theorem Spec.abortDone_channel (kind : AbortKind) (c : ChannelId) (s : State) :
    let ch := (Spec.abortDone kind c (s.channels.get c) s).channels.get c
    ch.abortPending = none ∧ ch.job = none ∧ ch.work = none ∧ ch.fetch = ch.done ∧
      (kind = .abort → ch.state = .halted ∧ ch.haltCause = .aborted ∧ ch.done = (s.channels.get c).done) ∧
      (kind = .reset → ch.state = .off ∧ ch.haltCause = .none ∧ ch.done = 0 ∧ ch.post = 0) := by
  cases kind <;> simp [Spec.abortDone, Spec.halted, Spec.cleared, vector_get_set]

theorem Spec.abortDone_channel_ne (kind : AbortKind) {c d : ChannelId} (h : d ≠ c) (ch : Channel) (s : State) :
    (Spec.abortDone kind c ch s).channels.get d = s.channels.get d := by
  cases kind <;> exact vector_get_set_ne _ _ (Ne.symm h)

/-- ABORT raises its channel's HALT status (R75). -/
theorem Spec.abortDone_status (c : ChannelId) (ch : Channel) (s : State) :
    (Spec.abortDone .abort c ch s).idc.status.getLsbD (8 + c.val) = true := by
  simp only [Spec.abortDone, Spec.halted, BitVec.getLsbD_or, Bool.or_eq_true]
  refine .inr ?_
  revert c
  decide

/-! ### An abort of a run takes effect (R73, R76, R86) -/

/-- The part as the abort of a run lets its units go: the state that the UA evaluates. -/
theorem State.AbortUnderWay.freed {s u : State} {c : ChannelId} (h : State.AbortUnderWay c s u) (hk : s.HoldsKept)
    (hu : s.GrantsPlaced) :
    (u.releaseUnits c).HoldsKept ∧ (u.releaseUnits c).GrantsPlaced ∧
      (u.releaseUnits c).arbiter = Spec.unitsFree c s.arbiter ∧ (u.releaseUnits c).runIsOver c = false := by
  have hg := h.grants hu
  have ha : (u.releaseUnits c).arbiter = Spec.unitsFree c s.arbiter := by
    rw [hg.toUnitsOnce.releaseUnits_arbiter, h.arbiter]
  refine ⟨(h.holds hk).releaseUnits c, hg.releaseUnits, ha, Bool.eq_false_iff.2 fun ho => ?_⟩
  rcases (State.runIsOver_iff.1 ho).2 with ⟨p, hp, -⟩ | ⟨-, k, hk, -⟩
  · exact (hg.toUnitsOnce.releaseUnits_packs.1 (State.packOf_spec hp)).2 rfl
  · exact (hg.toUnitsOnce.releaseUnits_checks.1 (State.checkOf_spec hk)).2 rfl

/-- The channels, as the UA evaluates them, have their jobs and contexts. -/
theorem State.AbortUnderWay.endsSoon {s u : State} {c : ChannelId} (h : State.AbortUnderWay c s u) :
    Spec.endsSoon (u.releaseUnits c) = Spec.endsSoon s := by
  funext d
  have hwork : ((u.releaseUnits c).channel d).job = (s.channel d).job ∧
      ((u.releaseUnits c).channel d).work = (s.channel d).work := by
    rw [State.releaseUnits_channel]
    by_cases hd : d = c
    · obtain ⟨b, p, hown⟩ := h.own
      rw [hd, hown]
      exact ⟨rfl, rfl⟩
    · rw [h.channel hd]
      exact ⟨rfl, rfl⟩
  obtain ⟨hj, hw⟩ := hwork
  simp only [State.channel] at hj hw
  simp only [Spec.endsSoon, hj, hw]

/-- A channel's units are told by the arbiter alone. -/
theorem Spec.unitOf_congr {s t : State} (h : t.arbiter = s.arbiter) (d : ChannelId) (r : Requester) :
    Spec.unitOf t d r ↔ Spec.unitOf s d r := by
  cases r <;> simp only [Spec.unitOf, h]

section
variable {s u : State} {c : ChannelId} (h : State.AbortUnderWay c s u) (hk : s.HoldsKept) (hu : s.UnitsKept)
  (hr : (s.channel c).state = .run) (kind : AbortKind)
include h hk hu

theorem State.AbortUnderWay.evaluating :
    (u.releaseUnits c).Evaluating ((u.releaseUnits c).evaluate 5) ∧ (u.releaseUnits c).NeedsUnits := by
  obtain ⟨hh, hg, ha, -⟩ := h.freed hk hu.grantsPlaced
  have hneed : (u.releaseUnits c).NeedsUnits := fun d n hn => hu.needsUnits d n (by rwa [ha] at hn)
  exact ⟨(State.Evaluating.refl hh hg).evaluate hneed 5, hneed⟩

/-- A unit that no channel has after the abort has formed no request since. -/
theorem State.AbortUnderWay.wantedBy {r : Requester} (hn : ∀ d, ¬ Spec.unitOf (u.abortRun kind c) d r) :
    (u.abortRun kind c).wantedBy r = u.wantedBy r := by
  have ha : (u.abortRun kind c).arbiter = ((u.releaseUnits c).evaluate 5).arbiter := by
    simp [State.abortRun, State.reevaluate]
  have hb : (u.abortRun kind c).biu = ((u.releaseUnits c).evaluate 5).biu := by simp [State.abortRun, State.reevaluate]
  rw [State.wantedBy_congr hb, (h.evaluating hk hu).1.wanted r fun d e => absurd ((Spec.unitOf_congr ha d r).2 e) (hn d)]
  exact State.wantedBy_congr (by simp) r

include hr

/-- The channel after the evaluation, its abort not yet in effect. -/
theorem State.AbortUnderWay.channel_evaluated :
    ((u.releaseUnits c).evaluate 5).channel c = u.channel c ∧
      (∀ p, ((u.releaseUnits c).evaluate 5).arbiter.packs.get p ≠ some c) ∧
      ∀ k, ((u.releaseUnits c).evaluate 5).arbiter.checks.get k ≠ some c := by
  obtain ⟨hh, hg, ha, ho⟩ := h.freed hk hu.grantsPlaced
  have hst : ((u.releaseUnits c).channel c).state = .run := by rw [State.releaseUnits_channel, h.state, hr]
  have hsame := hg.evaluate_unitsSame hh hst ho 5
  refine ⟨hsame.channel.trans (State.releaseUnits_channel ..), fun p e => ?_, fun k e => ?_⟩
  · exact ((h.grants hu.grantsPlaced).toUnitsOnce.releaseUnits_packs.1 ((hsame.packs p).1 e)).2 rfl
  · exact ((h.grants hu.grantsPlaced).toUnitsOnce.releaseUnits_checks.1 ((hsame.checks k).1 e)).2 rfl

theorem State.AbortUnderWay.released :
    Spec.released c ((u.releaseUnits c).evaluate 5) (((u.releaseUnits c).evaluate 5).release c none) := by
  obtain ⟨hc, -⟩ := h.channel_evaluated hk hu hr
  exact (h.evaluating hk hu).1.holds.released (by rw [hc, h.state, hr])

/-- A channel that waits for no slot stands after the abort as the evaluation left it. -/
theorem State.AbortUnderWay.abortRun_channel {d : ChannelId} (hd : d ≠ c)
    (hw : (((u.releaseUnits c).evaluate 5).channel d).state ≠ .waitSlot) :
    (u.abortRun kind c).channel d = ((u.releaseUnits c).evaluate 5).channel d := by
  have hrel := (h.released hk hu hr).channel_of_state (h.evaluating hk hu).1.holds hw
  rw [State.abortRun, State.abortTakesEffect_eq]
  exact (Spec.abortDone_channel_ne kind hd ..).trans hrel

/-- The slots after the abort are those of a plain release (R18, R20). -/
theorem State.AbortUnderWay.abortRun_slots :
    ∃ s', Spec.released c s s' ∧ (u.abortRun kind c).slots = s'.slots := by
  have hslots : ((u.releaseUnits c).evaluate 5).slots = s.slots := by simp [h.slots]
  have habort : (u.abortRun kind c).slots = (((u.releaseUnits c).evaluate 5).release c none).slots := by
    simp [State.abortRun, State.reevaluate]
  rw [habort]
  have he := (h.evaluating hk hu).1.holds
  rcases h.released hk hu hr with ⟨hn, e⟩ | ⟨i, hi, e⟩ <;> rw [e]
  · exact ⟨s, .inl ⟨by rwa [hslots] at hn, rfl⟩, hslots⟩
  · have hs := hk.holdsAlone hr (hslots ▸ hi.1)
    refine ⟨_, .inr ⟨i, hs, rfl⟩, ?_⟩
    rw [hslots]
    exact Spec.letGo_slots hslots hs.2.2.2 (hslots ▸ hi.2.2.2)

/-- The abort of a run is the spec's (R73, R76, R86). -/
theorem State.AbortUnderWay.runAborted : Spec.runAborted kind c s (u.abortRun kind c) := by
  obtain ⟨hc, hp, hcheck⟩ := h.channel_evaluated hk hu hr
  have ha : (u.abortRun kind c).arbiter = ((u.releaseUnits c).evaluate 5).arbiter := by
    simp [State.abortRun, State.reevaluate]
  have hrel := (h.released hk hu hr).channel_eq
  obtain ⟨b, p, hown⟩ := h.own
  obtain ⟨h1, h2, h3, h4, h5, h6⟩ := Spec.abortDone_channel kind c (((u.releaseUnits c).evaluate 5).release c none)
  have hdone : ((((u.releaseUnits c).evaluate 5).release c none).channels.get c).done = (s.channels.get c).done := by
    have hd : (u.channel c).done = (s.channel c).done := by rw [hown]
    rw [hrel]
    exact (congrArg Channel.done hc).trans hd
  have habort : u.abortRun kind c = Spec.abortDone kind c ((((u.releaseUnits c).evaluate 5).release c none).channels.get c)
      (((u.releaseUnits c).evaluate 5).release c none) := State.abortTakesEffect_eq ..
  refine ⟨?_, ?_, ?_, ?_, fun e => ?_, fun e => ?_, ha ▸ hp, ha ▸ hcheck, h.abortRun_slots hk hu hr kind, ?_⟩
  · rw [habort, h1]
  · rw [habort, h2]
  · rw [habort, h3]
  · rw [habort, h4]
  · obtain ⟨h7, h8, h9⟩ := h5 e
    subst e
    rw [habort]
    exact ⟨h7, h8, h9.trans hdone, Spec.abortDone_status ..⟩
  · rw [habort]
    exact h6 e
  · simp [State.abortRun, h.writer]

/-- A waiting channel stands as it did as the UA evaluates. -/
theorem State.AbortUnderWay.waitsFor {d : ChannelId} {j : Job} {x : Context} {op : Op} {ck : CodeKind} {tap : Tap}
    (hw : Spec.WaitsFor s d j x op ck tap) :
    d ≠ c ∧ (u.releaseUnits c).channel d = s.channel d ∧ Spec.WaitsFor (u.releaseUnits c) d j x op ck tap := by
  obtain ⟨-, -, ha, -⟩ := h.freed hk hu.grantsPlaced
  have hne : d ≠ c := fun e => by
    have hn := hw.need
    simp [e, hk.not_waiting (c := c) (by simp [hr])] at hn
  have hc : (u.releaseUnits c).channel d = s.channel d := (State.releaseUnits_channel ..).trans (h.channel hne)
  have hc' : (u.releaseUnits c).channels.get d = s.channels.get d := hc
  exact ⟨hne, hc,
    { hw with
      need := ha ▸ hw.need
      job := hc' ▸ hw.job
      ctx := hc' ▸ hw.ctx }⟩

/-- A channel that waits for no slot, and its units, stand after the abort as the evaluation left them. -/
theorem State.AbortUnderWay.abortRun_unitsSame {d : ChannelId} (hd : d ≠ c)
    (hw : (((u.releaseUnits c).evaluate 5).channel d).state ≠ .waitSlot) :
    ((u.releaseUnits c).evaluate 5).UnitsSame d (u.abortRun kind c) := by
  have ha : (u.abortRun kind c).arbiter = ((u.releaseUnits c).evaluate 5).arbiter := by
    simp [State.abortRun, State.reevaluate]
  exact
    { channel := h.abortRun_channel hk hu hr kind hd hw
      packs := fun p => by rw [ha]
      checks := fun k => by rw [ha]
      pack := fun p _ => State.pack_congr (by simp [State.abortRun, State.reevaluate]) p
      check := fun k _ => State.check_congr (by simp [State.abortRun, State.reevaluate]) k
      wanted := fun r _ => State.wantedBy_congr (by simp [State.abortRun, State.reevaluate]) r }

/-- The release of the units is evaluated as the spec has it (R82 to R85). -/
theorem State.AbortUnderWay.releaseEvaluated : Spec.releaseEvaluated c s (u.abortRun kind c) := by
  intro hall
  obtain ⟨hh, hg, ha, -⟩ := h.freed hk hu.grantsPlaced
  obtain ⟨he, hneed⟩ := h.evaluating hk hu
  have harb : (u.abortRun kind c).arbiter = ((u.releaseUnits c).evaluate 5).arbiter := by
    simp [State.abortRun, State.reevaluate]
  have hall' : ∀ d, (u.releaseUnits c).arbiter.waiting.get d ≠ none →
      ∃ j x op ck tap, Spec.WaitsFor (u.releaseUnits c) d j x op ck tap := fun d hd => by
    obtain ⟨j, x, op, ck, tap, hw⟩ := hall d (by rwa [ha] at hd)
    exact ⟨j, x, op, ck, tap, (h.waitsFor hk hu hr hw).2.2⟩
  refine ⟨?_, fun d j x op ck tap hw => ?_⟩
  · rw [harb, State.Evaluating.evaluate_arbiter hneed hall' 5 (.refl hh hg), h.endsSoon, ha]
  obtain ⟨hd, hcd, hwd⟩ := h.waitsFor hk hu hr hw
  have hsame := h.abortRun_unitsSame hk hu hr kind hd
  have hgranted (hn : (u.abortRun kind c).arbiter.waiting.get d = none) :
      (u.abortRun kind c).Served d (s.channel d) j x op ck tap ∧ (u.abortRun kind c).runIsOver d = false := by
    have hserved := he.served d j x op ck tap hwd (harb ▸ hn)
    have hstate : (((u.releaseUnits c).evaluate 5).channel d).state ≠ .waitSlot := by
      rcases hserved with ⟨-, e⟩ | ⟨e, -⟩ <;> simp [e]
    rw [← hcd, (hsame hstate).runIsOver]
    exact ⟨(hsame hstate).served hserved, hneed.evaluate_settled hall' hh hg (by simp [hwd.need])⟩
  refine ⟨fun hn => ?_, fun hn hends => ?_, fun hn hends => ?_⟩
  · obtain ⟨m, hm⟩ := Option.ne_none_iff_exists'.1 (harb ▸ hn)
    exact (hsame (by simp [he.holds.waiting_state hm])).channel.trans ((he.waiting d m hm).2.trans hcd)
  · obtain ⟨⟨-, hst⟩ | ⟨-, ho, -⟩, hover⟩ := hgranted hn
    · exact hst
    · simp [hover, hends] at ho
  · obtain ⟨⟨hend, -⟩ | ⟨hc, -, -, hbegun⟩, -⟩ := hgranted hn
    · simp [hend] at hends
    · exact ⟨hc, hbegun hends⟩

end

/-! ### Units stopped (R73, R114, R127) -/

theorem State.withdraw_requestOf (s : State) (r r' : Requester) :
    (s.withdraw r).requestOf r' = if r' = r then none else s.requestOf r' := by
  simp only [State.requestOf, State.withdraw, Vector.get_set_fin, Requester.position_injective.eq_iff]

section
variable {s : State} {c : ChannelId}

/-- A channel's units have stopped. -/
theorem State.UnitsOnce.unitsStopped_iff (h : s.UnitsOnce) : s.unitsStopped c = true ↔
    (∀ p, s.arbiter.packs.get p = some c → (s.pack p).condition = .stopped) ∧
      ∀ k, s.arbiter.checks.get k = some c → (s.check k).condition = .stopped := by
  unfold State.unitsStopped
  rw [Bool.and_eq_true]
  refine and_congr ?_ ?_
  · split
    · rename_i p hp
      refine ⟨fun e q hq => ?_, fun e => ?_⟩
      · rw [h.packOnce q p c hq (State.packOf_spec hp)]
        simpa using e
      · simpa using e p (State.packOf_spec hp)
    · rename_i hp
      exact ⟨fun _ q hq => absurd hq (State.packOf_eq_none.1 hp q), fun _ => rfl⟩
  · split
    · rename_i k hk
      refine ⟨fun e l hl => ?_, fun e => ?_⟩
      · rw [h.checkOnce l k c hl (State.checkOf_spec hk)]
        simpa using e
      · simpa using e k (State.checkOf_spec hk)
    · rename_i hk
      exact ⟨fun _ l hl => absurd hl (State.checkOf_eq_none.1 hk l), fun _ => rfl⟩

/-- The pack unit of a channel stops: STOPPING with its burst on the bus, and else at once. -/
def State.stopPack (p : PackId) (s : State) : State :=
  if s.onBus (.pk p) then s.setPack p { s.pack p with condition := .stopping }
  else (s.withdraw (.pk p)).setPack p (s.pack p).stop

/-- The check unit of a channel stops, likewise. -/
def State.stopCheck (k : CheckId) (s : State) : State :=
  if s.onBus (.ck k) then s.setCheck k { s.check k with condition := .stopping }
  else (s.withdraw (.ck k)).setCheck k (s.check k).stop

theorem State.stopPack_frame (s : State) (p : PackId) :
    (s.stopPack p).checks = s.checks ∧ (s.stopPack p).biu.burst = s.biu.burst := by
  unfold State.stopPack
  split <;> exact ⟨rfl, rfl⟩

/-- A channel's units stop one after the other. -/
theorem State.stopUnits_eq (s : State) (c : ChannelId) :
    s.stopUnits c = ((s.checkOf c).elim id State.stopCheck) ((s.packOf c).elim s (State.stopPack · s)) := by
  unfold State.stopUnits
  dsimp only
  cases s.packOf c with
  | none => cases s.checkOf c <;> rfl
  | some p =>
    cases s.checkOf c with
    | none => rfl
    | some k =>
      obtain ⟨hc, hb⟩ := s.stopPack_frame p
      have hbus : (s.stopPack p).onBus (.ck k) = s.onBus (.ck k) := by unfold State.onBus; rw [hb]
      have hk : (s.stopPack p).check k = s.check k := State.check_congr hc k
      change _ = (s.stopPack p).stopCheck k
      rw [State.stopCheck, hbus, hk]
      rfl

theorem State.onBus_congr {t : State} (h : t.biu.burst = s.biu.burst) (r : Requester) : t.onBus r = s.onBus r := by
  unfold State.onBus
  rw [h]

/-- What stops at once has withdrawn its request; every other request stands. -/
theorem State.stopPack_requests (s : State) (p : PackId) (r : Requester) :
    (s.stopPack p).wantedBy r = (if r = .pk p ∧ s.onBus r = false then none else s.wantedBy r) ∧
      (s.stopPack p).requestOf r = if r = .pk p ∧ s.onBus r = false then none else s.requestOf r := by
  by_cases hr : r = .pk p
  · subst hr
    unfold State.stopPack
    cases hb : s.onBus (.pk p)
    · exact ⟨(s.withdraw_wantedBy ..).trans (by simp), (s.withdraw_requestOf ..).trans (by simp)⟩
    · exact ⟨by simp; rfl, by simp; rfl⟩
  · unfold State.stopPack
    split
    · exact ⟨by simp [hr]; rfl, by simp [hr]; rfl⟩
    · exact ⟨(s.withdraw_wantedBy ..).trans (by simp [hr]), (s.withdraw_requestOf ..).trans (by simp [hr])⟩

theorem State.stopCheck_requests (s : State) (k : CheckId) (r : Requester) :
    (s.stopCheck k).wantedBy r = (if r = .ck k ∧ s.onBus r = false then none else s.wantedBy r) ∧
      (s.stopCheck k).requestOf r = if r = .ck k ∧ s.onBus r = false then none else s.requestOf r := by
  by_cases hr : r = .ck k
  · subst hr
    unfold State.stopCheck
    cases hb : s.onBus (.ck k)
    · exact ⟨(s.withdraw_wantedBy ..).trans (by simp), (s.withdraw_requestOf ..).trans (by simp)⟩
    · exact ⟨by simp; rfl, by simp; rfl⟩
  · unfold State.stopCheck
    split
    · exact ⟨by simp [hr]; rfl, by simp [hr]; rfl⟩
    · exact ⟨(s.withdraw_wantedBy ..).trans (by simp [hr]), (s.withdraw_requestOf ..).trans (by simp [hr])⟩

theorem State.stopPack_pack (s : State) (p q : PackId) : (s.stopPack p).pack q =
    if q = p then if s.onBus (.pk p) then { s.pack p with condition := .stopping } else (s.pack p).stop else s.pack q := by
  unfold State.stopPack
  split <;> simp

theorem State.stopCheck_check (s : State) (k l : CheckId) : (s.stopCheck k).check l =
    if l = k then if s.onBus (.ck k) then { s.check k with condition := .stopping } else (s.check k).stop
    else s.check l := by
  unfold State.stopCheck
  split <;> simp

theorem State.stopCheck_packs (s : State) (k : CheckId) : (s.stopCheck k).packs = s.packs := by
  unfold State.stopCheck
  split <;> rfl

/-- A channel's pack unit is the one that its grant names. -/
theorem State.UnitsOnce.packOf_iff (h : s.UnitsOnce) {p : PackId} : s.packOf c = some p ↔ s.arbiter.packs.get p = some c :=
  ⟨State.packOf_spec, h.packOf_eq⟩

theorem State.UnitsOnce.checkOf_iff (h : s.UnitsOnce) {k : CheckId} :
    s.checkOf c = some k ↔ s.arbiter.checks.get k = some c :=
  ⟨State.checkOf_spec, h.checkOf_eq⟩

theorem State.UnitsOnce.stopUnits_pack (h : s.UnitsOnce) (q : PackId) : (s.stopUnits c).pack q =
    if s.arbiter.packs.get q = some c then
      if s.onBus (.pk q) then { s.pack q with condition := .stopping } else (s.pack q).stop
    else s.pack q := by
  have hp : (s.stopUnits c).packs = ((s.packOf c).elim s (State.stopPack · s)).packs := by
    rw [State.stopUnits_eq]
    cases s.checkOf c with
    | none => rfl
    | some k => exact State.stopCheck_packs ..
  rw [State.pack_congr hp]
  simp only [← h.packOf_iff]
  cases s.packOf c with
  | none => rfl
  | some p =>
    simp only [Option.elim, State.stopPack_pack, Option.some.injEq, eq_comm]
    split
    · rename_i e
      rw [e]
    · rfl

theorem State.UnitsOnce.stopUnits_check (h : s.UnitsOnce) (l : CheckId) : (s.stopUnits c).check l =
    if s.arbiter.checks.get l = some c then
      if s.onBus (.ck l) then { s.check l with condition := .stopping } else (s.check l).stop
    else s.check l := by
  have hfirst : ∀ l, ((s.packOf c).elim s (State.stopPack · s)).check l = s.check l ∧
      ((s.packOf c).elim s (State.stopPack · s)).onBus (.ck l) = s.onBus (.ck l) := fun l => by
    cases s.packOf c with
    | none => exact ⟨rfl, rfl⟩
    | some p =>
      obtain ⟨hc, hb⟩ := s.stopPack_frame p
      exact ⟨State.check_congr hc l, State.onBus_congr hb _⟩
  rw [State.stopUnits_eq]
  simp only [← h.checkOf_iff]
  generalize (s.packOf c).elim s (State.stopPack · s) = w at hfirst ⊢
  cases s.checkOf c with
  | none => exact (hfirst l).1
  | some k =>
    refine (State.stopCheck_check w k l).trans ?_
    by_cases e : l = k
    · subst e
      rw [if_pos rfl, if_pos rfl, (hfirst l).1, (hfirst l).2]
    · rw [if_neg e, if_neg fun e' => e (Option.some.inj e').symm, (hfirst l).1]

/-- A channel's units are those its grants name. -/
theorem State.UnitsOnce.unitOf_iff (h : s.UnitsOnce) (r : Requester) :
    Spec.unitOf s c r ↔ (∃ p, s.packOf c = some p ∧ r = .pk p) ∨ ∃ k, s.checkOf c = some k ∧ r = .ck k := by
  have hp : ∀ p, s.packOf c = some p ↔ Spec.unitOf s c (.pk p) := fun p => h.packOf_iff
  have hk : ∀ k, s.checkOf c = some k ↔ Spec.unitOf s c (.ck k) := fun k => h.checkOf_iff
  cases r with
  | ch => simp [Spec.unitOf]
  | pk p => simp [← hp]
  | ck k => simp [← hk]
  | cw => simp [Spec.unitOf]

/-- The units of the channel whose bursts are not on the bus have withdrawn their requests. -/
theorem State.UnitsOnce.stopUnits_requests (h : s.UnitsOnce) (r : Requester) :
    (Spec.unitOf s c r → s.onBus r = false →
        (s.stopUnits c).wantedBy r = none ∧ (s.stopUnits c).requestOf r = none) ∧
      (¬ Spec.unitOf s c r ∨ s.onBus r = true →
        (s.stopUnits c).wantedBy r = s.wantedBy r ∧ (s.stopUnits c).requestOf r = s.requestOf r) := by
  rw [State.stopUnits_eq, h.unitOf_iff]
  have hbus : ∀ p, (s.stopPack p).onBus r = s.onBus r := fun p => State.onBus_congr (s.stopPack_frame p).2 r
  cases hb : s.onBus r with
  | true =>
    cases s.packOf c <;> cases s.checkOf c <;> simp [State.stopPack_requests, State.stopCheck_requests, hbus, hb]
  | false =>
    cases s.packOf c with
    | none =>
      cases s.checkOf c with
      | none => simp
      | some k =>
        by_cases hr : r = .ck k
        · subst hr
          simp [State.stopCheck_requests, hb]
        · simp [State.stopCheck_requests, hr]
    | some p =>
      by_cases hr : r = .pk p
      · subst hr
        cases s.checkOf c <;> simp [State.stopPack_requests, State.stopCheck_requests, hb]
      · cases s.checkOf c with
        | none => simp [State.stopPack_requests, hr]
        | some k =>
          by_cases hr' : r = .ck k
          · subst hr'
            simp [State.stopCheck_requests, hbus, hb]
          · simp [State.stopPack_requests, State.stopCheck_requests, hr, hr']

end

/-! ### ABORT and channel RESET in RUN (R73, R86, R114, R127) -/

section
variable {s : State} {c : ChannelId} {kind : AbortKind}

/-- The abort's command has set the channel's halt-on-error and stopped its units. -/
theorem State.stopUnits_underWay (s : State) (c : ChannelId) (b : Bool) :
    State.AbortUnderWay c s ((s.setChannel c { s.channels.get c with haltOnError := b }).stopUnits c) where
  slots := by simp
  arbiter := by simp
  writer := by simp
  channels := ⟨b, (s.channel c).abortPending, by simp; rfl⟩

/-- An abort in RUN stops the units; it takes effect at once if all have stopped (R73). -/
theorem State.disposeOf_run (ch : Channel) (h : ch.state = .run) :
    (s.setChannel c ch).disposeOf kind c =
      if ((s.setChannel c ch).stopUnits c).unitsStopped c then ((s.setChannel c ch).stopUnits c).abortRun kind c
      else ((s.setChannel c ch).stopUnits c).setAbortPending kind c := by
  simp only [State.disposeOf, State.setChannel_channel, if_true, h]

/-- A command's own change to its channel leaves the grants once each. -/
theorem State.UnitsOnce.setChannel (h : s.UnitsOnce) (ch : Channel) : (s.setChannel c ch).UnitsOnce := ⟨h.1, h.2⟩

theorem State.UnitsOnce.stopUnits (h : s.UnitsOnce) : (s.stopUnits c).UnitsOnce := by
  have ha : (s.stopUnits c).arbiter = s.arbiter := by simp
  exact ⟨ha ▸ h.1, ha ▸ h.2⟩

/-- Every unit has stopped just where none has its burst on the bus. -/
theorem State.UnitsOnce.stopUnits_stopped (h : s.UnitsOnce) :
    (s.stopUnits c).unitsStopped c = true ↔ ∀ r, Spec.unitOf s c r → s.onBus r = false := by
  have ha : (s.stopUnits c).arbiter = s.arbiter := by simp
  rw [h.stopUnits.unitsStopped_iff, ha]
  constructor
  · rintro ⟨hp, hk⟩ r hr
    rcases Spec.unitOf_pack_or_check hr with ⟨p, rfl, e⟩ | ⟨k, rfl, e⟩
    · have hs := hp p e
      rw [h.stopUnits_pack, if_pos e] at hs
      cases hb : s.onBus _ with
      | false => rfl
      | true => simp [hb] at hs
    · have hs := hk k e
      rw [h.stopUnits_check, if_pos e] at hs
      cases hb : s.onBus _ with
      | false => rfl
      | true => simp [hb] at hs
  · intro hn
    refine ⟨fun p e => ?_, fun k e => ?_⟩
    · rw [h.stopUnits_pack, if_pos e, hn (.pk p) e]
      rfl
    · rw [h.stopUnits_check, if_pos e, hn (.ck k) e]
      rfl

end

/-- Without a burst of its units on the bus, the abort takes effect at once (R73, R86). -/
theorem abortInTheRun_atOnce {s : State} {c : ChannelId} {b : Bool} {kind : AbortKind} (hlive : s.live = true)
    (hu : s.UnitsKept) (hk : s.HoldsKept) (hr : (s.channels.get c).state = .run)
    (hn : (s.channels.get c).abortPending = none)
    (hbus : ∀ r, s.biu.burst.map Burst.owner = some r → ¬ Spec.unitOf s c r) :
    ∃ t, exec (Spec.abortCommand kind c b) s = .next t ∧ Spec.runAborted kind c s t ∧ t.hostMem = s.hostMem ∧
      Spec.releaseEvaluated c s t ∧
      t.biu.burst = s.biu.burst ∧ t.biu.lastFault = s.biu.lastFault ∧
      (∀ r, Spec.unitOf s c r → t.biu.requests.get r.position = none ∧
        ((∀ d, ¬ Spec.unitOf t d r) → t.biu.wanted.get r.position = none)) ∧
      ∀ r, ¬ Spec.unitOf s c r → t.biu.requests.get r.position = s.biu.requests.get r.position := by
  have hway := s.stopUnits_underWay c b
  have honce : (s.setChannel c { s.channels.get c with haltOnError := b }).UnitsOnce :=
    hu.grantsPlaced.toUnitsOnce.setChannel _
  have hoff : ∀ r, Spec.unitOf s c r → s.onBus r = false := fun r e => by
    rw [Bool.eq_false_iff, ne_eq, State.onBus_iff]
    rintro ⟨q, hq, rfl⟩
    exact hbus q.owner (by simp [hq]) e
  have hstop := honce.stopUnits_stopped.2 hoff
  rw [exec_abortCommand b kind hlive hn, State.disposeOf_run { s.channels.get c with haltOnError := b } hr, if_pos hstop]
  have hrequests : ∀ u : State, (u.abortRun kind c).biu.requests = u.biu.requests := by simp
  refine ⟨_, rfl, hway.runAborted hk hu hr kind, by simp, hway.releaseEvaluated hk hu hr kind, by simp, by simp,
    fun r e => ⟨?_, fun hfree => ?_⟩, fun r e => ?_⟩
  · have hreq := (honce.stopUnits_requests r).1 e (hoff r e)
    rw [hrequests]
    exact hreq.2
  · have hreq := (honce.stopUnits_requests r).1 e (hoff r e)
    exact (hway.wantedBy hk hu kind hfree).trans hreq.1
  · have hreq := (honce.stopUnits_requests r).2 (.inl e)
    rw [hrequests]
    exact hreq.2

theorem State.stopUnits_rest (s : State) (c : ChannelId) :
    s.stopUnits c =
      { s with
        packs := (s.stopUnits c).packs, checks := (s.stopUnits c).checks
        biu := { s.biu with wanted := (s.stopUnits c).biu.wanted, requests := (s.stopUnits c).biu.requests } } := by
  unfold State.stopUnits
  dsimp only
  (repeat' split) <;> rfl

theorem Requester.position_atPosition (i : Fin 10) : (Requester.atPosition i).position = i := by
  revert i
  decide

section
variable {s : State} {c : ChannelId} {r : Requester} (h : s.UnitsOnce) (hr : ∀ r', s.onBus r' = true ↔ r' = r)
include h hr

theorem State.UnitsOnce.stopUnits_packs : (s.stopUnits c).packs = Vector.ofFn fun p =>
    if s.arbiter.packs.get p ≠ some c then s.packs.get p
    else if r = .pk p then { s.packs.get p with condition := .stopping }
    else Spec.packStopped (s.packs.get p) := by
  ext i hi : 1
  have hp := h.stopUnits_pack (c := c) ⟨i, hi⟩
  simp only [hr, @eq_comm _ (Requester.pk _) r, State.pack] at hp
  rw [Vector.get_eq_getElem] at hp
  rw [Vector.getElem_ofFn, hp]
  by_cases e : s.arbiter.packs.get ⟨i, hi⟩ = some c
  · rw [if_pos e, if_neg (not_not.2 e)]
    rfl
  · rw [if_neg e, if_pos e]

theorem State.UnitsOnce.stopUnits_checks : (s.stopUnits c).checks = Vector.ofFn fun k =>
    if s.arbiter.checks.get k ≠ some c then s.checks.get k
    else if r = .ck k then { s.checks.get k with condition := .stopping }
    else Spec.checkStopped (s.checks.get k) := by
  ext i hi : 1
  have hp := h.stopUnits_check (c := c) ⟨i, hi⟩
  simp only [hr, @eq_comm _ (Requester.ck _) r, State.check] at hp
  rw [Vector.get_eq_getElem] at hp
  rw [Vector.getElem_ofFn, hp]
  by_cases e : s.arbiter.checks.get ⟨i, hi⟩ = some c
  · rw [if_pos e, if_neg (not_not.2 e)]
    rfl
  · rw [if_neg e, if_pos e]

/-- The requests withdrawn are those of the channel's other units. -/
theorem State.UnitsOnce.stopUnits_withdrawn (i : Fin 10) :
    let withdrawn := (∃ p, s.arbiter.packs.get p = some c ∧ r ≠ .pk p ∧ i = (Requester.pk p).position) ∨
      ∃ k, s.arbiter.checks.get k = some c ∧ r ≠ .ck k ∧ i = (Requester.ck k).position
    (withdrawn → (s.stopUnits c).biu.wanted.get i = none ∧ (s.stopUnits c).biu.requests.get i = none) ∧
      (¬ withdrawn → (s.stopUnits c).biu.wanted.get i = s.biu.wanted.get i ∧
        (s.stopUnits c).biu.requests.get i = s.biu.requests.get i) := by
  intro withdrawn
  obtain ⟨r', rfl⟩ : ∃ r' : Requester, r'.position = i := ⟨_, Requester.position_atPosition i⟩
  have hiff : withdrawn ↔ Spec.unitOf s c r' ∧ s.onBus r' = false := by
    have hoff : s.onBus r' = false ↔ r ≠ r' := by rw [Bool.eq_false_iff, ne_eq, hr, eq_comm]
    rw [hoff]
    constructor
    · rintro (⟨p, hp, hne, e⟩ | ⟨k, hk, hne, e⟩) <;> cases Requester.position_injective e
      · exact ⟨hp, hne⟩
      · exact ⟨hk, hne⟩
    · rintro ⟨hu, hne⟩
      rcases Spec.unitOf_pack_or_check hu with ⟨p, rfl, hp⟩ | ⟨k, rfl, hk⟩
      · exact .inl ⟨p, hp, hne, rfl⟩
      · exact .inr ⟨k, hk, hne, rfl⟩
  obtain ⟨hout, hkept⟩ := h.stopUnits_requests (c := c) r'
  refine ⟨fun hw => ?_, fun hw => hkept ?_⟩
  · obtain ⟨hu, hb⟩ := hiff.1 hw
    exact hout hu hb
  · rw [hiff, not_and_or, Bool.not_eq_false] at hw
    exact hw

end

/-- The requester with its burst on the bus is the burst's owner. -/
theorem State.onBus_iff_owner {s : State} {r : Requester} (h : s.biu.burst.map Burst.owner = some r) (r' : Requester) :
    s.onBus r' = true ↔ r' = r := by
  rw [State.onBus_iff]
  obtain ⟨q, hq, rfl⟩ := Option.map_eq_some_iff.1 h
  simp [hq, eq_comm]

/-- With a burst of its units on the bus, the abort is pending (R73): that unit is STOPPING, the others have stopped. -/
theorem abortInTheRun_pending {s : State} {c : ChannelId} {b : Bool} {kind : AbortKind} {r : Requester}
    (hlive : s.live = true) (hu : s.UnitsKept) (hr : (s.channels.get c).state = .run)
    (hn : (s.channels.get c).abortPending = none) (ho : s.biu.burst.map Burst.owner = some r) (hunit : Spec.unitOf s c r) :
    let ch := { s.channels.get c with haltOnError := b }
    let t := (s.setChannel c ch).stopUnits c
    exec (Spec.abortCommand kind c b) s = .next
      { s with
        channels := s.channels.set c { ch with abortPending := some kind }
        packs := Vector.ofFn fun p =>
          if s.arbiter.packs.get p ≠ some c then s.packs.get p
          else if r = .pk p then { s.packs.get p with condition := .stopping }
          else Spec.packStopped (s.packs.get p)
        checks := Vector.ofFn fun k =>
          if s.arbiter.checks.get k ≠ some c then s.checks.get k
          else if r = .ck k then { s.checks.get k with condition := .stopping }
          else Spec.checkStopped (s.checks.get k)
        biu := { s.biu with wanted := t.biu.wanted, requests := t.biu.requests } } := by
  intro ch t
  have honce : (s.setChannel c ch).UnitsOnce := hu.grantsPlaced.toUnitsOnce.setChannel _
  have hbus : ∀ r', (s.setChannel c ch).onBus r' = true ↔ r' = r := State.onBus_iff_owner ho
  have hstop : ¬ t.unitsStopped c = true := fun e => by
    have := honce.stopUnits_stopped.1 e r hunit
    simp [(hbus r).2 rfl] at this
  have hch : t.channel c = ch := by rw [State.stopUnits_channel, State.setChannel_channel, if_pos rfl]
  rw [exec_abortCommand b kind hlive hn, State.disposeOf_run ch hr, if_neg hstop, State.setAbortPending, hch,
    State.stopUnits_rest, honce.stopUnits_packs hbus, honce.stopUnits_checks hbus]
  simp only [State.setChannel_eq, Vector.set_set]
  rfl

/-! ### The end of the burst of a STOPPING unit (R73, R114, R127) -/

/-- A unit stops. -/
def State.stopUnit (r : Requester) (s : State) : State :=
  match r with
  | .pk p => s.setPack p (s.pack p).stop
  | .ck k => s.setCheck k (s.check k).stop
  | .ch _ | .cw => s

theorem State.stopUnit_frame (r : Requester) (s : State) :
    (s.stopUnit r).slots = s.slots ∧ (s.stopUnit r).arbiter = s.arbiter ∧ (s.stopUnit r).writer = s.writer ∧
      (s.stopUnit r).channels = s.channels ∧ (s.stopUnit r).biu = s.biu := by
  cases r <;> exact ⟨rfl, rfl, rfl, rfl, rfl⟩

/-- The unit with its burst on the bus is STOPPING and the channel's other units have stopped, its abort pending (R73). -/
structure State.Stopping (s : State) (c : ChannelId) (kind : AbortKind) (r : Requester) : Prop where
  run : (s.channel c).state = .run
  pending : (s.channel c).abortPending = some kind
  unit : Spec.unitOf s c r
  pack : ∀ p, s.arbiter.packs.get p = some c → (s.pack p).condition = if r = .pk p then .stopping else .stopped
  check : ∀ k, s.arbiter.checks.get k = some c → (s.check k).condition = if r = .ck k then .stopping else .stopped

section
variable {s : State} {c : ChannelId} {kind : AbortKind} {r : Requester}

theorem State.Stopping.congr {t : State} (h : s.Stopping c kind r) (hc : t.channels = s.channels)
    (ha : t.arbiter = s.arbiter) (hp : t.packs = s.packs) (hk : t.checks = s.checks) : t.Stopping c kind r := by
  obtain ⟨h1, h2, h3, h4, h5⟩ := h
  exact
    { run := (State.channel_congr hc c) ▸ h1
      pending := (State.channel_congr hc c) ▸ h2
      unit := (Spec.unitOf_congr ha c r).2 h3
      pack := fun p e => (State.pack_congr hp p) ▸ h4 p (ha ▸ e)
      check := fun k e => (State.check_congr hk k) ▸ h5 k (ha ▸ e) }

/-- Once the STOPPING unit stops, every unit of the set has, and the abort takes effect. -/
theorem State.Stopping.unitStopped (h : s.Stopping c kind r) (honce : s.UnitsOnce) :
    (s.stopUnit r).unitStopped c = (s.stopUnit r).abortRun kind c := by
  obtain ⟨-, ha, -, hc, -⟩ := s.stopUnit_frame r
  have hch : (s.stopUnit r).channel c = s.channel c := State.channel_congr hc c
  have honce' : (s.stopUnit r).UnitsOnce := ⟨ha ▸ honce.1, ha ▸ honce.2⟩
  have hstop : (s.stopUnit r).unitsStopped c = true := by
    rw [honce'.unitsStopped_iff, ha]
    refine ⟨fun p e => ?_, fun k e => ?_⟩
    · have hp := h.pack p e
      rcases Spec.unitOf_pack_or_check h.unit with ⟨q, rfl, hq⟩ | ⟨k, rfl, -⟩
      · simp [State.stopUnit, honce.packOnce p q c e hq, PackUnit.stop]
      · simpa [State.stopUnit] using hp
    · have hk := h.check k e
      rcases Spec.unitOf_pack_or_check h.unit with ⟨q, rfl, -⟩ | ⟨l, rfl, hl⟩
      · simpa [State.stopUnit] using hk
      · simp [State.stopUnit, honce.checkOnce k l c e hl, CheckUnit.stop]
  unfold State.unitStopped
  rw [hch, h.pending]
  exact if_pos ⟨h.run, hstop⟩

/-- The owner is told of the end of its burst, whatever the end: the unit stops and the abort takes effect. -/
theorem State.Stopping.tell {q : Burst} (h : s.Stopping c kind q.owner) (honce : s.UnitsOnce) :
    (∀ bytes, s.tellReady q bytes = (s.stopUnit q.owner).abortRun kind c) ∧
      ∀ why, s.tellFault q why = (s.stopUnit q.owner).abortRun kind c := by
  have hstop := h.unitStopped honce
  rcases Spec.unitOf_pack_or_check h.unit with ⟨p, e, hp⟩ | ⟨k, e, hk⟩
  · have hcond := h.pack p hp
    rw [if_pos e] at hcond
    rw [e] at hstop ⊢
    refine ⟨fun bytes => ?_, fun why => ?_⟩
    · simp only [State.tellReady, e, State.packTransferEnds, hp, hcond, if_true]
      exact hstop
    · simp only [State.tellFault, e, State.packTransferFaults, hp, hcond, if_true]
      exact hstop
  · have hcond := h.check k hk
    rw [if_pos e] at hcond
    rw [e] at hstop ⊢
    refine ⟨fun bytes => ?_, fun why => ?_⟩
    · simp only [State.tellReady, e, State.checkReadEnds, hk, hcond, if_true]
      exact hstop
    · simp only [State.tellFault, e, State.checkReadFaults, hk, hcond, if_true]
      exact hstop

theorem State.live_iff : s.live = true ↔ s.pinAsserted = false ∧ s.idc.resetPending = false := by
  simp [State.live]

/-- The last data phase of a burst ends with ready: the owner is told. -/
theorem State.phaseReady_last (hlive : s.live = true) {q : Burst} (hq : s.biu.burst = some q) (hl : Spec.lastPhase q)
    (data : Word) :
    ∃ m bytes, s.phaseReady data = ({ s with hostMem := m } : State).releaseBus.tellReady q bytes := by
  have hlast : ¬ q.phasesEnded + 1 < q.request.words := not_lt.2 hl
  obtain ⟨-, hreset⟩ := State.live_iff.1 hlive
  simp only [State.phaseReady, hq, if_neg hlast, State.burstReady]
  split
  · exact ⟨_, _, if_neg (by simp [State.memoryTakes, hreset])⟩
  · exact ⟨s.hostMem, _, if_neg (by simp [hreset])⟩

/-- A burst ends with error or timeout: the fault is recorded, and the owner is told. -/
theorem State.burstFaults_live (hlive : s.live = true) (q : Burst) (why : Why) :
    ∃ m n, s.burstFaults q why =
      (({ s with hostMem := m, freeIndex := n } : State).releaseBus.recordFault q why).tellFault q why := by
  obtain ⟨-, hreset⟩ := State.live_iff.1 hlive
  unfold State.burstFaults
  dsimp only
  split
  · exact ⟨_, _, if_neg (by simp [State.memoryMayTake, hreset])⟩
  · exact ⟨s.hostMem, s.freeIndex, if_neg (by simp [hreset])⟩

/-- The bus has moved on, and memory with it; the slots, the channels and the units stand. -/
structure State.BusMoved (s t : State) : Prop where
  slots : t.slots = s.slots
  channels : t.channels = s.channels
  arbiter : t.arbiter = s.arbiter
  packs : t.packs = s.packs
  checks : t.checks = s.checks
  writer : t.writer = s.writer

/-- The abort as it takes effect, once the owner of the burst has been told. -/
theorem State.BusMoved.abort {v : State} (hv : s.BusMoved v) (hu : s.UnitsKept) (hk : s.HoldsKept) {q : Burst}
    (h : s.Stopping c kind q.owner) (hburst : v.biu.burst = none) :
    ∃ t, (∀ bytes, v.tellReady q bytes = t) ∧ (∀ why, v.tellFault q why = t) ∧ Spec.runAborted kind c s t ∧
      t.biu.burst = none ∧ Spec.releaseEvaluated c s t ∧ t.biu.lastFault = v.biu.lastFault := by
  obtain ⟨hslots, hch, harb, hp, hk', hwr⟩ := hv
  have honce : v.UnitsOnce := by
    refine ⟨?_, ?_⟩ <;> rw [harb]
    · exact hu.packOnce
    · exact hu.checkOnce
  obtain ⟨h1, h2, h3, h4, h5⟩ := v.stopUnit_frame q.owner
  have hway : State.AbortUnderWay c s (v.stopUnit q.owner) :=
    { slots := h1.trans hslots
      arbiter := h2.trans harb
      writer := h3.trans hwr
      channels := ⟨(s.channel c).haltOnError, (s.channel c).abortPending, (h4.trans hch).trans (vector_set_get ..).symm⟩ }
  obtain ⟨hready, hfault⟩ := (h.congr hch harb hp hk').tell honce
  exact ⟨_, hready, hfault, hway.runAborted hk hu h.run kind, by simp [h5, hburst],
    hway.releaseEvaluated hk hu h.run kind, by simp [h5]⟩

end

/-- At the end of the STOPPING unit's burst, whatever its end, the abort takes effect (R73, R114, R127, R174). -/
theorem abortInTheRun_ends {s : State} {c : ChannelId} {kind : AbortKind} (hlive : s.live = true) (hu : s.UnitsKept)
    (hk : s.HoldsKept) {q : Burst} (hq : s.biu.burst = some q) (h : s.Stopping c kind q.owner) {e : Instr}
    (he : ((∃ data, e = .burstEndsWithReady data) ∧ Spec.lastPhase q) ∨ e = .burstEndsWithError ∨
      (e = .burstEndsWithTimeout ∧ q.timeout ≠ 0)) :
    ∃ t, exec e s = .next t ∧ Spec.runAborted kind c s t ∧ t.biu.burst = none ∧ Spec.releaseEvaluated c s t ∧
      (∀ data, e = .burstEndsWithReady data → t.biu.lastFault = s.biu.lastFault) ∧
      ∀ why, e = Spec.faultCommand why → t.biu.lastFault = Spec.faultOf q why := by
  have hfaults (why : Why) : ∃ t, s.burstFaults q why = t ∧ Spec.runAborted kind c s t ∧ t.biu.burst = none ∧
      Spec.releaseEvaluated c s t ∧ t.biu.lastFault = Spec.faultOf q why := by
    obtain ⟨m, n, hb⟩ := State.burstFaults_live hlive q why
    have hv : s.BusMoved (({ s with hostMem := m, freeIndex := n } : State).releaseBus.recordFault q why) :=
      ⟨rfl, rfl, rfl, rfl, rfl, rfl⟩
    obtain ⟨t, -, ht, ha, hbus, hrel, hlast⟩ := hv.abort hu hk h rfl
    exact ⟨t, hb.trans (ht why), ha, hbus, hrel, hlast⟩
  rcases he with ⟨⟨data, rfl⟩, hl⟩ | rfl | ⟨rfl, htime⟩
  · obtain ⟨m, bytes, hb⟩ := State.phaseReady_last hlive hq hl data
    have hv : s.BusMoved ({ s with hostMem := m } : State).releaseBus := ⟨rfl, rfl, rfl, rfl, rfl, rfl⟩
    obtain ⟨t, ht, -, ha, hbus, hrel, hlast⟩ := hv.abort hu hk h rfl
    exact ⟨t, congrArg _ (hb.trans (ht bytes)), ha, hbus, hrel, fun _ _ => hlast, fun why e => by cases why <;> cases e⟩
  · obtain ⟨t, ht, ha, hbus, hrel, hlast⟩ := hfaults .error
    have hexec : s.phaseError = s.burstFaults q .error := by rw [State.phaseError, hq]
    refine ⟨t, congrArg _ (hexec.trans ht), ha, hbus, hrel, fun _ e => (by cases e), fun why e => ?_⟩
    cases why <;> cases e
    exact hlast
  · obtain ⟨t, ht, ha, hbus, hrel, hlast⟩ := hfaults .timeout
    have hexec : s.phaseTimeout = s.burstFaults q .timeout := by
      rw [State.phaseTimeout, hq]
      exact if_neg htime
    refine ⟨t, congrArg _ (hexec.trans ht), ha, hbus, hrel, fun _ e => (by cases e), fun why e => ?_⟩
    cases why <;> cases e
    exact hlast

/-- Settles O20: at once, made pending, and at the end of the burst. -/
theorem abortInTheRun : Obligations.AbortInTheRun := by
  intro s c b kind hlive hu hk hr ch owner
  refine ⟨fun hn hbus => abortInTheRun_atOnce hlive hu hk hr hn hbus, fun r hn ho hunit => ?_,
    fun q hp hq hunit hpack hcheck e he => ?_⟩
  · have honce : (s.setChannel c ch).UnitsOnce := hu.grantsPlaced.toUnitsOnce.setChannel _
    have hbus : ∀ r', (s.setChannel c ch).onBus r' = true ↔ r' = r := State.onBus_iff_owner ho
    exact ⟨_, _, abortInTheRun_pending hlive hu hr hn ho hunit, fun i => honce.stopUnits_withdrawn hbus i⟩
  · exact abortInTheRun_ends hlive hu hk hq ⟨hr, hp, hunit, hpack, hcheck⟩ he

end Sys2Proof.Machine
end

