-- ==== Sys2Proof/Proofs/Records.lean ====
section
/-! PROOF. HEAD writes and record requests (R134, R136, R137, R141, R147): O40 and O41. -/

namespace Sys2Proof.Machine

-- One theorem at a time, as in the tests: all at once they pass the memory limit.
set_option Elab.async false

/-! ### The leavings taken before a HEAD write (R147) -/

/-- Where no leaving is left to take, taking them changes nothing. -/
theorem Spec.leavingsTaken_none {s : State} (h : ∀ c, (s.channels.get c).leavings = []) : Spec.leavingsTaken s = s := by
  have hc : (Vector.ofFn fun c => { s.channels.get c with leavings := [] }) = s.channels := by
    ext k hk : 1
    have hk' := h ⟨k, hk⟩
    rw [Vector.get_eq_getElem] at hk'
    rw [Vector.getElem_ofFn, Vector.get_eq_getElem]
    change { s.channels[k] with leavings := [] } = s.channels[k]
    rw [← hk']
  have hd : ¬ ∃ c, true ∈ (s.channels.get c).leavings := by simp [h]
  rw [Spec.leavingsTaken, hc, if_neg hd]

@[simp] theorem Spec.leavingsTaken_channel (s : State) (c : ChannelId) :
    (Spec.leavingsTaken s).channels.get c = { s.channels.get c with leavings := [] } := by
  simp [Spec.leavingsTaken, Vector.get_eq_getElem]

/-- A channel whose leavings have been taken stands, to the completion writer, as it did: job, working context and DONE. -/
theorem Spec.leavingsTaken_hasRecord {s : State} {c : ChannelId} {e : JobEntry} {k : Working} {st : Status}
    (h : Spec.hasRecord s c e k st) : Spec.hasRecord (Spec.leavingsTaken s) c e k st := by
  simpa only [Spec.hasRecord, Spec.leavingsTaken_channel] using h

theorem Spec.leavingsTaken_record (s : State) (w : Writer) (c : ChannelId) (e : JobEntry) (k : Working) (st : Status) :
    Spec.record w c ((Spec.leavingsTaken s).channels.get c) e k st = Spec.record w c (s.channels.get c) e k st := by
  rw [Spec.leavingsTaken_channel]
  rfl

/-! ### A HEAD write (R137, R141) -/

section
variable {s : State} {v : Word}

/-- A new HEAD beyond the entries taken and not yet read is refused (R141, R166). -/
theorem State.moveHead_refused
    (h : ¬ (s.writer.tail - v.extractLsb' 0 16).toNat ≤ (s.writer.tail - s.writer.head).toNat) :
    s.moveHead v = Spec.refused 0x054 .headRange s := if_neg h

/-- A write of the value that HEAD holds changes nothing. -/
theorem State.moveHead_same (h : v.extractLsb' 0 16 = s.writer.head) : s.moveHead v = s := by
  have hle : (s.writer.tail - v.extractLsb' 0 16).toNat ≤ s.writer.level := by rw [h]; exact le_rfl
  exact (if_pos hle).trans (if_pos h)

/-- An accepted HEAD that moves lets the writer begin a record. -/
theorem State.moveHead_accepted
    (h : (s.writer.tail - v.extractLsb' 0 16).toNat ≤ (s.writer.tail - s.writer.head).toNat)
    (hne : v.extractLsb' 0 16 ≠ s.writer.head) :
    s.moveHead v = State.beginRecord { s with writer := { s.writer with head := v.extractLsb' 0 16 } } :=
  (if_pos h).trans (if_neg hne)

end

theorem exec_headWrite {s : State} (hlive : s.live = true) (v : Word) :
    exec (.headWrite v) s = .next ((Spec.leavingsTaken s).moveHead v) := by
  rw [← State.takeLeavings_eq]
  exact next_taken hlive

/-- Settles O40, by the bound, the equal HEAD, the writer that begins nothing and the writer that begins a record. -/
theorem headWrite : Obligations.HeadWrite := by
  intro s v hlive s' new moved accepted
  rw [exec_headWrite hlive]
  refine ⟨Spec.leavingsTaken_none, fun h => congrArg _ (State.moveHead_refused h),
    fun h => congrArg _ (State.moveHead_same h), fun h hno => congrArg _ ?_, fun c e k st h hne hs hr hc hk => congrArg _ ?_⟩
  · by_cases hne : new = s.writer.head
    · rw [State.moveHead_same (s := s') hne]
      change s' = { s' with writer := { s.writer with head := new } }
      rw [hne]
      rfl
    · rw [State.moveHead_accepted (s := s') h hne]
      exact State.beginRecord_none (s := { s' with writer := moved }) hno
  · rw [State.moveHead_accepted (s := s') h hne]
    refine (State.beginRecord_some (s := s') (w := moved) hs hr hc (Spec.leavingsTaken_hasRecord hk)).trans ?_
    rw [Spec.leavingsTaken_record]

/-! ### A record request (R67, R136, R137) -/

theorem exec_recordRequest {s : State} {c : ChannelId} (hlive : s.live = true) (hs : (s.channels.get c).state = .retire)
    (hw : (s.channels.get c).recordWritten = false) (hc : ∀ r, s.writer.current = some r → r.channel ≠ c)
    (hr : s.writer.requesting.get c = false) :
    exec (.recordRequest c) s = .next
      (State.beginRecord { s with writer := { s.writer with requesting := s.writer.requesting.set c true } }) := by
  have hb : s.recordBegun c = false := by
    rw [Bool.eq_false_iff, ne_eq, State.recordBegun_iff]
    rintro (h | ⟨r, h, e⟩)
    · exact absurd (h.symm.trans hw) (by simp)
    · exact hc r h e
  exact next_taken ⟨hlive, hs, hr, hb⟩

/-- Settles O41, by whether the writer begins a record. -/
theorem recordRequest : Obligations.RecordRequest := by
  intro s c hlive hs hw hc hr asked
  rw [exec_recordRequest hlive hs hw hc hr]
  refine ⟨fun h => congrArg _ ?_, fun d e k st h hl hd hk => congrArg _ ?_⟩
  · exact State.beginRecord_none (s := { s with writer := asked }) (h.imp_right .inl)
  · exact State.beginRecord_some (w := asked) h hl hd hk

end Sys2Proof.Machine
end

