-- ==== Sys2Proof/Proofs/BurstEnds.lean ====
section
/-! SUPPORT. The ends of a burst in a live part (R171, R172, R174): what its owner is told, and what memory has taken. -/

namespace Sys2Proof.Machine

-- One theorem at a time, as in the tests: all at once they pass the memory limit.
set_option Elab.async false

/-! ### The ends of a burst in a live part (R171, R172, R174) -/

section
variable {s : State} {b : Burst} (hlive : s.live = true) (hb : s.biu.burst = some b)
include hlive hb

/-- A read's last data phase ends with ready: the owner is told, with all the bytes read. -/
theorem exec_readEnds (hw : b.request.write = false) (hl : Spec.lastPhase b) (data : Word) :
    exec (.burstEndsWithReady data) s =
      .next (s.releaseBus.tellReady b (b.got ++ b.request.take b.phasesEnded data)) := by
  have hlast : ¬ b.phasesEnded + 1 < b.request.words := not_lt.2 hl
  obtain ⟨-, hreset⟩ := State.live_iff.1 hlive
  change Host.Outcome.next (s.phaseReady data) = _
  simp only [State.phaseReady, hb, if_neg hlast, hw, Bool.false_eq_true, if_false, State.burstReady, hreset]

/-- A write's last data phase ends with ready: host memory takes its word, and the owner is told. -/
theorem exec_writeEnds (hw : b.request.write = true) (hl : Spec.lastPhase b) (data : Word) :
    exec (.burstEndsWithReady data) s =
      .next ((s.memoryTakes (b.request.cells b.phasesEnded)).releaseBus.tellReady b b.got) := by
  have hlast : ¬ b.phasesEnded + 1 < b.request.words := not_lt.2 hl
  obtain ⟨-, hreset⟩ := State.live_iff.1 hlive
  change Host.Outcome.next (s.phaseReady data) = _
  simp only [State.phaseReady, hb, if_neg hlast, hw, if_true, State.burstReady, State.memoryTakes_idc, hreset,
    Bool.false_eq_true, if_false]

/-- A burst that ends with error or timeout: the last initiator fault registers are replaced, and the owner is told. -/
theorem exec_faultCommand {why : Why} (ht : why = .timeout → b.timeout ≠ 0) :
    exec (Spec.faultCommand why) s =
      .next (((if b.request.write then s.memoryMayTake (b.request.cells b.phasesEnded) else s).releaseBus.recordFault b
        why).tellFault b why) := by
  obtain ⟨-, hreset⟩ := State.live_iff.1 hlive
  have hf : s.burstFaults b why =
      ((if b.request.write then s.memoryMayTake (b.request.cells b.phasesEnded) else s).releaseBus.recordFault b
        why).tellFault b why := by
    have hr : (if b.request.write then s.memoryMayTake (b.request.cells b.phasesEnded) else s).idc.resetPending = false := by
      split
      · exact hreset
      · exact hreset
    exact if_neg (by simp [hr])
  cases why with
  | error =>
    change Host.Outcome.next s.phaseError = _
    rw [State.phaseError, hb, ← hf]
  | timeout =>
    change Host.Outcome.next s.phaseTimeout = _
    rw [State.phaseTimeout, hb, ← hf]
    exact congrArg _ (if_neg (ht rfl))

/-- A read that ends with error or timeout. -/
theorem exec_readFaults (hw : b.request.write = false) {why : Why} (ht : why = .timeout → b.timeout ≠ 0) :
    exec (Spec.faultCommand why) s = .next ((s.releaseBus.recordFault b why).tellFault b why) := by
  rw [exec_faultCommand hlive hb ht]
  simp only [hw, Bool.false_eq_true, if_false]

end

end Sys2Proof.Machine
end

