-- ==== Sys2Proof/Proofs/Fetches.lean ====
section
/-! PROOF. The transfers of a fetch (R34, R35, R60 to R63, R71): O23, O24 and O25. -/

namespace Sys2Proof.Machine

-- One theorem at a time, as in the tests: all at once they pass the memory limit.
set_option Elab.async false

/-! ### The codes of an entry's fields (R183) -/

theorem Op.ofByte_of_le {b : Byte} (h : b.toNat ≤ 3) : ∃ op, Op.ofByte b = some op := by
  have hb : b.toNat = 0 ∨ b.toNat = 1 ∨ b.toNat = 2 ∨ b.toNat = 3 := by omega
  rcases hb with h | h | h | h <;> simp [Op.ofByte, h]

theorem Position.ofByte_of_le {b : Byte} (h : b.toNat ≤ 3) : ∃ p, Position.ofByte b = some p := by
  have hb : b.toNat = 0 ∨ b.toNat = 1 ∨ b.toNat = 2 ∨ b.toNat = 3 := by omega
  rcases hb with h | h | h | h <;> simp [Position.ofByte, h]

theorem CodeKind.ofByte_of_le {b : Byte} (h : b.toNat ≤ 2) : ∃ kind, CodeKind.ofByte b = some kind := by
  have hb : b.toNat = 0 ∨ b.toNat = 1 ∨ b.toNat = 2 := by omega
  rcases hb with h | h | h <;> simp [CodeKind.ofByte, h]

theorem Tap.ofByte_of_le {b : Byte} (h : b.toNat ≤ 1) : ∃ tap, Tap.ofByte b = some tap := by
  have hb : b.toNat = 0 ∨ b.toNat = 1 := by omega
  rcases hb with h | h <;> simp [Tap.ofByte, h]

/-- An op in range, told by its byte. -/
theorem Op.ofByte_spec {b : Byte} {op : Op} (h : Op.ofByte b = some op) : b.toNat ≤ 3 ∧ (b = 0 ↔ op = .check) := by
  rw [Op.ofByte_code h]
  cases op <;> decide

/-- A position in range, told by its byte. -/
theorem Position.ofByte_spec {b : Byte} {p : Position} (h : Position.ofByte b = some p) :
    b.toNat ≤ 3 ∧ (b = 0 ↔ p = .whole) ∧ (b = 1 ∨ b = 2 ↔ p.isEnd = false) := by
  unfold Position.ofByte at h
  split at h <;> cases h
  case h_1 hb => obtain rfl : b = 0 := BitVec.eq_of_toNat_eq hb; decide
  case h_2 hb => obtain rfl : b = 1 := BitVec.eq_of_toNat_eq hb; decide
  case h_3 hb => obtain rfl : b = 2 := BitVec.eq_of_toNat_eq hb; decide
  case h_4 hb => obtain rfl : b = 3 := BitVec.eq_of_toNat_eq hb; decide

/-- A code kind in range, told by its byte. -/
theorem CodeKind.ofByte_spec {b : Byte} {kind : CodeKind} (h : CodeKind.ofByte b = some kind) :
    b.toNat ≤ 2 ∧ (b = 0 ↔ kind = .none) := by
  unfold CodeKind.ofByte at h
  split at h <;> cases h
  case h_1 hb => obtain rfl : b = 0 := BitVec.eq_of_toNat_eq hb; decide
  case h_2 hb => obtain rfl : b = 1 := BitVec.eq_of_toNat_eq hb; decide
  case h_3 hb => obtain rfl : b = 2 := BitVec.eq_of_toNat_eq hb; decide

/-- A tap in range, told by its byte. -/
theorem Tap.ofByte_spec {b : Byte} {tap : Tap} (h : Tap.ofByte b = some tap) : b.toNat ≤ 1 ∧ (b = 1 ↔ tap = .outTap) := by
  unfold Tap.ofByte at h
  split at h <;> cases h
  case h_1 hb => obtain rfl : b = 0 := BitVec.eq_of_toNat_eq hb; decide
  case h_2 hb => obtain rfl : b = 1 := BitVec.eq_of_toNat_eq hb; decide

/-- An entry with a field out of range fails the checks. -/
theorem JobEntry.inRange_of_passesChecks {e : JobEntry} (h : e.passesChecks = true) :
    ∃ op p kind tap, e.op = some op ∧ e.position = some p ∧ e.kind = some kind ∧ e.tap = some tap := by
  unfold JobEntry.passesChecks at h
  split at h
  · exact ⟨_, _, _, _, ‹_›, ‹_›, ‹_›, ‹_›⟩
  · contradiction

/-- The six entry checks are the spec's (R34). -/
theorem JobEntry.passesChecks_iff (e : JobEntry) : e.passesChecks = true ↔ Spec.entryOk e := by
  have key : ∀ op p kind tap, e.op = some op → e.position = some p → e.kind = some kind → e.tap = some tap →
      (e.passesChecks = true ↔ Spec.entryOk e) := by
    intro op p kind tap hop hp hk ht
    obtain ⟨o1, o2⟩ := Op.ofByte_spec hop
    obtain ⟨p1, p2, p3⟩ := Position.ofByte_spec hp
    obtain ⟨k1, k2⟩ := CodeKind.ofByte_spec hk
    obtain ⟨t1, t2⟩ := Tap.ofByte_spec ht
    simp only [JobEntry.passesChecks, hop, hp, hk, ht, Spec.entryOk, o1, p1, k1, t1, true_and, Bool.and_eq_true,
      and_assoc]
    refine and_congr decide_eq_true_iff (and_congr decide_eq_true_iff (and_congr ?_ (and_congr ?_ (and_congr ?_ (and_congr ?_ (and_congr ?_
      (and_congr ?_ ?_)))))))
    · simp [or_iff_not_imp_left]
    · simp [or_iff_not_imp_left]
    · rw [o2, k2]
      simp [imp_iff_not_or]
    · rw [o2, t2]
      simp [imp_iff_not_or]
    · rw [o2]
      simp [imp_iff_not_or]
    · rw [← or_assoc, p3, k2]
      simp [imp_iff_not_or]
    · rw [ne_eq, p2]
      simp [JobEntry.isBound, Config.unboundHandle, imp_iff_not_or]
  constructor
  · intro h
    obtain ⟨op, p, kind, tap, hop, hp, hk, ht⟩ := JobEntry.inRange_of_passesChecks h
    exact (key op p kind tap hop hp hk ht).1 h
  · intro h
    obtain ⟨o, p, k, t, -⟩ := id h
    obtain ⟨op, hop⟩ := Op.ofByte_of_le o
    obtain ⟨pos, hp⟩ := Position.ofByte_of_le p
    obtain ⟨kind, hk⟩ := CodeKind.ofByte_of_le k
    obtain ⟨tap, ht⟩ := Tap.ofByte_of_le t
    exact (key op pos kind tap hop hp hk ht).2 h

/-! ### Fragment tables (R30, R183) -/

/-- Four bytes spell the word they are of. -/
theorem littleEndian_byteAt (w : Word) :
    littleEndian [Spec.byteAt w.toNat 0, Spec.byteAt w.toNat 1, Spec.byteAt w.toNat 2, Spec.byteAt w.toNat 3] = w.toNat := by
  have := w.isLt
  simp only [littleEndian, Spec.byteAt, BitVec.toNat_ofNat]
  omega

/-- The entries of a table, read back from their bytes. -/
theorem fragmentsOf_fragmentBytes (fs : List Fragment) (more : List Byte) :
    fragmentsOf fs.length ((fs.map Spec.fragmentBytes).flatten ++ more) = fs := by
  induction fs with
  | nil => rfl
  | cons f fs ih =>
    have ha : field (Spec.fragmentBytes f ++ ((fs.map Spec.fragmentBytes).flatten ++ more)) 0 4 = f.address.toNat :=
      littleEndian_byteAt _
    have hl : field (Spec.fragmentBytes f ++ ((fs.map Spec.fragmentBytes).flatten ++ more)) 4 4 = f.length.toNat :=
      littleEndian_byteAt _
    have hd : (Spec.fragmentBytes f ++ ((fs.map Spec.fragmentBytes).flatten ++ more)).drop 8 =
        (fs.map Spec.fragmentBytes).flatten ++ more := rfl
    simp only [List.map_cons, List.flatten_cons, List.append_assoc, List.length_cons, fragmentsOf, ha, hl, hd, ih,
      BitVec.ofNat_toNat, BitVec.setWidth_eq]

theorem fragmentBytes_length (fs : List Fragment) : (fs.map Spec.fragmentBytes).flatten.length = 8 * fs.length := by
  induction fs with
  | nil => rfl
  | cons f fs ih =>
    simp only [List.map_cons, List.flatten_cons, List.length_append, List.length_cons, ih]
    simp [Spec.fragmentBytes]
    omega

theorem Fragment.all_isValid (fs : List Fragment) : fs.all Fragment.isValid = true ↔ Spec.fragmentsValid fs := by
  rw [List.all_eq_true]
  exact forall₂_congr fun _ _ => decide_eq_true_iff

theorem JobEntry.isBound_iff (e : JobEntry) : e.isBound = true ↔ e.handle ≠ 0xFFFF#16 := by
  simp [JobEntry.isBound, Config.unboundHandle]

/-! ### A channel that its fetch has made what `x` is (R35, R60, R63) -/

section
variable (s : State) (c : ChannelId) (x : Channel)

theorem State.setChannel_setChannel (y : Channel) : (s.setChannel c x).setChannel c y = s.setChannel c y := by
  simp only [State.setChannel_eq, Vector.set_set]

theorem State.setChannel_endJob (st : Status) (f : Option FaultDetail) :
    (s.setChannel c x).endJob c st f = s.setChannel c (Spec.endedBeforeRun x st f) := by
  rw [State.endJob, State.setChannel_setChannel, State.setChannel_channel, if_pos rfl]
  rfl

theorem State.setChannel_setStage (g : FetchStage) :
    (s.setChannel c x).setStage c g = s.setChannel c { x with stage := some g } := by
  rw [State.setStage, State.setChannel_setChannel, State.setChannel_channel, if_pos rfl]

variable {s c x} {j : Job}

/-- The seventh static check failed (R35). -/
theorem State.completeFetch_invalid (h : ¬ Spec.fragmentsValid (j.source ++ j.dest)) :
    (s.setChannel c x).completeFetch c j = s.setChannel c (Spec.endedBeforeRun x .badJob none) := by
  rw [State.completeFetch, if_neg (mt (Fragment.all_isValid _).1 h), State.setChannel_endJob]

/-- The fetch of a bound job ends with its hold request due (R63). -/
theorem State.completeFetch_bound (h : Spec.fragmentsValid (j.source ++ j.dest)) (hb : j.entry.handle ≠ 0xFFFF#16) :
    (s.setChannel c x).completeFetch c j = s.setChannel c { x with stage := some .holdRequest } := by
  rw [State.completeFetch, if_pos ((Fragment.all_isValid _).2 h), if_pos ((JobEntry.isBound_iff _).2 hb),
    State.setChannel_setStage]

/-- The fetch of an unbound job ends in WAIT_UNITS with the initial context (R41, R63). -/
theorem State.completeFetch_unbound (h : Spec.fragmentsValid (j.source ++ j.dest)) (hb : j.entry.handle = 0xFFFF#16)
    {op : Op} {kind : CodeKind} (hop : Op.ofByte j.entry.opByte = some op)
    (hk : CodeKind.ofByte j.entry.kindByte = some kind) :
    (s.setChannel c x).completeFetch c j = s.setChannel c
      { x with
        state := .waitUnits, stage := none
        work := some
          { ctx := some (Spec.initial .ready op kind), status := none, inCount := 0, outCount := 0
            fault := none, code := none } } := by
  rw [State.completeFetch, if_pos ((Fragment.all_isValid _).2 h),
    if_neg (mt (JobEntry.isBound_iff _).1 (not_not.2 hb)), JobEntry.op, JobEntry.kind, hop, hk]
  simp only [State.setChannel_setChannel, State.setChannel_channel, if_true, Context.initial_eq, Working.start]

theorem State.fetchDest_none (h : j.entry.destCount = 0) : s.fetchDest c j = s.completeFetch c j := if_pos h

/-- The destination table's first burst (R60). -/
theorem State.fetchDest_some (h : j.entry.destCount ≠ 0) :
    (s.setChannel c x).fetchDest c j =
      (s.setChannel c { x with stage := some (.destTable []) }).want (.ch c)
        (Spec.tableRead j.entry.destTable j.entry.destCount.toNat 0) := by
  rw [State.fetchDest, if_neg h, State.setChannel_setStage]
  rfl

/-- The first burst of a table, to the end of its block or of the table. -/
theorem Spec.tableRead_zero (table : Word) (n : Nat) :
    Spec.tableRead table n 0 =
      { address := table, length := min (32 - table.toNat % 32) (8 * n), write := false, data := [] } := by
  simp [Spec.tableRead]

end

/-! ### The job entry read (R34, R60, R62, R63) -/

section
variable (s : State) (c : ChannelId) {e : JobEntry}

/-- The job of an entry just read: no table of it yet. -/
def JobEntry.fetched (e : JobEntry) : Job := { entry := e, source := [], dest := [] }

theorem State.entryRead_fails (h : ¬ Spec.entryOk e) :
    s.entryRead c e =
      s.setChannel c (Spec.endedBeforeRun { s.channel c with job := some e.fetched } .badJob none) := by
  have hf : e.passesChecks = false := Bool.eq_false_iff.2 (mt e.passesChecks_iff.1 h)
  simp only [State.entryRead, hf, Bool.not_false, if_true, State.setChannel_endJob]
  rfl

theorem State.entryRead_source (h : Spec.entryOk e) (hs : e.sourceCount ≠ 0) :
    s.entryRead c e =
      (s.setChannel c { s.channel c with job := some e.fetched, stage := some (.sourceTable []) }).want (.ch c)
        (Spec.tableRead e.sourceTable e.sourceCount.toNat 0) := by
  simp only [State.entryRead, e.passesChecks_iff.2 h, Bool.not_true, Bool.false_eq_true, if_false, hs,
    State.setChannel_setStage]
  rfl

theorem State.entryRead_noSource (h : Spec.entryOk e) (hs : e.sourceCount = 0) :
    s.entryRead c e = (s.setChannel c { s.channel c with job := some e.fetched }).fetchDest c e.fetched := by
  simp only [State.entryRead, e.passesChecks_iff.2 h, Bool.not_true, Bool.false_eq_true, if_false, hs, if_true]
  rfl

end

/-- A transfer of a fetch with no abort pending ends with ready at the job entry. -/
theorem exec_entryRead {s : State} {c : ChannelId} {b : Burst} (hlive : s.live = true) (hb : s.biu.burst = some b)
    (ho : b.owner = .ch c) (hw : b.request.write = false) (hl : Spec.lastPhase b)
    (hs : (s.channels.get c).state = .fetch) (ha : (s.channels.get c).abortPending = none)
    (hg : (s.channels.get c).stage = some .entry) (data : Word) :
    exec (.burstEndsWithReady data) s =
      .next (s.releaseBus.entryRead c (JobEntry.ofBytes (b.got ++ b.request.take b.phasesEnded data))) := by
  have hs' : (s.releaseBus.channel c).state = .fetch := hs
  have ha' : (s.releaseBus.channel c).abortPending = none := ha
  have hg' : (s.releaseBus.channel c).stage = some .entry := hg
  rw [exec_readEnds hlive hb hw hl]
  simp only [State.tellReady, ho, State.fetchReadEnds, hs', if_true, ha', hg']

/-- Settles O23, by the entry checks and the tables that the entry names. -/
theorem jobEntryRead : Obligations.JobEntryRead := by
  intro s c b data hlive hb ho hw hl hs ha hg e ch s' table
  rw [exec_entryRead hlive hb ho hw hl hs ha hg]
  have htable : ∀ g t n, (s'.setChannel c { ch with stage := some g }).want (.ch c) (Spec.tableRead t n 0) = table g t n :=
    fun g t n => by rw [Spec.tableRead_zero]; rfl
  refine ⟨fun h => congrArg _ (State.entryRead_fails _ c h),
    fun h h1 => congrArg _ ((State.entryRead_source _ c h h1).trans (htable ..)),
    fun h h1 h2 => congrArg _ ?_, fun h h1 h2 h3 => congrArg _ ?_, fun h h1 h2 h3 => ?_⟩
  · exact ((State.entryRead_noSource _ c h h1).trans (State.fetchDest_some h2)).trans (htable ..)
  · have hv : Spec.fragmentsValid (e.fetched.source ++ e.fetched.dest) := fun f hf => by cases hf
    exact ((State.entryRead_noSource _ c h h1).trans (State.fetchDest_none h2)).trans (State.completeFetch_bound hv h3)
  · have hv : Spec.fragmentsValid (e.fetched.source ++ e.fetched.dest) := fun f hf => by cases hf
    obtain ⟨op, -, kind, -, hop, -, hk, -⟩ := JobEntry.inRange_of_passesChecks (e.passesChecks_iff.2 h)
    refine ⟨op, kind, hop, hk, congrArg _ ?_⟩
    exact ((State.entryRead_noSource _ c h h1).trans (State.fetchDest_none h2)).trans
      (State.completeFetch_unbound hv h3 hop hk)

/-! ### A fragment table read (R30, R35, R60, R62, R63) -/

section
variable (s : State) {c : ChannelId} {x : Channel} {j : Job} {got : List Byte}

/-- A source table that is not whole has its next burst asked for. -/
theorem State.sourceTableRead_short (h : got.length < 8 * j.entry.sourceCount.toNat) :
    (s.setChannel c x).sourceTableRead c j got =
      (s.setChannel c { x with stage := some (.sourceTable got) }).want (.ch c)
        (Spec.tableRead j.entry.sourceTable j.entry.sourceCount.toNat got.length) := by
  rw [State.sourceTableRead, if_pos h, State.setChannel_setStage]
  rfl

theorem State.destTableRead_short (h : got.length < 8 * j.entry.destCount.toNat) :
    (s.setChannel c x).destTableRead c j got =
      (s.setChannel c { x with stage := some (.destTable got) }).want (.ch c)
        (Spec.tableRead j.entry.destTable j.entry.destCount.toNat got.length) := by
  rw [State.destTableRead, if_pos h, State.setChannel_setStage]
  rfl

variable {fs : List Fragment} (hb : got = (fs.map Spec.fragmentBytes).flatten)
include hb

/-- The entries of a whole table, of its bytes. -/
theorem fragmentsOf_whole {n : Nat} (hn : fs.length = n) : ¬ got.length < 8 * n ∧ fragmentsOf n got = fs := by
  subst hb hn
  refine ⟨by rw [fragmentBytes_length]; omega, ?_⟩
  simpa using fragmentsOf_fragmentBytes fs []

/-- A whole source table is copied, and the destination table's turn comes. -/
theorem State.sourceTableRead_whole (hn : fs.length = j.entry.sourceCount.toNat) :
    (s.setChannel c x).sourceTableRead c j got =
      (s.setChannel c { x with job := some { j with source := fs } }).fetchDest c { j with source := fs } := by
  obtain ⟨hlen, hfs⟩ := fragmentsOf_whole hb hn
  simp only [State.sourceTableRead, if_neg hlen, hfs, State.setChannel_setChannel, State.setChannel_channel, if_true]

/-- A whole destination table is copied, and the fetch ends. -/
theorem State.destTableRead_whole (hn : fs.length = j.entry.destCount.toNat) :
    (s.setChannel c x).destTableRead c j got =
      (s.setChannel c { x with job := some { j with dest := fs } }).completeFetch c { j with dest := fs } := by
  obtain ⟨hlen, hfs⟩ := fragmentsOf_whole hb hn
  simp only [State.destTableRead, if_neg hlen, hfs, State.setChannel_setChannel, State.setChannel_channel, if_true]

end

section
variable {s : State} {c : ChannelId} {b : Burst} {j : Job} {got : List Byte} (hlive : s.live = true)
  (hb : s.biu.burst = some b) (ho : b.owner = .ch c) (hw : b.request.write = false) (hl : Spec.lastPhase b)
  (hs : (s.channels.get c).state = .fetch) (ha : (s.channels.get c).abortPending = none)
  (hj : (s.channels.get c).job = some j)
include hlive hb ho hw hl hs ha hj

/-- A transfer of a fetch with no abort pending ends with ready at the source table. -/
theorem exec_sourceTableRead (hg : (s.channels.get c).stage = some (.sourceTable got)) (data : Word) :
    exec (.burstEndsWithReady data) s =
      .next ((s.releaseBus.setChannel c (s.channels.get c)).sourceTableRead c j
        (got ++ (b.got ++ b.request.take b.phasesEnded data))) := by
  have hself : s.releaseBus.setChannel c (s.channels.get c) = s.releaseBus := s.releaseBus.setChannel_self c
  have hs' : (s.releaseBus.channel c).state = .fetch := hs
  have ha' : (s.releaseBus.channel c).abortPending = none := ha
  have hg' : (s.releaseBus.channel c).stage = some (.sourceTable got) := hg
  have hj' : (s.releaseBus.channel c).job = some j := hj
  rw [exec_readEnds hlive hb hw hl, hself]
  simp only [State.tellReady, ho, State.fetchReadEnds, hs', if_true, ha', hg', hj']

/-- A transfer of a fetch with no abort pending ends with ready at the destination table. -/
theorem exec_destTableRead (hg : (s.channels.get c).stage = some (.destTable got)) (data : Word) :
    exec (.burstEndsWithReady data) s =
      .next ((s.releaseBus.setChannel c (s.channels.get c)).destTableRead c j
        (got ++ (b.got ++ b.request.take b.phasesEnded data))) := by
  have hself : s.releaseBus.setChannel c (s.channels.get c) = s.releaseBus := s.releaseBus.setChannel_self c
  have hs' : (s.releaseBus.channel c).state = .fetch := hs
  have ha' : (s.releaseBus.channel c).abortPending = none := ha
  have hg' : (s.releaseBus.channel c).stage = some (.destTable got) := hg
  have hj' : (s.releaseBus.channel c).job = some j := hj
  rw [exec_readEnds hlive hb hw hl, hself]
  simp only [State.tellReady, ho, State.fetchReadEnds, hs', if_true, ha', hg', hj']

end

/-- Settles O24, by the table, whether it is whole, and what the entry names next. -/
theorem fragmentTableRead : Obligations.FragmentTableRead := by
  intro s c b data j got fs hlive hb ho hw hl hs ha hj bytes n m s' channelAt reads fetched
  have hch : { s.channels.get c with job := some j } = s.channels.get c := by rw [← hj]
  have hcompleted : ∀ (j' : Job) (g : FetchStage), j'.entry = j.entry →
      exec (.burstEndsWithReady data) s = .next ((s'.setChannel c (channelAt j' g)).completeFetch c j') →
      fetched j' g := by
    intro j' g he hx
    refine ⟨fun hv => hx.trans (congrArg _ (State.completeFetch_invalid hv)), fun hv hh => hx.trans (congrArg _ ?_),
      fun op kind hv hh hop hk => hx.trans (congrArg _ ?_)⟩
    · exact State.completeFetch_bound hv (by rwa [he])
    · exact State.completeFetch_unbound hv (by rwa [he]) (by rwa [he]) (by rwa [he])
  refine ⟨fun hg => ?_, fun hg => ?_⟩
  · have hx := exec_sourceTableRead hlive hb ho hw hl hs ha hj hg data
    refine ⟨fun hlt => ?_, fun hn hbytes => ⟨fun hm => ?_, fun hm => hcompleted _ _ rfl ?_⟩⟩
    · refine hx.trans (congrArg _ ((State.sourceTableRead_short _ hlt).trans ?_))
      rw [← hch]
      rfl
    · refine hx.trans (congrArg _ ((State.sourceTableRead_whole _ hbytes hn).trans (State.fetchDest_some ?_)))
      exact fun h0 => hm (by simp [m, show j.entry.destCount = 0 from h0])
    · refine hx.trans (congrArg _ ((State.sourceTableRead_whole _ hbytes hn).trans ((State.fetchDest_none ?_).trans ?_)))
      · exact BitVec.eq_of_toNat_eq hm
      · have hstage : { s.channels.get c with job := some { j with source := fs } } =
            channelAt { j with source := fs } (.sourceTable got) := by
          change _ = { s.channels.get c with job := some { j with source := fs }, stage := some (.sourceTable got) }
          rw [← hg]
        rw [hstage]
        rfl
  · have hx := exec_destTableRead hlive hb ho hw hl hs ha hj hg data
    refine ⟨fun hlt => ?_, fun hn hbytes => hcompleted _ _ rfl ?_⟩
    · refine hx.trans (congrArg _ ((State.destTableRead_short _ hlt).trans ?_))
      rw [← hch]
      rfl
    · refine hx.trans (congrArg _ ((State.destTableRead_whole _ hbytes hn).trans ?_))
      have hstage : { s.channels.get c with job := some { j with dest := fs } } =
          channelAt { j with dest := fs } (.destTable got) := by
        change _ = { s.channels.get c with job := some { j with dest := fs }, stage := some (.destTable got) }
        rw [← hg]
      rw [hstage]
      rfl

/-! ### Faults on fetch transfers, and their ends with an abort pending (R35, R61, R71) -/

section
variable {s : State} {c : ChannelId} (hs : (s.channel c).state = .fetch)
include hs

theorem State.fetchReadFaults_entry (ha : (s.channel c).abortPending = none) (hg : (s.channel c).stage = some .entry)
    (why : Why) :
    s.fetchReadFaults c why = Spec.halted c .fetchFault { s.channel c with fetch := (s.channel c).done } s := by
  simp only [State.fetchReadFaults, hs, if_true, ha, hg, State.halt_eq, Spec.halted_set]
  rw [← State.channel, State.setChannel_channel, if_pos rfl]

theorem State.fetchReadFaults_table (ha : (s.channel c).abortPending = none) {got : List Byte}
    (hg : (s.channel c).stage = some (.sourceTable got) ∨ (s.channel c).stage = some (.destTable got)) (why : Why) :
    s.fetchReadFaults c why =
      s.setChannel c (Spec.endedBeforeRun (s.channel c) .busFault (some { place := .fragTable, why := why })) := by
  rcases hg with hg | hg <;> simp only [State.fetchReadFaults, hs, if_true, ha, hg] <;> rfl

/-- With an abort pending the abort takes effect at the end of the transfer, whatever the end. -/
theorem State.fetchRead_aborted {kind : AbortKind} (ha : (s.channel c).abortPending = some kind) :
    (∀ why, s.fetchReadFaults c why = Spec.abortDone kind c (s.channel c) s) ∧
      ∀ bytes, s.fetchReadEnds c bytes = Spec.abortDone kind c (s.channel c) s := by
  refine ⟨fun why => ?_, fun bytes => ?_⟩
  · simp only [State.fetchReadFaults, hs, if_true, ha, State.abortTakesEffect_eq]
    rfl
  · simp only [State.fetchReadEnds, hs, if_true, ha, State.abortTakesEffect_eq]
    rfl

end

/-- Settles O25, by the abort pending and the stage of the fetch. -/
theorem fetchFaults : Obligations.FetchFaults := by
  intro s c b why hlive hb ho hw ht hs ch s'
  have hfault : exec (Spec.faultCommand why) s = .next (s'.fetchReadFaults c why) := by
    rw [exec_readFaults hlive hb hw ht]
    simp only [State.tellFault, ho]
    rfl
  have hs' : (s'.channel c).state = .fetch := hs
  refine ⟨fun ha hg => hfault.trans (congrArg _ (State.fetchReadFaults_entry hs' ha hg why)),
    fun got ha hg => hfault.trans (congrArg _ (State.fetchReadFaults_table hs' ha hg why)),
    fun kind ha => hfault.trans (congrArg _ ((State.fetchRead_aborted hs' ha).1 why)), fun kind data ha hl => ?_⟩
  have hr : (s.releaseBus.channel c).state = .fetch := hs
  have ha' : (s.releaseBus.channel c).abortPending = some kind := ha
  rw [exec_readEnds hlive hb hw hl]
  simp only [State.tellReady, ho]
  exact congrArg _ ((State.fetchRead_aborted hr ha').2 _)

end Sys2Proof.Machine
end

