-- ==== Sys2Proof/Proofs/Coverings.lean ====
section
/-! SUPPORT. The UA looks neither at the slots nor at a channel without a job. So what Evaluations.lean says of a part whose holds
are kept holds of every part whose waiting channels are in WAIT_UNITS: the part is covered, evaluated, and uncovered. -/

namespace Sys2Proof.Machine

-- One theorem at a time, as in the tests: all at once they pass the memory limit.
set_option Elab.async false

/-! ### A part covered -/

/-- A channel without a job, with one that has no context: the UA does with it what it did. -/
def Channel.covered (ch : Channel) : Channel :=
  if ch.job.isSome then ch
  else { ch with job := some { entry := JobEntry.ofBytes [], source := [], dest := [] }, work := none }

/-- A part as the UA sees it: no slot is held, and every channel has a job. -/
def State.covered (s : State) : State :=
  { s with slots := Vector.replicate 32 Slot.reset, channels := s.channels.map Channel.covered }

theorem Channel.covered_of_job {ch : Channel} (h : ch.job.isSome) : ch.covered = ch := if_pos h

theorem Channel.covered_of_none {ch : Channel} (h : ch.job = none) :
    ch.covered = { ch with job := some { entry := JobEntry.ofBytes [], source := [], dest := [] }, work := none } :=
  if_neg (by simp [h])

theorem Channel.covered_job (ch : Channel) : ch.covered.job.isSome := by
  unfold Channel.covered
  split
  · assumption
  · rfl

theorem Channel.covered_state (ch : Channel) : ch.covered.state = ch.state := by
  unfold Channel.covered
  split <;> rfl

/-- A channel with a context had its job before it was covered. -/
theorem Channel.of_covered {ch : Channel} {x : Context} (h : ch.covered.work.bind Working.ctx = some x) :
    ch.covered = ch := by
  cases hj : ch.job with
  | some j => exact Channel.covered_of_job (by simp [hj])
  | none => rw [Channel.covered_of_none hj] at h; cases h

theorem State.covered_channel (s : State) (c : ChannelId) : s.covered.channel c = (s.channel c).covered := by
  simp [State.channel, State.covered, Vector.get_eq_getElem]

/-! ### The UA's work on a part and on the part covered -/

section
variable (s : State)

theorem State.covered_setChannel (c : ChannelId) (x : Channel) :
    (s.setChannel c x).covered = s.covered.setChannel c x.covered := by
  simp only [State.covered, State.setChannel, Vector.map_set]

theorem State.covered_drivePack (p : PackId) : (s.drivePack p).covered = s.covered.drivePack p := by
  have hp : s.covered.pack p = s.pack p := rfl
  unfold State.drivePack State.offerTo
  rw [hp]
  dsimp only
  cases (s.pack p).advance.2 <;> cases (s.pack p).advance.1.unit.joined <;> rfl

theorem State.covered_driveCheck (k : CheckId) : (s.driveCheck k).covered = s.covered.driveCheck k := by
  have hk : s.covered.check k = s.check k := rfl
  unfold State.driveCheck
  rw [hk]
  split <;> rfl

theorem State.covered_loadUnits (j : Job) (x : Context) (p : Option PackId) (k : Option CheckId) :
    (s.loadUnits j x p k).covered = s.covered.loadUnits j x p k := by
  cases p with
  | some p =>
    rw [State.loadUnits_pack, State.loadUnits_pack, State.covered_drivePack]
    cases k <;> rfl
  | none =>
    cases k with
    | none => rfl
    | some k =>
      rw [State.loadUnits_check, State.loadUnits_check, State.covered_driveCheck]
      rfl

/-- A grant without a job and a context is recorded alone. -/
theorem State.grant_recorded {c : ChannelId} {n : Need}
    (h : (s.channel c).job = none ∨ (s.channel c).work.bind Working.ctx = none) : s.grant c n = s.recordGrant c n := by
  unfold State.grant
  dsimp only
  split
  · rename_i hj hw
    rcases h with h | h
    · exact absurd (hj.symm.trans h) (by simp)
    · rw [hw] at h
      cases h
  · rfl

theorem State.covered_recordGrant (c : ChannelId) (n : Need) :
    (s.recordGrant c n).covered = s.covered.recordGrant c n := by
  have hch : Channel.covered { s.channel c with state := .run } = { (s.channel c).covered with state := .run } := by
    unfold Channel.covered
    dsimp only
    split <;> rfl
  unfold State.recordGrant
  rw [State.covered_setChannel, hch, State.covered_channel]
  rfl

theorem State.covered_grant (c : ChannelId) (n : Need) : (s.grant c n).covered = s.covered.grant c n := by
  cases hj : (s.channel c).job with
  | none =>
    rw [s.grant_recorded (.inl hj), State.grant_recorded, State.covered_recordGrant]
    rw [State.covered_channel, Channel.covered_of_none hj]
    exact .inr rfl
  | some j =>
    have hch : s.covered.channel c = s.channel c := by
      rw [State.covered_channel, Channel.covered_of_job (by simp [hj])]
    cases hx : (s.channel c).work.bind Working.ctx with
    | none =>
      rw [s.grant_recorded (.inr hx), State.grant_recorded, State.covered_recordGrant]
      exact .inr (hch ▸ hx)
    | some x =>
      rw [State.grant_eq hj hx, State.grant_eq (s := s.covered) (hch ▸ hj) (hch ▸ hx), State.covered_loadUnits,
        State.covered_recordGrant]
      rfl

theorem State.covered_scan : s.scan.covered = s.covered.scan := by
  have key (l : List ChannelId) : ∀ t : State, (l.foldl State.examine t).covered = l.foldl State.examine t.covered := by
    induction l with
    | nil => exact fun _ => rfl
    | cons c l ih =>
      intro t
      have he : (t.examine c).covered = t.covered.examine c := by
        have hm : ∀ n, t.covered.meets n = t.meets n := fun _ => rfl
        have hw : t.covered.arbiter = t.arbiter := rfl
        unfold State.examine
        rw [hw]
        split
        · rw [hm, ← State.covered_grant]
          split <;> rfl
        · rfl
      rw [List.foldl_cons, List.foldl_cons, ih, he]
  exact key _ s

theorem State.covered_runIsOver (c : ChannelId) : s.covered.runIsOver c = s.runIsOver c := by
  unfold State.runIsOver
  rw [State.covered_channel, Channel.covered_state]
  rfl

theorem State.covered_releaseUnits (c : ChannelId) : (s.releaseUnits c).covered = s.covered.releaseUnits c := by
  have hp : s.covered.packOf c = s.packOf c := rfl
  have hk : s.covered.checkOf c = s.checkOf c := rfl
  unfold State.releaseUnits
  rw [hp, hk]
  cases s.packOf c <;> cases s.checkOf c <;> rfl

theorem State.covered_finishRun (c : ChannelId) : (s.finishRun c).covered = s.covered.finishRun c := by
  have hstays : ∀ t : State, (t.channel c).job = none ∨ (t.channel c).work.bind Working.ctx = none → t.finishRun c = t := by
    intro t h
    unfold State.finishRun
    dsimp only
    split
    · rename_i hj hw
      rcases h with h | h
      · exact absurd (hj.symm.trans h) (by simp)
      · rw [hw] at h
        cases h
    · rfl
  cases hj : (s.channel c).job with
  | none =>
    rw [hstays s (.inl hj), hstays]
    rw [State.covered_channel, Channel.covered_of_none hj]
    exact .inr rfl
  | some j =>
    have hch : s.covered.channel c = s.channel c := by
      rw [State.covered_channel, Channel.covered_of_job (by simp [hj])]
    cases hx : (s.channel c).work.bind Working.ctx with
    | none => rw [hstays s (.inr hx), hstays s.covered (.inr (hch ▸ hx))]
    | some x =>
      have hend : (s.runEnded c).covered = s.covered.runEnded c := by
        unfold State.runEnded
        rw [hch, hj, hx]
        dsimp only
        rw [State.covered_setChannel, Channel.covered_of_job (by simpa using Option.isSome_iff_exists.2 ⟨j, hj⟩)]
        rfl
      rw [State.finishRun_eq hj hx, State.finishRun_eq (s := s.covered) (hch ▸ hj) (hch ▸ hx),
        State.covered_releaseUnits, hend]

theorem State.covered_evaluate (n : Nat) : (s.evaluate n).covered = s.covered.evaluate n := by
  induction n generalizing s with
  | zero => rfl
  | succ n ih =>
    have key (l : List ChannelId) (t : State) :
        (l.foldl (fun t c => if t.runIsOver c then State.evaluate n (t.finishRun c) else t) t).covered =
          l.foldl (fun t c => if t.runIsOver c then State.evaluate n (t.finishRun c) else t) t.covered := by
      induction l generalizing t with
      | nil => rfl
      | cons c l ihl =>
        rw [List.foldl_cons, List.foldl_cons, ihl, State.covered_runIsOver]
        split
        · rw [ih, State.covered_finishRun]
        · rfl
    unfold State.evaluate
    dsimp only
    rw [key, State.covered_scan]
    rfl

end

/-! ### The invariants of a covered part -/

/-- A channel of the UA's waiting set is in WAIT_UNITS (R80). -/
def State.WaitingPlaced (s : State) : Prop :=
  ∀ c, (s.arbiter.waiting.get c).isSome → (s.channel c).state = .waitUnits

theorem State.covered_holdsKept {s : State} (h : s.WaitingPlaced) : s.covered.HoldsKept := by
  have hslot : ∀ i, s.covered.slot i = Slot.reset := fun i => by
    simp [State.covered, State.slot, Vector.get_eq_getElem]
  have hjob : ∀ c, (s.covered.channel c).job.isSome := fun c => by
    rw [State.covered_channel]
    exact Channel.covered_job _
  refine (State.holdsKept_iff _).2 ⟨⟨?_, ?_, ?_, ?_, ?_⟩, fun c => ⟨⟨?_, ?_, fun hw => ?_⟩, ⟨fun _ => hjob c, fun _ _ _ _ => hjob c⟩⟩⟩
  case refine_8 =>
    rw [State.covered_channel, Channel.covered_state]
    exact h c hw
  all_goals
    simp only [hslot]
    simp [Slot.reset]

theorem State.GrantsPlaced.covered {s : State} (h : s.GrantsPlaced) : s.covered.GrantsPlaced where
  packState p d e := by
    rw [State.covered_channel, Channel.covered_state]
    exact h.packState p d e
  checkState k d e := by
    rw [State.covered_channel, Channel.covered_state]
    exact h.checkState k d e
  packOnce := h.packOnce
  checkOnce := h.checkOnce

/-- A waiting channel stands in the covered part as it did. -/
theorem Spec.WaitsFor.covered {s : State} {d : ChannelId} {j : Job} {x : Context} {op : Op} {kind : CodeKind} {tap : Tap}
    (h : Spec.WaitsFor s d j x op kind tap) :
    s.covered.channel d = s.channel d ∧ Spec.WaitsFor s.covered d j x op kind tap := by
  have hc : s.covered.channels.get d = s.channels.get d := by
    have hj : (s.channel d).job.isSome := by
      rw [State.channel, h.job]
      rfl
    exact (s.covered_channel d).trans (Channel.covered_of_job hj)
  exact ⟨hc, { h with job := by rw [hc, h.job], ctx := by rw [hc, h.ctx] }⟩

theorem Spec.endsSoon_covered (s : State) : Spec.endsSoon s.covered = Spec.endsSoon s := by
  funext d
  have hc : s.covered.channels.get d = (s.channels.get d).covered := s.covered_channel d
  unfold Spec.endsSoon
  rw [hc]
  cases hj : (s.channels.get d).job with
  | some j => rw [Channel.covered_of_job (by simp [hj]), hj]
  | none => rw [Channel.covered_of_none hj]; rfl

end Sys2Proof.Machine
end

