-- ==== Sys2Proof/Proofs/RunEnds.lean ====
section
/-! SUPPORT. The end of a run at a transfer of its units (R43, R44, R66, R82 to R85, R113, R124): the channel in RETIRE with what its
units hand over, its units free, and the release evaluated. -/

namespace Sys2Proof.Machine

-- One theorem at a time, as in the tests: all at once they pass the memory limit.
set_option Elab.async false

/-- The units of `v` have gone on from where they stood in `s`, and the bus has moved; no burst has been formed, and the slots,
the channels, the arbiter and the writer stand. -/
structure State.UnitsMoved (s v : State) : Prop where
  slots : v.slots = s.slots
  channels : v.channels = s.channels
  arbiter : v.arbiter = s.arbiter
  writer : v.writer = s.writer
  wanted : v.biu.wanted = s.biu.wanted

theorem State.UnitsKept.waitingPlaced {s : State} (h : s.UnitsKept) : s.WaitingPlaced := h.waits.waiting

section
variable {s v : State} {c : ChannelId} {j : Job} {w : Working} {x : Context}

theorem State.UnitsMoved.channel (h : s.UnitsMoved v) (d : ChannelId) : v.channel d = s.channel d :=
  State.channel_congr h.channels d

theorem State.UnitsMoved.grants (h : s.UnitsMoved v) (hs : s.GrantsPlaced) : v.GrantsPlaced where
  packState p d e := by
    rw [h.channel]
    exact hs.packState p d (h.arbiter ▸ e)
  checkState k d e := by
    rw [h.channel]
    exact hs.checkState k d (h.arbiter ▸ e)
  packOnce := h.arbiter ▸ hs.packOnce
  checkOnce := h.arbiter ▸ hs.checkOnce

theorem State.UnitsMoved.placed (h : s.UnitsMoved v) (hs : s.WaitingPlaced) : v.WaitingPlaced := fun d hd => by
  rw [h.channel]
  exact hs d (h.arbiter ▸ hd)

/-- The end of a run takes no channel into the waiting set. -/
theorem State.WaitingPlaced.finishRun (h : s.WaitingPlaced) (hr : (s.channel c).state = .run) :
    (s.finishRun c).WaitingPlaced := fun d hd => by
  rw [State.finishRun_waiting] at hd
  have hne : d ≠ c := fun e => by
    have := h d hd
    simp [e, hr] at this
  rw [State.finishRun_channel_ne _ hne]
  exact h d hd

/-- The channel as the end of its run leaves it (R43, R66). -/
theorem State.finishRun_channel (hj : (s.channel c).job = some j) (hx : (s.channel c).work.bind Working.ctx = some x) :
    (s.finishRun c).channel c =
      { s.channel c with
        state := .retire, recordWritten := false, work := some ((s.runEnd c x).working j.entry x) } := by
  rw [State.finishRun_eq hj hx, State.releaseUnits_channel, State.runEnded, hj, hx]
  exact (State.setChannel_channel ..).trans (if_pos rfl)

/-- An evaluation leaves a channel that neither waits nor runs as it was. -/
theorem State.evaluate_channel_of_settled (n : Nat) (hr : (s.channel c).state ≠ .run)
    (hw : s.arbiter.waiting.get c = none) : (s.evaluate n).channel c = s.channel c := by
  refine (State.evaluate_keeps (P := fun u => u.channel c = s.channel c ∧ u.arbiter.waiting.get c = none)
    (fun u d m hu hn _ => ?_) (fun u d hu hd => ?_) n ⟨rfl, hw⟩).1
  · obtain ⟨hc, hwait⟩ := hu
    have hne : c ≠ d := fun e => by simp [← e, hwait] at hn
    rw [State.grant_channel, if_neg hne, State.grant_waiting, Vector.get_set_fin, if_neg hne]
    exact ⟨hc, hwait⟩
  · obtain ⟨hc, hwait⟩ := hu
    have hne : c ≠ d := fun e => hr (by rw [← hc, e]; exact State.runIsOver_state hd)
    rw [State.finishRun_channel_ne _ hne, State.finishRun_waiting]
    exact ⟨hc, hwait⟩

/-! ### The evaluation of the release (R82, R85) -/

section
variable (hu : s.UnitsKept) (h : s.UnitsMoved v) (ho : v.runIsOver c = true)
include hu h ho

/-- The evaluation, seen from the part before the run's end: what it makes of the waiting channels. -/
theorem State.UnitsMoved.evaluating :
    s.covered.Evaluating (v.finishRun c).covered ∧ s.covered.NeedsUnits := by
  have hr : (v.channel c).state = .run := State.runIsOver_state ho
  have hw := h.placed hu.waitingPlaced
  refine ⟨⟨State.covered_holdsKept (hw.finishRun hr), (h.grants hu.grantsPlaced).finishRun.covered, fun d n hn => ?_,
    fun r _ => ?_, fun d j x op kind tap hwf hn => ?_⟩, hu.needsUnits⟩
  · change (v.finishRun c).arbiter.waiting.get d = some n at hn
    rw [State.finishRun_waiting] at hn
    have hne : d ≠ c := fun e => by
      have := hw d (by simp [hn])
      simp [e, hr] at this
    refine ⟨h.arbiter ▸ hn, ?_⟩
    rw [State.covered_channel, State.covered_channel, State.finishRun_channel_ne _ hne, h.channel]
  · have hb : (v.finishRun c).biu = v.biu := by simp
    change (v.finishRun c).biu.wanted.get _ = s.biu.wanted.get _
    rw [hb, h.wanted]
  · change (v.finishRun c).arbiter.waiting.get d = none at hn
    rw [State.finishRun_waiting, h.arbiter] at hn
    exact absurd (hwf.need.symm.trans hn) (by simp)

/-- No unit is the channel's once its run has ended. -/
theorem State.UnitsMoved.evaluated_units (hj : (s.channel c).job = some j) (hx : (s.channel c).work.bind Working.ctx = some x) :
    let t := (v.finishRun c).evaluate 5
    t.channel c = (v.finishRun c).channel c ∧ (∀ p, t.arbiter.packs.get p ≠ some c) ∧
      ∀ k, t.arbiter.checks.get k ≠ some c := by
  intro t
  have hr : (v.channel c).state = .run := State.runIsOver_state ho
  have hretire : ((v.finishRun c).channel c).state = .retire := by
    rw [State.finishRun_channel ((h.channel c).symm ▸ hj) ((h.channel c).symm ▸ hx)]
  have hwait : (v.finishRun c).arbiter.waiting.get c = none := by
    rw [State.finishRun_waiting]
    by_contra hn
    have := (h.placed hu.waitingPlaced) c (Option.isSome_iff_ne_none.2 hn)
    simp [hr] at this
  have hc : t.channel c = (v.finishRun c).channel c :=
    State.evaluate_channel_of_settled 5 (by simp [hretire]) hwait
  obtain ⟨he, hneed⟩ := h.evaluating hu ho
  have hg := (he.evaluate hneed 5).grants
  rw [← State.covered_evaluate] at hg
  have hst : (t.covered.channel c).state ≠ .run := by
    rw [State.covered_channel, Channel.covered_state, hc, hretire]
    decide
  exact ⟨hc, fun p e => hst (hg.packState p c e), fun k e => hst (hg.checkState k c e)⟩

/-- The release is evaluated as the spec has it. -/
theorem State.UnitsMoved.releaseEvaluated (hj : (s.channel c).job = some j)
    (hx : (s.channel c).work.bind Working.ctx = some x) :
    Spec.releaseEvaluated c s ((v.finishRun c).evaluate 5) := by
  intro hall
  have hall' : ∀ d, s.covered.arbiter.waiting.get d ≠ none →
      ∃ j x op kind tap, Spec.WaitsFor s.covered d j x op kind tap := fun d hd => by
    obtain ⟨j, x, op, kind, tap, hw⟩ := hall d hd
    exact ⟨j, x, op, kind, tap, hw.covered.2⟩
  obtain ⟨he, hneed⟩ := h.evaluating hu ho
  have hev := he.evaluate hneed 5
  have hfreed : (v.finishRun c).arbiter = Spec.unitsFree c s.arbiter := by
    rw [(h.grants hu.grantsPlaced).toUnitsOnce.finishRun_arbiter ((h.channel c).symm ▸ hj) ((h.channel c).symm ▸ hx),
      h.arbiter]
  have harb := he.evaluate_arbiter hneed hall' 5
  rw [← State.covered_evaluate] at hev harb
  generalize ht : (v.finishRun c).evaluate 5 = t at hev harb ⊢
  refine ⟨?_, fun d j x op kind tap hw => ?_⟩
  · rw [Spec.endsSoon_covered] at harb
    rw [← hfreed]
    exact harb
  obtain ⟨hcd, hwc⟩ := hw.covered
  have hwork : (s.channel d).work.bind Working.ctx = some x := hw.ctx
  have hgranted (hn : t.arbiter.waiting.get d = none) :
      t.covered.Served d (s.channel d) j x op kind tap ∧ t.covered.runIsOver d = false := by
    refine ⟨hcd ▸ hev.served d j x op kind tap hwc hn, Bool.eq_false_iff.2 fun hover => ?_⟩
    have hwait : ((v.finishRun c).covered.arbiter.waiting.get d).isSome := by
      change ((v.finishRun c).arbiter.waiting.get d).isSome
      rw [State.finishRun_waiting, h.arbiter, hw.need]
      rfl
    obtain ⟨m, hm⟩ := Option.isSome_iff_exists.1 hwait
    rw [← ht, State.covered_evaluate] at hover
    have hbefore := he.over_of_evaluate hneed hall' 5 (Nat.lt_succ_of_le (State.waitingCount_le _)) d hover
    exact absurd (State.runIsOver_state hbefore) (by simp [he.holds.waiting_state hm])
  refine ⟨fun hn => ?_, fun hn hends => ?_, fun hn hends => ?_⟩
  · obtain ⟨m, hm⟩ := Option.ne_none_iff_exists'.1 hn
    have hc := (hev.waiting d m hm).2
    rw [hcd, State.covered_channel] at hc
    exact (Channel.of_covered (hc ▸ hwork)).symm.trans hc
  · obtain ⟨⟨-, hst⟩ | ⟨-, hov, -⟩, hover⟩ := hgranted hn
    · rwa [State.covered_channel, Channel.covered_state] at hst
    · simp [hover, hends] at hov
  · obtain ⟨⟨hend, -⟩ | ⟨hc, -, -, hbegun⟩, -⟩ := hgranted hn
    · simp [hend] at hends
    · rw [State.covered_channel] at hc
      have hctx : (t.channel d).covered.work.bind Working.ctx = some x := by rw [hc]; exact hwork
      exact ⟨(Channel.of_covered hctx).symm.trans hc, hbegun hends⟩

end

/-! ### A run settled -/

/-- A run that is over has ended (R43, R44, R66): the channel's working context is what its units hand over, and the release of its
units is evaluated. -/
theorem State.UnitsMoved.settleRun (hu : s.UnitsKept) (h : s.UnitsMoved v) (hj : (s.channel c).job = some j)
    (hw : (s.channel c).work = some w) (hx : w.ctx = some x) (ho : v.runIsOver c = true) {st : Status} {i o : Nat}
    {f : Option FaultDetail} {code : Option Word} {r : RunEnd} (hr : v.runEnd c x = r)
    (hst : (r.working j.entry x).status = some st) (hi : r.inCount = i) (hout : r.outCount = o)
    (hf : (r.working j.entry x).fault = f) (hcode : r.code = code) :
    Spec.runEnded c s (v.settleRun c) st i o f code ∧ Spec.releaseEvaluated c s (v.settleRun c) ∧
      ((v.settleRun c).channels.get c).work = some (r.working j.entry x) := by
  have hctx : (s.channel c).work.bind Working.ctx = some x := by rw [hw]; exact hx
  obtain ⟨hc, hp, hk⟩ := h.evaluated_units hu ho hj hctx
  have hsettle : v.settleRun c = (v.finishRun c).evaluate 5 := if_pos ho
  have hfin := State.finishRun_channel (s := v) ((h.channel c).symm ▸ hj) ((h.channel c).symm ▸ hctx)
  rw [hr] at hfin
  have hc' : ((v.finishRun c).evaluate 5).channels.get c = _ := hc.trans hfin
  rw [hsettle]
  have hwork : (((v.finishRun c).evaluate 5).channels.get c).work = some (r.working j.entry x) := by rw [hc']
  refine ⟨⟨⟨_, hwork, hst, hi, hout, hf, hcode⟩, by rw [hc'], hp, hk, ?_, ?_⟩, h.releaseEvaluated hu ho hj hctx, hwork⟩
  · simp [h.slots]
  · simp [h.writer]

/-- A run that is not over goes on. -/
theorem State.settleRun_goesOn (h : s.runIsOver c = false) : s.settleRun c = s := if_neg (by simp [h])

end

/-! ### The status of a run that ended DONE (R43, R125) -/

/-- The status is the spec's; the decoder phase tells in an UNPACK job alone. -/
theorem doneStatus_eq {e : JobEntry} {code : Option Word} {phase : Option DecoderPhase} {p : DecoderPhase}
    (h : Op.ofByte e.opByte = some .unpack → phase = some p) : doneStatus e code phase = Spec.doneStatus e code p := by
  have hend : e.isEnd = true ↔ ¬ (e.positionByte ≠ 0 ∧ e.positionByte ≠ 3) := by
    rw [JobEntry.isEnd_eq]
    simp [Spec.endJob, imp_iff_not_or]
  have hop : e.op = some .unpack ↔ e.opByte = 3 := by
    refine ⟨fun ho => Op.ofByte_code ho, fun ho => ?_⟩
    rw [JobEntry.op, ho]
    rfl
  unfold doneStatus Spec.doneStatus
  simp only [Bool.not_eq_true', ← Bool.not_eq_true, hend, not_not, Bool.and_eq_true, beq_iff_eq, bne_iff_ne, hop]
  refine if_congr Iff.rfl rfl (if_congr Iff.rfl rfl (if_congr (and_congr_right fun ho => ?_) rfl rfl))
  rw [h (by rw [ho]; rfl)]
  simp

end Sys2Proof.Machine
end

