-- ==== Sys2Proof/Proofs/CheckRuns.lean ====
section
/-! PROOF. The reads of a CHECK job (R43, R44, R122 to R125): O28. -/

namespace Sys2Proof.Machine

-- One theorem at a time, as in the tests: all at once they pass the memory limit.
set_option Elab.async false

/-! ### A run with a check unit alone (R40) -/

section
variable {s : State} {c : ChannelId} {k : CheckId} (hp : s.packOf c = none) (hk : s.checkOf c = some k)
include hp hk

theorem State.runIsOver_check (hr : (s.channel c).state = .run) : s.runIsOver c = ((s.check k).ending != .none) := by
  simp [State.runIsOver, hr, hp, hk]

theorem State.runEnd_check (x : Context) :
    s.runEnd c x =
      { ending := (s.check k).ending, inCount := (s.check k).taken, outCount := 0, running := (s.check k).running
        carry := x.carry, phase := x.phase, code := ((s.check k).runEnds (s.check k).ending).finalCode } := by
  simp only [State.runEnd, hp, hk, Option.map_some, Option.bind_some]
  rfl

end

/-- The next read of a CHECK job (R122). -/
theorem readAt_cursor {fs : List Fragment} {c : Cursor} {f : Fragment} (h : fs[c.fragment]? = some f) :
    readAt fs c = some (Spec.readFrom f c.offset) := by
  rw [readAt, h]
  rfl

theorem readAt_end {fs : List Fragment} {c : Cursor} (h : fs[c.fragment]? = none) : readAt fs c = none := by
  rw [readAt, h]

/-- A burst's owner told of its read, as the check unit goes on (R122, R123). -/
theorem State.tellCheck {s : State} {c : ChannelId} {k : CheckId} {b : Burst} (ho : b.owner = .ck k)
    (hg : s.arbiter.checks.get k = some c) (hr : (s.check k).condition = .running) :
    (∀ bytes, s.tellReady b bytes =
        ((s.setCheck k ((s.check k).readEnds bytes)).driveCheck k).settleRun c) ∧
      ∀ why, s.tellFault b why = (s.setCheck k ((s.check k).readFaults why)).settleRun c := by
  refine ⟨fun bytes => ?_, fun why => ?_⟩
  · simp only [State.tellReady, ho, State.checkReadEnds, hg, hr]
    rfl
  · simp only [State.tellFault, ho, State.checkReadFaults, hg, hr]
    rfl

theorem State.setCheck_setCheck (s : State) (k : CheckId) (x y : CheckUnit) :
    (s.setCheck k x).setCheck k y = s.setCheck k y := by
  simp only [State.setCheck, Vector.set_set]

/-- A check unit at work asks for its next read, or its run is DONE. -/
theorem State.driveCheck_loaded (s : State) (k : CheckId) (u : CheckUnit) :
    (∀ f, u.source[u.sourceCursor.fragment]? = some f →
        (s.setCheck k u).driveCheck k = (s.setCheck k u).want (.ck k) (Spec.readFrom f u.sourceCursor.offset)) ∧
      (u.source[u.sourceCursor.fragment]? = none →
        (s.setCheck k u).driveCheck k = s.setCheck k { u with ending := .done }) := by
  refine ⟨fun f hf => ?_, fun hn => ?_⟩
  · have ha : u.advance = (u, some (Spec.readFrom f u.sourceCursor.offset)) := by rw [CheckUnit.advance, readAt_cursor hf]
    rw [State.driveCheck, State.setCheck_check, if_pos rfl, ha]
    dsimp only
    rw [State.setCheck_setCheck]
  · have ha : u.advance = ({ u with ending := .done }, none) := by rw [CheckUnit.advance, readAt_end hn]
    rw [State.driveCheck, State.setCheck_check, if_pos rfl, ha]
    dsimp only
    rw [State.setCheck_setCheck]

section
variable {s v : State} {c : ChannelId} {k : CheckId} {j : Job} {w : Working} {x : Context} (hu : s.UnitsKept)
  (h : s.UnitsMoved v) (hg : s.arbiter.checks.get k = some c) (hnp : ∀ p, s.arbiter.packs.get p ≠ some c)
include hu h hg hnp

/-- The channel of a CHECK job is in RUN with its check unit alone. -/
theorem State.UnitsMoved.checkAlone : (v.channel c).state = .run ∧ v.packOf c = none ∧ v.checkOf c = some k := by
  refine ⟨?_, State.packOf_eq_none.2 (h.arbiter ▸ hnp), (h.grants hu.grantsPlaced).toUnitsOnce.checkOf_eq (h.arbiter ▸ hg)⟩
  rw [h.channel]
  exact hu.checkState k c hg

/-- The run of a CHECK job whose unit has come to an end condition. -/
theorem State.UnitsMoved.checkRun_ended (hj : (s.channel c).job = some j) (hw : (s.channel c).work = some w)
    (hx : w.ctx = some x) {u : CheckUnit} (hv : v.check k = u) (hend : u.ending ≠ .none) {code : Option Word}
    (hcode : (u.runEnds u.ending).finalCode = code) {st : Status} {f : Option FaultDetail} {r : RunEnd}
    (hr : r = { ending := u.ending, inCount := u.taken, outCount := 0, running := u.running, carry := x.carry
                phase := x.phase, code := code })
    (hst : (r.working j.entry x).status = some st) (hf : (r.working j.entry x).fault = f) :
    Spec.runEnded c s (v.settleRun c) st u.taken 0 f code ∧ Spec.releaseEvaluated c s (v.settleRun c) ∧
      ((v.settleRun c).channels.get c).work = some (r.working j.entry x) := by
  obtain ⟨hrun, hp, hk⟩ := h.checkAlone hu hg hnp
  have hover : v.runIsOver c = true := by
    rw [State.runIsOver_check hp hk hrun, hv]
    simpa using hend
  have hre : v.runEnd c x = r := by rw [State.runEnd_check hp hk, hv, hcode, hr]
  subst hr
  exact h.settleRun hu hj hw hx hover hre hst rfl rfl hf rfl

end

/-- Settles O28, by the end of the read and, with ready, by whether a read is left. -/
theorem checkReadTaken : Obligations.CheckReadTaken := by
  intro s c k b j w x hlive hu hb ho hw hg hnp hcond hend hj hwork hx hopb hflag u
  have hop : Op.ofByte j.entry.opByte ≠ some .unpack := by rw [hopb]; decide
  refine ⟨fun data hl => ?_, fun why ht => ?_⟩
  · intro bytes u' code
    obtain ⟨hnext, hdone⟩ := s.releaseBus.driveCheck_loaded k u'
    have hexec : exec (.burstEndsWithReady data) s =
        .next (((s.releaseBus.setCheck k u').driveCheck k).settleRun c) := by
      rw [exec_readEnds hlive hb hw hl, (State.tellCheck (s := s.releaseBus) ho hg hcond).1]
      rfl
    refine ⟨fun f hf => ?_, fun hn => ?_⟩
    · have hmoved : s.UnitsMoved (s.releaseBus.setCheck k u') := ⟨rfl, rfl, rfl, rfl, rfl⟩
      obtain ⟨hrun, hp, hk⟩ := hmoved.checkAlone hu hg hnp
      have hover : (s.releaseBus.setCheck k u').runIsOver c = false := by
        rw [State.runIsOver_check hp hk hrun, State.setCheck_check, if_pos rfl]
        simp [u', u, hend]
      rw [hexec, hnext f hf, State.settleRun_goesOn (by exact hover)]
      rfl
    · have hmoved : s.UnitsMoved (s.releaseBus.setCheck k { u' with ending := .done }) := ⟨rfl, rfl, rfl, rfl, rfl⟩
      have hunit : (s.releaseBus.setCheck k { u' with ending := .done }).check k = { u' with ending := .done } := by
        rw [State.setCheck_check, if_pos rfl]
      have hcode : (({ u' with ending := .done } : CheckUnit).runEnds .done).finalCode = code := by
        simp [CheckUnit.runEnds, code, ← hflag, u', u]
      obtain ⟨h1, h2, h3⟩ := hmoved.checkRun_ended hu hg hnp hj hwork hx hunit (by simp) hcode rfl
        (congrArg some (doneStatus_eq (p := .header) fun e => absurd e hop)) rfl
      rw [hexec, hdone hn]
      refine ⟨_, rfl, h1, by simp, h2, _, h3, ?_⟩
      simp [RunEnd.working]
  · have hexec : exec (Spec.faultCommand why) s =
        .next (((s.releaseBus.recordFault b why).setCheck k (u.readFaults why)).settleRun c) := by
      rw [exec_readFaults hlive hb hw ht, (State.tellCheck (s := s.releaseBus.recordFault b why) ho hg hcond).2]
      rfl
    have hmoved : s.UnitsMoved ((s.releaseBus.recordFault b why).setCheck k (u.readFaults why)) := ⟨rfl, rfl, rfl, rfl, rfl⟩
    have hunit : ((s.releaseBus.recordFault b why).setCheck k (u.readFaults why)).check k = u.readFaults why := by
      rw [State.setCheck_check, if_pos rfl]
    obtain ⟨h1, h2, -⟩ := hmoved.checkRun_ended hu hg hnp hj hwork hx hunit (by simp [CheckUnit.readFaults])
      (code := none) (by simp [CheckUnit.runEnds, CheckUnit.readFaults]) rfl rfl rfl
    rw [hexec]
    exact ⟨_, rfl, h1, by simp; rfl, by simp, h2⟩

end Sys2Proof.Machine
end

