-- ==== Sys2Proof/Proofs/PackRuns.lean ====
section
/-! PROOF. The ends of a pack unit's run at a transfer (R43, R44, R97, R100, R109 to R113, R124, R125): O31. -/

namespace Sys2Proof.Machine

-- One theorem at a time, as in the tests: all at once they pass the memory limit.
set_option Elab.async false

/-! ### What a pack unit's run hands over (R113, R124) -/

/-- What the units of a run hand over whose pack unit stands as `u`, with the running code and the final code of its check
unit. -/
def PackUnit.handsOver (u : PackUnit) (x : Context) (running : RunningCode) (code : Option Word) : RunEnd :=
  { ending := u.ending, inCount := u.taken, outCount := u.written, running := running
    carry := if u.mode = .pack then some u.carry else x.carry
    phase := if u.mode = .unpack then some u.work.phase else x.phase
    code := code }

section
variable {s : State} {c : ChannelId} {p : PackId} (hp : s.packOf c = some p)
include hp

theorem State.runIsOver_pack (hr : (s.channel c).state = .run) : s.runIsOver c = (s.pack p).isOver := by
  simp [State.runIsOver, hr, hp]

theorem State.runEnd_pack (x : Context) :
    s.runEnd c x = (s.pack p).handsOver x
      ((s.checkOf c).elim x.running fun k => (s.check k).running)
      ((s.checkOf c).bind fun k => ((s.check k).runEnds (s.pack p).ending).finalCode) := by
  unfold State.runEnd
  rw [hp]
  cases s.checkOf c <;> rfl

end

/-- The status of a pack unit's run that is DONE (R43, R125). -/
theorem PackUnit.handsOver_done {u : PackUnit} {j : Job} {op : Op} (hend : u.ending = .done)
    (hop : Op.ofByte j.entry.opByte = some op) (hm : u.mode = Spec.modeOf op) (x : Context) (running : RunningCode)
    (code : Option Word) :
    ((u.handsOver x running code).working j.entry x).status = some (Spec.doneStatus j.entry code u.work.phase) ∧
      ((u.handsOver x running code).working j.entry x).fault = none := by
  have hphase : Op.ofByte j.entry.opByte = some .unpack → (u.handsOver x running code).phase = some u.work.phase := by
    intro h
    cases hop.symm.trans h
    exact if_pos hm
  have he : (u.handsOver x running code).ending = .done := hend
  unfold RunEnd.working
  rw [he]
  exact ⟨congrArg some (doneStatus_eq hphase), rfl⟩

theorem PackUnit.handsOver_overrun {u : PackUnit} (hend : u.ending = .outOverrun) (e : JobEntry) (x : Context)
    (running : RunningCode) (code : Option Word) :
    ((u.handsOver x running code).working e x).status = some .outOverrun ∧
      ((u.handsOver x running code).working e x).fault = none := by
  have he : (u.handsOver x running code).ending = .outOverrun := hend
  unfold RunEnd.working
  rw [he]
  exact ⟨rfl, rfl⟩

theorem PackUnit.handsOver_fault {u : PackUnit} {d : FaultDetail} (hend : u.ending = .busFault d) (e : JobEntry)
    (x : Context) (running : RunningCode) (code : Option Word) :
    ((u.handsOver x running code).working e x).status = some .busFault ∧
      ((u.handsOver x running code).working e x).fault = some d := by
  have he : (u.handsOver x running code).ending = .busFault d := hend
  unfold RunEnd.working
  rw [he]
  exact ⟨rfl, rfl⟩

section
variable {s v : State} {c : ChannelId} {p : PackId} {joined : Option CheckId} {j : Job} {w : Working} {x : Context}
  (hu : s.UnitsKept) (h : s.UnitsMoved v) (hg : s.arbiter.packs.get p = some c)
  (hk : ∀ k, s.arbiter.checks.get k = some c ↔ joined = some k)
include hu h hg hk

/-- The channel of a pack unit is in RUN with that unit and the check unit joined, if any. -/
theorem State.UnitsMoved.packGranted : (v.channel c).state = .run ∧ v.packOf c = some p ∧ v.checkOf c = joined := by
  have honce := (h.grants hu.grantsPlaced).toUnitsOnce
  refine ⟨?_, honce.packOf_eq (h.arbiter ▸ hg), ?_⟩
  · rw [h.channel]
    exact hu.packState p c hg
  · cases joined with
    | none =>
      refine State.checkOf_eq_none.2 fun k e => ?_
      rw [h.arbiter] at e
      exact absurd ((hk k).1 e) (by simp)
    | some k => exact honce.checkOf_eq (h.arbiter ▸ (hk k).2 rfl)

/-- The run of a pack unit that is over. -/
theorem State.UnitsMoved.packRun_ended (hj : (s.channel c).job = some j) (hw : (s.channel c).work = some w)
    (hx : w.ctx = some x) {u : PackUnit} (hv : v.pack p = u) (ho : u.isOver = true) {running : RunningCode}
    (hrunning : (joined.elim x.running fun k => (v.check k).running) = running)
    {code : Option Word} (hcode : (joined.bind fun k => ((v.check k).runEnds u.ending).finalCode) = code) {st : Status}
    {f : Option FaultDetail}
    (hst : ((u.handsOver x running code).working j.entry x).status = some st ∧
      ((u.handsOver x running code).working j.entry x).fault = f) :
    Spec.runEnded c s (v.settleRun c) st u.taken u.written f code ∧ Spec.releaseEvaluated c s (v.settleRun c) ∧
      ((v.settleRun c).channels.get c).work = some ((u.handsOver x running code).working j.entry x) := by
  obtain ⟨hrun, hp, hkk⟩ := h.packGranted hu hg hk
  have hover : v.runIsOver c = true := by rw [State.runIsOver_pack hp hrun, hv, ho]
  have hre : v.runEnd c x = u.handsOver x running code := by rw [State.runEnd_pack hp, hkk, hv, hcode, hrunning]
  exact h.settleRun hu hj hw hx hover hre hst.1 rfl rfl hst.2 rfl

end

/-! ### A pack unit's transfer (R96, R97) -/

section
variable {s : State} {c : ChannelId} {p : PackId} {b : Burst} (ho : b.owner = .pk p)
  (hg : s.arbiter.packs.get p = some c) (hr : (s.pack p).condition = .running)
include ho hg hr

/-- The owner of a read that ended with ready goes on with its bytes. -/
theorem State.tellPack_read (hw : b.request.write = false) (bytes : List Byte) :
    s.tellReady b bytes = ((s.setPack p ((s.pack p).readEnds bytes)).drivePack p).settleRun c := by
  simp only [State.tellReady, ho, State.packTransferEnds, hg, hr, hw]
  rfl

/-- The owner of a write that ended with ready goes on, or after an overrun its run is over. -/
theorem State.tellPack_write (hw : b.request.write = true) (bytes : List Byte) :
    s.tellReady b bytes =
      if (s.pack p).ending = .outOverrun then (s.setPack p (s.pack p).writeEnds).settleRun c
      else ((s.setPack p (s.pack p).writeEnds).drivePack p).settleRun c := by
  simp only [State.tellReady, ho, State.packTransferEnds, hg, hr, hw, if_true]
  rfl

theorem State.tellPack_fault (why : Why) :
    s.tellFault b why =
      if b.request.write then (s.setPack p ((s.pack p).writeFaults why)).settleRun c
      else (s.setPack p ((s.pack p).readFaults why)).settleRun c := by
  simp only [State.tellFault, ho, State.packTransferFaults, hg, hr]
  rfl

end

theorem State.setPack_setPack (s : State) (p : PackId) (x y : PackUnit) : (s.setPack p x).setPack p y = s.setPack p y := by
  simp only [State.setPack, Vector.set_set]

/-- No byte offered changes nothing. -/
theorem State.offerTo_nil (s : State) (joined : Option (CheckId × Tap)) : s.offerTo joined [] = s := by
  unfold State.offerTo
  split
  · rename_i k _
    have hself : (s.check k).offered [] = s.check k := rfl
    rw [hself]
    unfold State.setCheck State.check
    rw [vector_set_get]
  · rfl

/-- A unit that comes to the end of its work without a transfer, offering nothing. -/
theorem State.drivePack_silent (s : State) (p : PackId) {u u' : PackUnit}
    (h : u.advance = ({ unit := u', offered := [] }, none)) : (s.setPack p u).drivePack p = s.setPack p u' := by
  unfold State.drivePack
  rw [State.setPack_pack, if_pos rfl, h]
  dsimp only
  rw [State.offerTo_nil, State.setPack_setPack]

/-! ### The course of a unit's work, by where it stops (R96 to R100) -/

section
variable {u : PackUnit} {w w' : PackStep} {d : Drive} {q : BurstRequest}

theorem PackUnit.advance_of_owed_stops (h : acceptItems u.owed { unit := u, offered := [] } = (w, d)) (hd : d ≠ .drained) :
    u.advance = w.stopFor d := by
  unfold PackUnit.advance
  rw [h]
  cases d with
  | drained => exact absurd rfl hd
  | writeDue => rfl
  | noRoom => rfl

variable (h : acceptItems u.owed { unit := u, offered := [] } = (w, .drained))
include h

theorem PackUnit.advance_of_bytes_stop (h' : takeBytes w.unit.readAhead w = (w', d)) (hd : d ≠ .drained) :
    u.advance = w'.stopFor d := by
  unfold PackUnit.advance
  rw [h]
  dsimp only
  rw [h']
  cases d with
  | drained => exact absurd rfl hd
  | writeDue => rfl
  | noRoom => rfl

theorem PackUnit.advance_of_end (h' : takeBytes w.unit.readAhead w = (w', .drained))
    (hs : w'.unit.source[w'.unit.sourceCursor.fragment]? = none) : u.advance = w'.finish := by
  unfold PackUnit.advance
  rw [h]
  dsimp only
  rw [h']
  dsimp only
  rw [readAt_end hs]

end

/-- A unit that owes nothing has nothing to accept. -/
theorem acceptItems_owed_nil {u : PackUnit} (h : u.owed = []) :
    acceptItems u.owed { unit := u, offered := [] } = ({ unit := u, offered := [] }, .drained) := by
  cases u
  cases h
  rfl

/-! ### The work that ends a run (R100, R109, R110) -/

/-- With nothing owed, nothing read ahead, nothing to finish and an empty buffer, the end of the source ends the run (R109). -/
theorem PackUnit.advance_done {u : PackUnit} (ho : u.owed = []) (hr : u.readAhead = [])
    (hs : u.source[u.sourceCursor.fragment]? = none) (hf : u.finishing = true ∨ u.endCallsFor = [])
    (hb : u.writeBuffer = []) :
    u.advance = ({ unit := { u with finishing := true, ending := .done }, offered := [] }, none) := by
  have hitems : (if u.finishing then [] else u.endCallsFor) = [] := by
    rcases hf with h | h <;> simp [h]
  have hl : PackUnit.lastWrite { u with finishing := true, owed := [] } = none := by simp [PackUnit.lastWrite, hb]
  rw [PackUnit.advance_fresh ho hr, readAt_end hs]
  simp only [PackStep.finish, hitems, acceptItems, hl]
  rw [← ho]

/-- A PASS unit without capacity stops at the byte that it must take, read or not (R100). -/
theorem PackUnit.advance_passFull {u : PackUnit} (ho : u.owed = []) (hm : u.mode = .pass) (hc : Spec.capacity u = 0)
    (hs : u.readAhead ≠ [] ∨ u.source[u.sourceCursor.fragment]? ≠ none) (hb : u.writeBuffer = []) :
    u.advance = ({ unit := u.overrun, offered := [] }, none) := by
  have hl : u.overrun.lastWrite = none := by
    have : u.overrun.writeBuffer = [] := hb
    simp [PackUnit.lastWrite, this]
  have hroom : u.room = 0 := hc
  cases hr : u.readAhead with
  | nil =>
    obtain ⟨f, hf⟩ := Option.ne_none_iff_exists'.1 (hs.resolve_left (by simp [hr]))
    have hu : u.stopsUnread = true := by simp [PackUnit.stopsUnread, hm, hroom]
    rw [PackUnit.advance_fresh ho hr, readAt_cursor hf]
    simp only [hu, if_true, PackStep.stopFor, hl]
  | cons b bs =>
    have hcalls : u.callsFor b = [{ bytes := [b], takes := true, after := none }] := by
      unfold PackUnit.callsFor
      rw [hm]
    have htake : takeBytes u.readAhead { unit := u, offered := [] } = ({ unit := u, offered := [] }, .noRoom) := by
      have hcap : Spec.capacity u < ([b] : List Byte).length := by simp [hc]
      rw [hr]
      unfold takeBytes
      rw [hcalls, acceptItems_noRoom { bytes := [b], takes := true, after := none } _ _ hcap]
    rw [PackUnit.advance_of_bytes_stop (acceptItems_owed_nil ho) htake (by decide)]
    simp only [PackStep.stopFor, hl]

/-! ### Host memory at a transfer (R112, R171, R172) -/

section
variable (s : State) (q : BurstRequest) (i : Nat) {a : Nat} (h : ∀ k < q.length, (q.address + BitVec.ofNat 32 k).toNat ≠ a)
include h

theorem State.memoryTakes_read : Memory.read (s.memoryTakes (q.cells i)).hostMem a = Memory.read s.hostMem a :=
  Memory.read_writeAll_other fun c hc => by
    obtain ⟨k, hk, rfl⟩ := BurstRequest.mem_cells hc
    exact h k hk

theorem State.memoryMayTake_read : Memory.read (s.memoryMayTake (q.cells i)).hostMem a = Memory.read s.hostMem a :=
  Memory.read_writeAll_other fun c hc => by
    obtain ⟨k, hk, rfl⟩ := BurstRequest.mem_cells (List.mem_filter.1 hc).1
    exact h k hk

end

/-! ### The ends of a run at a transfer (O31) -/

/-- The end of the source calls for output of PACK alone (R100, R104). -/
theorem PackUnit.endCallsFor_of_ne_pack {u : PackUnit} (h : u.mode ≠ .pack) : u.endCallsFor = [] := by
  unfold PackUnit.endCallsFor
  cases hm : u.mode with
  | pass => rfl
  | pack => exact absurd hm h
  | unpack => rfl

/-- Of a run that did not end DONE there is no final code (R124). -/
theorem finalCode_none {s : State} {ending : EndCondition} (h : ending ≠ .done) (joined : Option CheckId) :
    (joined.bind fun k => ((s.check k).runEnds ending).finalCode) = none := by
  cases joined with
  | none => rfl
  | some k => simp [CheckUnit.runEnds, h]

/-- Of a run that ended DONE the final code is formed by the check unit of an END job (R124). -/
theorem finalCode_done {s : State} {e : JobEntry} {joined : Option CheckId} {running : RunningCode}
    (hf : ∀ k, joined = some k → (s.check k).endFlag = Spec.endJob e)
    (hr : ∀ k, joined = some k → (s.check k).running = running) :
    (joined.bind fun k => ((s.check k).runEnds .done).finalCode) =
      if joined.isSome = true ∧ Spec.endJob e = true then some running.final else none := by
  cases joined with
  | none => rfl
  | some k => simp [CheckUnit.runEnds, hf k rfl, hr k rfl]

section
variable {s : State} {c : ChannelId} {p : PackId} {b : Burst} (hlive : s.live = true) (hb : s.biu.burst = some b)
  (ho : b.owner = .pk p) (hg : s.arbiter.packs.get p = some c) (hr : (s.pack p).condition = .running)
include hlive hb ho hg hr

/-- A write that ends with ready, after which the unit's work stops without another transfer. -/
theorem exec_packWrite_stops (hw : b.request.write = true) (hl : Spec.lastPhase b) (data : Word)
    (hend : (s.pack p).ending = .none) {u : PackUnit}
    (hadv : (s.pack p).writeEnds.advance = ({ unit := u, offered := [] }, none)) :
    exec (.burstEndsWithReady data) s =
      .next (((s.memoryTakes (b.request.cells b.phasesEnded)).releaseBus.setPack p u).settleRun c) := by
  have hne : ((s.memoryTakes (b.request.cells b.phasesEnded)).releaseBus.pack p).ending ≠ .outOverrun :=
    fun h => absurd (hend.symm.trans h) (by decide)
  rw [exec_writeEnds hlive hb hw hl, State.tellPack_write (s := (s.memoryTakes _).releaseBus) ho hg hr hw, if_neg hne]
  exact congrArg (fun t => Host.Outcome.next (State.settleRun c t)) (State.drivePack_silent _ p hadv)

/-- The write after an overrun that ends with ready (R110). -/
theorem exec_packWrite_overrun (hw : b.request.write = true) (hl : Spec.lastPhase b) (data : Word)
    (hend : (s.pack p).ending = .outOverrun) :
    exec (.burstEndsWithReady data) s =
      .next (((s.memoryTakes (b.request.cells b.phasesEnded)).releaseBus.setPack p (s.pack p).writeEnds).settleRun c) := by
  rw [exec_writeEnds hlive hb hw hl, State.tellPack_write (s := (s.memoryTakes _).releaseBus) ho hg hr hw]
  exact congrArg _ (if_pos hend)

/-- A write that faults: host memory may have taken its bytes (R112). -/
theorem exec_packWrite_faults (hw : b.request.write = true) {why : Why} (ht : why = .timeout → b.timeout ≠ 0) :
    exec (Spec.faultCommand why) s =
      .next ((((s.memoryMayTake (b.request.cells b.phasesEnded)).releaseBus.recordFault b why).setPack p
        ((s.pack p).writeFaults why)).settleRun c) := by
  rw [exec_faultCommand hlive hb ht, if_pos hw,
    State.tellPack_fault (s := (s.memoryMayTake _).releaseBus.recordFault b why) ho hg hr]
  exact congrArg _ (if_pos hw)

/-- A read that faults (R111). -/
theorem exec_packRead_faults (hw : b.request.write = false) {why : Why} (ht : why = .timeout → b.timeout ≠ 0) :
    exec (Spec.faultCommand why) s =
      .next (((s.releaseBus.recordFault b why).setPack p ((s.pack p).readFaults why)).settleRun c) := by
  rw [exec_readFaults hlive hb hw ht, State.tellPack_fault (s := s.releaseBus.recordFault b why) ho hg hr]
  exact congrArg _ (if_neg (by simp [hw]))

end

theorem PackUnit.isOver_of_overrun {u : PackUnit} (h : u.ending = .outOverrun) (hb : u.writeBuffer = []) :
    u.isOver = true := by
  simp [PackUnit.isOver, h, hb]

/-- Settles O31: each end leaves a unit whose run is over, and its run is settled. -/
theorem packRunEnds : Obligations.PackRunEnds := by
  intro s c p joined b j w x op hlive hu hb ho hg hk u hr hflag hj hw hx hop hcheck hm running code ends
  have hrunning : (joined.elim x.running fun k => (s.check k).running) = running := by cases joined <;> rfl
  -- a run that is over, in a part `v` that only its unit and the bus have moved on
  have key : ∀ (e : Instr) (v : State) (u' : PackUnit) (st : Status) (f : Option FaultDetail) (final : Option Word),
      exec e s = .next ((v.setPack p u').settleRun c) → s.UnitsMoved v → v.checks = s.checks → u'.isOver = true →
      u'.taken = u.taken → (joined.bind fun k => ((s.check k).runEnds u'.ending).finalCode) = final →
      ((u'.handsOver x running final).working j.entry x).status = some st ∧
        ((u'.handsOver x running final).working j.entry x).fault = f →
      v.biu.burst = none →
      (∀ a, (b.request.write = true → ∀ k < b.request.length, (b.request.address + BitVec.ofNat 32 k).toNat ≠ a) →
        Memory.read v.hostMem a = Memory.read s.hostMem a) →
      ends e st u'.written f final v.biu.lastFault ∧
        (((v.setPack p u').settleRun c).channels.get c).work = some ((u'.handsOver x running final).working j.entry x) := by
    intro e v u' st f final hexec hmoved hchecks hover htaken hfinal hst hburst hmem
    have hmoved' : s.UnitsMoved (v.setPack p u') :=
      ⟨hmoved.slots, hmoved.channels, hmoved.arbiter, hmoved.writer, hmoved.wanted⟩
    have hcheck' : ∀ k, (v.setPack p u').check k = s.check k := fun k => State.check_congr hchecks k
    obtain ⟨h1, h2, h3⟩ := hmoved'.packRun_ended hu hg hk hj hw hx (v.setPack_pack p p u' |>.trans (if_pos rfl)) hover
      (by simpa only [hcheck'] using hrunning) (by simpa only [hcheck'] using hfinal) hst
    rw [htaken] at h1
    exact ⟨⟨_, hexec, h1, by simpa using hburst, by simp, h2, by simpa using hmem⟩, h3⟩
  have hwrite : b.request.write = true → ∀ a,
      (b.request.write = true → ∀ k < b.request.length, (b.request.address + BitVec.ofNat 32 k).toNat ≠ a) →
      Memory.read (s.memoryTakes (b.request.cells b.phasesEnded)).hostMem a = Memory.read s.hostMem a ∧
        Memory.read (s.memoryMayTake (b.request.cells b.phasesEnded)).hostMem a = Memory.read s.hostMem a :=
    fun hw a ha => ⟨s.memoryTakes_read _ _ (ha hw), s.memoryMayTake_read _ _ (ha hw)⟩
  refine ⟨fun data hwr hl hend howed hahead hsrc hfin => ?done, fun data hwr hl hend => ?overrun,
    fun data hwr hl hend howed hmode hcap hleft => ?full, fun why ht =>
      ⟨fun hwr hend => ?overrunFaults, fun hwr hend => ?writeFaults, fun hwr hend => ?readFaults⟩⟩
  case done =>
    have hfinish : u.finishing = true ∨ u.endCallsFor = [] := by
      by_cases h : u.mode = .pack
      · exact .inl (hfin h)
      · exact .inr (PackUnit.endCallsFor_of_ne_pack h)
    have hexec := exec_packWrite_stops hlive hb ho hg hr hwr hl data hend
      (PackUnit.advance_done (u := u.writeEnds) howed hahead hsrc hfinish rfl)
    obtain ⟨h1, h2⟩ := key _ _ _ _ none code hexec ⟨rfl, rfl, rfl, rfl, rfl⟩ rfl rfl rfl
      (finalCode_done hflag fun k hk => by rw [← hrunning, hk]; rfl)
      (PackUnit.handsOver_done (u := { u.writeEnds with finishing := true, ending := .done }) rfl hop hm ..) rfl
      fun a ha => (hwrite hwr a ha).1
    exact ⟨h1, _, _, hexec, h2, rfl⟩
  case overrun =>
    have hend' : u.writeEnds.ending = .outOverrun := hend
    exact (key _ _ _ _ none none (exec_packWrite_overrun hlive hb ho hg hr hwr hl data hend) ⟨rfl, rfl, rfl, rfl, rfl⟩ rfl
      (PackUnit.isOver_of_overrun hend' rfl) rfl
      (finalCode_none (fun h => absurd (hend'.symm.trans h) (by decide)) _)
      (PackUnit.handsOver_overrun (u := u.writeEnds) hend' ..) rfl fun a ha => (hwrite hwr a ha).1).1
  case full =>
    have hexec := exec_packWrite_stops hlive hb ho hg hr hwr hl data hend
      (PackUnit.advance_passFull (u := u.writeEnds) howed hmode hcap hleft rfl)
    exact (key _ _ _ _ none none hexec ⟨rfl, rfl, rfl, rfl, rfl⟩ rfl rfl rfl
      (finalCode_none (by simp [PackUnit.overrun]) _) (PackUnit.handsOver_overrun (u := u.writeEnds.overrun) rfl ..) rfl
      fun a ha => (hwrite hwr a ha).1).1
  case overrunFaults =>
    have hu' : (s.pack p).writeFaults why = { u with writeBuffer := [] } := if_pos hend
    have hexec := exec_packWrite_faults hlive hb ho hg hr hwr ht
    rw [hu'] at hexec
    exact (key _ _ _ _ none none hexec ⟨rfl, rfl, rfl, rfl, rfl⟩ rfl (PackUnit.isOver_of_overrun hend rfl)
      rfl (finalCode_none (fun h => absurd (hend.symm.trans h) (by decide)) _) (PackUnit.handsOver_overrun (u := { u with writeBuffer := [] }) hend ..) rfl
      fun a ha => (hwrite hwr a ha).2).1
  case writeFaults =>
    have hu' : (s.pack p).writeFaults why = { u with
        ending := .busFault { place := .dest, why := why }
        readAhead := [], writeBuffer := [], owed := [], work := PackWork.reset } :=
      if_neg fun h : u.ending = .outOverrun => absurd (hend.symm.trans h) (by decide)
    have hexec := exec_packWrite_faults hlive hb ho hg hr hwr ht
    rw [hu'] at hexec
    exact (key _ _ _ _ _ none hexec ⟨rfl, rfl, rfl, rfl, rfl⟩ rfl rfl rfl
      (finalCode_none (by simp) _) (PackUnit.handsOver_fault rfl ..) rfl fun a ha => (hwrite hwr a ha).2).1
  case readFaults =>
    exact (key _ _ _ _ _ none (exec_packRead_faults hlive hb ho hg hr hwr ht) ⟨rfl, rfl, rfl, rfl, rfl⟩ rfl rfl rfl
      (finalCode_none (by simp [PackUnit.readFaults]) _) (PackUnit.handsOver_fault (u := u.readFaults why) rfl ..) rfl
      fun _ _ => rfl).1

end Sys2Proof.Machine
end

