-- ==== Sys2Proof/Proofs/Joins.lean ====
section
/-! SUPPORT. A join at the unit arbiter (R81 to R85, R109, R123): the wait, the grant, and the run that ends at its grant and frees
its units. -/

namespace Sys2Proof.Machine

-- One theorem at a time, as in the tests: all at once they pass the memory limit.
set_option Elab.async false

/-! ### The evaluation of a join (R82): no channel but the joining one can be met -/

/-- The needed set of no waiting channel but `c` is met. -/
def State.OthersUnmet (c : ChannelId) (s : State) : Prop :=
  ∀ d n, d ≠ c → s.arbiter.waiting.get d = some n → s.meets n = false

theorem State.meets_iff {s : State} {n : Need} :
    s.meets n = true ↔ (n.pack = true → ∃ p, s.arbiter.packs.get p = none) ∧
      (n.check = true → ∃ k, s.arbiter.checks.get k = none) := by
  have hp : s.freePack.isSome ↔ ∃ p, s.arbiter.packs.get p = none := by
    simp [State.freePack]
  have hk : s.freeCheck.isSome ↔ ∃ k, s.arbiter.checks.get k = none := by
    simp [State.freeCheck]
  rw [State.meets, ← hp, ← hk]
  cases n.pack <;> cases n.check <;> simp

section
variable {s : State} {c : ChannelId} {n : Need}

theorem State.examine_unmet {d : ChannelId} (h : ∀ m, s.arbiter.waiting.get d = some m → s.meets m = false) :
    s.examine d = s := by
  unfold State.examine
  split
  · rename_i m hm
    simp [h m hm]
  · rfl

/-- A grant leaves fewer units free, and the other channels waiting. -/
theorem State.OthersUnmet.grant (h : s.OthersUnmet c) : (s.grant c n).OthersUnmet c := by
  intro d m hd hm
  rw [State.grant_waiting, Vector.get_set_fin, if_neg hd] at hm
  refine Bool.eq_false_iff.2 fun hmet => Bool.eq_false_iff.1 (h d m hd hm) ?_
  rw [State.meets_iff] at hmet ⊢
  refine hmet.imp (fun hp e => ?_) fun hk e => ?_
  · obtain ⟨p, hp⟩ := hp e
    rw [State.grant_packs] at hp
    split at hp
    · contradiction
    · exact ⟨p, hp⟩
  · obtain ⟨k, hk⟩ := hk e
    rw [State.grant_checks] at hk
    split at hk
    · contradiction
    · exact ⟨k, hk⟩

theorem State.foldl_examine_unmet (h : s.OthersUnmet c) (hc : s.arbiter.waiting.get c = none) (l : List ChannelId) :
    l.foldl State.examine s = s := by
  induction l with
  | nil => rfl
  | cons d l ih =>
    rw [List.foldl_cons, State.examine_unmet, ih]
    intro m hm
    exact h d m (fun e => by simp [e, hc] at hm) hm

/-- The scan comes to the joining channel, before and after which it meets no other. -/
theorem State.foldl_examine_met (h : s.OthersUnmet c) (hc : s.arbiter.waiting.get c = some n) (hm : s.meets n = true)
    {l : List ChannelId} (hl : c ∈ l) : l.foldl State.examine s = s.grant c n := by
  induction l with
  | nil => cases hl
  | cons d l ih =>
    rw [List.foldl_cons]
    by_cases hd : d = c
    · have he : s.examine d = s.grant c n := by
        rw [hd, State.examine, hc]
        exact if_pos hm
      rw [he]
      exact State.foldl_examine_unmet h.grant (by rw [State.grant_waiting, Vector.get_set_fin, if_pos rfl]) l
    · rw [State.examine_unmet fun m => h d m hd]
      exact ih ((List.mem_cons.1 hl).resolve_left (Ne.symm hd))

/-- An evaluation goes on from its scan with the channels that waited and whose runs are over. -/
theorem State.evaluate_of_scan {t : State} (hs : s.scan = t)
    (h : ∀ d, (s.arbiter.waiting.get d).isSome → t.runIsOver d = false) (m : Nat) : s.evaluate (m + 1) = t := by
  have key (l : List ChannelId) (hl : ∀ d ∈ l, t.runIsOver d = false) :
      l.foldl (fun u d => if u.runIsOver d then State.evaluate m (u.finishRun d) else u) t = t := by
    induction l with
    | nil => rfl
    | cons d l ih =>
      rw [List.foldl_cons, hl d (List.mem_cons_self ..)]
      exact ih fun e he => hl e (List.mem_cons_of_mem _ he)
  unfold State.evaluate
  rw [hs]
  exact key _ fun d hd => h d (List.mem_filter.1 hd).2

theorem State.WaitingPlaced.not_over (h : s.WaitingPlaced) {d : ChannelId} (hd : (s.arbiter.waiting.get d).isSome) :
    s.runIsOver d = false :=
  Bool.eq_false_iff.2 fun ho => absurd ((State.runIsOver_state ho).symm.trans (h d hd)) (by decide)

/-- Nobody can be met: an evaluation changes nothing (R82). -/
theorem State.evaluate_unmet (h : s.OthersUnmet c) (hc : ∀ n, s.arbiter.waiting.get c = some n → s.meets n = false)
    (hw : s.WaitingPlaced) (m : Nat) : s.evaluate m = s := by
  have hscan : s.scan = s := by
    unfold State.scan
    induction rotationAfter s.arbiter.pointer with
    | nil => rfl
    | cons d l ih =>
      rw [List.foldl_cons, State.examine_unmet, ih]
      intro n hn
      by_cases hd : d = c
      · exact hc n (hd ▸ hn)
      · exact h d n hd hn
  cases m with
  | zero => rfl
  | succ m => exact State.evaluate_of_scan hscan (fun d hd => hw.not_over hd) m

/-- Once granted, the channel may be at the end of its run; another that waited is not in RUN. -/
theorem State.grant_not_over (hw : s.WaitingPlaced) {d : ChannelId} (hd : d ≠ c) (hwait : (s.arbiter.waiting.get d).isSome) :
    (s.grant c n).runIsOver d = false :=
  Bool.eq_false_iff.2 fun ho => by
    have := State.runIsOver_state ho
    rw [State.grant_channel, if_neg hd] at this
    exact absurd (this.symm.trans (hw d hwait)) (by decide)

section
variable (h : s.OthersUnmet c) (hc : s.arbiter.waiting.get c = some n) (hm : s.meets n = true) (hw : s.WaitingPlaced)
include h hc hm hw

/-- The joining channel is granted, and its run goes on. -/
theorem State.evaluate_met (ho : (s.grant c n).runIsOver c = false) (m : Nat) : s.evaluate (m + 1) = s.grant c n := by
  refine State.evaluate_of_scan (State.foldl_examine_met h hc hm (mem_rotationAfter ..)) (fun d hd => ?_) m
  by_cases e : d = c
  · rw [e, ho]
  · exact State.grant_not_over hw e hd

/-- The joining channel is granted, its run ends at once, and the evaluation of the release meets nobody (R85). -/
theorem State.evaluate_met_over (ho : (s.grant c n).runIsOver c = true) (m : Nat)
    (hend : ((s.grant c n).finishRun c).evaluate m = (s.grant c n).finishRun c) (honce : (s.grant c n).UnitsOnce)
    (hover : ((s.grant c n).finishRun c).runIsOver c = false) :
    s.evaluate (m + 1) = (s.grant c n).finishRun c := by
  have hscan : s.scan = s.grant c n := State.foldl_examine_met h hc hm (mem_rotationAfter ..)
  have hothers : ∀ d, d ≠ c → (s.arbiter.waiting.get d).isSome → ((s.grant c n).finishRun c).runIsOver d = false :=
    fun d hd hwait => by
      rw [(honce.finishRun_unitsSame hd).runIsOver]
      exact State.grant_not_over hw hd hwait
  have hdone (l : List ChannelId) (hl : ∀ d ∈ l, (s.arbiter.waiting.get d).isSome) :
      l.foldl (fun u d => if u.runIsOver d then State.evaluate m (u.finishRun d) else u) ((s.grant c n).finishRun c) =
        (s.grant c n).finishRun c := by
    induction l with
    | nil => rfl
    | cons d l ih =>
      have hd : ((s.grant c n).finishRun c).runIsOver d = false := by
        by_cases e : d = c
        · rw [e, hover]
        · exact hothers d e (hl d (List.mem_cons_self ..))
      rw [List.foldl_cons, hd]
      exact ih fun e he => hl e (List.mem_cons_of_mem _ he)
  have hfold (l : List ChannelId) (hl : ∀ d ∈ l, (s.arbiter.waiting.get d).isSome) (hmem : c ∈ l) :
      l.foldl (fun u d => if u.runIsOver d then State.evaluate m (u.finishRun d) else u) (s.grant c n) =
        (s.grant c n).finishRun c := by
    induction l with
    | nil => cases hmem
    | cons d l ih =>
      rw [List.foldl_cons]
      by_cases e : d = c
      · rw [e, ho, if_pos rfl, hend]
        exact hdone l fun e he => hl e (List.mem_cons_of_mem _ he)
      · rw [State.grant_not_over hw e (hl d (List.mem_cons_self ..))]
        exact ih (fun e he => hl e (List.mem_cons_of_mem _ he)) ((List.mem_cons.1 hmem).resolve_left (Ne.symm e))
  unfold State.evaluate
  rw [hscan]
  exact hfold _ (fun d hd => (List.mem_filter.1 hd).2) (List.mem_filter.2 ⟨mem_rotationAfter .., by simp [hc]⟩)

end

end

/-! ### The join (R81) -/

/-- A channel enters the waiting set with the units it needs. -/
def State.enterWaitingSet (c : ChannelId) (n : Need) (s : State) : State :=
  { s with arbiter := { s.arbiter with waiting := s.arbiter.waiting.set c (some n) } }

/-- A channel granted these units, before they are loaded. -/
def State.granted (c : ChannelId) (p : Option PackId) (k : Option CheckId) (s : State) : State :=
  { s with arbiter := s.arbiter.granting c p k }.setChannel c { s.channel c with state := .run }

/-- The units freed again, the grant map is as it was before the grant, but for the waiting set and the pointer. -/
theorem Arbiter.unitsFree_granting {a : Arbiter} {c : ChannelId} (hp : ∀ q, a.packs.get q ≠ some c)
    (hk : ∀ l, a.checks.get l ≠ some c) {p : Option PackId} {k : Option CheckId}
    (hfp : ∀ q, p = some q → a.packs.get q = none) (hfk : ∀ l, k = some l → a.checks.get l = none) :
    Spec.unitsFree c (a.granting c p k) = { a with waiting := a.waiting.set c none, pointer := c } := by
  have hpacks : (Spec.unitsFree c (a.granting c p k)).packs = a.packs := by
    ext i hi : 1
    refine (Spec.unitsFree_packs c _ ⟨i, hi⟩).trans ?_
    cases p with
    | none => exact if_neg (hp _)
    | some q =>
      simp only [Arbiter.granting, Vector.get_set_fin]
      by_cases e : (⟨i, hi⟩ : PackId) = q
      · rw [if_pos e, if_pos rfl]
        exact (hfp q rfl).symm.trans (by rw [← e]; rfl)
      · rw [if_neg e, if_neg (hp _)]
        rfl
  have hchecks : (Spec.unitsFree c (a.granting c p k)).checks = a.checks := by
    ext i hi : 1
    refine (Spec.unitsFree_checks c _ ⟨i, hi⟩).trans ?_
    cases k with
    | none => exact if_neg (hk _)
    | some l =>
      simp only [Arbiter.granting, Vector.get_set_fin]
      by_cases e : (⟨i, hi⟩ : CheckId) = l
      · rw [if_pos e, if_pos rfl]
        exact (hfk l rfl).symm.trans (by rw [← e]; rfl)
      · rw [if_neg e, if_neg (hk _)]
        rfl
  have heta : Spec.unitsFree c (a.granting c p k) =
      { waiting := a.waiting.set c none, pointer := c, packs := (Spec.unitsFree c (a.granting c p k)).packs
        checks := (Spec.unitsFree c (a.granting c p k)).checks } := rfl
  rw [heta, hpacks, hchecks]

section
variable {s : State} {c : ChannelId} {n : Need} {j : Job} {x : Context}

theorem State.enterWaitingSet_grant (hj : (s.channel c).job = some j) (hx : (s.channel c).work.bind Working.ctx = some x) :
    (s.enterWaitingSet c n).grant c n =
      (s.granted c (s.packFor n) (s.checkFor n)).loadUnits j x (s.packFor n) (s.checkFor n) := by
  have hrecord : (s.enterWaitingSet c n).recordGrant c n = s.granted c (s.packFor n) (s.checkFor n) := by
    have hp : (s.enterWaitingSet c n).packFor n = s.packFor n := rfl
    have hk : (s.enterWaitingSet c n).checkFor n = s.checkFor n := rfl
    unfold State.recordGrant State.granted
    rw [hp, hk]
    simp only [State.enterWaitingSet, Arbiter.granting, Vector.set_set]
    rfl
  rw [State.grant_eq (s := s.enterWaitingSet c n) hj hx, hrecord]
  rfl

section
variable (hu : s.UnitsKept) (hs : (s.channel c).state = .waitUnits)
include hu hs

theorem State.UnitsKept.not_granted :
    (∀ p, s.arbiter.packs.get p ≠ some c) ∧ ∀ k, s.arbiter.checks.get k ≠ some c :=
  ⟨fun p e => absurd (hs.symm.trans (hu.packState p c e)) (by decide),
    fun k e => absurd (hs.symm.trans (hu.checkState k c e)) (by decide)⟩

theorem State.UnitsKept.enterWaitingSet :
    (s.enterWaitingSet c n).OthersUnmet c ∧ (s.enterWaitingSet c n).WaitingPlaced := by
  refine ⟨fun d m hd hm => Bool.eq_false_iff.2 fun hmet => ?_, fun d hd => ?_⟩
  · simp only [State.enterWaitingSet, Vector.get_set_fin, if_neg hd] at hm
    exact hu.noneMet d m hm (State.meets_iff.1 hmet)
  · by_cases e : d = c
    · rw [e]
      exact hs
    · simp only [State.enterWaitingSet, Vector.get_set_fin, if_neg e] at hd
      exact hu.waitingPlaced d hd

end

theorem exec_unitJoin (hlive : s.live = true) (hs : (s.channel c).state = .waitUnits)
    (hw : s.arbiter.waiting.get c = none) (hj : (s.channel c).job = some j) (hn : j.entry.need = n) :
    exec (.unitJoin c) s = .next ((s.enterWaitingSet c n).evaluate 5) := by
  refine (next_taken ⟨hlive, hs, by simp [hw]⟩).trans ?_
  rw [hj, ← hn]
  rfl

section
variable (hlive : s.live = true) (hu : s.UnitsKept) (hs : (s.channel c).state = .waitUnits)
  (hw : s.arbiter.waiting.get c = none) (hj : (s.channel c).job = some j) (hn : j.entry.need = n)
include hlive hu hs hw hj hn

/-- The set is not met: the channel waits (R82). -/
theorem exec_unitJoin_waits (hm : s.meets n = false) : exec (.unitJoin c) s = .next (s.enterWaitingSet c n) := by
  obtain ⟨ho, hp⟩ := hu.enterWaitingSet (n := n) hs
  rw [exec_unitJoin hlive hs hw hj hn, State.evaluate_unmet ho (fun m e => ?_) hp]
  simp only [State.enterWaitingSet, Vector.get_set_fin, if_pos] at e
  cases e
  exact hm

variable (hx : (s.channel c).work.bind Working.ctx = some x) (hm : s.meets n = true) {p : Option PackId}
  {k : Option CheckId} (hp : s.packFor n = p) (hk : s.checkFor n = k)
include hx hm hp hk

/-- The set is met and the run goes on (R82 to R84). -/
theorem exec_unitJoin_runs (ho : ((s.granted c p k).loadUnits j x p k).runIsOver c = false) :
    exec (.unitJoin c) s = .next ((s.granted c p k).loadUnits j x p k) := by
  obtain ⟨hothers, hplaced⟩ := hu.enterWaitingSet (n := n) hs
  have hg := State.enterWaitingSet_grant (n := n) hj hx
  rw [hp, hk] at hg
  rw [exec_unitJoin hlive hs hw hj hn, State.evaluate_met (n := n) hothers _ hm hplaced (by rw [hg, ho]), hg]
  simp [State.enterWaitingSet, Vector.get_set_fin]

/-- The set is met and the run ends at its grant (R109, R123): the units are free again, and nobody else is met. -/
theorem exec_unitJoin_ends (ho : ((s.granted c p k).loadUnits j x p k).runIsOver c = true)
    (hb : ((s.granted c p k).loadUnits j x p k).biu = s.biu) {r : RunEnd}
    (hr : ((s.granted c p k).loadUnits j x p k).runEnd c x = r) {st : Status} {code : Option Word}
    (hst : (r.working j.entry x).status = some st) (hi : r.inCount = 0) (hout : r.outCount = 0)
    (hf : (r.working j.entry x).fault = none) (hcode : r.code = code) :
    ∃ t, exec (.unitJoin c) s = .next t ∧ Spec.runEnded c s t st 0 0 none code ∧
      t.arbiter = { s.arbiter with waiting := s.arbiter.waiting.set c none, pointer := c } ∧ t.biu = s.biu ∧
      t.hostMem = s.hostMem := by
  obtain ⟨hothers, hplaced⟩ := hu.enterWaitingSet (n := n) hs
  obtain ⟨hnp, hnk⟩ := hu.not_granted hs
  have hc : (s.enterWaitingSet c n).arbiter.waiting.get c = some n := by simp [State.enterWaitingSet, Vector.get_set_fin]
  have hgrants : (s.enterWaitingSet c n).GrantsPlaced := ⟨⟨hu.packOnce, hu.checkOnce⟩, hu.packState, hu.checkState⟩
  have hst' : ((s.enterWaitingSet c n).channel c).state ≠ .run := fun e => absurd (hs.symm.trans e) (by decide)
  have honce := (hgrants.grant (n := n) hst').toUnitsOnce
  have hg := State.enterWaitingSet_grant (n := n) hj hx
  rw [hp, hk] at hg
  generalize hG : (s.enterWaitingSet c n).grant c n = G at hg honce
  rw [← hg] at ho hb hr
  have hframe := State.grant_frame (s.enterWaitingSet c n) c n
  have hch : G.channel c = { s.channel c with state := .run } := by
    rw [← hG, State.grant_channel, if_pos rfl]
    rfl
  have hjG : (G.channel c).job = some j := by rw [hch, ← hj]
  have hxG : (G.channel c).work.bind Working.ctx = some x := by rw [hch]; exact hx
  have hfin := State.finishRun_channel hjG hxG
  have harb : (G.finishRun c).arbiter = { s.arbiter with waiting := s.arbiter.waiting.set c none, pointer := c } := by
    have hga : G.arbiter = s.arbiter.granting c p k := by
      rw [← hG, State.grant_arbiter, ← hp, ← hk]
      simp only [State.enterWaitingSet, Arbiter.granting, Vector.set_set]
      rfl
    rw [honce.finishRun_arbiter hjG hxG, hga]
    exact Arbiter.unitsFree_granting hnp hnk (fun q e => State.packFor_free (hp.trans e))
      fun l e => State.checkFor_free (hk.trans e)
  have hrun : (G.channel c).state = .run := by rw [hch]
  have hend : (G.finishRun c).evaluate 4 = G.finishRun c := by
    refine State.evaluate_unmet (c := c) (fun d m hd hm => ?_) (fun m hm => ?_) (fun d hd => ?_) 4
    · rw [harb] at hm
      simp only [Vector.get_set_fin, if_neg hd] at hm
      refine Bool.eq_false_iff.2 fun hmet => hu.noneMet d m hm ?_
      rw [State.meets_iff, harb] at hmet
      exact hmet
    · rw [harb] at hm
      simp [Vector.get_set_fin] at hm
    · rw [harb] at hd
      have e : d ≠ c := fun e => by simp [e, Vector.get_set_fin] at hd
      simp only [Vector.get_set_fin, if_neg e] at hd
      rw [State.finishRun_channel_ne _ e, ← hG, State.grant_channel, if_neg e]
      exact hu.waitingPlaced d hd
  have hretire : (G.finishRun c).runIsOver c = false :=
    Bool.eq_false_iff.2 fun e => by simpa [hfin] using State.runIsOver_state e
  have hexec : exec (.unitJoin c) s = .next (G.finishRun c) := by
    subst hG
    rw [exec_unitJoin hlive hs hw hj hn, State.evaluate_met_over hothers hc hm hplaced ho 4 hend honce hretire]
  rw [hr] at hfin
  refine ⟨_, hexec, ⟨⟨_, congrArg Channel.work hfin, hst, hi, hout, hf, hcode⟩, congrArg Channel.state hfin, ?_, ?_, ?_, ?_⟩,
    harb, ?_, ?_⟩
  · rw [harb]
    exact hnp
  · rw [harb]
    exact hnk
  · simp [← hG]
    rfl
  · simp [← hG]
    rfl
  · simp [hb]
  · simp [← hG]
    rfl

end

end

end Sys2Proof.Machine
end

