-- ==== Sys2Proof/Proofs/LoadedUnits.lean ====
section
/-! SUPPORT. A loaded pack unit at its grant (R95, R100, R104, R105, R109): the carry emitted, or the run that ends there, in terms of
the items of output that the unit accepts. -/

namespace Sys2Proof.Machine

-- One theorem at a time, as in the tests: all at once they pass the memory limit.
set_option Elab.async false

/-! ### A carried run at the end of a source (R104) -/

/-- The token of a carried run at the end of an END job's source (R104). -/
def carriedToken (r : Carry) : List Byte :=
  if 3 ≤ r.count then Spec.runTokenOf r.count r.value
  else BitVec.ofNat 8 (r.count - 1) :: List.replicate r.count r.value

theorem carriedToken_length (r : Carry) (h : 1 ≤ r.count) : 2 ≤ (carriedToken r).length := by
  unfold carriedToken
  split
  · exact le_refl 2
  · simp only [List.length_cons, List.length_replicate]
    omega

/-- The end of an END job's source calls for the carried run's token alone. -/
theorem encodeEnd_carried (work : PackWork) (hg : work.group = []) (h : 1 ≤ work.runCount) :
    ∃ work', (encodeEnd work true).items =
        [{ bytes := carriedToken { value := work.runValue, count := work.runCount }, takes := false, after := some work' }] ∧
      work'.group = [] ∧ work'.runCount = 0 ∧ work'.phase = work.phase := by
  obtain ⟨group, v, n, phase⟩ := work
  simp only at hg h
  subst hg
  match n with
  | 1 => exact ⟨{ group := [], runValue := 0, runCount := 0, phase := phase }, rfl, rfl, rfl, rfl⟩
  | 2 => exact ⟨{ group := [], runValue := 0, runCount := 0, phase := phase }, rfl, rfl, rfl, rfl⟩
  | n + 3 =>
    refine ⟨{ group := [], runValue := 0, runCount := 0, phase := phase }, ?_, rfl, rfl, rfl⟩
    simp [encodeEnd, Encoding.emitGroup, Encoding.emitRun, carriedToken, runToken, Spec.runTokenOf]

/-! ### An item of output accepted (R97 to R99, R105) -/

/-- An item of the output, the write buffer staying short of its end. -/
theorem acceptItems_short {it : OutItem} {its : List OutItem} {w : PackStep} (hc : it.bytes.length ≤ Spec.capacity w.unit)
    (hs : it.bytes = [] ∨ it.bytes.length < Spec.bufferSpace w.unit) :
    acceptItems (it :: its) w = acceptItems its (PackStep.complete
      { unit := Spec.accepting w.unit 0 it.bytes, offered := w.offered ++ w.unit.outOffered it.bytes } it) := by
  have hacc : acceptBytes it.bytes w =
      ([], { unit := Spec.accepting w.unit 0 it.bytes, offered := w.offered ++ w.unit.outOffered it.bytes }, false) := by
    rcases hs with hs | hs
    · have hnone : w.unit.outOffered [] = [] := by
        unfold PackUnit.outOffered
        split <;> rfl
      simp [hs, acceptBytes, hnone]
    · exact (acceptBytes_short _ _ hs).1
  have hroom : ¬ w.unit.room < it.bytes.length := Nat.not_lt.2 hc
  rw [acceptItems, if_neg hroom, hacc]
  rfl

/-- An item of the output that reaches the end of the write buffer: the rest of it is owed. -/
theorem acceptItems_fills {it : OutItem} {its : List OutItem} {w : PackStep} (hc : it.bytes.length ≤ Spec.capacity w.unit)
    (h0 : 1 ≤ Spec.bufferSpace w.unit) (hs : Spec.bufferSpace w.unit ≤ it.bytes.length) :
    let w' : PackStep :=
      { unit :=
          { Spec.accepting w.unit 0 (it.bytes.take (Spec.bufferSpace w.unit)) with
            destCursor := Spec.destMoved w.unit (Spec.bufferSpace w.unit) }
        offered := w.offered ++ w.unit.outOffered (it.bytes.take (Spec.bufferSpace w.unit)) }
    acceptItems (it :: its) w =
      (if Spec.bufferSpace w.unit = it.bytes.length then
          { w'.complete it with unit := { (w'.complete it).unit with owed := its } }
        else
          { w' with unit := { w'.unit with owed := { it with bytes := it.bytes.drop (Spec.bufferSpace w.unit) } :: its } },
        .writeDue) := by
  intro w'
  have hroom : ¬ w.unit.room < it.bytes.length := Nat.not_lt.2 hc
  rw [acceptItems, if_neg hroom, acceptBytes_fills _ _ h0 hs]
  cases hd : it.bytes.drop (Spec.bufferSpace w.unit) with
  | nil =>
    have hle := List.drop_eq_nil_iff.1 hd
    rw [if_pos (le_antisymm hs hle)]
    rfl
  | cons b bs =>
    have hne : Spec.bufferSpace w.unit ≠ it.bytes.length := fun e => by simp [e] at hd
    rw [if_neg hne]

/-- How a unit goes on once what its finish called for has been accepted, or not (R109). -/
def PackStep.finished : PackStep × Drive → PackStep × Option BurstRequest
  | (w, .drained) =>
    match w.unit.lastWrite with
    | some q => (w, some q)
    | none => ({ w with unit := { w.unit with ending := .done } }, none)
  | (w, d) => w.stopFor d

theorem PackStep.finish_eq (w : PackStep) : w.finish =
    PackStep.finished (acceptItems (if w.unit.finishing then [] else w.unit.endCallsFor)
      { w with unit := { w.unit with finishing := true } }) := by
  unfold PackStep.finish PackStep.finished
  split <;> rfl

theorem PackStep.finished_drained {w : PackStep} (h : w.unit.writeBuffer ≠ []) :
    PackStep.finished (w, .drained) = (w, some w.unit.bufferWrite) := by
  have hl : w.unit.lastWrite = some w.unit.bufferWrite := if_neg fun e => h (List.isEmpty_iff.1 e)
  rw [PackStep.finished, hl]

/-! ### A loaded pack unit that comes to its end at the grant (R100, R105, R109) -/

section
variable (m : PackMode) (j : Job) (x : Context) (joined : Option (CheckId × Tap))

/-- Nothing to read and nothing to emit: DONE (R109). -/
theorem Spec.packLoaded_done (hs : j.source = [])
    (hn : m = .pack → Spec.endJob j.entry = true → (x.carry.getD { value := 0, count := 0 }).count = 0) :
    (Spec.packLoaded m j x joined).advance =
      ({ unit := { Spec.packLoaded m j x joined with finishing := true, ending := .done }, offered := [] }, none) := by
  refine PackUnit.advance_done rfl rfl (by simp [Spec.packLoaded, hs]) (.inr ?_) rfl
  by_cases hm : m = .pack
  · have hitems := (encodeEnd_items (Spec.packLoaded m j x joined).work (Spec.endJob j.entry) rfl).1 fun ⟨he, h1⟩ =>
      absurd ((hn hm he).symm.trans_ge h1) (by decide)
    have hmode : (Spec.packLoaded m j x joined).mode = .pack := hm
    unfold PackUnit.endCallsFor
    rw [hmode]
    exact hitems
  · exact PackUnit.endCallsFor_of_ne_pack hm

/-- A PASS job with a source and no capacity: OUT_OVERRUN (R100). -/
theorem Spec.packLoaded_passFull (hm : m = .pass) (hs : j.source ≠ []) (hd : totalLength j.dest = 0) :
    (Spec.packLoaded m j x joined).advance = ({ unit := (Spec.packLoaded m j x joined).overrun, offered := [] }, none) := by
  refine PackUnit.advance_passFull rfl hm ?_ (.inr ?_) rfl
  · simp [Spec.capacity, Spec.packLoaded, hd]
  · cases h : j.source with
    | nil => exact absurd h hs
    | cons f fs => simp [Spec.packLoaded, h]

section
variable (hs : j.source = []) (he : Spec.endJob j.entry = true) (h1 : 1 ≤ (x.carry.getD { value := 0, count := 0 }).count)
include hs he h1

/-- The unit of a carried run finishes with its token. -/
theorem Spec.packLoaded_carried : ∃ work',
    (Spec.packLoaded .pack j x joined).advance = PackStep.finished (acceptItems
        [{ bytes := carriedToken (x.carry.getD { value := 0, count := 0 }), takes := false, after := some work' }]
        { unit := { Spec.packLoaded .pack j x joined with finishing := true }, offered := [] }) ∧
    work'.group = [] ∧ work'.runCount = 0 ∧ work'.phase = x.phase.getD .header := by
  obtain ⟨work', hitems, hw⟩ := encodeEnd_carried (Spec.packLoaded .pack j x joined).work rfl h1
  refine ⟨work', ?_, hw⟩
  have hr : readAt (Spec.packLoaded .pack j x joined).source (Spec.packLoaded .pack j x joined).sourceCursor = none :=
    readAt_end (by simp [Spec.packLoaded, hs])
  have hcalls : (Spec.packLoaded .pack j x joined).endCallsFor = (encodeEnd (Spec.packLoaded .pack j x joined).work true).items := by
    rw [← he]
    rfl
  rw [PackUnit.advance_fresh rfl rfl, hr]
  dsimp only
  rw [PackStep.finish_eq]
  have hfin : (Spec.packLoaded .pack j x joined).finishing = false := rfl
  simp only [hfin, Bool.false_eq_true, if_false, hcalls, hitems]
  rfl

/-- A token that does not fit: OUT_OVERRUN (R105, R110). -/
theorem Spec.packLoaded_tooLong
    (hlong : totalLength j.dest < (carriedToken (x.carry.getD { value := 0, count := 0 })).length) :
    (Spec.packLoaded .pack j x joined).advance =
      ({ unit := { Spec.packLoaded .pack j x joined with finishing := true }.overrun, offered := [] }, none) := by
  obtain ⟨work', hadv, -⟩ := Spec.packLoaded_carried j x joined hs he h1
  rw [hadv, acceptItems_noRoom]
  · rfl
  · exact (Nat.sub_le _ _).trans_lt hlong

/-- A token that fits is accepted up to the end of the buffer, and its write is asked for; the rest is owed (R97, R104). -/
theorem Spec.packLoaded_emits
    (hfit : (carriedToken (x.carry.getD { value := 0, count := 0 })).length ≤ totalLength j.dest) {f : Fragment}
    {fs : List Fragment} (hd : j.dest = f :: fs) (hf : 1 ≤ f.length.toNat) :
    let u := Spec.packLoaded .pack j x joined
    let token := carriedToken (x.carry.getD { value := 0, count := 0 })
    let n := min (Spec.bufferSpace u) token.length
    ∃ owed work work',
      u.advance =
        ({ unit :=
            { Spec.accepting u 0 (token.take n) with
              destCursor := Spec.destMoved u n, owed := owed, work := work, finishing := true }
           offered := u.outOffered (token.take n) },
          some (Spec.writeFrom f.address (token.take n))) ∧
      1 ≤ n ∧ work'.group = [] ∧ work'.runCount = 0 ∧ work'.phase = x.phase.getD .header ∧
      ((owed = [] ∧ work = work' ∧ token.length = n) ∨
        n < token.length ∧ owed = [{ bytes := token.drop n, takes := false, after := some work' }]) := by
  intro u token n
  obtain ⟨work', hadv, hgroup, hcount, hphase⟩ := Spec.packLoaded_carried j x joined hs he h1
  have hlen : 2 ≤ token.length := carriedToken_length _ h1
  have hfrag : u.dest[u.destCursor.fragment]? = some f := by simp [u, Spec.packLoaded, hd]
  have hspace : Spec.bufferSpace u = min (32 - f.address.toNat % 32) f.length.toNat := by
    unfold Spec.bufferSpace
    rw [hfrag]
    simp [u, Spec.packLoaded]
  have hpos : 1 ≤ Spec.bufferSpace u := by rw [hspace]; omega
  have hcap : token.length ≤ Spec.capacity { u with finishing := true } := hfit
  have hbuffer : token.take n ≠ [] := fun e => by
    have := congrArg List.length e
    simp only [List.length_take, List.length_nil] at this
    omega
  -- the write that is asked for
  have hwrite (owed : List OutItem) (work : PackWork) : PackUnit.bufferWrite
      { Spec.accepting u 0 (token.take n) with
        destCursor := Spec.destMoved u n, owed := owed, work := work, finishing := true } =
      Spec.writeFrom f.address (token.take n) := by
    have haddr : Spec.destAddress u = f.address := by
      unfold Spec.destAddress
      rw [hfrag]
      simp [u, Spec.packLoaded]
    have hstart : (Spec.accepting u 0 (token.take n)).writeAddress = f.address := (if_pos ⟨rfl, hbuffer⟩).trans haddr
    change writeOf (Spec.accepting u 0 (token.take n)).writeAddress _ = _
    rw [hstart]
    rfl
  rw [hadv]
  by_cases hshort : token.length < Spec.bufferSpace u
  · have hn : n = token.length := min_eq_right hshort.le
    have hmoved : Spec.destMoved u n = { u.destCursor with offset := u.destCursor.offset + token.length } := by
      unfold Spec.destMoved
      rw [hfrag, hn]
      refine if_neg fun e => ?_
      have : u.destCursor.offset = 0 := rfl
      omega
    have hall : token.take n = token := by rw [hn, List.take_length]
    refine ⟨[], work', work', ?_, by omega, hgroup, hcount, hphase, .inl ⟨rfl, rfl, hn.symm⟩⟩
    have hdrained := PackStep.finished_drained (w :=
      { unit :=
          { Spec.accepting u 0 (token.take n) with
            destCursor := Spec.destMoved u n, owed := [], work := work', finishing := true }
        offered := u.outOffered (token.take n) }) hbuffer
    rw [← hwrite [] work', ← hdrained, hmoved, hall]
    exact congrArg PackStep.finished (acceptItems_short hcap (.inr hshort))
  · have hn : n = Spec.bufferSpace u := min_eq_left (by omega)
    have hfills := acceptItems_fills (it := { bytes := token, takes := false, after := some work' }) (its := [])
      (w := { unit := { u with finishing := true }, offered := [] }) hcap hpos (Nat.not_lt.1 hshort)
    by_cases hlong : Spec.bufferSpace u = token.length
    · refine ⟨[], work', work', ?_, by omega, hgroup, hcount, hphase, .inl ⟨rfl, rfl, by omega⟩⟩
      rw [← hwrite [] work', hn]
      exact congrArg PackStep.finished (hfills.trans (congrArg (·, Drive.writeDue) (if_pos hlong)))
    · refine ⟨[{ bytes := token.drop n, takes := false, after := some work' }], u.work, work', ?_, by omega, hgroup,
        hcount, hphase, .inr ⟨by omega, rfl⟩⟩
      rw [← hwrite [{ bytes := token.drop n, takes := false, after := some work' }] u.work, hn]
      exact congrArg PackStep.finished (hfills.trans (congrArg (·, Drive.writeDue) (if_neg hlong)))

end

end

end Sys2Proof.Machine
end

