-- ==== Sys2Proof/Proofs/UnitJoins.lean ====
section
/-! PROOF. A join (R81 to R84, R95, R104, R105, R109, R119, R123): the state after it, by the units it is granted: O27. -/

namespace Sys2Proof.Machine

-- One theorem at a time, as in the tests: all at once they pass the memory limit.
set_option Elab.async false

/-! ### Units loaded and begun -/

theorem Job.packUnit_eq {j : Job} {op : Op} {tap : Tap} (hop : Op.ofByte j.entry.opByte = some op)
    (ht : Tap.ofByte j.entry.tapByte = some tap) (x : Context) (k : Option CheckId) :
    j.packUnit x k = Spec.packLoaded (Spec.modeOf op) j x (k.map fun k => (k, tap)) := by
  rw [Job.packUnit, Spec.packLoaded_eq hop, JobEntry.tap, ht]
  rfl

/-- A pack unit is in PACK for a PACK job alone (R40). -/
theorem Spec.modeOf_eq_pack {op : Op} (h : Spec.modeOf op = .pack) : op = .pack := by
  cases op
  case pack => rfl
  all_goals cases h

theorem JobEntry.need_eq {e : JobEntry} {op : Op} {kind : CodeKind} (hop : Op.ofByte e.opByte = some op)
    (hk : CodeKind.ofByte e.kindByte = some kind) :
    e.need = { pack := op != .check, check := kind != .none } := by
  rw [JobEntry.need, JobEntry.op, JobEntry.kind, hop, hk]
  cases op <;> cases kind <;> rfl

/-- A pack unit that asks for a transfer. -/
theorem State.drivePack_asks (s : State) (p : PackId) {u u' : PackUnit} {out : List Byte} {q : BurstRequest}
    (h : u.advance = ({ unit := u', offered := out }, some q)) :
    (s.setPack p u).drivePack p = ((s.setPack p u').offerTo u'.joined out).want (.pk p) q := by
  unfold State.drivePack
  rw [State.setPack_pack, if_pos rfl, h]
  dsimp only
  rw [State.setPack_setPack]

/-- The bytes accepted reach the check unit that has an OUT tap (R99, R120). -/
theorem State.offerTo_outOffered (s : State) {u : PackUnit} {joined : Option (CheckId × Tap)} (hj : u.joined = joined)
    (bytes : List Byte) :
    s.offerTo joined (u.outOffered bytes) = { s with checks := Spec.offered s.checks joined [] bytes } := by
  subst hj
  unfold State.offerTo PackUnit.outOffered Spec.offered
  cases u.joined with
  | none => rfl
  | some kt =>
    obtain ⟨k, tap⟩ := kt
    cases tap <;> rfl

/-- The check units, one loaded for a pack unit's run (R119). -/
def State.loadChecks (j : Job) (x : Context) (p : PackId) : Option CheckId → State → State
  | some k, s => s.setCheck k (CheckUnit.load j x (some p))
  | none, s => s

theorem State.loadPack_eq (s : State) (j : Job) (x : Context) (p : PackId) (k : Option CheckId) :
    s.loadPack j x p k = (s.loadChecks j x p k).setPack p (j.packUnit x k) := by
  cases k <;> rfl

section
variable {s : State} {c : ChannelId} {n : Need} {j : Job} {x : Context} {p : Option PackId} {k : Option CheckId}
  (hu : s.UnitsKept) (hs : (s.channel c).state = .waitUnits) (hj : (s.channel c).job = some j)
  (hx : (s.channel c).work.bind Working.ctx = some x) (hp : s.packFor n = p) (hk : s.checkFor n = k)
include hu hs hj hx hp hk

/-- The units of the channel, once granted (R83). -/
theorem State.granted_units :
    (((s.granted c p k).loadUnits j x p k).channel c).state = .run ∧
      ((s.granted c p k).loadUnits j x p k).packOf c = p ∧ ((s.granted c p k).loadUnits j x p k).checkOf c = k := by
  have hgrants : (s.enterWaitingSet c n).GrantsPlaced := ⟨⟨hu.packOnce, hu.checkOnce⟩, hu.packState, hu.checkState⟩
  have hrun : ((s.enterWaitingSet c n).channel c).state ≠ .run := fun e => absurd (hs.symm.trans e) (by decide)
  have hg := State.enterWaitingSet_grant (n := n) hj hx
  rw [hp, hk] at hg
  rw [← hg]
  refine ⟨?_, (hgrants.grant_packOf hrun).trans hp, (hgrants.grant_checkOf hrun).trans hk⟩
  rw [State.grant_channel, if_pos rfl]

end

/-! ### The units that a join would choose (R82, R83) -/

/-- The needed set of a job with this op and code kind is met, and these are the units that a grant records. -/
structure State.Chosen (s : State) (op : Op) (kind : CodeKind) (p : Option PackId) (k : Option CheckId) : Prop where
  meets : s.meets { pack := op != .check, check := kind != .none } = true
  pack : s.packFor { pack := op != .check, check := kind != .none } = p
  check : s.checkFor { pack := op != .check, check := kind != .none } = k

section
variable {s : State} {op : Op} {kind : CodeKind} {p : Option PackId} {k : Option CheckId}

theorem State.freePack_lowest {p : PackId} (h : s.arbiter.packs.get p = none ∧ ∀ q, q < p → s.arbiter.packs.get q ≠ none) :
    s.freePack = some p :=
  finRange_find _ p (by simp [h.1]) fun q hq => Option.isNone_eq_false_iff.2 (Option.isSome_iff_ne_none.2 (h.2 q hq))

theorem State.freeCheck_lowest {k : CheckId}
    (h : s.arbiter.checks.get k = none ∧ ∀ l, l < k → s.arbiter.checks.get l ≠ none) : s.freeCheck = some k :=
  finRange_find _ k (by simp [h.1]) fun l hl => Option.isNone_eq_false_iff.2 (Option.isSome_iff_ne_none.2 (h.2 l hl))

theorem State.chosen_of_free (hp : if op = .check then p = none else p.isSome ∧ s.freePack = p)
    (hk : if kind = .none then k = none else k.isSome ∧ s.freeCheck = k) : s.Chosen op kind p k := by
  have hpack : s.packFor { pack := op != .check, check := kind != .none } = p ∧ (op = .check ∨ s.freePack.isSome) := by
    unfold State.packFor
    split at hp
    · rename_i e
      simp [hp, e]
    · rename_i e
      simp [hp, e]
  have hcheck : s.checkFor { pack := op != .check, check := kind != .none } = k ∧ (kind = .none ∨ s.freeCheck.isSome) := by
    unfold State.checkFor
    split at hk
    · rename_i e
      simp [hk, e]
    · rename_i e
      simp [hk, e]
  refine ⟨?_, hpack.1, hcheck.1⟩
  rw [State.meets]
  rcases hpack.2 with e | e <;> rcases hcheck.2 with e' | e' <;> simp [e, e']

/-- Free units of each kind needed: some are chosen. -/
theorem State.exists_chosen (hp : op ≠ .check → ∃ p, s.arbiter.packs.get p = none)
    (hk : kind ≠ .none → ∃ k, s.arbiter.checks.get k = none) :
    ∃ p k, s.Chosen op kind p k ∧ (p = none ↔ op = .check) ∧ (k = none ↔ kind = .none) := by
  have hfp : op ≠ .check → s.freePack.isSome := fun h => by simpa [State.freePack] using hp h
  have hfk : kind ≠ .none → s.freeCheck.isSome := fun h => by simpa [State.freeCheck] using hk h
  refine ⟨if op = .check then none else s.freePack, if kind = .none then none else s.freeCheck,
    State.chosen_of_free ?_ ?_, ?_, ?_⟩
  · split
    · rfl
    · exact ⟨hfp ‹_›, rfl⟩
  · split
    · rfl
    · exact ⟨hfk ‹_›, rfl⟩
  · split
    · simp [‹op = _›]
    · exact iff_of_false (Option.isSome_iff_ne_none.1 (hfp ‹_›)) ‹_›
  · split
    · simp [‹kind = _›]
    · exact iff_of_false (Option.isSome_iff_ne_none.1 (hfk ‹_›)) ‹_›

end

/-! ### The join of a channel, by what its units then do -/

section
variable {s : State} {c : ChannelId} {j : Job} {x : Context} {op : Op} {kind : CodeKind} {tap : Tap}
  (hlive : s.live = true) (hu : s.UnitsKept) (hs : (s.channel c).state = .waitUnits)
  (hw : s.arbiter.waiting.get c = none) (hj : (s.channel c).job = some j)
  (hx : (s.channel c).work.bind Working.ctx = some x) (hop : Op.ofByte j.entry.opByte = some op)
  (hkind : CodeKind.ofByte j.entry.kindByte = some kind) (htap : Tap.ofByte j.entry.tapByte = some tap)
include hlive hu hs hw hj hx hop hkind htap

/-- A CHECK job with a source begins its first read (R84, R122). -/
theorem exec_unitJoin_checkReads {k : CheckId} (hch : s.Chosen op kind none (some k)) {f : Fragment} {fs : List Fragment}
    (hf : j.source = f :: fs) :
    exec (.unitJoin c) s = .next
      (((s.granted c none (some k)).setCheck k (Spec.checkLoaded kind tap j x none)).want (.ck k) (Spec.readFrom f 0)) := by
  have hload : (s.granted c none (some k)).loadUnits j x none (some k) =
      ((s.granted c none (some k)).setCheck k (Spec.checkLoaded kind tap j x none)).want (.ck k) (Spec.readFrom f 0) := by
    rw [State.loadUnits_check, Spec.checkLoaded_eq hkind htap]
    exact (State.driveCheck_loaded _ k _).1 f (by simp [Spec.checkLoaded, hf])
  obtain ⟨hrun, hnp, hk⟩ := State.granted_units hu hs hj hx hch.pack hch.check
  rw [exec_unitJoin_runs hlive hu hs hw hj (JobEntry.need_eq hop hkind) hx hch.meets hch.pack hch.check, hload]
  rw [State.runIsOver_check hnp hk hrun, hload]
  have hunit : ((s.granted c none (some k)).setCheck k (Spec.checkLoaded kind tap j x none)).check k =
      Spec.checkLoaded kind tap j x none := (State.setCheck_check ..).trans (if_pos rfl)
  exact congrArg (fun u : CheckUnit => u.ending != .none) hunit

/-- A CHECK job without a source ends at its grant (R123). -/
theorem exec_unitJoin_checkEnds {k : CheckId} (hch : s.Chosen op kind none (some k)) (hf : j.source = []) (hc : op = .check) :
    ∃ t, exec (.unitJoin c) s = .next t ∧
      Spec.runEnded c s t (Spec.doneStatus j.entry (if Spec.endJob j.entry = true then some x.running.final else none)
        (x.phase.getD .header)) 0 0 none (if Spec.endJob j.entry = true then some x.running.final else none) ∧
      t.arbiter = { s.arbiter with waiting := s.arbiter.waiting.set c none, pointer := c } ∧ t.biu = s.biu ∧
      t.hostMem = s.hostMem := by
  have hload : (s.granted c none (some k)).loadUnits j x none (some k) =
      (s.granted c none (some k)).setCheck k { Spec.checkLoaded kind tap j x none with ending := .done } := by
    rw [State.loadUnits_check, Spec.checkLoaded_eq hkind htap]
    exact (State.driveCheck_loaded _ k _).2 (by simp [Spec.checkLoaded, hf])
  obtain ⟨hrun, hnp, hk⟩ := State.granted_units hu hs hj hx hch.pack hch.check
  have hunit : ((s.granted c none (some k)).loadUnits j x none (some k)).check k =
      { Spec.checkLoaded kind tap j x none with ending := .done } := by
    rw [hload, State.setCheck_check, if_pos rfl]
  have hunpack : Op.ofByte j.entry.opByte = some .unpack → x.phase = some (x.phase.getD .header) := fun e => by
    cases (hop.symm.trans e).symm.trans (congrArg some hc)
  have hcode : (({ Spec.checkLoaded kind tap j x none with ending := .done } : CheckUnit).runEnds .done).finalCode =
      if Spec.endJob j.entry = true then some x.running.final else none := by
    simp [CheckUnit.runEnds, Spec.checkLoaded]
  have hr : ((s.granted c none (some k)).loadUnits j x none (some k)).runEnd c x =
      { ending := .done, inCount := 0, outCount := 0, running := x.running, carry := x.carry, phase := x.phase
        code := if Spec.endJob j.entry = true then some x.running.final else none } := by
    rw [State.runEnd_check hnp hk, hunit, ← hcode]
    rfl
  refine exec_unitJoin_ends hlive hu hs hw hj (JobEntry.need_eq hop hkind) hx hch.meets hch.pack hch.check ?_
    (by rw [hload]; rfl) hr (congrArg some (doneStatus_eq hunpack)) rfl rfl rfl rfl
  rw [State.runIsOver_check hnp hk hrun, hunit]
  rfl

section
variable {p : PackId} {k : Option CheckId} (hch : s.Chosen op kind (some p) k)
include hch

/-- A pack unit that asks for a transfer at its grant (R84, R96, R104). -/
theorem exec_unitJoin_packAsks {u : PackUnit} {out : List Byte} {q : BurstRequest}
    (hadv : (Spec.packLoaded (Spec.modeOf op) j x (k.map fun k => (k, tap))).advance =
      ({ unit := u, offered := out }, some q)) (ho : u.isOver = false) :
    exec (.unitJoin c) s = .next
      (((((s.granted c (some p) k).loadChecks j x p k).setPack p u).offerTo (k.map fun k => (k, tap)) out).want (.pk p) q) := by
  have hju : u.joined = k.map fun k => (k, tap) := by
    have := PackUnit.advance_joined (Spec.packLoaded (Spec.modeOf op) j x (k.map fun k => (k, tap)))
    rwa [hadv] at this
  rw [← hju]
  have hload : (s.granted c (some p) k).loadUnits j x (some p) k =
      ((((s.granted c (some p) k).loadChecks j x p k).setPack p u).offerTo u.joined out).want (.pk p) q := by
    rw [State.loadUnits_pack, State.loadPack_eq, Job.packUnit_eq hop htap]
    exact State.drivePack_asks _ p hadv
  obtain ⟨hrun, hp, -⟩ := State.granted_units hu hs hj hx hch.pack hch.check
  rw [exec_unitJoin_runs hlive hu hs hw hj (JobEntry.need_eq hop hkind) hx hch.meets hch.pack hch.check, hload]
  rw [State.runIsOver_pack hp hrun, State.loadUnits_pack, State.drivePack_pack, if_pos rfl, State.loadPack_pack, if_pos rfl,
    Job.packUnit_eq hop htap, hadv, ho]

/-- A pack unit whose run ends at its grant (R100, R105, R109). -/
theorem exec_unitJoin_packEnds {u : PackUnit}
    (hadv : (Spec.packLoaded (Spec.modeOf op) j x (k.map fun k => (k, tap))).advance = ({ unit := u, offered := [] }, none))
    (ho : u.isOver = true) (ht : u.taken = 0) (hwr : u.written = 0) {st : Status} {code : Option Word}
    (hcode : (k.bind fun _ => ((Spec.checkLoaded kind tap j x (some p)).runEnds u.ending).finalCode) = code)
    (hst : ((u.handsOver x x.running code).working j.entry x).status = some st ∧
      ((u.handsOver x x.running code).working j.entry x).fault = none) :
    ∃ t, exec (.unitJoin c) s = .next t ∧ Spec.runEnded c s t st 0 0 none code ∧
      t.arbiter = { s.arbiter with waiting := s.arbiter.waiting.set c none, pointer := c } ∧ t.biu = s.biu ∧
      t.hostMem = s.hostMem := by
  have hload : (s.granted c (some p) k).loadUnits j x (some p) k =
      ((s.granted c (some p) k).loadChecks j x p k).setPack p u := by
    rw [State.loadUnits_pack, State.loadPack_eq, Job.packUnit_eq hop htap]
    exact State.drivePack_silent _ p hadv
  obtain ⟨hrun, hp, hk⟩ := State.granted_units hu hs hj hx hch.pack hch.check
  have hunit : ((s.granted c (some p) k).loadUnits j x (some p) k).pack p = u := by
    rw [hload, State.setPack_pack, if_pos rfl]
  have hcheck : ∀ l, k = some l → ((s.granted c (some p) k).loadUnits j x (some p) k).check l =
      Spec.checkLoaded kind tap j x (some p) := by
    rintro l rfl
    rw [hload, ← Spec.checkLoaded_eq hkind htap]
    exact (State.setCheck_check ..).trans (if_pos rfl)
  have hr : ((s.granted c (some p) k).loadUnits j x (some p) k).runEnd c x = u.handsOver x x.running code := by
    rw [State.runEnd_pack hp, hk, hunit, ← hcode]
    cases k with
    | none => rfl
    | some l =>
      simp only [Option.elim_some, Option.bind_some, hcheck l rfl]
      rfl
  refine exec_unitJoin_ends hlive hu hs hw hj (JobEntry.need_eq hop hkind) hx hch.meets hch.pack hch.check ?_ ?_ hr
    hst.1 ht hwr hst.2 rfl
  · rw [State.runIsOver_pack hp hrun, hunit, ho]
  · rw [hload]
    cases k <;> rfl

end

/-- A job with nothing to move and nothing to emit is DONE at its grant (R109, R123). -/
theorem exec_unitJoin_nothing {p : Option PackId} {k : Option CheckId} (hch : s.Chosen op kind p k)
    (hpn : p = none ↔ op = .check) (hkn : k = none ↔ kind = .none) (hcode : ¬ (op = .check ∧ kind = .none))
    (hsrc : j.source = [])
    (hcount : op = .pack → Spec.endJob j.entry = true → (x.carry.getD { value := 0, count := 0 }).count = 0) :
    let code := if kind ≠ .none ∧ Spec.endJob j.entry = true then some x.running.final else none
    ∃ t, exec (.unitJoin c) s = .next t ∧
      Spec.runEnded c s t (Spec.doneStatus j.entry code (x.phase.getD .header)) 0 0 none code ∧
      t.arbiter = { s.arbiter with waiting := s.arbiter.waiting.set c none, pointer := c } ∧ t.biu = s.biu ∧
      t.hostMem = s.hostMem := by
  intro code
  cases p with
  | none =>
    have hcheck : op = .check := hpn.1 rfl
    obtain ⟨k, rfl⟩ : ∃ l, k = some l := Option.ne_none_iff_exists'.1 fun e => hcode ⟨hcheck, hkn.1 e⟩
    have hkind' : kind ≠ .none := fun e => absurd (hkn.2 e) (by simp)
    have hcode' : code = if Spec.endJob j.entry = true then some x.running.final else none := by simp [code, hkind']
    rw [hcode']
    exact exec_unitJoin_checkEnds hlive hu hs hw hj hx hop hkind htap hch hsrc hcheck
  | some p =>
    have hcode' : (k.bind fun _ => ((Spec.checkLoaded kind tap j x (some p)).runEnds .done).finalCode) = code := by
      cases k with
      | none => simp [code, hkn.1 rfl]
      | some k =>
        have hkind' : kind ≠ .none := fun e => absurd (hkn.2 e) (by simp)
        simp [code, hkind', CheckUnit.runEnds, Spec.checkLoaded]
    exact exec_unitJoin_packEnds hlive hu hs hw hj hx hop hkind htap hch
      (Spec.packLoaded_done _ j x _ hsrc fun hm => hcount (Spec.modeOf_eq_pack hm)) rfl rfl rfl hcode'
      (PackUnit.handsOver_done (u := { Spec.packLoaded (Spec.modeOf op) j x _ with finishing := true, ending := .done })
        rfl hop rfl ..)

end

/-! ### The statement (O27) -/

/-- A cut token that is owed pends as what is left of it. -/
theorem Spec.pending_cut {u : PackUnit} {work' : PackWork} {token : List Byte} {n : Nat} (hm : u.mode = .pack)
    (hr : u.readAhead = []) (hf : u.finishing = true) (hs : u.source = []) (h1 : 1 ≤ n) (hg : work'.group = [])
    (hc : work'.runCount = 0) (hph : ∀ n, work'.phase = .runValue n → 3 ≤ n)
    (ho : (u.owed = [] ∧ u.work = work' ∧ token.length = n) ∨
      n < token.length ∧ u.owed = [{ bytes := token.drop n, takes := false, after := some work' }]) :
    Spec.owedLegal u ∧ Spec.pending u = Spec.leftOf n [token] ∧ (Spec.pendingWork u).runCount = 0 := by
  have hwork : Spec.owedWork u = work' := by
    rcases ho with ⟨ho, hw, -⟩ | ⟨-, ho⟩ <;> rw [Spec.owedWork, ho]
    · exact hw
    · rfl
  have hitem : ∀ it ∈ u.owed, it.bytes ≠ [] ∧ it.takes = false := by
    rcases ho with ⟨ho, -⟩ | ⟨hlt, ho⟩ <;> rw [ho]
    · exact fun it hit => absurd hit (by simp)
    · intro it hit
      rw [List.mem_singleton.1 hit]
      exact ⟨fun e => by simp only [List.drop_eq_nil_iff] at e; omega, rfl⟩
  have htakes : Spec.owedTakes u = 0 := by
    rw [Spec.owedTakes, List.length_eq_zero_iff, List.filter_eq_nil_iff]
    exact fun it hit => by simp [(hitem it hit).2]
  have hend : Spec.atSourceEnd u = true := by simp [Spec.atSourceEnd, hs]
  have hcalled : Spec.called u = ([], work') := by
    rw [Spec.called, hr, hwork]
    simp [Spec.outputsOf]
  have hfinish : Spec.finish u = ([], Spec.runLeft work') := by
    rw [Spec.finish, if_neg (by simp [hf]), hcalled]
  refine ⟨⟨fun it hit => (hitem it hit).1, fun it hit => (hitem it (List.dropLast_subset _ hit)).2,
    fun h => absurd (hm.symm.trans h) (by decide), by simp [htakes], ?_, fun _ => ⟨hr, fun _ => hwork ▸ hg⟩⟩, ?_, ?_⟩
  · rw [hwork]
    exact ⟨by simp [hg], by simp [hc], hph⟩
  · have hleft : Spec.leftOf n [token] = if token.length ≤ n then [] else [token.drop n] := by
      match n, h1 with
      | m + 1, _ => simp [Spec.leftOf]
    rw [Spec.pending, hcalled, hfinish, hleft]
    rcases ho with ⟨ho, -, hl⟩ | ⟨hlt, ho⟩ <;> rw [ho]
    · rw [if_pos hl.le]
      simp
    · rw [if_neg (Nat.not_le.2 hlt)]
      simp
  · rw [Spec.pendingWork, if_pos ⟨hend, hm⟩, hfinish]
    exact hc

/-- Settles O27, by whether the needed units are free, and by what the units granted then do. -/
theorem unitJoin : Obligations.UnitJoin := by
  intro s c j w x op kind tap hlive hu hs hw hj hwork hx hop hkind htap hcode lowestPack lowestCheck s' run token nothing
  have hctx : (s.channel c).work.bind Working.ctx = some x := by
    have hwork' : (s.channel c).work = some w := hwork
    rw [hwork']
    exact hx
  have chosenCheck : ∀ k, op = .check → lowestCheck k → s.Chosen op kind none (some k) := fun k ho hk =>
    State.chosen_of_free (by simp [ho])
      (by rw [if_neg fun e => hcode ⟨ho, e⟩]; exact ⟨rfl, State.freeCheck_lowest hk⟩)
  have chosenPack : ∀ p k, op ≠ .check → lowestPack p → (if kind = .none then k = none else k.isSome ∧ s.freeCheck = k) →
      s.Chosen op kind (some p) k := fun p k ho hp hk =>
    State.chosen_of_free (by rw [if_neg ho]; exact ⟨rfl, State.freePack_lowest hp⟩) hk
  have freeCheck : ∀ k, kind ≠ .none → lowestCheck k →
      if kind = .none then some k = none else (some k).isSome ∧ s.freeCheck = some k := fun k hk hlow => by
    rw [if_neg hk]
    exact ⟨rfl, State.freeCheck_lowest hlow⟩
  have hpass : op ≠ .check → (op = .pass → 1 ≤ totalLength j.dest) →
      ¬ (Spec.modeOf op = .pass ∧ totalLength j.dest = 0) := fun ho hroom ⟨hm, h0⟩ => by
    cases op with
    | check => exact ho rfl
    | pass => exact absurd (hroom rfl) (by omega)
    | pack => cases hm
    | unpack => cases hm
  refine ⟨fun hfull => ?waits, fun f fs hf hlen hroom => ⟨fun k ho hk => ?checkReads, fun p ho hk hp => ?packReads,
    fun p k ho hk hp hlow => ?bothReads⟩, fun f fs ho hphase hsrc he h1 h130 hfit hd hflen p joined hp hno hyes => ?emits,
    fun hends hfp hfk => ?ends⟩
  case waits =>
    refine exec_unitJoin_waits hlive hu hs hw hj (JobEntry.need_eq hop hkind) (Bool.eq_false_iff.2 fun hm => ?_)
    obtain ⟨hp, hk⟩ := State.meets_iff.1 hm
    rcases hfull with ⟨ho, hnone⟩ | ⟨ho, hnone⟩
    · obtain ⟨p, hp⟩ := hp (by simpa using ho)
      exact hnone p hp
    · obtain ⟨k, hk⟩ := hk (by simpa using ho)
      exact hnone k hk
  case checkReads => exact exec_unitJoin_checkReads hlive hu hs hw hj hctx hop hkind htap (chosenCheck k ho hk) hf
  case packReads =>
    have hreads := Spec.packLoaded_reads (Spec.modeOf op) j x none hf (hpass ho hroom)
    rw [exec_unitJoin_packAsks hlive hu hs hw hj hctx hop hkind htap (chosenPack p none ho hp (by simp [hk])) hreads rfl]
    rfl
  case bothReads =>
    have hreads := Spec.packLoaded_reads (Spec.modeOf op) j x (some (k, tap)) hf (hpass ho hroom)
    rw [exec_unitJoin_packAsks hlive hu hs hw hj hctx hop hkind htap (chosenPack p (some k) ho hp (freeCheck k hk hlow))
      hreads rfl, State.offerTo_nil]
    simp only [State.loadChecks, Spec.checkLoaded_eq hkind htap]
    rfl
  case emits =>
    obtain ⟨k, hk, hch⟩ : ∃ k : Option CheckId, joined = k.map (fun k => (k, tap)) ∧ s.Chosen op kind (some p) k := by
      by_cases e : kind = .none
      · exact ⟨none, hno e, chosenPack p none (by simp [ho]) hp (by simp [e])⟩
      · obtain ⟨k, hlow, hk⟩ := hyes e
        exact ⟨some k, hk, chosenPack p (some k) (by simp [ho]) hp (freeCheck k e hlow)⟩
    intro u n
    obtain ⟨owed, work, work', hadv, hn, hg, hc, hph, hcut⟩ :=
      Spec.packLoaded_emits j x joined hsrc he h1 hfit hd hflen
    refine ⟨owed, work, ?_⟩
    intro u'
    refine ⟨?_, Spec.pending_cut rfl rfl rfl hsrc hn hg hc (fun n e => ?_) hcut⟩
    · subst ho hk
      rw [exec_unitJoin_packAsks hlive hu hs hw hj hctx hop hkind htap hch hadv (PackUnit.isOver_false (.inl rfl)),
        State.offerTo_outOffered _ (joined := k.map fun k => (k, tap)) rfl]
      cases k with
      | none => rfl
      | some k =>
        simp only [State.loadChecks, Spec.checkLoaded_eq hkind htap]
        rfl
    · rw [hph] at e
      cases hx' : x.phase with
      | none => simp [hx'] at e
      | some ph => exact hphase n (by rw [hx'] at e ⊢; exact congrArg some e)
  case ends =>
    obtain ⟨p, k, hch, hpn, hkn⟩ := State.exists_chosen hfp hfk
    by_cases hn : nothing
    · obtain ⟨t, hexec, hrun, hrest⟩ :=
        exec_unitJoin_nothing hlive hu hs hw hj hctx hop hkind htap hch hpn hkn hcode hn.1 hn.2
      exact ⟨t, _, _, hexec, hrun, fun _ => ⟨rfl, rfl⟩, fun h => absurd hn h, hrest⟩
    · obtain ⟨u, hadv, hover, ht, hwr, hend⟩ : ∃ u, (Spec.packLoaded (Spec.modeOf op) j x (k.map fun k => (k, tap))).advance =
          ({ unit := u, offered := [] }, none) ∧ u.isOver = true ∧ u.taken = 0 ∧ u.written = 0 ∧ u.ending = .outOverrun := by
        rcases hends with h | ⟨rfl, hsrc, h0⟩ | ⟨rfl, hsrc, he, h1, h130, hlong⟩
        · exact absurd h hn
        · exact ⟨_, Spec.packLoaded_passFull _ j x _ rfl hsrc h0, rfl, rfl, rfl, rfl⟩
        · exact ⟨_, Spec.packLoaded_tooLong j x _ hsrc he h1 hlong, rfl, rfl, rfl, rfl⟩
      obtain ⟨p, rfl⟩ : ∃ q, p = some q := Option.ne_none_iff_exists'.1 fun e => by
        rcases hends with h | ⟨rfl, -⟩ | ⟨rfl, -⟩
        · exact hn h
        · exact absurd (hpn.1 e) (by decide)
        · exact absurd (hpn.1 e) (by decide)
      have hno : (k.bind fun _ => ((Spec.checkLoaded kind tap j x (some p)).runEnds u.ending).finalCode) = none := by
        cases k <;> simp [CheckUnit.runEnds, hend]
      obtain ⟨t, hexec, hrun, hrest⟩ := exec_unitJoin_packEnds hlive hu hs hw hj hctx hop hkind htap hch hadv hover ht hwr
        hno (PackUnit.handsOver_overrun hend ..)
      exact ⟨t, _, _, hexec, hrun, fun h => absurd h hn, fun _ => ⟨rfl, rfl⟩, hrest⟩

end Sys2Proof.Machine
end

