-- ==== Sys2Proof/Proofs/PackItems.lean ====
section
/-! SUPPORT. A pack unit that accepts output without filling its write buffer (R97 to R99, R104 to R106): the items it owes, those that
the bytes of its read-ahead call for, and the one for which the destination has no room, in the spec's own terms. -/

namespace Sys2Proof.Machine

-- One theorem at a time, as in the tests: all at once they pass the memory limit.
set_option Elab.async false

/-! ### Output accepted bit by bit (R97, R99) -/

/-- The bytes that a joined check unit is offered, as its tap says (R98, R99, R120). -/
def tapped (joined : Option (CheckId × Tap)) (taken accepted : List Byte) : List Byte :=
  match joined with
  | some (_, .inTap) => taken
  | some (_, .outTap) => accepted
  | none => []

theorem State.offerTo_tapped (s : State) (joined : Option (CheckId × Tap)) (taken accepted : List Byte) :
    s.offerTo joined (tapped joined taken accepted) = { s with checks := Spec.offered s.checks joined taken accepted } := by
  unfold State.offerTo tapped Spec.offered
  cases joined with
  | none => rfl
  | some kt =>
    obtain ⟨k, tap⟩ := kt
    cases tap <;> rfl

theorem tapped_append (joined : Option (CheckId × Tap)) (t t' a a' : List Byte) :
    tapped joined t a ++ tapped joined t' a' = tapped joined (t ++ t') (a ++ a') := by
  unfold tapped
  cases joined with
  | none => rfl
  | some kt =>
    obtain ⟨k, tap⟩ := kt
    cases tap <;> rfl

theorem PackUnit.outOffered_eq (u : PackUnit) (bytes : List Byte) : u.outOffered bytes = tapped u.joined [] bytes := by
  unfold PackUnit.outOffered tapped
  cases u.joined with
  | none => rfl
  | some kt =>
    obtain ⟨k, tap⟩ := kt
    cases tap <;> rfl

/-- The front of the read-ahead taken, where there is one. -/
theorem PackStep.takeFront_cons {w : PackStep} {b : Byte} {bs : List Byte} (h : w.unit.readAhead = b :: bs) :
    w.takeFront = { unit := { w.unit with readAhead := bs, taken := w.unit.taken + 1 }
                    offered := w.offered ++ tapped w.unit.joined [b] [] } := by
  unfold PackStep.takeFront
  rw [h]
  unfold PackStep.offer tapped
  dsimp only
  cases w.unit.joined with
  | none => simp
  | some kt =>
    obtain ⟨k, tap⟩ := kt
    cases tap <;> simp

section
variable (u : PackUnit) (n : Nat) (out bytes : List Byte)

theorem Spec.accepting_append :
    Spec.accepting (Spec.accepting u n out) 0 bytes = Spec.accepting u n (out ++ bytes) := by
  cases out with
  | nil => simp [Spec.accepting, Spec.destAddress]
  | cons b bs => simp [Spec.accepting, Nat.add_comm, Nat.add_left_comm]

theorem Spec.capacity_accepting : Spec.capacity (Spec.accepting u n out) = Spec.capacity u - out.length := by
  simp only [Spec.capacity, Spec.accepting, Nat.sub_sub]

/-- The room in the write buffer after output that left it short of its end. -/
theorem Spec.bufferSpace_accepting (h : out = [] ∨ out.length < Spec.bufferSpace u) :
    Spec.bufferSpace (Spec.accepting u n out) = Spec.bufferSpace u - out.length := by
  have hn : Spec.bufferSpace (Spec.accepting u n out) = Spec.bufferSpace (Spec.accepting u 0 out) := rfl
  rcases h with rfl | h
  · rw [hn, Spec.accepting_nil]
    rfl
  · exact hn.trans (acceptBytes_short out { unit := u, offered := [] } h).2

end

/-- A unit that has taken `n` bytes of its read-ahead and accepted some output since it stood as `u`, with what its tap was
offered. -/
def PackUnit.reached (u : PackUnit) (n : Nat) (out : List Byte) (work : PackWork) (owed : List OutItem) : PackStep :=
  { unit := { Spec.accepting u n out with readAhead := u.readAhead.drop n, work := work, owed := owed }
    offered := tapped u.joined (u.readAhead.take n) out }

theorem PackUnit.reached_start (u : PackUnit) : u.reached 0 [] u.work u.owed = { unit := u, offered := [] } := by
  have h : tapped u.joined [] [] = [] := by
    unfold tapped
    split <;> rfl
  simp only [PackUnit.reached, Spec.accepting_nil, List.drop_zero, List.take_zero, h]

/-- How many bytes the items take. -/
def takesIn (its : List OutItem) : Nat := (its.filter OutItem.takes).length

/-- The working pack state once the items are accepted. -/
def workAfter (its : List OutItem) (w : PackWork) : PackWork := its.foldl (fun w it => it.after.getD w) w

/-- The bytes of the items. -/
def outputOf (its : List OutItem) : List Byte := (its.map OutItem.bytes).flatten

section
variable {u : PackUnit} {n : Nat} {out : List Byte} {work : PackWork} {owed : List OutItem}

/-- An item accepted whole. -/
theorem PackUnit.reached_complete {it : OutItem} (ht : it.takes = true → n < u.readAhead.length) :
    PackStep.complete
        { unit := Spec.accepting (u.reached n out work owed).unit 0 it.bytes
          offered := (u.reached n out work owed).offered ++ (u.reached n out work owed).unit.outOffered it.bytes } it =
      u.reached (n + takesIn [it]) (out ++ it.bytes) (it.after.getD work) owed := by
  have hunit : Spec.accepting (u.reached n out work owed).unit 0 it.bytes =
      { Spec.accepting u n (out ++ it.bytes) with readAhead := u.readAhead.drop n, work := work, owed := owed } := by
    rw [← Spec.accepting_append]
    rfl
  have hout : (u.reached n out work owed).unit.outOffered it.bytes = tapped u.joined [] it.bytes :=
    PackUnit.outOffered_eq ..
  rw [hunit, hout]
  have hoff : (u.reached n out work owed).offered ++ tapped u.joined [] it.bytes =
      tapped u.joined (u.readAhead.take n) (out ++ it.bytes) := by
    rw [PackUnit.reached, tapped_append, List.append_nil]
  rw [hoff]
  obtain ⟨bytes, takes, after⟩ := it
  cases takes with
  | false => cases after <;> rfl
  | true =>
    have hlt := ht rfl
    have hfront : PackStep.takeFront
        { unit := { Spec.accepting u n (out ++ bytes) with readAhead := u.readAhead.drop n, work := work, owed := owed }
          offered := tapped u.joined (u.readAhead.take n) (out ++ bytes) } = u.reached (n + 1) (out ++ bytes) work owed := by
      have hoffered : tapped u.joined (u.readAhead.take n) (out ++ bytes) ++ tapped u.joined [u.readAhead[n]] [] =
          tapped u.joined (u.readAhead.take (n + 1)) (out ++ bytes) := by
        rw [tapped_append, List.append_nil, List.take_append_getElem]
      rw [PackStep.takeFront_cons (List.drop_eq_getElem_cons hlt)]
      exact congrArg (PackStep.mk _) hoffered
    unfold PackStep.complete
    simp only [if_true, hfront]
    cases after <;> rfl

/-- An item of the output that has room, in the destination and in the write buffer. -/
theorem acceptItems_reached {it : OutItem} {its : List OutItem} (ht : it.takes = true → n < u.readAhead.length)
    (hc : out.length + it.bytes.length ≤ Spec.capacity u)
    (hs : out ++ it.bytes = [] ∨ out.length + it.bytes.length < Spec.bufferSpace u) :
    acceptItems (it :: its) (u.reached n out work owed) =
      acceptItems its (u.reached (n + takesIn [it]) (out ++ it.bytes) (it.after.getD work) owed) := by
  have hcap : Spec.capacity (u.reached n out work owed).unit = Spec.capacity u - out.length :=
    Spec.capacity_accepting u n out
  have hspace : Spec.bufferSpace (u.reached n out work owed).unit = Spec.bufferSpace u - out.length :=
    Spec.bufferSpace_accepting u n out (hs.imp (fun h => (List.append_eq_nil_iff.1 h).1) fun h => by omega)
  rw [acceptItems_short (by omega), PackUnit.reached_complete ht]
  rcases hs with h | h
  · exact .inl (List.append_eq_nil_iff.1 h).2
  · exact .inr (by omega)

theorem takesIn_cons (it : OutItem) (its : List OutItem) : takesIn (it :: its) = takesIn [it] + takesIn its := by
  simp only [takesIn, List.filter_cons, List.filter_nil]
  split <;> simp [Nat.add_comm]

theorem takesIn_singleton {it : OutItem} (h : it.takes = true) : takesIn [it] = 1 := by
  simp [takesIn, h]

theorem outputOf_cons (it : OutItem) (its : List OutItem) : outputOf (it :: its) = it.bytes ++ outputOf its := rfl

theorem workAfter_cons (it : OutItem) (its : List OutItem) (w : PackWork) :
    workAfter (it :: its) w = workAfter its (it.after.getD w) := rfl

/-- Items of the output that have room, in the destination and in the write buffer, before others. -/
theorem acceptItems_reached_append {its more : List OutItem} (ht : n + takesIn its ≤ u.readAhead.length)
    (hc : out.length + (outputOf its).length ≤ Spec.capacity u)
    (hs : out ++ outputOf its = [] ∨ out.length + (outputOf its).length < Spec.bufferSpace u) :
    acceptItems (its ++ more) (u.reached n out work owed) =
      acceptItems more (u.reached (n + takesIn its) (out ++ outputOf its) (workAfter its work) owed) := by
  induction its generalizing n out work with
  | nil => simp [takesIn, outputOf, workAfter]
  | cons it its ih =>
    rw [takesIn_cons it its] at ht
    rw [outputOf_cons, List.length_append] at hc hs
    have hs' : out ++ it.bytes = [] ∨ out.length + it.bytes.length < Spec.bufferSpace u :=
      hs.imp (fun h => by simp only [List.append_eq_nil_iff] at h ⊢; exact ⟨h.1, h.2.1⟩) fun h => by omega
    rw [List.cons_append, acceptItems_reached (fun e => by rw [takesIn_singleton e] at ht; omega) (by omega) hs',
      ih (by omega) (by rw [List.length_append]; omega) (hs.imp (fun h => by rwa [List.append_assoc])
        fun h => by rw [List.length_append]; omega),
      takesIn_cons it its, outputOf_cons, workAfter_cons, Nat.add_assoc, List.append_assoc]

/-- Items of the output that all have room. -/
theorem acceptItems_reached_all {its : List OutItem} (ht : n + takesIn its ≤ u.readAhead.length)
    (hc : out.length + (outputOf its).length ≤ Spec.capacity u)
    (hs : out ++ outputOf its = [] ∨ out.length + (outputOf its).length < Spec.bufferSpace u) :
    acceptItems its (u.reached n out work owed) =
      (u.reached (n + takesIn its) (out ++ outputOf its) (workAfter its work) [], .drained) := by
  have h := acceptItems_reached_append (more := []) ht hc hs (work := work) (owed := owed)
  rw [List.append_nil] at h
  exact h

/-- The first item for which the destination has no room. -/
theorem acceptItems_reached_noRoom {its more : List OutItem} {it : OutItem} (ht : n + takesIn its ≤ u.readAhead.length)
    (hc : out.length + (outputOf its).length ≤ Spec.capacity u)
    (hs : out ++ outputOf its = [] ∨ out.length + (outputOf its).length < Spec.bufferSpace u)
    (hroom : Spec.capacity u < out.length + (outputOf its).length + it.bytes.length) :
    acceptItems (its ++ it :: more) (u.reached n out work owed) =
      (u.reached (n + takesIn its) (out ++ outputOf its) (workAfter its work) owed, .noRoom) := by
  rw [acceptItems_reached_append ht hc hs, acceptItems_noRoom]
  have hcap := Spec.capacity_accepting u (n + takesIn its) (out ++ outputOf its)
  rw [List.length_append] at hcap
  exact hcap.trans_lt (by omega)

end

end Sys2Proof.Machine
end

