-- ==== Sys2Proof/Proofs/PackOutputs.lean ====
section
/-! SUPPORT. What a byte and the end of the source call for in a pack unit (R100, R104, R106): the unit's items of output are the
pieces of the spec's rule, with the working pack state after them. -/

namespace Sys2Proof.Machine

-- One theorem at a time, as in the tests: all at once they pass the memory limit.
set_option Elab.async false

theorem workAfter_concat (its : List OutItem) (it : OutItem) (w : PackWork) :
    workAfter (its ++ [it]) w = it.after.getD (workAfter its w) := by
  simp [workAfter]

/-! ### The encoder (R104) -/

/-- The items called for so far are these tokens, and none of them takes a byte. -/
def Encoding.Emits (e : Encoding) (tokens : List (List Byte)) : Prop :=
  e.items.map OutItem.bytes = tokens ∧ ∀ it ∈ e.items, it.takes = false

/-- The working pack state is the one that the items leave behind, from `w` on. -/
def Encoding.Settled (e : Encoding) (w : PackWork) : Prop := workAfter e.items w = e.work

section
variable {e : Encoding} {tokens : List (List Byte)} {w : PackWork}

theorem Encoding.Emits.concat (h : e.Emits tokens) (token : List Byte) (after : Option PackWork) (work : PackWork) :
    Encoding.Emits { items := e.items ++ [{ bytes := token, takes := false, after := after }], work := work }
      (tokens ++ [token]) := by
  refine ⟨by simp [h.1], fun it hit => ?_⟩
  rcases List.mem_append.1 hit with hit | hit
  · exact h.2 it hit
  · rw [List.mem_singleton.1 hit]

theorem Encoding.emitGroup_spec (h : e.Emits tokens) :
    e.emitGroup.Emits (tokens ++ Spec.groupTokens e.work.group) ∧ e.emitGroup.work = { e.work with group := [] } := by
  obtain ⟨items, ⟨group, v, n, phase⟩⟩ := e
  cases group with
  | nil => exact ⟨by simpa [Encoding.emitGroup, Spec.groupTokens] using h, rfl⟩
  | cons b bs => exact ⟨h.concat _ _ _, rfl⟩

theorem Encoding.emitGroup_settled (h : e.work.group ≠ [] ∨ e.Settled w) : e.emitGroup.Settled w := by
  obtain ⟨items, ⟨group, v, n, phase⟩⟩ := e
  cases group with
  | nil => exact h.resolve_left fun h => h rfl
  | cons b bs => exact workAfter_concat ..

theorem Encoding.emitRun_spec (h : e.Emits tokens) (n : Nat) :
    (e.emitRun n).Emits (tokens ++ [Spec.runTokenOf n e.work.runValue]) ∧
      (e.emitRun n).work = { e.work with runValue := 0, runCount := 0 } :=
  ⟨h.concat _ _ _, rfl⟩

theorem Encoding.emitRun_settled (n : Nat) : (e.emitRun n).Settled w := workAfter_concat ..

/-- A byte appended is one copy appended. -/
theorem Encoding.append_spec (h : e.Emits tokens) (b : Byte) :
    (e.append b).Emits (tokens ++ (Spec.appendCopies b 1 e.work).1) ∧
      (e.append b).work = (Spec.appendCopies b 1 e.work).2 := by
  by_cases hl : (e.work.group ++ [b]).length = 128
  · have hspec : Spec.appendCopies b 1 e.work = (Spec.groupTokens (e.work.group ++ [b]), { e.work with group := [] }) := by
      simp only [Spec.appendCopies, hl, if_true, List.append_nil]
    have happ : e.append b = Encoding.emitGroup { e with work := { e.work with group := e.work.group ++ [b] } } :=
      if_pos hl
    rw [hspec, happ]
    exact Encoding.emitGroup_spec (e := { e with work := { e.work with group := e.work.group ++ [b] } }) h
  · have hspec : Spec.appendCopies b 1 e.work = ([], { e.work with group := e.work.group ++ [b] }) := by
      simp only [Spec.appendCopies, hl, if_false]
    have happ : e.append b = { e with work := { e.work with group := e.work.group ++ [b] } } := if_neg hl
    rw [hspec, happ, List.append_nil]
    exact ⟨h, rfl⟩

theorem Encoding.append_settled (b : Byte) : (e.append b).work.group ≠ [] ∨ (e.append b).Settled w := by
  by_cases hl : (e.work.group ++ [b]).length = 128
  · have happ : e.append b = Encoding.emitGroup { e with work := { e.work with group := e.work.group ++ [b] } } :=
      if_pos hl
    rw [happ]
    exact .inr (Encoding.emitGroup_settled (.inl (by simp)))
  · have happ : e.append b = { e with work := { e.work with group := e.work.group ++ [b] } } := if_neg hl
    rw [happ]
    exact .inl (by simp)

theorem Spec.appendCopies_succ (v : Byte) (n : Nat) (w : PackWork) :
    Spec.appendCopies v (n + 1) w =
      ((Spec.appendCopies v 1 w).1 ++ (Spec.appendCopies v n (Spec.appendCopies v 1 w).2).1,
        (Spec.appendCopies v n (Spec.appendCopies v 1 w).2).2) := by
  by_cases hl : (w.group ++ [v]).length = 128
  · simp only [Spec.appendCopies, if_pos hl, List.append_nil]
  · simp only [Spec.appendCopies, if_neg hl, List.nil_append]

/-- The literal group alone tells what copies appended to it emit. -/
theorem Spec.appendCopies_run (v a : Byte) (n m : Nat) (w : PackWork) :
    Spec.appendCopies v n { w with runValue := a, runCount := m } =
      ((Spec.appendCopies v n w).1, { (Spec.appendCopies v n w).2 with runValue := a, runCount := m }) := by
  induction n generalizing w with
  | zero => rfl
  | succ n ih =>
    unfold Spec.appendCopies
    by_cases hl : (w.group ++ [v]).length = 128
    · simp only [hl, if_true]
      rw [ih { w with group := [] }]
    · simp only [hl, if_false]
      exact ih { w with group := w.group ++ [v] }

/-- A run of 1 or 2 dissolved into the group. -/
theorem Encoding.appendRun_spec (h : e.Emits tokens) (hn : e.work.runCount ≤ 2) :
    e.appendRun.Emits (tokens ++ (Spec.appendCopies e.work.runValue e.work.runCount e.work).1) ∧
      e.appendRun.work =
        { (Spec.appendCopies e.work.runValue e.work.runCount e.work).2 with runValue := 0, runCount := 0 } := by
  have hcopies := fun n => Spec.appendCopies_run e.work.runValue 0 n 0 e.work
  have hone := Encoding.append_spec (e := { e with work := { e.work with runValue := 0, runCount := 0 } }) h e.work.runValue
  unfold Encoding.appendRun
  dsimp only
  match hm : e.work.runCount, hn with
  | 0, _ => exact ⟨⟨by simpa [Spec.appendCopies] using h.1, h.2⟩, rfl⟩
  | 1, _ =>
    rw [hcopies] at hone
    exact hone
  | 2, _ =>
    have htwo := Encoding.append_spec hone.1 e.work.runValue
    rw [hone.2, List.append_assoc] at htwo
    have hboth := (Spec.appendCopies_succ e.work.runValue 1 { e.work with runValue := 0, runCount := 0 }).symm.trans (hcopies 2)
    dsimp only at htwo
    refine ⟨?_, htwo.2.trans (congrArg Prod.snd hboth)⟩
    rw [← congrArg Prod.fst hboth]
    exact htwo.1

theorem Spec.appendCopies_group (v : Byte) (n : Nat) (w : PackWork) :
    (Spec.appendCopies v n w).2 = { w with group := (Spec.appendCopies v n w).2.group } := by
  induction n generalizing w with
  | zero => rfl
  | succ n ih =>
    unfold Spec.appendCopies
    split
    · rw [ih]
    · rw [ih]

theorem Encoding.appendRun_settled (h : e.work.group ≠ [] ∨ 1 ≤ e.work.runCount) :
    e.appendRun.work.group ≠ [] ∨ e.appendRun.Settled w := by
  unfold Encoding.appendRun
  dsimp only
  match hm : e.work.runCount with
  | 0 => exact .inl (h.resolve_right (by simp [hm]))
  | 1 => exact Encoding.append_settled ..
  | n + 2 => exact Encoding.append_settled ..

end

theorem Encoding.emits_start (w : PackWork) : Encoding.Emits { items := [], work := w } [] :=
  ⟨rfl, fun it hit => absurd hit (by simp)⟩

/-- The five cases of R104 for a source byte. -/
theorem encodeByte_spec (w : PackWork) (b : Byte) (hn : w.runCount ≤ 130) :
    (encodeByte w b).Emits (Spec.encodes w b).1 ∧ (encodeByte w b).work = (Spec.encodes w b).2 := by
  have h0 := Encoding.emits_start w
  obtain ⟨hgroup, hgw⟩ := Encoding.emitGroup_spec h0
  have hrun := fun n => Encoding.emitRun_spec hgroup n
  unfold encodeByte Spec.encodes
  dsimp only
  by_cases hz : w.runCount = 0
  · rw [if_pos hz, if_pos hz]
    exact ⟨h0, rfl⟩
  rw [if_neg hz, if_neg hz]
  by_cases hb : b = w.runValue
  · rw [if_pos hb]
    by_cases hlt : w.runCount < 130
    · rw [if_pos hlt, if_pos ⟨hb, hlt⟩]
      exact ⟨h0, rfl⟩
    · have hfull : w.runCount = 130 := by omega
      rw [if_neg hlt, if_neg fun h : b = w.runValue ∧ w.runCount < 130 => hlt h.2, if_pos (.inl hb), hfull]
      obtain ⟨he, hw⟩ := hrun 130
      rw [hgw] at he hw
      exact ⟨he, by rw [hw]⟩
  · rw [if_neg hb, if_neg fun h : b = w.runValue ∧ w.runCount < 130 => hb h.1]
    by_cases h3 : 3 ≤ w.runCount
    · rw [if_pos h3, if_pos (.inr h3)]
      obtain ⟨he, hw⟩ := hrun w.runCount
      rw [hgw] at he hw
      exact ⟨he, by rw [hw]⟩
    · rw [if_neg h3, if_neg (not_or.2 ⟨hb, h3⟩)]
      obtain ⟨he, hw⟩ := Encoding.appendRun_spec h0 (by change w.runCount ≤ 2; omega)
      exact ⟨he, by rw [hw]⟩

/-- The end of the source (R104): the tokens, and the working pack state they leave behind. -/
theorem encodeEnd_spec (w : PackWork) (endFlag : Bool) :
    (encodeEnd w endFlag).Emits (Spec.encodesEnd endFlag w).1 ∧
      Spec.tidy (workAfter (encodeEnd w endFlag).items w) =
        { w with
          group := [], runValue := (Spec.encodesEnd endFlag w).2.value, runCount := (Spec.encodesEnd endFlag w).2.count } := by
  have h0 := Encoding.emits_start w
  have hs : Encoding.Settled { items := [], work := w } w := rfl
  obtain ⟨hgroup, hgw⟩ := Encoding.emitGroup_spec h0
  unfold encodeEnd Spec.encodesEnd
  dsimp only
  cases endFlag with
  | false =>
    refine ⟨hgroup, ?_⟩
    have hset := Encoding.emitGroup_settled (w := w) (.inr hs)
    simp only [Bool.not_false, if_true]
    rw [hset, hgw]
    rfl
  | true =>
    simp only [Bool.not_true, Bool.false_eq_true, Bool.true_eq_false, if_false]
    by_cases h3 : 3 ≤ w.runCount
    · rw [if_pos h3, if_pos h3]
      obtain ⟨he, hw⟩ := Encoding.emitRun_spec hgroup w.runCount
      rw [hgw] at he hw
      refine ⟨he, ?_⟩
      rw [Encoding.emitRun_settled, hw]
      rfl
    · rw [if_neg h3, if_neg h3]
      obtain ⟨he, hw⟩ := Encoding.appendRun_spec h0 (by change w.runCount ≤ 2; omega)
      obtain ⟨heg, hwg⟩ := Encoding.emitGroup_spec he
      rw [hw] at heg hwg
      refine ⟨heg, ?_⟩
      by_cases hz : w.runCount = 0 ∧ w.group = []
      · obtain ⟨group, v, n, phase⟩ := w
        obtain ⟨rfl, rfl⟩ := hz
        rfl
      · have hne : w.group ≠ [] ∨ 1 ≤ w.runCount :=
          (Nat.eq_zero_or_pos w.runCount).imp (fun hn hg => hz ⟨hn, hg⟩) id
        have hset := Encoding.emitGroup_settled (Encoding.appendRun_settled (w := w) (e := { items := [], work := w }) hne)
        rw [hset, hwg, Spec.appendCopies_group]
        rfl

/-! ### What a byte calls for, in each mode (R98, R100, R106) -/

/-- The items that a byte calls for in a mode and a working pack state. -/
def itemsFor (m : PackMode) (w : PackWork) (b : Byte) : List OutItem :=
  match m with
  | .pass => [{ bytes := [b], takes := true, after := none }]
  | .pack => takingAtEnd (encodeByte w b).work (encodeByte w b).items
  | .unpack => decodeByte w b

theorem PackUnit.callsFor_eq (u : PackUnit) (b : Byte) : u.callsFor b = itemsFor u.mode u.work b := by
  unfold PackUnit.callsFor itemsFor
  cases u.mode <;> rfl

/-- A working pack state whose run fits a token, and whose decoder expects no fewer copies than a token has (R94, R104). -/
def PackWork.inRange (w : PackWork) : Prop := w.runCount ≤ 130 ∧ ∀ n, w.phase = .runValue n → 3 ≤ n

/-- The pieces of some output in items: where there is none, an item without output takes the byte (R98). -/
def piecesOrNone (pieces : List (List Byte)) : List (List Byte) := if pieces = [] then [[]] else pieces

theorem flatten_piecesOrNone (pieces : List (List Byte)) : (piecesOrNone pieces).flatten = pieces.flatten := by
  unfold piecesOrNone
  split
  · rename_i h
    rw [h]
    rfl
  · rfl

theorem takesIn_eq_zero {its : List OutItem} (h : ∀ it ∈ its, it.takes = false) : takesIn its = 0 := by
  rw [takesIn, List.length_eq_zero_iff, List.filter_eq_nil_iff]
  exact fun it hit => by simp [h it hit]

theorem takingAtEnd_concat (work : PackWork) (front : List OutItem) (l : OutItem) :
    takingAtEnd work (front ++ [l]) = front ++ [{ l with takes := true, after := some work }] := by
  induction front with
  | nil => rfl
  | cons it front ih =>
    have h : ∀ its : List OutItem, its ≠ [] → takingAtEnd work (it :: its) = it :: takingAtEnd work its := fun its hne => by
      cases its with
      | nil => exact absurd rfl hne
      | cons => rfl
    rw [List.cons_append, h _ (by simp), ih, List.cons_append]

/-- What comes before an item comes before the last. -/
theorem mem_front_of_append {front pre more : List OutItem} {l it : OutItem} (h : front ++ [l] = pre ++ it :: more) :
    ∀ x ∈ pre, x ∈ front := by
  have hd := congrArg List.dropLast h
  rw [List.dropLast_concat, List.dropLast_append_cons] at hd
  intro x hx
  rw [hd]
  exact List.mem_append_left _ hx

theorem takingAtEnd_spec (work w : PackWork) {its : List OutItem} {tokens : List (List Byte)}
    (h : Encoding.Emits { items := its, work := work } tokens) :
    (takingAtEnd work its).map OutItem.bytes = piecesOrNone tokens ∧ workAfter (takingAtEnd work its) w = work ∧
      takesIn (takingAtEnd work its) = 1 ∧
      ∀ pre it more, takingAtEnd work its = pre ++ it :: more → takesIn pre = 0 := by
  obtain ⟨rfl, hno⟩ := h
  rcases List.eq_nil_or_concat its with rfl | ⟨front, l, rfl⟩
  · refine ⟨rfl, rfl, rfl, fun pre it more h => ?_⟩
    exact takesIn_eq_zero fun x hx => absurd (mem_front_of_append (front := []) h x hx) (by simp)
  · simp only [List.concat_eq_append] at hno ⊢
    have hfront : ∀ x ∈ front, x.takes = false := fun x hx => hno x (List.mem_append_left _ hx)
    rw [takingAtEnd_concat]
    refine ⟨by simp [piecesOrNone], workAfter_concat .., ?_, fun pre it more h => ?_⟩
    · have := takesIn_eq_zero hfront
      simp only [takesIn] at this ⊢
      simp [List.filter_append, this]
    · exact takesIn_eq_zero fun x hx => hfront x (mem_front_of_append h x hx)

/-- One item that takes its byte. -/
theorem singleton_takes {it : OutItem} (ht : it.takes = true) :
    takesIn [it] = 1 ∧ ∀ pre it' more, [it] = pre ++ it' :: more → pre = [] := by
  refine ⟨takesIn_singleton ht, fun pre it' more h => ?_⟩
  exact List.eq_nil_iff_forall_not_mem.2 fun x hx => absurd (mem_front_of_append (front := []) h x hx) (by simp)

/-- The items of a byte are the pieces of the spec's rule; they take the byte, in UNPACK with the first and else with the last,
and leave the working pack state of the rule. -/
theorem itemsFor_spec (m : PackMode) {w : PackWork} (hw : w.inRange) (b : Byte) :
    (itemsFor m w b).map OutItem.bytes = piecesOrNone (Spec.outputs m w b).1 ∧
      workAfter (itemsFor m w b) w = (Spec.outputs m w b).2 ∧ takesIn (itemsFor m w b) = 1 ∧
      ∀ pre it more, itemsFor m w b = pre ++ it :: more → takesIn pre = if m = .unpack ∧ pre ≠ [] then 1 else 0 := by
  cases m with
  | pass =>
    obtain ⟨h1, hpre⟩ := singleton_takes (it := { bytes := [b], takes := true, after := none }) rfl
    exact ⟨rfl, rfl, h1, fun pre it more h => by rw [hpre pre it more h]; rfl⟩
  | pack =>
    obtain ⟨hemits, hwork⟩ := encodeByte_spec w b hw.1
    obtain ⟨hpieces, hafter, h1, hpre⟩ := takingAtEnd_spec (encodeByte w b).work w hemits
    exact ⟨hpieces, hafter.trans hwork, h1, fun pre it more h => (hpre pre it more h).trans (if_neg (by simp)).symm⟩
  | unpack =>
    obtain ⟨group, v, n, phase⟩ := w
    cases phase with
    | header =>
      obtain ⟨h1, hpre⟩ := singleton_takes
        (it := { bytes := [], takes := true, after := some { group := group, runValue := v, runCount := n, phase := headerPhase b } })
        rfl
      exact ⟨rfl, rfl, h1, fun pre it more h => by rw [hpre pre it more h]; rfl⟩
    | literal r =>
      obtain ⟨h1, hpre⟩ := singleton_takes
        (it :=
          { bytes := [b], takes := true
            after := some
              { group := group, runValue := v, runCount := n, phase := if r ≤ 1 then .header else .literal (r - 1) } }) rfl
      exact ⟨rfl, rfl, h1, fun pre it more h => by rw [hpre pre it more h]; rfl⟩
    | runValue k =>
      obtain ⟨k, rfl⟩ : ∃ m, k = m + 3 := ⟨k - 3, by have := hw.2 k rfl; omega⟩
      have hcopies : ∀ x ∈ List.replicate (k + 1) (⟨[b], false, none⟩ : OutItem), x = ⟨[b], false, none⟩ :=
        fun x hx => List.eq_of_mem_replicate hx
      have hrest : ∀ x ∈ List.replicate (k + 1) (⟨[b], false, none⟩ : OutItem) ++
          [⟨[b], false, some { group := group, runValue := v, runCount := n, phase := .header }⟩], x.takes = false := by
        intro x hx
        rcases List.mem_append.1 hx with hx | hx
        · rw [hcopies x hx]
        · rw [List.mem_singleton.1 hx]
      refine ⟨?_, ?_, ?_, fun pre it more h => ?_⟩
      · have hp : (Spec.outputs .unpack ⟨group, v, n, .runValue (k + 3)⟩ b).1 = List.replicate (k + 3) [b] := rfl
        rw [hp, piecesOrNone, if_neg (by simp), List.replicate_succ, List.replicate_succ',
          ← List.map_replicate (f := OutItem.bytes) (a := ⟨[b], false, none⟩)]
        exact congrArg ([b] :: ·) (List.map_append ..)
      · exact workAfter_concat ..
      · have := takesIn_eq_zero hrest
        exact (takesIn_cons _ _).trans (by rw [takesIn_singleton rfl]; exact congrArg (1 + ·) this)
      · cases pre with
        | nil => rfl
        | cons x pre =>
          obtain ⟨rfl, htail⟩ := List.cons.inj h
          have hmem : ∀ y ∈ pre, y.takes = false := fun y hy =>
            hrest y ((congrArg (y ∈ ·) htail).mpr (List.mem_append_left _ hy))
          have := takesIn_eq_zero hmem
          rw [if_pos ⟨rfl, by simp⟩, takesIn_cons, this]
          rfl

theorem Spec.encodes_inRange {w : PackWork} (hw : w.inRange) (b : Byte) : (Spec.encodes w b).2.inRange := by
  obtain ⟨hrun, hphase⟩ := hw
  unfold Spec.encodes
  split
  · exact ⟨by simp, hphase⟩
  · split
    · rename_i h
      exact ⟨h.2, hphase⟩
    · split
      · exact ⟨by simp, hphase⟩
      · refine ⟨by simp, ?_⟩
        dsimp only
        rw [Spec.appendCopies_group]
        exact hphase

theorem Spec.outputs_inRange (m : PackMode) {w : PackWork} (hw : w.inRange) (b : Byte) : (Spec.outputs m w b).2.inRange := by
  obtain ⟨hrun, hphase⟩ := hw
  unfold Spec.outputs
  split
  · exact ⟨hrun, hphase⟩
  · exact Spec.encodes_inRange ⟨hrun, hphase⟩ b
  · refine ⟨hrun, fun n hn => ?_⟩
    dsimp only at hn
    split at hn
    · exact absurd hn (by simp)
    · have := DecoderPhase.runValue.inj hn
      omega
  · refine ⟨hrun, fun n hn => ?_⟩
    dsimp only at hn
    split at hn
    · exact absurd hn (by simp)
    · exact absurd hn (by simp)
  · exact ⟨hrun, fun n hn => by cases hn⟩

end Sys2Proof.Machine
end

