-- ==== Sys2Proof/Proofs/PackTaking.lean ====
section
/-! SUPPORT. A pack unit's work between two transfers, in the spec's terms, while its write buffer stays short of its end (R97 to R100,
R104 to R106, R109): all the pending output accepted at the end of the source, or a piece of it for which there is no room. -/

namespace Sys2Proof.Machine

-- One theorem at a time, as in the tests: all at once they pass the memory limit.
set_option Elab.async false

/-! ### The bytes of a read-ahead (R98) -/

theorem Spec.outputsOf_append (m : PackMode) (w : PackWork) (a b : List Byte) :
    Spec.outputsOf m w (a ++ b) = ((Spec.outputsOf m w a).1 ++ (Spec.outputsOf m (Spec.outputsOf m w a).2 b).1,
      (Spec.outputsOf m (Spec.outputsOf m w a).2 b).2) := by
  induction a generalizing w with
  | nil => rfl
  | cons x a ih =>
    simp only [List.cons_append, Spec.outputsOf]
    rw [ih]
    simp

/-- More bytes call for no fewer pieces. -/
theorem Spec.outputsOf_take_mono (m : PackMode) (w : PackWork) (bs : List Byte) {i k : Nat} (h : i ≤ k) :
    (Spec.outputsOf m w (bs.take i)).1.length ≤ (Spec.outputsOf m w (bs.take k)).1.length := by
  have hsplit : bs.take k = bs.take i ++ (bs.take k).drop i := by
    conv_lhs => rw [← List.take_append_drop i (bs.take k), List.take_take, min_eq_left h]
  rw [hsplit, Spec.outputsOf_append, List.length_append]
  exact Nat.le_add_right ..

/-- A piece in two lists of pieces, one after the other. -/
theorem append_eq_append_cons {α : Type} {a b pre more : List α} {x : α} (h : a ++ b = pre ++ x :: more) :
    (∃ more', a = pre ++ x :: more') ∨ ∃ pre', pre = a ++ pre' ∧ b = pre' ++ x :: more := by
  rcases List.append_eq_append_iff.1 h with ⟨pre', hp, hb⟩ | ⟨c, ha, hc⟩
  · exact .inr ⟨pre', hp, hb⟩
  · cases c with
    | nil => exact .inr ⟨[], by simpa using ha.symm, by simpa using hc.symm⟩
    | cons y c =>
      obtain ⟨rfl, -⟩ := List.cons.inj hc
      exact .inl ⟨c, ha⟩

/-- An item among items, by its bytes. -/
theorem items_split {its : List OutItem} {pre more : List (List Byte)} {piece : List Byte}
    (h : its.map OutItem.bytes = pre ++ piece :: more) :
    ∃ ipre it imore, its = ipre ++ it :: imore ∧ ipre.map OutItem.bytes = pre ∧ it.bytes = piece := by
  obtain ⟨ipre, rest, rfl, hpre, hrest⟩ := List.map_eq_append_iff.1 h
  obtain ⟨it, imore, rfl, hit, -⟩ := List.map_eq_cons_iff.1 hrest
  exact ⟨ipre, it, imore, rfl, hpre, hit⟩

section
variable {u : PackUnit} {n : Nat} {out : List Byte} {w : PackWork} {bs : List Byte}

/-- All the bytes are taken. -/
theorem takeBytes_reached_all (hw : w.inRange) (hn : n + bs.length ≤ u.readAhead.length)
    (hc : out.length + (Spec.outputsOf u.mode w bs).1.flatten.length ≤ Spec.capacity u)
    (hs : out ++ (Spec.outputsOf u.mode w bs).1.flatten = [] ∨
      out.length + (Spec.outputsOf u.mode w bs).1.flatten.length < Spec.bufferSpace u) :
    takeBytes bs (u.reached n out w []) =
      (u.reached (n + bs.length) (out ++ (Spec.outputsOf u.mode w bs).1.flatten) (Spec.outputsOf u.mode w bs).2 [],
        .drained) := by
  induction bs generalizing n out w with
  | nil => simp [takeBytes, Spec.outputsOf]
  | cons b bs ih =>
    obtain ⟨hpieces, hafter, htakes, -⟩ := itemsFor_spec u.mode hw b
    have hout : outputOf (itemsFor u.mode w b) = (Spec.outputs u.mode w b).1.flatten := by
      rw [outputOf, hpieces, flatten_piecesOrNone]
    have hcons : (Spec.outputsOf u.mode w (b :: bs)) =
        ((Spec.outputs u.mode w b).1 ++ (Spec.outputsOf u.mode (Spec.outputs u.mode w b).2 bs).1,
          (Spec.outputsOf u.mode (Spec.outputs u.mode w b).2 bs).2) := rfl
    rw [hcons] at hc hs ⊢
    dsimp only at hc hs ⊢
    rw [List.flatten_append] at hc hs ⊢
    rw [List.length_append] at hc hs
    rw [List.length_cons] at hn ⊢
    have hs' : out ++ (Spec.outputs u.mode w b).1.flatten = [] ∨
        out.length + (Spec.outputs u.mode w b).1.flatten.length < Spec.bufferSpace u :=
      hs.imp (fun h => by simp only [List.append_eq_nil_iff] at h ⊢; exact ⟨h.1, h.2.1⟩) fun h => by omega
    have hitems := acceptItems_reached_all (u := u) (n := n) (out := out) (work := w) (owed := [])
      (its := itemsFor u.mode w b) (by omega) (by rw [hout]; omega) (by rw [hout]; exact hs')
    rw [hout, hafter, htakes] at hitems
    have hcalls : (u.reached n out w []).unit.callsFor b = itemsFor u.mode w b := PackUnit.callsFor_eq ..
    rw [takeBytes, hcalls, hitems]
    dsimp only
    rw [ih (Spec.outputs_inRange _ hw b) (by omega) (by rw [List.length_append]; omega)
      (hs.imp (fun h => by rwa [List.append_assoc]) fun h => by rw [List.length_append]; omega), List.append_assoc,
      Nat.add_assoc, Nat.add_comm 1]

/-- A piece that a byte calls for has no room: the byte is number `i` of those left, from 0. In UNPACK it is taken if a copy before
this one was accepted (R106); else it is not (R105). -/
theorem takeBytes_reached_noRoom (hw : w.inRange) (hn : n + bs.length ≤ u.readAhead.length)
    {pre more : List (List Byte)} {piece : List Byte} (hp : (Spec.outputsOf u.mode w bs).1 = pre ++ piece :: more)
    (hc : out.length + pre.flatten.length ≤ Spec.capacity u)
    (hs : out ++ pre.flatten = [] ∨ out.length + pre.flatten.length < Spec.bufferSpace u)
    (hroom : Spec.capacity u < out.length + pre.flatten.length + piece.length) :
    ∃ i work, i < bs.length ∧ (Spec.outputsOf u.mode w (bs.take i)).1.length ≤ pre.length ∧
      pre.length < (Spec.outputsOf u.mode w (bs.take (i + 1))).1.length ∧
      takeBytes bs (u.reached n out w []) =
        (u.reached (n + if u.mode = .unpack ∧ (Spec.outputsOf u.mode w (bs.take i)).1.length < pre.length then i + 1 else i)
          (out ++ pre.flatten) work [], .noRoom) := by
  induction bs generalizing n out w pre with
  | nil => simp [Spec.outputsOf] at hp
  | cons b bs ih =>
    obtain ⟨hpieces, hafter, htakes, htaken⟩ := itemsFor_spec u.mode hw b
    have hcalls : (u.reached n out w []).unit.callsFor b = itemsFor u.mode w b := PackUnit.callsFor_eq ..
    have hcons : ∀ i, (Spec.outputsOf u.mode w ((b :: bs).take (i + 1))).1 =
        (Spec.outputs u.mode w b).1 ++ (Spec.outputsOf u.mode (Spec.outputs u.mode w b).2 (bs.take i)).1 := fun _ => rfl
    rw [List.length_cons] at hn
    rcases append_eq_append_cons hp with ⟨more', ho⟩ | ⟨pre', rfl, hrest⟩
    · rw [ho, piecesOrNone, if_neg (by simp)] at hpieces
      obtain ⟨ipre, it, imore, hitems, hpre, hit⟩ := items_split hpieces
      have hout : outputOf ipre = pre.flatten := by rw [outputOf, hpre]
      have hlen : ipre ≠ [] ↔ 0 < pre.length := by rw [← hpre, List.length_map, List.length_pos_iff]
      have htk := htaken ipre it imore hitems
      have hle : takesIn ipre ≤ 1 := by rw [htk]; split <;> omega
      have hno := acceptItems_reached_noRoom (u := u) (n := n) (out := out) (work := w) (owed := []) (its := ipre) (it := it)
        (more := imore) (by omega) (by rw [hout]; omega) (by rw [hout]; exact hs) (by rw [hout, hit]; omega)
      refine ⟨0, workAfter ipre w, by simp, Nat.zero_le _, ?_, ?_⟩
      · rw [hcons, ho]
        simp
      · rw [takeBytes, hcalls, hitems, hno, hout, htk]
        dsimp only
        congr 3
        exact if_congr (and_congr_right fun _ => hlen) rfl rfl
    · have hout : outputOf (itemsFor u.mode w b) = (Spec.outputs u.mode w b).1.flatten := by
        rw [outputOf, hpieces, flatten_piecesOrNone]
      rw [List.flatten_append, List.length_append] at hc hroom
      rw [List.flatten_append] at hs ⊢
      rw [List.length_append] at hs
      have hs' : out ++ (Spec.outputs u.mode w b).1.flatten = [] ∨
          out.length + (Spec.outputs u.mode w b).1.flatten.length < Spec.bufferSpace u :=
        hs.imp (fun h => by simp only [List.append_eq_nil_iff] at h ⊢; exact ⟨h.1, h.2.1⟩) fun h => by omega
      have hitems := acceptItems_reached_all (u := u) (n := n) (out := out) (work := w) (owed := [])
        (its := itemsFor u.mode w b) (by omega) (by rw [hout]; omega) (by rw [hout]; exact hs')
      rw [hout, hafter, htakes] at hitems
      obtain ⟨i, work, hi, hlow, hhigh, htake⟩ := ih (n := n + 1) (out := out ++ (Spec.outputs u.mode w b).1.flatten)
        (Spec.outputs_inRange _ hw b) (by omega) hrest
        (by rw [List.length_append]; omega) (hs.imp (fun h => by rwa [List.append_assoc]) fun h => by
          rw [List.length_append]; omega) (by rw [List.length_append]; omega)
      refine ⟨i + 1, work, by rw [List.length_cons]; omega, ?_, ?_, ?_⟩
      · rw [hcons, List.length_append, List.length_append]
        omega
      · rw [hcons, List.length_append, List.length_append]
        omega
      · rw [takeBytes, hcalls, hitems]
        dsimp only
        have hcount : n + 1 + (if u.mode = .unpack ∧
              (Spec.outputsOf u.mode (Spec.outputs u.mode w b).2 (bs.take i)).1.length < pre'.length then i + 1 else i) =
            n + if u.mode = .unpack ∧ (Spec.outputsOf u.mode w ((b :: bs).take (i + 1))).1.length <
              ((Spec.outputs u.mode w b).1 ++ pre').length then i + 1 + 1 else i + 1 := by
          rw [hcons, List.length_append, List.length_append]
          simp only [Nat.add_lt_add_iff_left]
          split <;> omega
        rw [htake, List.append_assoc, hcount]

end

/-! ### The output owed (R97, R98) -/

section
variable {u : PackUnit} (h : Spec.owedLegal u)
include h

theorem Spec.owedLegal.inRange : (Spec.owedWork u).inRange := by
  obtain ⟨-, -, -, -, ⟨-, hrun, hphase⟩, -⟩ := h
  exact ⟨hrun, hphase⟩

theorem Spec.owedLegal.takes_le : Spec.owedTakes u ≤ u.readAhead.length := by
  obtain ⟨-, -, -, htakes, -⟩ := h
  exact htakes

/-- What is owed before an item takes no byte. -/
theorem Spec.owedLegal.takesIn_front {pre more : List OutItem} {it : OutItem} (ho : u.owed = pre ++ it :: more) :
    takesIn pre = 0 := by
  obtain ⟨-, hfront, -⟩ := h
  refine takesIn_eq_zero fun x hx => hfront x ?_
  rw [ho, List.dropLast_append_cons]
  exact List.mem_append_left _ hx

/-- What is owed takes one byte at most, and none in UNPACK. -/
theorem Spec.owedLegal.owedTakes_le_one : Spec.owedTakes u ≤ 1 ∧ (u.mode = .unpack → Spec.owedTakes u = 0) := by
  have hfront : ∀ pre it, u.owed = pre ++ [it] → takesIn pre = 0 := fun _ _ => h.takesIn_front
  obtain ⟨-, -, hcopies, -⟩ := h
  refine ⟨?_, fun hm => takesIn_eq_zero fun it hit => hcopies hm it hit⟩
  rcases List.eq_nil_or_concat u.owed with ho | ⟨front, l, ho⟩
  · simp [Spec.owedTakes, ho]
  · rw [List.concat_eq_append] at ho
    have h0 : takesIn front = 0 := hfront _ _ ho
    have hl : takesIn [l] ≤ 1 := by
      unfold takesIn
      exact (List.length_filter_le ..).trans (le_refl 1)
    have : Spec.owedTakes u = takesIn front + takesIn [l] := by
      rw [Spec.owedTakes, ho]
      simp only [takesIn, List.filter_append, List.length_append]
    omega

/-- All that is owed has room. -/
theorem Spec.owedLegal.acceptItems_owed (hc : (outputOf u.owed).length ≤ Spec.capacity u)
    (hs : outputOf u.owed = [] ∨ (outputOf u.owed).length < Spec.bufferSpace u) :
    acceptItems u.owed { unit := u, offered := [] } =
      (u.reached (Spec.owedTakes u) (outputOf u.owed) (Spec.owedWork u) [], .drained) := by
  have hitems := acceptItems_reached_all (u := u) (n := 0) (out := []) (work := u.work) (owed := u.owed) (its := u.owed)
    ((Nat.zero_add _).trans_le h.takes_le) ((Nat.zero_add _).trans_le hc)
    (hs.imp (fun e => e) fun e => (Nat.zero_add _).trans_lt e)
  rw [PackUnit.reached_start, Nat.zero_add, List.nil_append] at hitems
  exact hitems

/-- All that is owed and all that the read-ahead calls for has room: the unit has taken all its bytes. -/
theorem Spec.owedLegal.takeBytes_called
    (hc : (outputOf u.owed).length + (Spec.called u).1.flatten.length ≤ Spec.capacity u)
    (hs : outputOf u.owed ++ (Spec.called u).1.flatten = [] ∨
      (outputOf u.owed).length + (Spec.called u).1.flatten.length < Spec.bufferSpace u) :
    takeBytes (u.reached (Spec.owedTakes u) (outputOf u.owed) (Spec.owedWork u) []).unit.readAhead
        (u.reached (Spec.owedTakes u) (outputOf u.owed) (Spec.owedWork u) []) =
      (u.reached u.readAhead.length (outputOf u.owed ++ (Spec.called u).1.flatten) (Spec.called u).2 [], .drained) := by
  have hle := h.takes_le
  have hlen : Spec.owedTakes u + (u.readAhead.drop (Spec.owedTakes u)).length = u.readAhead.length := by
    rw [List.length_drop]
    omega
  have := takeBytes_reached_all (u := u) h.inRange (n := Spec.owedTakes u) (out := outputOf u.owed) hlen.le hc hs
  rw [hlen] at this
  exact this

end

/-! ### The end of the source (R104, R109) -/

/-- What the finish calls for: the pieces of the mode's end-of-source emissions that have not been called for yet, none of which
takes a byte; and the working pack state once they are accepted. -/
theorem Spec.owedLegal.finish_spec {u : PackUnit} (h : Spec.owedLegal u) {v : PackUnit} (hm : v.mode = u.mode)
    (hw : v.work = (Spec.called u).2) (he : v.endFlag = u.endFlag) (hend : Spec.atSourceEnd u = true) :
    (if u.finishing then [] else v.endCallsFor).map OutItem.bytes = (Spec.finish u).1 ∧
      takesIn (if u.finishing then [] else v.endCallsFor) = 0 ∧
      Spec.tidy (workAfter (if u.finishing then [] else v.endCallsFor) (Spec.called u).2) = Spec.pendingWork u := by
  by_cases hp : u.mode = .pack
  · have hpending : Spec.pendingWork u =
        { (Spec.called u).2 with group := [], runValue := (Spec.finish u).2.value, runCount := (Spec.finish u).2.count } :=
      if_pos ⟨hend, hp⟩
    rw [hpending]
    cases hf : u.finishing with
    | true =>
      have hnone : Spec.finish u = ([], Spec.runLeft (Spec.called u).2) :=
        if_neg fun e : u.mode = .pack ∧ u.finishing = false => absurd (hf.symm.trans e.2) (by decide)
      obtain ⟨-, -, -, -, -, hfin⟩ := h
      obtain ⟨hread, hgroup⟩ := hfin hf
      have hcalled : (Spec.called u).2.group = [] := by
        rw [Spec.called, hread, List.drop_nil]
        exact hgroup hp
      rw [hnone]
      refine ⟨rfl, rfl, ?_⟩
      dsimp only
      rw [← hcalled]
      rfl
    | false =>
      have hemits : Spec.finish u = Spec.encodesEnd u.endFlag (Spec.called u).2 := if_pos ⟨hp, hf⟩
      have hcalls : v.endCallsFor = (encodeEnd (Spec.called u).2 u.endFlag).items := by
        unfold PackUnit.endCallsFor
        rw [hm, hp, hw, he]
      obtain ⟨⟨hbytes, htakes⟩, hwork⟩ := encodeEnd_spec (Spec.called u).2 u.endFlag
      rw [hemits, if_neg (by decide), hcalls]
      exact ⟨hbytes, takesIn_eq_zero htakes, hwork⟩
  · have hno : (if u.finishing then [] else v.endCallsFor) = [] := by
      split
      · rfl
      · exact PackUnit.endCallsFor_of_ne_pack (hm ▸ hp)
    have hpending : Spec.pendingWork u = Spec.tidy (Spec.called u).2 :=
      if_neg fun e : Spec.atSourceEnd u = true ∧ u.mode = .pack => hp e.2
    have hnone : Spec.finish u = ([], Spec.runLeft (Spec.called u).2) :=
      if_neg fun e : u.mode = .pack ∧ u.finishing = false => hp e.1
    rw [hno, hpending, hnone]
    exact ⟨rfl, rfl, rfl⟩

/-- The unit whose output has all been accepted, at the end of the source. -/
def PackUnit.drained (u : PackUnit) (work : PackWork) : PackStep :=
  { unit :=
      { Spec.accepting u u.readAhead.length (Spec.pending u).flatten with
        readAhead := [], owed := [], finishing := true, work := work }
    offered := tapped u.joined u.readAhead (Spec.pending u).flatten }

theorem Spec.owedLegal.advance_atEnd {u : PackUnit} (h : Spec.owedLegal u) (hend : Spec.atSourceEnd u = true)
    (hc : (Spec.pending u).flatten.length ≤ Spec.capacity u)
    (hs : (Spec.pending u).flatten = [] ∨ (Spec.pending u).flatten.length < Spec.bufferSpace u) :
    ∃ work, Spec.tidy work = Spec.pendingWork u ∧ u.advance = PackStep.finished (u.drained work, .drained) := by
  have hpending : (Spec.pending u).flatten = outputOf u.owed ++ (Spec.called u).1.flatten ++ (Spec.finish u).1.flatten := by
    rw [Spec.pending, if_pos hend, List.flatten_append, List.flatten_append]
    rfl
  rw [hpending] at hc hs
  rw [List.length_append, List.length_append] at hc hs
  have hs' := hs.imp_left fun e => List.append_eq_nil_iff.1 e
  have howed := h.acceptItems_owed (by omega) (hs'.imp (fun e => (List.append_eq_nil_iff.1 e.1).1) fun e => by omega)
  have hbytes := h.takeBytes_called (by omega) (hs'.imp (fun e => e.1) fun e => by omega)
  let v := (u.reached u.readAhead.length (outputOf u.owed ++ (Spec.called u).1.flatten) (Spec.called u).2 []).unit
  obtain ⟨hitems, htakes, hwork⟩ := h.finish_spec (v := v) rfl rfl rfl hend
  refine ⟨_, hwork, ?_⟩
  have hsource : v.source[v.sourceCursor.fragment]? = none := Option.isNone_iff_eq_none.1 hend
  have hout : outputOf (if u.finishing then [] else v.endCallsFor) = (Spec.finish u).1.flatten := by rw [outputOf, hitems]
  have hfinish := acceptItems_reached_all (u := { u with finishing := true }) (n := u.readAhead.length)
    (out := outputOf u.owed ++ (Spec.called u).1.flatten) (work := (Spec.called u).2) (owed := [])
    (its := if u.finishing then [] else v.endCallsFor) (by rw [htakes]; exact le_refl _)
    (by rw [hout, List.length_append]; exact hc)
    (by rw [hout, List.length_append]; exact hs)
  have hdrained : ∀ work, ({ u with finishing := true } : PackUnit).reached u.readAhead.length (Spec.pending u).flatten work [] =
      u.drained work := fun work => by
    simp [PackUnit.reached, PackUnit.drained, Spec.accepting, Spec.destAddress]
  rw [htakes, hout, Nat.add_zero, ← hpending, hdrained] at hfinish
  rw [PackUnit.advance_of_end howed hbytes hsource, PackStep.finish_eq]
  exact congrArg PackStep.finished hfinish

/-! ### A piece of the output for which there is no room (R105, R106, R110) -/

theorem Spec.pieceCount_mono (u : PackUnit) {i k : Nat} (h : i ≤ k) : Spec.pieceCount u i ≤ Spec.pieceCount u k := by
  unfold Spec.pieceCount
  refine Nat.add_le_add ?_ (Spec.outputsOf_take_mono _ _ _ (Nat.sub_le_sub_right h _))
  split
  · rw [if_pos (by omega)]
  · exact Nat.zero_le _

/-- Once the bytes are taken that owe the output, it is all among the pieces accepted. -/
theorem Spec.pieceCount_taking (u : PackUnit) (i : Nat) : Spec.pieceCount u (Spec.owedTakes u + i) =
    u.owed.length +
      (Spec.outputsOf u.mode (Spec.owedWork u) ((u.readAhead.drop (Spec.owedTakes u)).take i)).1.length := by
  rw [Spec.pieceCount, if_pos (by omega), Nat.add_sub_cancel_left]

/-- The byte that calls for a piece is the first with which the pieces called for are more than those before it. -/
theorem Spec.pieceOfByte_unique {u : PackUnit} {m k K : Nat} (h : Spec.pieceOfByte u m k) (hK : K ≤ u.readAhead.length)
    (hlow : ∀ i < K, Spec.pieceCount u i ≤ m) (hhigh : m < Spec.pieceCount u K) : k = K := by
  obtain ⟨hk, hbefore, hafter⟩ := h
  rcases Nat.lt_trichotomy k K with hlt | he | hgt
  · have hcount := hafter.resolve_right (by omega)
    exact absurd (hlow k hlt) (by omega)
  · exact he
  · exact absurd (hbefore K hgt) (by omega)

/-- How many bytes are taken when a piece, number `m` and called for by byte `k`, has no room (R105, R106). -/
def takenBefore (u : PackUnit) (m k : Nat) : Nat :=
  if m < Spec.pieceCount u k ∧ ¬ (u.mode = .unpack ∧ Spec.pieceCount u (k - 1) < m) then k - 1 else k

section
variable {u : PackUnit} (h : Spec.owedLegal u) {pre more : List (List Byte)} {piece : List Byte} {k : Nat}
  (hc : pre.flatten.length ≤ Spec.capacity u) (hroom : Spec.capacity u < pre.flatten.length + piece.length)
  (hs : pre.flatten = [] ∨ pre.flatten.length < Spec.bufferSpace u) (hk : Spec.pieceOfByte u pre.length k)
include h hc hroom hs hk

/-- The piece is owed. -/
theorem Spec.owedLegal.advance_owedOverruns (hp : u.owed.map OutItem.bytes = pre ++ piece :: more) :
    ∃ work owed, u.advance =
      (u.reached (takenBefore u pre.length k) pre.flatten work owed).stopFor .noRoom := by
  obtain ⟨ipre, it, imore, hitems, hpre, hit⟩ := items_split hp
  have hout : outputOf ipre = pre.flatten := by rw [outputOf, hpre]
  have h0 := h.takesIn_front hitems
  have hno := acceptItems_reached_noRoom (u := u) (n := 0) (out := []) (work := u.work) (owed := u.owed) (its := ipre)
    (it := it) (more := imore) (by omega) (by rw [hout]; simpa using hc) (by rw [hout]; simpa using hs)
    (by rw [hout, hit]; simpa using hroom)
  rw [PackUnit.reached_start, h0, hout, ← hitems] at hno
  have hlen : pre.length < u.owed.length := by
    have := congrArg List.length hp
    simp at this
    omega
  obtain ⟨hone, hunpack⟩ := h.owedTakes_le_one
  have hcount := Spec.pieceCount_taking u 0
  have hK : k = Spec.owedTakes u := by
    refine Spec.pieceOfByte_unique hk h.takes_le (fun i hi => ?_) (by rw [Nat.add_zero] at hcount; omega)
    obtain rfl : i = 0 := by omega
    rw [Spec.pieceCount, if_neg (by omega), Nat.zero_sub]
    exact Nat.zero_le _
  have htaken : takenBefore u pre.length k = 0 := by
    rw [Nat.add_zero, ← hK] at hcount
    unfold takenBefore
    rw [if_pos, hK]
    · omega
    · refine ⟨by omega, fun ⟨hm, hlt⟩ => ?_⟩
      have hz : k = 0 := by rw [hK, hunpack hm]
      rw [hz, Nat.zero_sub] at hlt
      rw [hz] at hcount
      omega
  rw [htaken]
  exact ⟨_, _, PackUnit.advance_of_owed_stops hno (by decide)⟩

/-- A byte calls for the piece. -/
theorem Spec.owedLegal.advance_bytesOverrun {pre' : List (List Byte)} (hp : pre = u.owed.map OutItem.bytes ++ pre')
    (hcalled : (Spec.called u).1 = pre' ++ piece :: more) :
    ∃ work owed, u.advance =
      (u.reached (takenBefore u pre.length k) pre.flatten work owed).stopFor .noRoom := by
  have hflat : pre.flatten = outputOf u.owed ++ pre'.flatten := by rw [hp, List.flatten_append]; rfl
  have hplen : pre.length = u.owed.length + pre'.length := by rw [hp, List.length_append, List.length_map]
  have hle := h.takes_le
  rw [hflat] at hc hs hroom
  rw [List.length_append] at hc hs hroom
  have howed := h.acceptItems_owed (by omega) (hs.imp (fun e => (List.append_eq_nil_iff.1 e).1) fun e => by omega)
  have hdrop : (u.readAhead.drop (Spec.owedTakes u)).length = u.readAhead.length - Spec.owedTakes u := List.length_drop ..
  obtain ⟨i, work, hi, hlow, hhigh, htake⟩ := takeBytes_reached_noRoom (u := u) (n := Spec.owedTakes u)
    (out := outputOf u.owed) h.inRange (by omega) hcalled hc hs hroom
  have hcount := Spec.pieceCount_taking u i
  have hcount' := Spec.pieceCount_taking u (i + 1)
  have hbelow : Spec.pieceCount u (Spec.owedTakes u + i) ≤ pre.length := by omega
  have habove : pre.length < Spec.pieceCount u (Spec.owedTakes u + (i + 1)) := by omega
  have hK : k = Spec.owedTakes u + (i + 1) :=
    Spec.pieceOfByte_unique hk (by omega) (fun l hl => (Spec.pieceCount_mono u (Nat.le_of_lt_succ hl)).trans hbelow) habove
  have htaken : takenBefore u pre.length k = Spec.owedTakes u +
      if u.mode = .unpack ∧ (Spec.outputsOf u.mode (Spec.owedWork u)
        ((u.readAhead.drop (Spec.owedTakes u)).take i)).1.length < pre'.length then i + 1 else i := by
    have hpred : k - 1 = Spec.owedTakes u + i := by omega
    unfold takenBefore
    rw [hpred, hcount, hK]
    have hiff : u.owed.length + (Spec.outputsOf u.mode (Spec.owedWork u)
        ((u.readAhead.drop (Spec.owedTakes u)).take i)).1.length < pre.length ↔
        (Spec.outputsOf u.mode (Spec.owedWork u) ((u.readAhead.drop (Spec.owedTakes u)).take i)).1.length < pre'.length := by
      omega
    by_cases hcopy : u.mode = .unpack ∧ (Spec.outputsOf u.mode (Spec.owedWork u)
        ((u.readAhead.drop (Spec.owedTakes u)).take i)).1.length < pre'.length
    · refine (if_neg fun e => e.2 ⟨hcopy.1, hiff.2 hcopy.2⟩).trans ?_
      rw [if_pos hcopy]
    · refine (if_pos ⟨habove, fun e => hcopy ⟨e.1, hiff.1 e.2⟩⟩).trans ?_
      rw [if_neg hcopy]
  rw [htaken, hflat]
  exact ⟨work, [], PackUnit.advance_of_bytes_stop howed htake (by decide)⟩

/-- The end of the source calls for the piece. -/
theorem Spec.owedLegal.advance_endOverruns {pre' : List (List Byte)} (hend : Spec.atSourceEnd u = true)
    (hp : pre = u.owed.map OutItem.bytes ++ (Spec.called u).1 ++ pre') (hfinish : (Spec.finish u).1 = pre' ++ piece :: more) :
    ∃ work owed, u.advance =
      (({ u with finishing := true } : PackUnit).reached (takenBefore u pre.length k) pre.flatten work owed).stopFor
        .noRoom := by
  have hflat : pre.flatten = outputOf u.owed ++ (Spec.called u).1.flatten ++ pre'.flatten := by
    rw [hp, List.flatten_append, List.flatten_append]
    rfl
  have hplen : pre.length = u.owed.length + (Spec.called u).1.length + pre'.length := by
    rw [hp, List.length_append, List.length_append, List.length_map]
  have htaken : takenBefore u pre.length k = u.readAhead.length := by
    have hall : Spec.pieceCount u u.readAhead.length = u.owed.length + (Spec.called u).1.length := by
      have hcount := Spec.pieceCount_taking u (u.readAhead.length - Spec.owedTakes u)
      rw [Nat.add_sub_of_le h.takes_le, ← List.length_drop, List.take_length] at hcount
      exact hcount
    obtain ⟨hle, -, hafter⟩ := hk
    have hK : k = u.readAhead.length := hafter.resolve_left fun hlt => by
      have := Spec.pieceCount_mono u hle
      omega
    unfold takenBefore
    rw [hK]
    exact if_neg fun e => by omega
  rw [hflat] at hc hs hroom
  rw [List.length_append, List.length_append] at hc hs hroom
  have hs' := hs.imp_left fun e => List.append_eq_nil_iff.1 e
  have howed := h.acceptItems_owed (by omega) (hs'.imp (fun e => (List.append_eq_nil_iff.1 e.1).1) fun e => by omega)
  have hbytes := h.takeBytes_called (by omega) (hs'.imp (fun e => e.1) fun e => by omega)
  let v := (u.reached u.readAhead.length (outputOf u.owed ++ (Spec.called u).1.flatten) (Spec.called u).2 []).unit
  obtain ⟨hitems, htakes, -⟩ := h.finish_spec (v := v) rfl rfl rfl hend
  obtain ⟨ipre, it, imore, hsplit, hpre, hit⟩ := items_split (hitems.trans hfinish)
  have hout : outputOf ipre = pre'.flatten := by rw [outputOf, hpre]
  have h0 : takesIn ipre = 0 := by
    rw [hsplit] at htakes
    simp only [takesIn, List.filter_append, List.length_append] at htakes ⊢
    omega
  have hno := acceptItems_reached_noRoom (u := { u with finishing := true }) (n := u.readAhead.length)
    (out := outputOf u.owed ++ (Spec.called u).1.flatten) (work := (Spec.called u).2) (owed := []) (its := ipre) (it := it)
    (more := imore) (by rw [h0]; exact le_refl _) (by rw [hout, List.length_append]; exact hc)
    (by rw [hout, List.length_append]; exact hs) (by rw [hout, hit, List.length_append]; exact hroom)
  rw [h0, hout, Nat.add_zero, ← hflat, ← hsplit] at hno
  have hsource : v.source[v.sourceCursor.fragment]? = none := Option.isNone_iff_eq_none.1 hend
  refine ⟨workAfter ipre (Spec.called u).2, [], ?_⟩
  rw [htaken, PackUnit.advance_of_end howed hbytes hsource, PackStep.finish_eq]
  exact congrArg PackStep.finished hno

/-- A piece of the pending output without room stops the unit, with what was accepted before it (R105, R110). -/
theorem Spec.owedLegal.advance_overruns (hp : Spec.pending u = pre ++ piece :: more) :
    ∃ finishing work owed, u.advance =
      (({ u with finishing := finishing } : PackUnit).reached (takenBefore u pre.length k) pre.flatten work owed).stopFor
        .noRoom := by
  rcases append_eq_append_cons hp with ⟨more', hfront⟩ | ⟨pre', hpre, hlast⟩
  · rcases append_eq_append_cons hfront with ⟨more'', howed⟩ | ⟨pre', hpre, hcalled⟩
    · exact ⟨u.finishing, h.advance_owedOverruns hc hroom hs hk howed⟩
    · exact ⟨u.finishing, h.advance_bytesOverrun hc hroom hs hk hpre hcalled⟩
  · by_cases hend : Spec.atSourceEnd u = true
    · rw [if_pos hend] at hlast
      exact ⟨true, h.advance_endOverruns hc hroom hs hk hend hpre hlast⟩
    · rw [if_neg hend] at hlast
      exact absurd hlast (by simp)

end

end Sys2Proof.Machine
end

