-- ==== Sys2Proof/Proofs/PackStops.lean ====
section
/-! PROOF. A pack unit's transfer at the end of its source, or with pending output that has no room (R43, R98, R104, R105, R109,
R110): O30. -/

namespace Sys2Proof.Machine

-- One theorem at a time, as in the tests: all at once they pass the memory limit.
set_option Elab.async false

/-! ### The last phase of a transfer with ready (R96, R97, R171) -/

/-- The part once a burst has ended with ready: a write's bytes are in memory, and the bus is free. -/
def State.burstTaken (b : Burst) (s : State) : State :=
  (if b.request.write = true then s.memoryTakes (b.request.cells b.phasesEnded) else s).releaseBus

/-- The same with a pack unit gone on, and its joined check unit offered what its tap is. -/
def State.packTaken (s : State) (b : Burst) (p : PackId) (u : PackUnit) (joined : Option (CheckId × Tap))
    (taken accepted : List Byte) : State :=
  { (s.burstTaken b).setPack p u with checks := Spec.offered s.checks joined taken accepted }

section
variable (s : State) (b : Burst)

theorem State.burstTaken_hostMem (h : b.request.write = false) : (s.burstTaken b).hostMem = s.hostMem := by
  rw [State.burstTaken, if_neg (by simp [h])]
  rfl

theorem State.burstTaken_read {a : Nat}
    (h : ∀ k < b.request.length, (b.request.address + BitVec.ofNat 32 k).toNat ≠ a) :
    Memory.read (s.burstTaken b).hostMem a = Memory.read s.hostMem a := by
  unfold State.burstTaken
  split
  · exact s.memoryTakes_read _ _ h
  · rfl

/-- Nothing but host memory and the bus has changed. -/
theorem State.burstTaken_eq : s.burstTaken b =
    { s with hostMem := (s.burstTaken b).hostMem, biu := { s.biu with burst := none } } := by
  unfold State.burstTaken
  split <;> rfl

theorem State.packTaken_unitsMoved (p : PackId) (u : PackUnit) (joined : Option (CheckId × Tap)) (taken accepted : List Byte) :
    s.UnitsMoved (s.packTaken b p u joined taken accepted) := by
  unfold State.packTaken
  rw [State.burstTaken_eq]
  exact ⟨rfl, rfl, rfl, rfl, rfl⟩

end

/-- What a transfer that ends leaves of the unit's run. -/
theorem Spec.afterTransfer_frame (u : PackUnit) (b : Burst) (data : Word) :
    (Spec.afterTransfer u b data).condition = u.condition ∧ (Spec.afterTransfer u b data).ending = u.ending := by
  unfold Spec.afterTransfer
  split
  · exact ⟨rfl, rfl⟩
  · exact ⟨rfl, rfl⟩

section
variable {s : State} {c : ChannelId} {p : PackId} {b : Burst} {data : Word} {u u' : PackUnit} {taken accepted : List Byte}
  (hlive : s.live = true) (hu : s.UnitsKept) (hb : s.biu.burst = some b) (ho : b.owner = .pk p) (hl : Spec.lastPhase b)
  (hg : s.arbiter.packs.get p = some c) (hafter : Spec.afterTransfer (s.packs.get p) b data = u)
  (hr : u.condition = .running) (hend : u.ending = .none)
include hlive hb ho hl hg hafter hr hend

/-- A pack unit goes on after its transfer. -/
theorem exec_packTransfer :
    exec (.burstEndsWithReady data) s = .next ((((s.burstTaken b).setPack p u).drivePack p).settleRun c) := by
  obtain ⟨hcond, hending⟩ := Spec.afterTransfer_frame (s.packs.get p) b data
  rw [hafter] at hcond hending
  have hrun : (s.pack p).condition = .running := hcond.symm.trans hr
  have hne : (s.pack p).ending ≠ .outOverrun := fun h => absurd ((hending.symm.trans hend).symm.trans h) (by decide)
  unfold Spec.afterTransfer at hafter
  cases hw : b.request.write with
  | true =>
    rw [if_pos hw] at hafter
    rw [exec_writeEnds hlive hb hw hl, State.tellPack_write (s := (s.memoryTakes _).releaseBus) ho hg hrun hw,
      State.burstTaken, if_pos hw, ← hafter]
    exact congrArg _ (if_neg hne)
  | false =>
    rw [if_neg (by simp [hw])] at hafter
    rw [exec_readEnds hlive hb hw hl, State.tellPack_read (s := s.releaseBus) ho hg hrun hw, State.burstTaken,
      if_neg (by simp [hw]), ← hafter]
    rfl

/-- The unit asks for a write of what its buffer holds (R97, R109, R110). -/
theorem exec_packTransfer_writes (hu : s.UnitsKept) (hj : u'.joined = u.joined) (hne : u'.writeBuffer ≠ [])
    (hadv : u.advance = ({ unit := u', offered := tapped u.joined taken accepted }, some u'.bufferWrite)) :
    exec (.burstEndsWithReady data) s = .next
      { s with
        packs := s.packs.set p u'
        checks := Spec.offered s.checks u.joined taken accepted
        biu := { s.biu with
          burst := none
          wanted := s.biu.wanted.set (Requester.pk p).position (some (Spec.writeFrom u'.writeAddress u'.writeBuffer)) }
        hostMem := (s.burstTaken b).hostMem } := by
  have hdrive : ((s.burstTaken b).setPack p u).drivePack p =
      (s.packTaken b p u' u.joined taken accepted).want (.pk p) u'.bufferWrite := by
    rw [State.drivePack_asks _ p hadv, hj, State.offerTo_tapped, State.packTaken, State.burstTaken_eq]
    rfl
  have hmoved := s.packTaken_unitsMoved b p u' u.joined taken accepted
  have hgrants := (hmoved.grants hu.grantsPlaced).toUnitsOnce
  have hp : (s.packTaken b p u' u.joined taken accepted).packOf c = some p := hgrants.packOf_eq (hmoved.arbiter ▸ hg)
  have hrun : ((s.packTaken b p u' u.joined taken accepted).channel c).state = .run := by
    rw [hmoved.channel]
    exact hu.packState p c hg
  have hover : ((s.packTaken b p u' u.joined taken accepted).want (.pk p) u'.bufferWrite).runIsOver c = false := by
    refine (State.runIsOver_pack (s := s.packTaken b p u' u.joined taken accepted) hp hrun).trans ?_
    have hunit : (s.packTaken b p u' u.joined taken accepted).pack p = u' := (State.setPack_pack ..).trans (if_pos rfl)
    rw [hunit]
    exact PackUnit.isOver_false (.inr hne)
  rw [exec_packTransfer hlive hb ho hl hg hafter hr hend, hdrive, State.settleRun_goesOn hover, State.packTaken,
    State.burstTaken_eq]
  rfl

/-- The unit's run ends at once, its buffer being empty (R109, R110). -/
theorem exec_packTransfer_ends (hj : u'.joined = u.joined)
    (hadv : u.advance = ({ unit := u', offered := tapped u.joined taken accepted }, none)) :
    exec (.burstEndsWithReady data) s = .next ((s.packTaken b p u' u.joined taken accepted).settleRun c) := by
  have hdrive : ((s.burstTaken b).setPack p u).drivePack p = s.packTaken b p u' u.joined taken accepted := by
    unfold State.drivePack
    rw [State.setPack_pack, if_pos rfl, hadv]
    dsimp only
    rw [State.setPack_setPack, hj, State.offerTo_tapped, State.packTaken, State.burstTaken_eq]
    rfl
  rw [exec_packTransfer hlive hb ho hl hg hafter hr hend, hdrive]

end

/-- The check unit joined, after it was offered what its tap is. -/
theorem Spec.offered_get (checks : Vector CheckUnit 3) (k : CheckId) (tap : Tap) (taken accepted : List Byte) :
    (Spec.offered checks (some (k, tap)) taken accepted).get k =
      { checks.get k with
        running := (match tap with
          | .inTap => taken
          | .outTap => accepted).foldl RunningCode.feed (checks.get k).running } := by
  cases tap <;> exact vector_get_set ..

/-- The final code of a run that ends DONE with nothing accepted at its last transfer (R120, R124). -/
theorem State.packTaken_code (s : State) (b : Burst) (p : PackId) (u : PackUnit) {joined : Option (CheckId × Tap)}
    (taken : List Byte) {accepted : List Byte} (ha : accepted = []) {endJob : Bool} :
    (∀ k tap, joined = some (k, tap) → (s.checks.get k).endFlag = endJob) →
    ((joined.map Prod.fst).bind fun k =>
        (((s.packTaken b p u joined taken accepted).check k).runEnds .done).finalCode) =
      match joined with
      | some (k, tap) =>
        if endJob = true then
          some ((match tap with
            | .inTap => taken
            | .outTap => []).foldl RunningCode.feed (s.checks.get k).running).final
        else none
      | none => none := by
  intro hf
  subst ha
  cases joined with
  | none => rfl
  | some kt =>
    obtain ⟨k, tap⟩ := kt
    have hcheck : (s.packTaken b p u (some (k, tap)) taken []).check k = _ := Spec.offered_get s.checks k tap taken []
    simp only [Option.map_some, Option.bind_some, hcheck, CheckUnit.runEnds, hf k tap rfl, true_and]

/-- A unit that stops for want of room (R110). -/
theorem PackStep.stopFor_noRoom (w : PackStep) :
    (w.unit.writeBuffer ≠ [] →
        w.stopFor .noRoom = ({ unit := w.unit.overrun, offered := w.offered }, some w.unit.overrun.bufferWrite)) ∧
      (w.unit.writeBuffer = [] → w.stopFor .noRoom = ({ unit := w.unit.overrun, offered := w.offered }, none)) :=
  ⟨fun h => congrArg (Prod.mk _) (if_neg fun e => h (List.isEmpty_iff.1 e)),
    fun h => congrArg (Prod.mk _) (if_pos (List.isEmpty_iff.2 h))⟩

/-- The phase is no part of the run or the group. -/
theorem Spec.phase_of_tidy {u : PackUnit} {work : PackWork} (h : Spec.tidy work = Spec.pendingWork u) :
    work.phase = (Spec.called u).2.phase := by
  have hphase : (Spec.pendingWork u).phase = (Spec.called u).2.phase := by
    unfold Spec.pendingWork
    split
    · rfl
    · rfl
  exact (congrArg PackWork.phase h).trans hphase

/-- With nothing in the buffer the run is DONE (R109). -/
theorem PackStep.finished_done {w : PackStep} (h : w.unit.writeBuffer = []) :
    PackStep.finished (w, .drained) = ({ w with unit := { w.unit with ending := .done } }, none) := by
  have hl : w.unit.lastWrite = none := by simp [PackUnit.lastWrite, h]
  rw [PackStep.finished, hl]

/-- Settles O30, by whether the pending output has room, and by whether the buffer then holds anything. -/
theorem packTransferStops : Obligations.PackTransferStops := by
  intro s c p b data j w x op hlive hu hb ho hl hg u hr hend howed hk hflag hue hj hw hx hop hcheck hm bytes out
  have hafter : Spec.afterTransfer (s.packs.get p) b data = u := rfl
  refine ⟨(s.burstTaken b).hostMem, s.burstTaken_hostMem b, fun a => s.burstTaken_read b, ?_⟩
  intro writes ends
  have hjoined : ∀ k, s.arbiter.checks.get k = some c ↔ u.joined.map Prod.fst = some k := fun k => by
    rw [hk k]
    cases u.joined with
    | none => simp
    | some kt => obtain ⟨l, tap⟩ := kt; simp
  -- a unit that has come to rest with its buffer empty
  have rests : ∀ (u' : PackUnit) (taken accepted : List Byte) (st : Status) (n : Nat) (code : Option Word),
      u.advance = ({ unit := u', offered := tapped u.joined taken accepted }, none) → u'.joined = u.joined →
      u'.isOver = true → u'.taken = u.taken + n → u'.written = u.written →
      ((u.joined.map Prod.fst).bind fun k =>
        (((s.packTaken b p u' u.joined taken accepted).check k).runEnds u'.ending).finalCode) = code →
      (∀ running, ((u'.handsOver x running code).working j.entry x).status = some st ∧
        ((u'.handsOver x running code).working j.entry x).fault = none) →
      ends st n code := by
    intro u' taken accepted st n code hadv hj' hover htaken hwritten hcode hst
    have hunit : (s.packTaken b p u' u.joined taken accepted).pack p = u' := (State.setPack_pack ..).trans (if_pos rfl)
    obtain ⟨hrun, heval, -⟩ := (s.packTaken_unitsMoved b p u' u.joined taken accepted).packRun_ended hu hg hjoined hj hw hx
      hunit hover rfl hcode (hst _)
    rw [htaken, hwritten] at hrun
    exact ⟨_, exec_packTransfer_ends hlive hb ho hl hg hafter hr hend hj' hadv, hrun, by simp; rfl, heval⟩
  refine ⟨fun hsrc hcap hroom => ?finish, fun pre piece more k hp hcap hfull hroom hpiece => ?overrun⟩
  case finish =>
    obtain ⟨work, htidy, hadv⟩ := howed.advance_atEnd hsrc hcap hroom
    refine ⟨fun hne => ⟨work, ?_, htidy⟩, fun hempty => ?_⟩
    · rw [PackStep.finished_drained hne] at hadv
      exact exec_packTransfer_writes hlive hb ho hl hg hafter hr hend hu rfl hne hadv
    · intro code
      have hout : out = [] := (List.append_eq_nil_iff.1 hempty).2
      rw [PackStep.finished_done hempty] at hadv
      refine rests _ bytes out _ bytes.length code hadv rfl ?_ rfl rfl ?_ fun running => ?_
      · exact List.isEmpty_iff.2 hempty
      · exact s.packTaken_code b p _ bytes hout fun k tap hkt => hflag k ((hk k).2 ⟨tap, hkt⟩)
      · rw [← Spec.phase_of_tidy htidy]
        exact PackUnit.handsOver_done (u := { (u.drained work).unit with ending := .done }) rfl hop hm ..
  case overrun =>
    intro n
    obtain ⟨finishing, work, owed, hadv⟩ := howed.advance_overruns hcap hfull hroom hpiece hp
    let v : PackStep := ({ u with finishing := finishing } : PackUnit).reached n pre.flatten work owed
    obtain ⟨hwrite, hrest⟩ := v.stopFor_noRoom
    refine ⟨fun hne => ⟨v.unit.overrun, exec_packTransfer_writes (u' := v.unit.overrun) hlive hb ho hl hg hafter hr hend hu
      rfl hne (hadv.trans (hwrite hne)), rfl, rfl, rfl, rfl, rfl, rfl, rfl, rfl, rfl, rfl, hr, rfl⟩, fun hempty => ?_⟩
    refine rests v.unit.overrun (bytes.take n) pre.flatten _ n none (hadv.trans (hrest hempty)) rfl ?_ rfl rfl ?_
      fun running => ?_
    · exact List.isEmpty_iff.2 hempty
    · cases u.joined <;> simp [CheckUnit.runEnds, PackUnit.overrun]
    · exact PackUnit.handsOver_overrun (u := v.unit.overrun) rfl ..

end Sys2Proof.Machine
end

