-- ==== Sys2Proof/Proofs/TakenSettings.lean ====
section
/-! PROOF. Settings as the registers take them (R53, R131, R173): what is taken, and within which values. With it the ring settings
and the threshold: O15. -/

namespace Sys2Proof.Machine

-- One theorem at a time, as in the tests: all at once they pass the memory limit.
set_option Elab.async false

/-! ### Ring bases (R53, R131) -/

theorem ringBaseTaken_eq_shift (v : Word) : ringBaseTaken v = (v >>> 5) <<< 5 := by
  unfold ringBaseTaken
  ext i hi
  simp only [BitVec.getElem_and, BitVec.getElem_shiftLeft]
  interval_cases i <;> simp

theorem ringBaseTaken_toNat (v : Word) : (ringBaseTaken v).toNat = v.toNat - v.toNat % 32 := by
  have := v.isLt
  simp only [ringBaseTaken_eq_shift, BitVec.toNat_shiftLeft, BitVec.toNat_ushiftRight, Nat.shiftRight_eq_div_pow,
    Nat.shiftLeft_eq]
  omega

/-- The five lowest bits cleared are what is left of the value mod 32. -/
theorem ringBaseTaken_eq_sub (v : Word) : ringBaseTaken v = v - BitVec.ofNat 32 (v.toNat % 32) := by
  have := ringBaseTaken_toNat v
  bv_omega

theorem ringBaseTaken_aligned (v : Word) : (ringBaseTaken v).toNat % 32 = 0 := by
  rw [ringBaseTaken_toNat]
  omega

/-! ### Ring sizes (R53, R131) -/

section
variable {a b v : Nat}

theorem ringSizeTaken_small (h : v < 2 ^ a) : ringSizeTaken (2 ^ a) (2 ^ b) v = 2 ^ a := if_pos h

theorem ringSizeTaken_great (hab : a ≤ b) (h : 2 ^ b < v) : ringSizeTaken (2 ^ a) (2 ^ b) v = 2 ^ b := by
  have := Nat.pow_le_pow_right (n := 2) (by omega) hab
  exact (if_neg (by omega)).trans (if_pos h)

theorem ringSizeTaken_within (h1 : 2 ^ a ≤ v) (h2 : v ≤ 2 ^ b) : ringSizeTaken (2 ^ a) (2 ^ b) v = 2 ^ v.log2 :=
  (if_neg (by omega)).trans (if_neg (by omega))

/-- Between the least and the greatest the size taken is the largest power of two that does not exceed the value. -/
theorem ringSizeTaken_bounds (h1 : 2 ^ a ≤ v) (h2 : v ≤ 2 ^ b) :
    ringSizeTaken (2 ^ a) (2 ^ b) v ≤ v ∧ v < 2 * ringSizeTaken (2 ^ a) (2 ^ b) v := by
  have hv : v ≠ 0 := by have := Nat.two_pow_pos a; omega
  rw [ringSizeTaken_within h1 h2, ← Nat.pow_succ']
  exact ⟨Nat.log2_self_le hv, Nat.lt_log2_self⟩

theorem ringSizeTaken_eq_pow (hab : a ≤ b) (v : Nat) : ∃ k, a ≤ k ∧ k ≤ b ∧ ringSizeTaken (2 ^ a) (2 ^ b) v = 2 ^ k := by
  by_cases h1 : v < 2 ^ a
  · exact ⟨a, le_rfl, hab, ringSizeTaken_small h1⟩
  by_cases h2 : 2 ^ b < v
  · exact ⟨b, hab, le_rfl, ringSizeTaken_great hab h2⟩
  · have hv : v ≠ 0 := by have := Nat.two_pow_pos a; omega
    refine ⟨v.log2, (Nat.le_log2 hv).2 (by omega), ?_, ringSizeTaken_within (by omega) (by omega)⟩
    exact (Nat.pow_le_pow_iff_right (by omega)).1 ((Nat.log2_self_le hv).trans (by omega))

end

theorem isJobRingSize_taken (v : Nat) : isJobRingSize (ringSizeTaken 4 1024 v) := by
  obtain ⟨k, h1, h2, e⟩ := ringSizeTaken_eq_pow (a := 2) (b := 10) (by omega) v
  rw [show ringSizeTaken 4 1024 v = 2 ^ k from e]
  interval_cases k <;> simp [isJobRingSize]

theorem isCompletionRingSize_taken (v : Nat) : isCompletionRingSize (ringSizeTaken 8 4096 v) := by
  obtain ⟨k, h1, h2, e⟩ := ringSizeTaken_eq_pow (a := 3) (b := 12) (by omega) v
  rw [show ringSizeTaken 8 4096 v = 2 ^ k from e]
  interval_cases k <;> simp [isCompletionRingSize]

/-! ### The initiator timeout and the threshold (R131, R173) -/

theorem isTimeout_taken (v : Nat) : isTimeout (timeoutTaken v) := by
  unfold timeoutTaken isTimeout
  (repeat' split) <;> omega

theorem thresholdTaken_eq_min (v : Nat) : thresholdTaken v = min v 255 := by
  unfold thresholdTaken
  split <;> omega

/-! ### The ring settings and the threshold (R53, R131) -/

theorem Channel.configurable_iff (ch : Channel) : ch.configurable = true ↔ ch.state = .off ∧ ch.post = ch.done := by
  simp [Channel.configurable]

theorem Writer.configurable_iff (w : Writer) : w.configurable = true ↔ w.state = .disabled ∧ w.tail = w.head := by
  simp [Writer.configurable]

/-- Settles O15: a setting is taken or refused as the ring may be configured, and what is taken is as above. -/
theorem ringSettings : Obligations.RingSettings := by
  refine ⟨fun s c v hlive => ⟨fun h => ?_, fun h => ?_⟩, fun s v hlive => ⟨fun h => ?_, fun h => ?_, ?_⟩⟩
  · have hc := (Channel.configurable_iff _).2 h
    refine ⟨?_, _, (next_taken hlive).trans (congrArg _ (if_pos hc)), isJobRingSize_taken _,
      ringSizeTaken_small (a := 2) (b := 10), ringSizeTaken_great (a := 2) (b := 10) (by omega),
      ringSizeTaken_bounds (a := 2) (b := 10)⟩
    rw [← ringBaseTaken_eq_sub]
    exact (next_taken hlive).trans (congrArg _ (if_pos hc))
  · have hc := mt (Channel.configurable_iff _).1 h
    exact ⟨(next_taken hlive).trans (congrArg _ (if_neg hc)), (next_taken hlive).trans (congrArg _ (if_neg hc))⟩
  · have hc := (Writer.configurable_iff _).2 h
    refine ⟨?_, _, (next_taken hlive).trans (congrArg _ (if_pos hc)), isCompletionRingSize_taken _,
      ringSizeTaken_small (a := 3) (b := 12), ringSizeTaken_great (a := 3) (b := 12) (by omega),
      ringSizeTaken_bounds (a := 3) (b := 12)⟩
    rw [← ringBaseTaken_eq_sub]
    exact (next_taken hlive).trans (congrArg _ (if_pos hc))
  · have hc := mt (Writer.configurable_iff _).1 h
    exact ⟨(next_taken hlive).trans (congrArg _ (if_neg hc)), (next_taken hlive).trans (congrArg _ (if_neg hc))⟩
  · rw [← thresholdTaken_eq_min]
    exact next_taken hlive

end Sys2Proof.Machine
end

