-- ==== Sys2Proof/Proofs/Settings.lean ====
section
/-! SUPPORT. The settings and status registers with a range (R50, R129, R150, R153, R166, R173): what each operation of the blocks
leaves them at. -/

namespace Sys2Proof.Machine

-- One theorem at a time, as in the tests: all at once they pass the memory limit.
set_option Elab.async false

/-! ### The settings, read off the state -/

/-- What `State.SettingsLegal` speaks of; of the interrupt statuses the positions that name none. -/
structure Settings where
  jobRing : ChannelId → Word × Nat
  completionRing : Word × Nat
  threshold : Nat
  timeout : Nat
  burstTimeout : Option Nat
  strayStatus : Word
  enable : Word
  accessOffset : BitVec 9

/-- The settings of a part. -/
def State.settings (s : State) : Settings where
  jobRing c := ((s.channel c).ringBase, (s.channel c).ringSize)
  completionRing := (s.writer.ringBase, s.writer.ringSize)
  threshold := s.writer.threshold
  timeout := s.biu.timeout
  burstTimeout := s.biu.burst.map Burst.timeout
  strayStatus := s.idc.status &&& ~~~interruptPositions
  enable := s.idc.enable
  accessOffset := s.biu.accessError.offset

/-- Settings within their ranges. -/
structure Settings.Legal (x : Settings) : Prop where
  jobRingBase : ∀ c, (x.jobRing c).1.toNat % 32 = 0
  jobRingSize : ∀ c, isJobRingSize (x.jobRing c).2
  completionRingBase : x.completionRing.1.toNat % 32 = 0
  completionRingSize : isCompletionRingSize x.completionRing.2
  threshold : x.threshold ≤ 255
  timeout : isTimeout x.timeout
  burstTimeout : ∀ n, x.burstTimeout = some n → isTimeout n
  strayStatus : x.strayStatus = 0
  enable : x.enable &&& ~~~interruptPositions = 0
  accessOffset : x.accessOffset.toNat % 4 = 0

theorem State.settingsLegal_iff (s : State) : s.SettingsLegal ↔ s.settings.Legal := by
  constructor
  · intro h
    exact { h with
      strayStatus := h.interruptStatus
      enable := h.interruptEnable
      accessOffset := h.accessOffset
      burstTimeout := fun n e => by
        obtain ⟨b, hb, rfl⟩ := Option.map_eq_some_iff.1 e
        exact h.burstTimeout b hb }
  · intro h
    exact { h with
      interruptStatus := h.strayStatus
      interruptEnable := h.enable
      burstTimeout := fun b e => h.burstTimeout b.timeout (by simp [State.settings, e]) }

/-! ### Updates that leave the settings as they were -/

section
variable (s : State)

@[simp] theorem State.setSlot_settings (i : SlotId) (x : Slot) : (s.setSlot i x).settings = s.settings := rfl
@[simp] theorem State.setPack_settings (p : PackId) (u : PackUnit) : (s.setPack p u).settings = s.settings := rfl
@[simp] theorem State.setCheck_settings (k : CheckId) (u : CheckUnit) : (s.setCheck k u).settings = s.settings := rfl
@[simp] theorem State.want_settings (r : Requester) (q : BurstRequest) : (s.want r q).settings = s.settings := rfl
@[simp] theorem State.withdraw_settings (r : Requester) : (s.withdraw r).settings = s.settings := rfl
@[simp] theorem State.complete_settings (r : StreamResult) (h : Half) : (s.complete r h).settings = s.settings := rfl
@[simp] theorem State.memoryTakes_settings (l : List (Word × Byte)) : (s.memoryTakes l).settings = s.settings := rfl
@[simp] theorem State.memoryMayTake_settings (l : List (Word × Byte)) : (s.memoryMayTake l).settings = s.settings := rfl
@[simp] theorem State.recordFault_settings (b : Burst) (w : Why) : (s.recordFault b w).settings = s.settings := rfl
@[simp] theorem State.withPending_settings (q : List Instr) : (s.withPending q).settings = s.settings := rfl
@[simp] theorem State.setArbiter_settings (a : Arbiter) : State.settings { s with arbiter := a } = s.settings := rfl
@[simp] theorem State.releasePin_settings : s.releasePin.settings = s.settings := rfl
@[simp] theorem State.leaveWaitingSet_settings (c : ChannelId) : (s.leaveWaitingSet c).settings = s.settings := rfl
@[simp] theorem State.withdrawRecord_settings (c : ChannelId) : (s.withdrawRecord c).settings = s.settings := rfl

/-- Each status has a position that names one (R179). -/
theorem IntStatus.mask_named (i : IntStatus) : i.mask &&& ~~~interruptPositions = 0 := by
  cases i with
  | halt c => revert c; decide
  | _ => decide

@[simp] theorem State.raise_settings (i : IntStatus) : (s.raise i).settings = s.settings := by
  have h : (s.idc.status ||| i.mask) &&& ~~~interruptPositions = s.idc.status &&& ~~~interruptPositions := by
    rw [BitVec.and_comm, BitVec.and_or_distrib_left, BitVec.and_comm _ i.mask, i.mask_named, BitVec.and_comm]
    simp
  simp only [State.settings, State.raise, h]
  rfl

/-- A channel replaced by one of its ring base and ring size. -/
@[simp] theorem State.setChannel_settings (c : ChannelId) (x : Channel) (hb : x.ringBase = (s.channel c).ringBase)
    (hs : x.ringSize = (s.channel c).ringSize) : (s.setChannel c x).settings = s.settings := by
  have h : (fun d => (((s.setChannel c x).channel d).ringBase, ((s.setChannel c x).channel d).ringSize)) =
      fun d => ((s.channel d).ringBase, (s.channel d).ringSize) := by
    funext d
    by_cases e : d = c
    · subst e
      simp [hb, hs]
    · simp [e]
  simp only [State.settings, h]
  rfl

end

/-! ### The operations of the blocks -/

section
variable (s : State)

@[simp] theorem State.takeHold_settings (c : ChannelId) (sl : Slot) : (s.takeHold c sl).settings = s.settings := by
  unfold State.takeHold State.endJob
  (repeat' split) <;> simp

@[simp] theorem State.endJob_settings (c : ChannelId) (st : Status) (f : Option FaultDetail) :
    (s.endJob c st f).settings = s.settings := by simp [State.endJob]

@[simp] theorem State.halt_settings (c : ChannelId) (k : HaltCause) : (s.halt c k).settings = s.settings := by
  simp [State.halt]

@[simp] theorem State.clearChannel_settings (c : ChannelId) : (s.clearChannel c).settings = s.settings := by
  simp [State.clearChannel]

@[simp] theorem State.abortTakesEffect_settings (k : AbortKind) (c : ChannelId) :
    (s.abortTakesEffect k c).settings = s.settings := by
  cases k <;> simp [State.abortTakesEffect]

@[simp] theorem State.beginFetch_settings (c : ChannelId) : (s.beginFetch c).settings = s.settings := by
  simp [State.beginFetch]

@[simp] theorem State.setAbortPending_settings (k : AbortKind) (c : ChannelId) :
    (s.setAbortPending k c).settings = s.settings := by simp [State.setAbortPending]

@[simp] theorem State.setHaltOnError_settings (c : ChannelId) (b : Bool) :
    (s.setHaltOnError c b).settings = s.settings := by simp [State.setHaltOnError]

@[simp] theorem State.setStage_settings (c : ChannelId) (g : FetchStage) : (s.setStage c g).settings = s.settings := by
  simp [State.setStage]

theorem State.settings_congr {s t : State} (hc : t.channels = s.channels) (hw : t.writer = s.writer) (hi : t.idc = s.idc)
    (hb : t.biu = s.biu) : t.settings = s.settings := by
  simp only [State.settings, State.channel, hc, hw, hi, hb]

@[simp] theorem State.takeStreamCommand_settings (v : Word) : (s.takeStreamCommand v).settings = s.settings :=
  State.settings_congr (by simp) (by simp) (by simp) (by simp)

@[simp] theorem State.withdrawWaiter_settings (c : ChannelId) : (s.withdrawWaiter c).settings = s.settings :=
  State.settings_congr (by simp) (by simp) (by simp) (by simp)

@[simp] theorem State.takeHoldRequest_settings (c : ChannelId) (h : Half) :
    (s.takeHoldRequest c h).settings = s.settings := by
  unfold State.takeHoldRequest
  split
  · simp
  · dsimp only
    split
    · simp
    · exact State.setChannel_settings _ _ _ rfl rfl

@[simp] theorem State.refuseWaiters_settings (ws : List ChannelId) : (s.refuseWaiters ws).settings = s.settings :=
  foldl_keeps (P := fun t : State => t.settings = s.settings) (fun t _ ht => (t.endJob_settings ..).trans ht) ws rfl

@[simp] theorem State.passOn_settings (i : SlotId) (sl : Slot) : (s.passOn i sl).settings = s.settings := by
  unfold State.passOn
  (repeat' split) <;> simp

@[simp] theorem State.release_settings (c : ChannelId) (k : Option Commit) : (s.release c k).settings = s.settings := by
  unfold State.release
  (repeat' split) <;> simp

/-! Units -/

@[simp] theorem State.drivePack_settings (p : PackId) : (s.drivePack p).settings = s.settings := by
  unfold State.drivePack State.offerTo
  dsimp only
  (repeat' split) <;> simp

@[simp] theorem State.driveCheck_settings (k : CheckId) : (s.driveCheck k).settings = s.settings := by
  unfold State.driveCheck
  split <;> simp

@[simp] theorem State.loadUnits_settings (j : Job) (x : Context) (p : Option PackId) (k : Option CheckId) :
    (s.loadUnits j x p k).settings = s.settings := by
  cases p <;> cases k <;> simp [State.loadUnits]

@[simp] theorem State.grant_settings (c : ChannelId) (n : Need) : (s.grant c n).settings = s.settings := by
  unfold State.grant
  dsimp only
  split
  · exact (State.loadUnits_settings ..).trans (State.setChannel_settings _ _ _ rfl rfl)
  · exact State.setChannel_settings _ _ _ rfl rfl

@[simp] theorem State.releaseUnits_settings (c : ChannelId) : (s.releaseUnits c).settings = s.settings := by
  unfold State.releaseUnits
  dsimp only
  (repeat' split) <;> rfl

@[simp] theorem State.finishRun_settings (c : ChannelId) : (s.finishRun c).settings = s.settings := by
  unfold State.finishRun
  dsimp only
  split <;> simp

@[simp] theorem State.evaluate_settings (n : Nat) : (s.evaluate n).settings = s.settings :=
  State.evaluate_keeps (P := fun t => t.settings = s.settings) (fun t d n ht _ _ => (t.grant_settings d n).trans ht)
    (fun t d ht _ => (t.finishRun_settings d).trans ht) n rfl

@[simp] theorem State.settleRun_settings (c : ChannelId) : (s.settleRun c).settings = s.settings := by
  unfold State.settleRun State.reevaluate
  split <;> simp

@[simp] theorem State.join_settings (c : ChannelId) (n : Need) : (s.join c n).settings = s.settings := by
  simp [State.join, State.reevaluate]

@[simp] theorem State.stopUnits_settings (c : ChannelId) : (s.stopUnits c).settings = s.settings := by
  unfold State.stopUnits
  dsimp only
  (repeat' split) <;> simp

@[simp] theorem State.abortRun_settings (k : AbortKind) (c : ChannelId) : (s.abortRun k c).settings = s.settings := by
  simp [State.abortRun, State.reevaluate]

@[simp] theorem State.unitStopped_settings (c : ChannelId) : (s.unitStopped c).settings = s.settings := by
  unfold State.unitStopped
  (repeat' split) <;> simp

/-! The completion writer -/

@[simp] theorem State.setWriter_settings (w : Writer) (hb : w.ringBase = s.writer.ringBase)
    (hs : w.ringSize = s.writer.ringSize) (ht : w.threshold = s.writer.threshold) :
    State.settings { s with writer := w } = s.settings := by
  simp only [State.settings, hb, hs, ht]
  rfl

@[simp] theorem State.beginRecord_settings : s.beginRecord.settings = s.settings := by
  unfold State.beginRecord
  (repeat' split) <;> simp

@[simp] theorem State.requestRecord_settings (c : ChannelId) : (s.requestRecord c).settings = s.settings := by
  simp [State.requestRecord]

@[simp] theorem State.evaluateLevel_settings : s.evaluateLevel.settings = s.settings := by
  unfold State.evaluateLevel
  split <;> simp

@[simp] theorem State.evaluateFlush_settings (q : Bool) : (s.evaluateFlush q).settings = s.settings := by
  unfold State.evaluateFlush
  split <;> simp

@[simp] theorem State.recordWriteEnds_settings : s.recordWriteEnds.settings = s.settings := by
  unfold State.recordWriteEnds
  split
  · rfl
  · refine (State.beginRecord_settings _).trans ((State.setWriter_settings _ _ rfl rfl rfl).trans ?_)
    refine (State.setChannel_settings _ _ _ ?_ ?_).trans ((State.evaluateLevel_settings _).trans rfl) <;> rfl

@[simp] theorem State.recordWriteFaults_settings : s.recordWriteFaults.settings = s.settings := by
  unfold State.recordWriteFaults
  split <;> simp

@[simp] theorem State.takeEnable_settings : s.takeEnable.settings = s.settings := by
  unfold State.takeEnable
  split <;> simp

@[simp] theorem State.takeDisable_settings : s.takeDisable.settings = s.settings := by
  unfold State.takeDisable
  split <;> simp

@[simp] theorem State.takeRestart_settings : s.takeRestart.settings = s.settings := by
  unfold State.takeRestart
  split <;> simp

@[simp] theorem State.takeWriterControl_settings (v : Word) : (s.takeWriterControl v).settings = s.settings := by
  unfold State.takeWriterControl
  split <;> simp

@[simp] theorem State.takeLeaving_settings (c : ChannelId) : (s.takeLeaving c).settings = s.settings := by
  unfold State.takeLeaving
  split <;> simp

@[simp] theorem State.takeLeavings_settings : s.takeLeavings.settings = s.settings := by
  rw [State.takeLeavings, State.evaluateFlush_settings]
  simp [State.settings, State.channel, Vector.get_eq_getElem]

/-! The channels -/

@[simp] theorem State.fetchIfPosted_settings (c : ChannelId) : (s.fetchIfPosted c).settings = s.settings := by
  unfold State.fetchIfPosted
  split <;> simp

@[simp] theorem State.takeStart_settings (c : ChannelId) : (s.takeStart c).settings = s.settings := by
  unfold State.takeStart
  split <;> simp

@[simp] theorem State.takeStop_settings (c : ChannelId) : (s.takeStop c).settings = s.settings := by
  unfold State.takeStop
  dsimp only
  (repeat' split) <;> simp

@[simp] theorem State.disposeOf_settings (k : AbortKind) (c : ChannelId) : (s.disposeOf k c).settings = s.settings := by
  unfold State.disposeOf
  dsimp only
  (repeat' split) <;> simp

@[simp] theorem State.takeAbort_settings (c : ChannelId) : (s.takeAbort c).settings = s.settings := by
  unfold State.takeAbort
  split <;> simp

@[simp] theorem State.takeReset_settings (c : ChannelId) : (s.takeReset c).settings = s.settings := by
  unfold State.takeReset
  split <;> simp

@[simp] theorem State.takeChannelControl_settings (c : ChannelId) (v : Word) :
    (s.takeChannelControl c v).settings = s.settings := by
  unfold State.takeChannelControl
  dsimp only
  split <;> simp

@[simp] theorem State.completeFetch_settings (c : ChannelId) (j : Job) : (s.completeFetch c j).settings = s.settings := by
  unfold State.completeFetch
  (repeat' split) <;> simp

@[simp] theorem State.fetchDest_settings (c : ChannelId) (j : Job) : (s.fetchDest c j).settings = s.settings := by
  unfold State.fetchDest
  split <;> simp

@[simp] theorem State.entryRead_settings (c : ChannelId) (e : JobEntry) : (s.entryRead c e).settings = s.settings := by
  unfold State.entryRead
  dsimp only
  (repeat' split) <;> simp

@[simp] theorem State.sourceTableRead_settings (c : ChannelId) (j : Job) (got : List Byte) :
    (s.sourceTableRead c j got).settings = s.settings := by
  unfold State.sourceTableRead
  dsimp only
  split <;> simp

@[simp] theorem State.destTableRead_settings (c : ChannelId) (j : Job) (got : List Byte) :
    (s.destTableRead c j got).settings = s.settings := by
  unfold State.destTableRead
  dsimp only
  split <;> simp

@[simp] theorem State.fetchReadEnds_settings (c : ChannelId) (bytes : List Byte) :
    (s.fetchReadEnds c bytes).settings = s.settings := by
  unfold State.fetchReadEnds
  (repeat' split) <;> simp

@[simp] theorem State.fetchReadFaults_settings (c : ChannelId) (why : Why) :
    (s.fetchReadFaults c why).settings = s.settings := by
  unfold State.fetchReadFaults
  (repeat' split) <;> simp

@[simp] theorem State.chooseNext_settings (c : ChannelId) (st : Option Status) :
    (s.chooseNext c st).settings = s.settings := by
  unfold State.chooseNext
  dsimp only
  (repeat' split) <;> simp

@[simp] theorem State.retire_settings (c : ChannelId) : (s.retire c).settings = s.settings := by
  simp [State.retire]

/-! The owners of bursts -/

@[simp] theorem State.packTransferEnds_settings (p : PackId) (q : BurstRequest) (bytes : List Byte) :
    (s.packTransferEnds p q bytes).settings = s.settings := by
  unfold State.packTransferEnds
  dsimp only
  (repeat' split) <;> simp

@[simp] theorem State.packTransferFaults_settings (p : PackId) (q : BurstRequest) (why : Why) :
    (s.packTransferFaults p q why).settings = s.settings := by
  unfold State.packTransferFaults
  dsimp only
  (repeat' split) <;> simp

@[simp] theorem State.checkReadEnds_settings (k : CheckId) (bytes : List Byte) :
    (s.checkReadEnds k bytes).settings = s.settings := by
  unfold State.checkReadEnds
  dsimp only
  (repeat' split) <;> simp

@[simp] theorem State.checkReadFaults_settings (k : CheckId) (why : Why) :
    (s.checkReadFaults k why).settings = s.settings := by
  unfold State.checkReadFaults
  dsimp only
  (repeat' split) <;> simp

@[simp] theorem State.tellReady_settings (b : Burst) (bytes : List Byte) : (s.tellReady b bytes).settings = s.settings := by
  unfold State.tellReady
  split <;> simp

@[simp] theorem State.tellFault_settings (b : Burst) (why : Why) : (s.tellFault b why).settings = s.settings := by
  unfold State.tellFault
  split <;> simp

@[simp] theorem State.joinPort_settings (r : Requester) : (s.joinPort r).settings = s.settings := by
  unfold State.joinPort
  split <;> rfl

end

end Sys2Proof.Machine
end

