-- ==== Sys2Proof/Proofs/SettingsSteps.lean ====
section
/-! PROOF. Every step keeps every setting and status register within its values (R50, R129, R150, R153, R166, R173): O54. -/

namespace Sys2Proof.Machine

-- One theorem at a time, as in the tests: all at once they pass the memory limit.
set_option Elab.async false

section
variable {s t : State}

theorem State.SettingsLegal.of_settings (h : s.SettingsLegal) (e : t.settings = s.settings) : t.SettingsLegal :=
  t.settingsLegal_iff.2 (e ▸ s.settingsLegal_iff.1 h)

/-! ### Writes of the settings -/

theorem State.SettingsLegal.setChannel (h : s.SettingsLegal) {c : ChannelId} {x : Channel}
    (hb : x.ringBase.toNat % 32 = 0) (hs : isJobRingSize x.ringSize) : (s.setChannel c x).SettingsLegal :=
  { h with
    jobRingBase := fun d => by
      rw [State.setChannel_channel]
      split
      · exact hb
      · exact h.jobRingBase d
    jobRingSize := fun d => by
      rw [State.setChannel_channel]
      split
      · exact hs
      · exact h.jobRingSize d }

/-- A refused write at a word's offset. -/
theorem State.SettingsLegal.refuse (h : s.SettingsLegal) {offset : Nat} (ho : offset % 4 = 0) (why : AccessReason) :
    (s.refuse offset why).SettingsLegal := by
  have hr := h.of_settings (s.raise_settings .accessErr)
  exact { hr with
    accessOffset := by
      change (BitVec.ofNat 9 offset).toNat % 4 = 0
      rw [BitVec.toNat_ofNat]
      omega }

theorem Reg.offset_aligned (r : Reg) : r.offset % 4 = 0 := by
  cases r <;> simp only [Reg.offset] <;> omega

theorem State.SettingsLegal.takeJobRingBase (h : s.SettingsLegal) (c : ChannelId) (v : Word) :
    (s.takeJobRingBase c v).SettingsLegal := by
  unfold State.takeJobRingBase
  split
  · exact h.setChannel (ringBaseTaken_aligned v) (h.jobRingSize c)
  · exact h.refuse (Reg.offset_aligned _) _

theorem State.SettingsLegal.takeJobRingSize (h : s.SettingsLegal) (c : ChannelId) (v : Word) :
    (s.takeJobRingSize c v).SettingsLegal := by
  unfold State.takeJobRingSize
  split
  · exact h.setChannel (h.jobRingBase c) (isJobRingSize_taken _)
  · exact h.refuse (Reg.offset_aligned _) _

theorem State.SettingsLegal.takePost (h : s.SettingsLegal) (c : ChannelId) (v : Word) :
    (s.takePost c v).SettingsLegal := by
  unfold State.takePost
  dsimp only
  split
  · exact h.of_settings (by simp)
  · exact h.refuse (Reg.offset_aligned _) _

theorem State.SettingsLegal.takeCompletionBase (h : s.SettingsLegal) (v : Word) :
    (s.takeCompletionBase v).SettingsLegal := by
  unfold State.takeCompletionBase
  split
  · exact { h with completionRingBase := ringBaseTaken_aligned v }
  · exact h.refuse (Reg.offset_aligned _) _

theorem State.SettingsLegal.takeCompletionSize (h : s.SettingsLegal) (v : Word) :
    (s.takeCompletionSize v).SettingsLegal := by
  unfold State.takeCompletionSize
  split
  · exact { h with completionRingSize := isCompletionRingSize_taken _ }
  · exact h.refuse (Reg.offset_aligned _) _

theorem State.SettingsLegal.takeThreshold (h : s.SettingsLegal) (v : Word) : (s.takeThreshold v).SettingsLegal :=
  { h with
    threshold := by
      change thresholdTaken v.toNat ≤ 255
      rw [thresholdTaken_eq_min]
      omega }

theorem State.SettingsLegal.takeHead (h : s.SettingsLegal) (v : Word) : (s.takeHead v).SettingsLegal := by
  have hl := h.of_settings s.takeLeavings_settings
  unfold State.takeHead State.moveHead
  dsimp only
  split
  · split
    · exact hl
    · exact hl.of_settings ((State.beginRecord_settings _).trans (State.setWriter_settings _ _ rfl rfl rfl))
  · exact hl.refuse (Reg.offset_aligned _) _

theorem State.SettingsLegal.takeInterruptClear (h : s.SettingsLegal) (v : Word) :
    (s.takeInterruptClear v).SettingsLegal :=
  { h with
    interruptStatus := by
      change s.idc.status &&& ~~~v &&& ~~~interruptPositions = 0
      rw [BitVec.and_assoc, BitVec.and_comm (~~~v), ← BitVec.and_assoc, h.interruptStatus]
      simp }

theorem State.SettingsLegal.takeInterruptEnable (h : s.SettingsLegal) (v : Word) :
    (s.takeInterruptEnable v).SettingsLegal :=
  { h with
    interruptEnable := by
      change v &&& interruptPositions &&& ~~~interruptPositions = 0
      rw [BitVec.and_assoc]
      simp }

theorem State.SettingsLegal.takeTimeout (h : s.SettingsLegal) (v : Word) : (s.takeTimeout v).SettingsLegal :=
  { h with timeout := isTimeout_taken _ }

/-! ### The resets -/

theorem State.takeResetValues_settingsLegal (s : State) {n : Nat} (hn : isTimeout n) :
    (s.takeResetValues n).SettingsLegal :=
  { State.reset_settingsLegal with timeout := hn }

theorem State.SettingsLegal.completeDeviceReset (h : s.SettingsLegal) : s.completeDeviceReset.SettingsLegal :=
  s.takeResetValues_settingsLegal h.timeout

theorem State.SettingsLegal.takeDeviceReset (h : s.SettingsLegal) : s.takeDeviceReset.SettingsLegal := by
  unfold State.takeDeviceReset
  split
  · exact h.completeDeviceReset
  · exact h.of_settings rfl

theorem State.assertPin_settingsLegal (s : State) : s.assertPin.SettingsLegal :=
  (s.abandonBurst.takeResetValues_settingsLegal (.inl rfl)).of_settings rfl

/-! ### Bursts -/

/-- The burst in progress replaced, by one whose timeout setting is legal or by none. -/
theorem State.SettingsLegal.setBurst (h : s.SettingsLegal) {o : Option Burst} (ho : ∀ b, o = some b → isTimeout b.timeout) :
    State.SettingsLegal { s with biu := { s.biu with burst := o } } :=
  { h with burstTimeout := ho }

theorem State.SettingsLegal.releaseBus (h : s.SettingsLegal) : s.releaseBus.SettingsLegal :=
  h.setBurst fun _ e => by cases e

/-- The burst in progress goes on, its timeout setting held. -/
theorem State.SettingsLegal.burstGoesOn (h : s.SettingsLegal) {b x : Burst} (hb : s.biu.burst = some b)
    (hx : x.timeout = b.timeout) : State.SettingsLegal { s with biu := { s.biu with burst := some x } } :=
  h.setBurst fun _ e => by
    cases e
    rw [hx]
    exact h.burstTimeout b hb

/-- A grant holds the timeout setting for its burst (R173). -/
theorem State.SettingsLegal.takeGrant (h : s.SettingsLegal) : s.takeGrant.SettingsLegal := by
  unfold State.takeGrant
  split
  · exact h
  split
  · exact h
  split
  · exact h
  · exact { h with
      burstTimeout := fun b e => by
        cases e
        exact h.timeout }

theorem State.SettingsLegal.burstReady (h : s.SettingsLegal) (b : Burst) (bytes : List Byte) :
    (s.burstReady b bytes).SettingsLegal := by
  unfold State.burstReady
  split
  · exact h.releaseBus.completeDeviceReset
  · exact h.releaseBus.of_settings (by simp)

theorem State.SettingsLegal.burstFaults (h : s.SettingsLegal) (b : Burst) (why : Why) :
    (s.burstFaults b why).SettingsLegal := by
  have hm : (if b.request.write then s.memoryMayTake (b.request.cells b.phasesEnded) else s).SettingsLegal := by
    split
    · exact h.of_settings rfl
    · exact h
  unfold State.burstFaults
  dsimp only
  generalize (if b.request.write then s.memoryMayTake (b.request.cells b.phasesEnded) else s) = t at hm ⊢
  split
  · exact hm.releaseBus.completeDeviceReset
  · exact hm.releaseBus.of_settings (by simp)

theorem State.SettingsLegal.phaseReady (h : s.SettingsLegal) (data : Word) : (s.phaseReady data).SettingsLegal := by
  unfold State.phaseReady
  split
  · exact h
  · rename_i b hb
    have hm : ∃ t, (if b.request.write then s.memoryTakes (b.request.cells b.phasesEnded) else s) = t ∧
        t.biu.burst = some b ∧ t.SettingsLegal := by
      split
      · exact ⟨_, rfl, hb, h.of_settings rfl⟩
      · exact ⟨_, rfl, hb, h⟩
    obtain ⟨t, ht, hb', h'⟩ := hm
    simp only [ht]
    split
    · exact h'.burstGoesOn hb' rfl
    · exact h'.burstReady ..

theorem State.SettingsLegal.phaseError (h : s.SettingsLegal) : s.phaseError.SettingsLegal := by
  unfold State.phaseError
  split
  · exact h
  · exact h.burstFaults ..

theorem State.SettingsLegal.phaseTimeout (h : s.SettingsLegal) : s.phaseTimeout.SettingsLegal := by
  unfold State.phaseTimeout
  split
  · exact h
  split
  · exact h
  · exact h.burstFaults ..

theorem State.SettingsLegal.clockPeriod (h : s.SettingsLegal) : s.clockPeriod.SettingsLegal := by
  unfold State.clockPeriod
  split
  · exact h
  · rename_i b hb
    split
    · exact h.burstGoesOn hb rfl
    split
    · exact h.burstGoesOn hb rfl
    · exact h.burstFaults ..

/-! ### The window, and every command -/

theorem State.SettingsLegal.takeGlobalControl (h : s.SettingsLegal) (v : Word) :
    (s.takeGlobalControl v).SettingsLegal := by
  unfold State.takeGlobalControl
  split
  · exact h.takeDeviceReset
  · exact h

theorem State.SettingsLegal.ownerTakes (h : s.SettingsLegal) (r : Reg) (v : Word) : (s.ownerTakes r v).SettingsLegal := by
  cases r
  case globalControl => exact h.takeGlobalControl v
  case interruptStatus => exact h.takeInterruptClear v
  case interruptEnable => exact h.takeInterruptEnable v
  case initiatorTimeout => exact h.takeTimeout v
  case writerControl => exact h.of_settings (s.takeWriterControl_settings v)
  case completionRingBase => exact h.takeCompletionBase v
  case completionRingSize => exact h.takeCompletionSize v
  case head => exact h.takeHead v
  case threshold => exact h.takeThreshold v
  case command => exact h.of_settings (s.takeStreamCommand_settings v)
  case channelControl c => exact h.of_settings (s.takeChannelControl_settings c v)
  case jobRingBase c => exact h.takeJobRingBase c v
  case jobRingSize c => exact h.takeJobRingSize c v
  case post c => exact h.takePost c v
  all_goals exact h.of_settings rfl

theorem State.SettingsLegal.windowWrite (h : s.SettingsLegal) (a : Word) (lanes : BitVec 4) (v : Word) :
    (s.windowWrite a lanes v).SettingsLegal := by
  have ho : windowWord a % 4 = 0 := Nat.mul_mod_right ..
  unfold State.windowWrite
  dsimp only
  split
  · exact h.refuse ho _
  split
  · exact h.refuse ho _
  split
  · exact h.refuse ho _
  · exact h.ownerTakes ..

/-- A command's effect that keeps the settings legal, taken or not. -/
theorem State.SettingsLegal.ifTaken {p : Prop} [Decidable p] {u : State} (h : s.SettingsLegal) (ht : t.SettingsLegal)
    (e : Host.Outcome.next (φ := Fault) (ρ := Refusal) (if p then t else s) = .next u) : u.SettingsLegal := by
  cases e
  split
  · exact ht
  · exact h

/-- Every command keeps the settings legal. -/
theorem State.SettingsLegal.exec (h : s.SettingsLegal) {i : Instr} (e : exec i s = .next t) : t.SettingsLegal := by
  have table {u : State} (hc : u.channels = s.channels) (hw : u.writer = s.writer) (hi : u.idc = s.idc)
      (hb : u.biu = s.biu) : u.SettingsLegal := h.of_settings (State.settings_congr hc hw hi hb)
  cases i
  case jobRingBaseWrite c v => exact h.ifTaken (h.takeJobRingBase c v) e
  case jobRingSizeWrite c v => exact h.ifTaken (h.takeJobRingSize c v) e
  case postWrite c v => exact h.ifTaken (h.takePost c v) e
  case completionRingBaseWrite v => exact h.ifTaken (h.takeCompletionBase v) e
  case completionRingSizeWrite v => exact h.ifTaken (h.takeCompletionSize v) e
  case thresholdWrite v => exact h.ifTaken (h.takeThreshold v) e
  case headWrite v => exact h.ifTaken (h.takeHead v) e
  case interruptStatusWrite v => exact h.ifTaken (h.takeInterruptClear v) e
  case interruptEnableWrite v => exact h.ifTaken (h.takeInterruptEnable v) e
  case deviceReset => exact h.ifTaken h.takeDeviceReset e
  case initiatorTimeoutWrite v => exact h.ifTaken (h.takeTimeout v) e
  case registerWrite a l v => exact h.ifTaken (h.windowWrite a l v) e
  case resetPinAssert => cases e; exact s.assertPin_settingsLegal
  case resetPinRelease => cases e; exact h.of_settings rfl
  case busGrant => exact h.ifTaken h.takeGrant e
  case dataPhaseReady d => cases e; exact h.phaseReady d
  case burstEndsWithReady d => cases e; exact h.phaseReady d
  case burstEndsWithError => cases e; exact h.phaseError
  case burstEndsWithTimeout => cases e; exact h.phaseTimeout
  case openStream => exact h.ifTaken (table (by simp) (by simp) (by simp) (by simp)) e
  case closeStream => exact h.ifTaken (table (by simp) (by simp) (by simp) (by simp)) e
  case rewindStream => exact h.ifTaken (table (by simp) (by simp) (by simp) (by simp)) e
  case inspectSlot => exact h.ifTaken (table (by simp) (by simp) (by simp) (by simp)) e
  all_goals exact h.ifTaken (h.of_settings (by (repeat' split) <;> simp)) e

end

/-- Settles O54: an operation of the blocks leaves the settings as they were, or writes one within its values. -/
theorem everyStepKeepsSettingsLegal : Obligations.EveryStepKeepsSettingsLegal := by
  intro s t h e
  unfold step at e
  split at e
  · cases e
    exact h.clockPeriod
  · exact (h.of_settings (s.withPending_settings _)).exec e

end Sys2Proof.Machine
end

