-- ==== Sys2Proof/Proofs/ChannelCommands.lean ====
section
/-! PROOF. POST writes, START, STOP, ABORT and channel RESET where they differ (R55, R57, R58, R70, R76, R181), and the leavings of
the group that reach the writer (R147): O14, O16, O17, O18 and O46. -/

namespace Sys2Proof.Machine

-- One theorem at a time, as in the tests: all at once they pass the memory limit.
set_option Elab.async false

section
variable {s : State} {c : ChannelId} {ch : Channel}

theorem State.setChannel_channel_same : (s.setChannel c ch).channel c = ch := by
  rw [State.setChannel_channel, if_pos rfl]

/-! ### A fetch in a channel that was replaced (R55, R57, R59) -/

/-- A fetch begun writes its channel whole. -/
theorem State.beginFetch_set : (s.setChannel c ch).beginFetch c = Spec.fetchBegun c ch s := by
  rw [State.beginFetch_eq, State.setChannel_eq]
  simp only [Spec.fetchBegun, vector_get_set, Vector.set_set]

theorem State.fetchIfPosted_begins (hs : ch.state = .idle) (hp : ch.post ≠ ch.fetch) :
    (s.setChannel c ch).fetchIfPosted c = Spec.fetchBegun c ch s := by
  rw [← State.beginFetch_set]
  exact if_pos (by simpa using ⟨hs, hp⟩)

theorem State.fetchIfPosted_rests (h : ¬ (ch.state = .idle ∧ ch.post ≠ ch.fetch)) :
    (s.setChannel c ch).fetchIfPosted c = s.setChannel c ch :=
  if_neg (by simpa using h)

/-! ### POST writes (R55) -/

theorem Channel.acceptsPost_iff {new : Half} : ch.acceptsPost new = true ↔
    (new - ch.done).toNat ≤ ch.ringSize ∧ (ch.fetch - ch.done).toNat ≤ (new - ch.done).toNat := by
  simp only [Channel.acceptsPost, Bool.and_eq_true, decide_eq_true_eq]

theorem State.takePost_accepted {v : Word} (h : (s.channel c).acceptsPost (v.extractLsb' 0 16) = true) :
    s.takePost c v = (s.setChannel c { s.channels.get c with post := v.extractLsb' 0 16 }).fetchIfPosted c := if_pos h

theorem State.takePost_refused {v : Word} (h : ¬ (s.channel c).acceptsPost (v.extractLsb' 0 16) = true) :
    s.takePost c v = Spec.refused (0x110 + 0x20 * c.val) .postRange s := if_neg h

/-! ### START and STOP (R57, R58) -/

theorem State.takeStart_set (h : ch.state = .off ∨ ch.state = .halted) :
    (s.setChannel c ch).takeStart c =
      (s.setChannel c { ch with state := .idle, haltCause := .none }).fetchIfPosted c := by
  rcases h with h | h <;> simp only [State.takeStart, State.setChannel_channel, if_true, h, State.setChannel_setChannel]

theorem State.takeStart_ignored (h1 : (s.channel c).state ≠ .off) (h2 : (s.channel c).state ≠ .halted) :
    s.takeStart c = s := by
  unfold State.takeStart
  split <;> trivial

theorem State.takeStop_idle (h : ch.state = .idle) :
    (s.setChannel c ch).takeStop c = s.setChannel c { ch with state := .off, stopRequest := false } := by
  simp only [State.takeStop, State.setChannel_channel, if_true, h, State.setChannel_setChannel]

/-- A channel with a job in flight takes the stop request, unless a RESET is pending (R58, R76). -/
theorem State.takeStop_inGroup (h : (s.channel c).state.inGroup = true) :
    s.takeStop c = if (s.channel c).abortPending = some .reset then s
      else s.setChannel c { s.channel c with stopRequest := true } := by
  unfold State.takeStop
  dsimp only
  split
  case h_1 e => simp [e, ChannelState.inGroup] at h
  case h_2 e => simp [e, ChannelState.inGroup] at h
  case h_3 e => simp [e, ChannelState.inGroup] at h
  all_goals rfl

theorem State.takeStop_ignored (h : (s.channel c).state = .off ∨ (s.channel c).state = .halted) : s.takeStop c = s := by
  rcases h with h | h <;> simp only [State.takeStop, h]

/-! ### ABORT and channel RESET with one pending, and in OFF and HALTED (R70, R76) -/

theorem State.takeAbort_pending (h : (s.channel c).abortPending ≠ none) : s.takeAbort c = s := by
  unfold State.takeAbort
  split
  · rfl
  · exact absurd ‹_› h

theorem State.takeReset_pending (h : (s.channel c).abortPending ≠ none) : s.takeReset c = s.setAbortPending .reset c := by
  unfold State.takeReset
  split
  · rfl
  · exact absurd ‹_› h

theorem State.disposeOf_abort_atRest (h : (s.channel c).state = .off ∨ (s.channel c).state = .halted) :
    s.disposeOf .abort c = s := by
  rcases h with h | h <;> simp only [State.disposeOf, h]

theorem State.disposeOf_reset_atRest (h : (s.channel c).state = .off ∨ (s.channel c).state = .halted) :
    s.disposeOf .reset c = s.clearChannel c := by
  rcases h with h | h <;> simp only [State.disposeOf, h]

end

/-! ### The statements -/

/-- Settles O14, by the bounds and whether a fetch begins. -/
theorem postWrite : Obligations.PostWrite := by
  intro s c v hlive ch new accepted
  have hacc : (s.channel c).acceptsPost new = true ↔ accepted := Channel.acceptsPost_iff
  have hsame (ha : accepted) (hn : ¬ (ch.state = .idle ∧ new ≠ ch.fetch)) :
      exec (.postWrite c v) s = .next { s with channels := s.channels.set c { ch with post := new } } := by
    refine (next_taken hlive).trans (congrArg _ ?_)
    rw [State.takePost_accepted (hacc.2 ha), State.fetchIfPosted_rests hn]
    rfl
  refine ⟨fun hr => ?_, hsame, fun ha hs hp => ?_, fun ha he hs => ?_⟩
  · exact (next_taken hlive).trans (congrArg _ (State.takePost_refused (mt hacc.1 hr)))
  · refine (next_taken hlive).trans (congrArg _ ?_)
    rw [State.takePost_accepted (hacc.2 ha), State.fetchIfPosted_begins (ch := { ch with post := new }) hs hp]
  · rw [hsame ha fun ⟨hi, hne⟩ => hne (he.trans (hs hi)), he]
    exact congrArg _ (State.setChannel_self s c)

/-- Settles O16, by the channel's state and its counts. -/
theorem startCommand : Obligations.StartCommand := by
  intro s c b hlive ch
  have hstart : exec (.startChannel c b) s = .next ((s.setChannel c ch).takeStart c) := next_taken hlive
  rw [hstart]
  refine ⟨fun h => ⟨fun hp => congrArg _ ?_, fun hp => congrArg _ ?_⟩, fun h1 h2 => congrArg _ ?_⟩
  · exact (State.takeStart_set h).trans (State.fetchIfPosted_rests fun hn => hn.2 hp)
  · exact (State.takeStart_set h).trans (State.fetchIfPosted_begins rfl hp)
  · exact State.takeStart_ignored (by rwa [State.setChannel_channel_same]) (by rwa [State.setChannel_channel_same])

/-- Settles O17, by the channel's state and what is pending on it. -/
theorem stopCommand : Obligations.StopCommand := by
  intro s c b hlive ch
  have hch : (s.setChannel c ch).channel c = ch := State.setChannel_channel_same
  have hstop : exec (.stopChannel c b) s = .next ((s.setChannel c ch).takeStop c) := next_taken hlive
  rw [hstop]
  refine ⟨fun h => congrArg _ (State.takeStop_idle h), fun h hp => congrArg _ ?_, fun h => congrArg _ ?_⟩
  · rw [State.takeStop_inGroup (by rwa [hch]), hch, if_neg hp, State.setChannel_setChannel]
    rfl
  · rcases h with h | h | ⟨h, hp⟩
    · exact State.takeStop_ignored (.inl (by rwa [hch]))
    · exact State.takeStop_ignored (.inr (by rwa [hch]))
    · rw [State.takeStop_inGroup (by rwa [hch]), hch, if_pos hp]
      rfl

/-- Settles O18, by whether an ABORT or RESET is pending. -/
theorem abortAndResetApart : Obligations.AbortAndResetApart := by
  intro s c b hlive ch
  have hch : (s.setChannel c ch).channel c = ch := State.setChannel_channel_same
  refine ⟨fun h => ⟨?_, ?_⟩, fun hn h => ?_⟩
  · refine (next_taken hlive).trans (congrArg _ ?_)
    exact State.takeAbort_pending (s := s.setChannel c ch) (by rwa [hch])
  · refine (next_taken hlive).trans (congrArg _ ?_)
    exact (State.takeReset_pending (s := s.setChannel c ch) (by rwa [hch])).trans (State.setAbortPending_set ..)
  · have hr : ((s.setChannel c ch).channel c).state = .off ∨ ((s.setChannel c ch).channel c).state = .halted := by rwa [hch]
    refine ⟨(exec_abortCommand b .abort hlive hn).trans (congrArg _ (State.disposeOf_abort_atRest hr)),
      (exec_abortCommand b .reset hlive hn).trans (congrArg _ ((State.disposeOf_reset_atRest hr).trans ?_))⟩
    exact State.abortTakesEffect_set s c ch .reset

/-! ### Leavings of the group (R51, R147) -/

/-- The oldest leaving of a channel reaches the writer. -/
theorem exec_groupLeave {s : State} {c : ChannelId} (hlive : s.live = true) {quiet : Bool} {rest : List Bool}
    (h : (s.channels.get c).leavings = quiet :: rest) :
    exec (.groupLeave c) s = .next
      { s with
        channels := s.channels.set c { s.channels.get c with leavings := rest }
        idc := { s.idc with status := if quiet = true then s.idc.status ||| 2#32 else s.idc.status } } := by
  have h' : (s.channel c).leavings = quiet :: rest := h
  refine (next_taken hlive).trans (congrArg _ ?_)
  simp only [State.takeLeaving, h']
  cases quiet <;> rfl

/-- A HALT status raised does not show at the position of CQ_FLUSH, and CQ_FLUSH raised does (R147, R179). -/
theorem flushStatus_iff (w : Word) (c : ChannelId) (p : Prop) [Decidable p] :
    (if decide p = true then w ||| BitVec.ofNat 32 (2 ^ (8 + c.val)) ||| 2#32
      else w ||| BitVec.ofNat 32 (2 ^ (8 + c.val))).getLsbD 1 = true ↔ w.getLsbD 1 = true ∨ p := by
  have hbit : (BitVec.ofNat 32 (2 ^ (8 + c.val))).getLsbD 1 = false := by
    revert c
    decide
  by_cases hp : p
  · simp [hp]
  · simp only [hp, decide_false, Bool.false_eq_true, if_false, BitVec.getLsbD_or, hbit, Bool.or_false, or_false]

/-- A channel halted in the group has one leaving more (R51, R147). -/
theorem Spec.halted_leavings {c : ChannelId} {ch : Channel} (s : State) (k : HaltCause) (h : ch.state = .fetch) :
    ((Spec.halted c k ch s).channels.get c).leavings = ch.leavings ++
      [decide ((∀ d, d ≠ c → (s.channels.get d).state.inGroup = false) ∧ s.writer.tail ≠ s.writer.head)] := by
  simp only [Spec.halted, vector_get_set, Spec.leaves, h]

/-- Settles O46: the leaving that an ABORT in FETCH adds holds what it found. -/
theorem groupLeave : Obligations.GroupLeave := by
  refine fun s c hlive => ⟨fun quiet rest h => exec_groupLeave hlive h, fun b hs hn hb hl => ?_⟩
  obtain ⟨-, habort, -⟩ := abortBeforeTheRun s c b .abort hlive hn
  have hleft := Spec.halted_leavings (c := c) (s.withdraw (.ch c)) .aborted
    (ch := { s.channels.get c with haltOnError := b, fetch := (s.channels.get c).done }) hs
  rw [hl, List.nil_append] at hleft
  exact ⟨_, _, habort hs hb, exec_groupLeave (s := Spec.halted c .aborted _ (s.withdraw (.ch c))) hlive hleft,
    flushStatus_iff ..⟩

end Sys2Proof.Machine
end

