-- ==== Sys2Proof/Proofs/StepKeeps.lean ====
section
/-! SUPPORT. What an invariant of the slots, the channels and the unit arbiter asks of the operations of the blocks, so that every
command and every period of the bus clock keeps it. -/

namespace Sys2Proof.Machine

-- One theorem at a time, as in the tests: all at once they pass the memory limit.
set_option Elab.async false

/-- `P` speaks of the slots, the channels and the unit arbiter alone, and is kept by each operation that changes them. -/
structure State.Invariant (P : State → Prop) : Prop where
  frame : ∀ {s t : State}, P s → t.slots = s.slots → t.channels = s.channels → t.arbiter = s.arbiter → P t
  marks : ∀ {s t : State}, P s → t.slots = s.slots → t.arbiter = s.arbiter →
    (∀ d, ∃ w l, t.channel d = { s.channel d with recordWritten := w, leavings := l }) → P t
  resets : ∀ (s : State) (n : Nat), P (s.takeResetValues n)
  streamCommand : ∀ {s : State} (v : Word), P s → P (s.takeStreamCommand v)
  channelControl : ∀ {s : State} (c : ChannelId) (v : Word), P s → P (s.takeChannelControl c v)
  jobRingBase : ∀ {s : State} (c : ChannelId) (v : Word), P s → P (s.takeJobRingBase c v)
  jobRingSize : ∀ {s : State} (c : ChannelId) (v : Word), P s → P (s.takeJobRingSize c v)
  post : ∀ {s : State} (c : ChannelId) (v : Word), P s → P (s.takePost c v)
  fetchReadEnds : ∀ {s : State} (c : ChannelId) (bytes : List Byte), P s → P (s.fetchReadEnds c bytes)
  fetchReadFaults : ∀ {s : State} (c : ChannelId) (why : Why), P s → P (s.fetchReadFaults c why)
  holdRequest : ∀ {s : State} {c : ChannelId} (h : Half), P s → (s.channel c).state = .fetch → P (s.takeHoldRequest c h)
  join : ∀ {s : State} {c : ChannelId} (n : Need), P s → (s.channel c).state = .waitUnits → P (s.join c n)
  settleRun : ∀ {s : State} (c : ChannelId), P s → P (s.settleRun c)
  unitStopped : ∀ {s : State} (c : ChannelId), P s → P (s.unitStopped c)
  retire : ∀ {s : State} {c : ChannelId}, P s → (s.channel c).state = .retire → P (s.retire c)
  retireAborted : ∀ {s : State} {c : ChannelId} (k : AbortKind), P s → (s.channel c).state = .retire →
    P ((s.release c none).abortTakesEffect k c)

namespace State.Invariant

variable {P : State → Prop} (k : State.Invariant P) {s t : State}
include k

/-! ### The completion writer -/

theorem recordWriteEnds (h : P s) : P s.recordWriteEnds := by
  refine k.marks h (by simp) (by simp) fun d => ?_
  unfold State.recordWriteEnds
  split
  · exact ⟨_, _, rfl⟩
  · rename_i r _
    rw [State.channel_congr (State.beginRecord_frame _).2.2.2.2.1]
    change ∃ w l, (State.setChannel _ r.channel _).channel d = _
    rw [State.setChannel_channel]
    split
    · rename_i e
      rw [e, State.channel_congr (State.evaluateLevel_frame _).2.2.2.2.1]
      exact ⟨true, (s.channel r.channel).leavings, rfl⟩
    · rw [State.channel_congr (State.evaluateLevel_frame _).2.2.2.2.1]
      exact ⟨_, _, rfl⟩

theorem takeHead (v : Word) (h : P s) : P (s.takeHead v) := by
  refine k.frame (s := s.takeLeavings) (k.marks h (by simp) (by simp) fun d => ?_) ?_ ?_ ?_
  · rw [State.takeLeavings_channel]
    exact ⟨_, _, rfl⟩
  all_goals simp [State.takeHead]

theorem takeLeaving (c : ChannelId) (h : P s) : P (s.takeLeaving c) := by
  refine k.marks h (by simp) (by simp) fun d => ?_
  unfold State.takeLeaving
  split
  · exact ⟨_, _, rfl⟩
  · rename_i q rest _
    rw [State.channel_congr (State.evaluateFlush_frame _ q).2.2.2.2.1, State.setChannel_channel]
    split
    · rename_i e
      rw [e]
      exact ⟨_, _, rfl⟩
    · exact ⟨_, _, rfl⟩

/-! ### The ends of bursts -/

theorem packTransferEnds (p : PackId) (q : BurstRequest) (bytes : List Byte) (h : P s) :
    P (s.packTransferEnds p q bytes) := by
  have hset (u : PackUnit) : P (s.setPack p u) := k.frame h rfl rfl rfl
  have hdrive (u : PackUnit) : P ((s.setPack p u).drivePack p) := k.frame (hset u) (by simp) (by simp) (by simp)
  unfold State.packTransferEnds
  split
  · exact h
  dsimp only
  split
  · exact k.unitStopped _ (hset _)
  split
  · split
    · exact k.settleRun _ (hset _)
    · exact k.settleRun _ (hdrive _)
  · exact k.settleRun _ (hdrive _)

theorem packTransferFaults (p : PackId) (q : BurstRequest) (why : Why) (h : P s) : P (s.packTransferFaults p q why) := by
  have hset (u : PackUnit) : P (s.setPack p u) := k.frame h rfl rfl rfl
  unfold State.packTransferFaults
  split
  · exact h
  dsimp only
  split
  · exact k.unitStopped _ (hset _)
  split <;> exact k.settleRun _ (hset _)

theorem checkReadEnds (l : CheckId) (bytes : List Byte) (h : P s) : P (s.checkReadEnds l bytes) := by
  have hset (u : CheckUnit) : P (s.setCheck l u) := k.frame h rfl rfl rfl
  unfold State.checkReadEnds
  split
  · exact h
  dsimp only
  split
  · exact k.unitStopped _ (hset _)
  · exact k.settleRun _ (k.frame (hset ((s.check l).readEnds bytes)) (by simp) (by simp) (by simp))

theorem checkReadFaults (l : CheckId) (why : Why) (h : P s) : P (s.checkReadFaults l why) := by
  have hset (u : CheckUnit) : P (s.setCheck l u) := k.frame h rfl rfl rfl
  unfold State.checkReadFaults
  split
  · exact h
  dsimp only
  split
  · exact k.unitStopped _ (hset _)
  · exact k.settleRun _ (hset _)

theorem tellReady (b : Burst) (bytes : List Byte) (h : P s) : P (s.tellReady b bytes) := by
  unfold State.tellReady
  split
  · exact k.fetchReadEnds _ _ h
  · exact k.packTransferEnds _ _ _ h
  · exact k.checkReadEnds _ _ h
  · exact k.recordWriteEnds h

theorem tellFault (b : Burst) (why : Why) (h : P s) : P (s.tellFault b why) := by
  unfold State.tellFault
  split
  · exact k.fetchReadFaults _ _ h
  · exact k.packTransferFaults _ _ _ h
  · exact k.checkReadFaults _ _ h
  · exact k.frame h (by simp) (by simp) (by simp)

theorem burstReady (b : Burst) (bytes : List Byte) (h : P s) : P (s.burstReady b bytes) := by
  unfold State.burstReady
  split
  · exact k.resets ..
  · exact k.tellReady _ _ (k.frame h rfl rfl rfl)

theorem burstFaults (b : Burst) (why : Why) (h : P s) : P (s.burstFaults b why) := by
  have hm : P (if b.request.write then s.memoryMayTake (b.request.cells b.phasesEnded) else s) := by
    split
    · exact k.frame h rfl rfl rfl
    · exact h
  unfold State.burstFaults
  dsimp only
  generalize (if b.request.write then s.memoryMayTake (b.request.cells b.phasesEnded) else s) = t at hm ⊢
  split
  · exact k.resets ..
  · exact k.tellFault _ _ (k.frame hm rfl rfl rfl)

theorem phaseReady (data : Word) (h : P s) : P (s.phaseReady data) := by
  unfold State.phaseReady
  split
  · exact h
  · rename_i b _
    have hm : P (if b.request.write then s.memoryTakes (b.request.cells b.phasesEnded) else s) := by
      split
      · exact k.frame h rfl rfl rfl
      · exact h
    dsimp only
    generalize (if b.request.write then s.memoryTakes (b.request.cells b.phasesEnded) else s) = t at hm ⊢
    split
    · exact k.frame hm rfl rfl rfl
    · exact k.burstReady _ _ hm

theorem phaseError (h : P s) : P s.phaseError := by
  unfold State.phaseError
  split
  · exact h
  · exact k.burstFaults _ _ h

theorem phaseTimeout (h : P s) : P s.phaseTimeout := by
  unfold State.phaseTimeout
  split
  · exact h
  split
  · exact h
  · exact k.burstFaults _ _ h

theorem clockPeriod (h : P s) : P s.clockPeriod := by
  unfold State.clockPeriod
  split
  · exact h
  split
  · exact k.frame h rfl rfl rfl
  split
  · exact k.frame h rfl rfl rfl
  · exact k.burstFaults _ _ h

/-! ### The resets and the window -/

theorem takeDeviceReset (h : P s) : P s.takeDeviceReset := by
  unfold State.takeDeviceReset
  split
  · exact k.resets ..
  · exact k.frame h rfl rfl rfl

theorem takeGlobalControl (v : Word) (h : P s) : P (s.takeGlobalControl v) := by
  unfold State.takeGlobalControl
  split
  · exact k.takeDeviceReset h
  · exact h

theorem ownerTakes (r : Reg) (v : Word) (h : P s) : P (s.ownerTakes r v) := by
  cases r
  case globalControl => exact k.takeGlobalControl v h
  case head => exact k.takeHead v h
  case command => exact k.streamCommand v h
  case channelControl c => exact k.channelControl c v h
  case jobRingBase c => exact k.jobRingBase c v h
  case jobRingSize c => exact k.jobRingSize c v h
  case post c => exact k.post c v h
  all_goals exact k.frame h (by simp [State.ownerTakes]) (by simp [State.ownerTakes]) (by simp [State.ownerTakes])

theorem windowWrite (a : Word) (lanes : BitVec 4) (v : Word) (h : P s) : P (s.windowWrite a lanes v) := by
  have hrefuse (o : Nat) (w : AccessReason) : P (s.refuse o w) := k.frame h rfl rfl rfl
  unfold State.windowWrite
  dsimp only
  split
  · exact hrefuse ..
  split
  · exact hrefuse ..
  split
  · exact hrefuse ..
  · exact k.ownerTakes _ _ h

/-! ### Every command -/

omit k in
/-- A command's effect that keeps the property, taken only where its condition holds. -/
theorem ifTaken {p : Prop} [Decidable p] {u : State} (h : P s) (ht : p → P t)
    (e : Host.Outcome.next (φ := Fault) (ρ := Refusal) (if p then t else s) = .next u) : P u := by
  cases e
  split
  · exact ht ‹_›
  · exact h

/-- A channel command is a channel control write that names it (R181). -/
theorem channelCommand (h : P s) (c : ChannelId) (b : Bool) :
    P ((s.setHaltOnError c b).takeStart c) ∧ P ((s.setHaltOnError c b).takeStop c) ∧
      P ((s.setHaltOnError c b).takeAbort c) ∧ P ((s.setHaltOnError c b).takeReset c) := by
  cases b
  · exact ⟨k.channelControl c 1#32 h, k.channelControl c 2#32 h, k.channelControl c 4#32 h, k.channelControl c 8#32 h⟩
  · exact ⟨k.channelControl c 0x101#32 h, k.channelControl c 0x102#32 h, k.channelControl c 0x104#32 h,
      k.channelControl c 0x108#32 h⟩

theorem exec {i : Instr} (h : P s) (e : exec i s = .next t) : P t := by
  cases i
  case openStream => exact ifTaken h (fun _ => k.streamCommand 1#32 h) e
  case closeStream => exact ifTaken h (fun _ => k.streamCommand 2#32 h) e
  case rewindStream => exact ifTaken h (fun _ => k.streamCommand 3#32 h) e
  case inspectSlot => exact ifTaken h (fun _ => k.streamCommand 4#32 h) e
  case unknownStreamCommand v => exact ifTaken h (fun _ => k.streamCommand v h) e
  case startChannel c b => exact ifTaken h (fun _ => (k.channelCommand h c b).1) e
  case stopChannel c b => exact ifTaken h (fun _ => (k.channelCommand h c b).2.1) e
  case abortChannel c b => exact ifTaken h (fun _ => (k.channelCommand h c b).2.2.1) e
  case resetChannel c b => exact ifTaken h (fun _ => (k.channelCommand h c b).2.2.2) e
  case haltOnError c v => exact ifTaken h (fun _ => k.channelControl c v h) e
  case jobRingBaseWrite c v => exact ifTaken h (fun _ => k.jobRingBase c v h) e
  case jobRingSizeWrite c v => exact ifTaken h (fun _ => k.jobRingSize c v h) e
  case postWrite c v => exact ifTaken h (fun _ => k.post c v h) e
  case headWrite v => exact ifTaken h (fun _ => k.takeHead v h) e
  case deviceReset => exact ifTaken h (fun _ => k.takeDeviceReset h) e
  case registerWrite a l v => exact ifTaken h (fun _ => k.windowWrite a l v h) e
  case resetPinAssert => cases e; exact k.frame (k.resets s.abandonBurst 0) rfl rfl rfl
  case resetPinRelease => cases e; exact k.frame h rfl rfl rfl
  case dataPhaseReady d => cases e; exact k.phaseReady d h
  case burstEndsWithReady d => cases e; exact k.phaseReady d h
  case burstEndsWithError => cases e; exact k.phaseError h
  case burstEndsWithTimeout => cases e; exact k.phaseTimeout h
  case groupLeave c => exact ifTaken h (fun _ => k.takeLeaving c h) e
  case holdRequest c =>
    refine ifTaken h (fun ⟨_, hs, _⟩ => ?_) e
    split
    · exact k.holdRequest _ h hs
    · exact h
  case unitJoin c =>
    refine ifTaken h (fun ⟨_, hs, _⟩ => ?_) e
    split
    · exact k.join _ h hs
    · exact h
  case retirement c => exact ifTaken h (fun ⟨_, hs, _⟩ => k.retire h hs) e
  case recordWithdrawal c =>
    refine ifTaken h (fun ⟨_, hs, _⟩ => ?_) e
    split
    · exact k.retireAborted (s := s.withdrawRecord c) _ (k.frame h rfl rfl rfl) hs
    · exact h
  all_goals exact ifTaken h (fun _ => k.frame h (by simp) (by simp) (by simp)) e

/-- Every step keeps an invariant. -/
theorem step (h : P s) (e : step s = .next t) : P t := by
  unfold Machine.step at e
  split at e
  · cases e
    exact k.clockPeriod h
  · rename_i rest _
    exact k.exec (s := s.withPending rest) (k.frame h rfl rfl rfl) e

end State.Invariant

end Sys2Proof.Machine
end

