-- ==== Sys2Proof/Proofs/CountsKept.lean ====
section
/-! SUPPORT. The counts of a channel (R54, R55), through a fetch, a retirement and an abort, and the lists that a channel waits in
(R17, R80): what keeps both. -/

namespace Sys2Proof.Machine

-- One theorem at a time, as in the tests: all at once they pass the memory limit.
set_option Elab.async false

/-! ### The counts of one channel (R54, R55) -/

/-- A channel's ring size in its range, and its counts in their bounds. -/
structure Channel.Counted (x : Channel) : Prop where
  size : isJobRingSize x.ringSize
  counts : x.CountsKept

/-- The counts of a channel without a job in flight, whatever its state. -/
structure Channel.NoneInFlight (x : Channel) : Prop where
  size : isJobRingSize x.ringSize
  level : x.fetch = x.done
  ring : (x.post - x.done).toNat ≤ x.ringSize

/-- Ring size and counts are as they were, and the channel is in the group as it was. -/
structure Channel.SameCounts (x y : Channel) : Prop where
  size : y.ringSize = x.ringSize
  post : y.post = x.post
  fetch : y.fetch = x.fetch
  done : y.done = x.done
  group : y.state.inGroup = x.state.inGroup

section
variable {x y : Channel}

theorem Channel.Counted.same (h : x.Counted) (e : x.SameCounts y) : y.Counted where
  size := e.size ▸ h.size
  counts :=
    { inFlight := by rw [e.fetch, e.done, e.group]; exact h.counts.inFlight
      posted := by rw [e.fetch, e.done, e.post]; exact h.counts.posted
      ring := by rw [e.done, e.post, e.size]; exact h.counts.ring }

/-- Outside the group no job is in flight. -/
theorem Channel.Counted.noneInFlight (h : x.Counted) (hg : x.state.inGroup = false) : x.NoneInFlight where
  size := h.size
  level := by
    have hf := h.counts.inFlight
    simp only [hg, Bool.false_eq_true, if_false] at hf
    bv_omega
  ring := h.counts.ring

/-- FETCH set back to DONE: the job in flight will be fetched again (R71). -/
theorem Channel.Counted.setBack (h : x.Counted) : Channel.NoneInFlight { x with fetch := x.done } where
  size := h.size
  level := rfl
  ring := h.counts.ring

/-- DONE moves past the job in flight at its retirement (R68). -/
theorem Channel.Counted.retired (h : x.Counted) (hg : x.state.inGroup = true) :
    Channel.NoneInFlight { x with done := x.done + 1 } := by
  obtain ⟨hf, hp, hr⟩ := h.counts
  simp only [hg, if_true] at hf
  rw [hf] at hp
  exact ⟨h.size, by change x.fetch = x.done + 1; bv_omega, by change (x.post - (x.done + 1)).toNat ≤ x.ringSize; bv_omega⟩

/-- The counts 0, as channel RESET leaves them (R76). -/
theorem Channel.NoneInFlight.of_zero (hs : isJobRingSize x.ringSize) (hp : x.post = 0) (hf : x.fetch = 0) (hd : x.done = 0) :
    x.NoneInFlight where
  size := hs
  level := hf.trans hd.symm
  ring := by simp [hp, hd]

/-- No job in flight, and ring size and counts as they were. -/
theorem Channel.NoneInFlight.same (h : x.NoneInFlight) (hs : y.ringSize = x.ringSize) (hp : y.post = x.post)
    (hf : y.fetch = x.fetch) (hd : y.done = x.done) : y.NoneInFlight where
  size := hs ▸ h.size
  level := by rw [hf, hd, h.level]
  ring := by rw [hp, hd, hs]; exact h.ring

/-- No job in flight, outside the group. -/
theorem Channel.NoneInFlight.counted (h : x.NoneInFlight) (hg : x.state.inGroup = false) : x.Counted where
  size := h.size
  counts :=
    { inFlight := by simp [h.level, hg]
      posted := by simp [h.level]
      ring := h.ring }

/-- A posted job comes into flight when its fetch begins (R59). -/
theorem Channel.NoneInFlight.fetches (h : x.NoneInFlight) (hp : x.post ≠ x.fetch) (hs : y.ringSize = x.ringSize)
    (hp' : y.post = x.post) (hf : y.fetch = x.fetch + 1) (hd : y.done = x.done) (hg : y.state.inGroup = true) :
    y.Counted where
  size := hs ▸ h.size
  counts := by
    obtain ⟨-, hl, hr⟩ := h
    rw [hl] at hp hf
    constructor
    · rw [hf, hd, hg]
      simp
    · rw [hf, hd, hp']
      bv_omega
    · rwa [hp', hd, hs]

end

/-! ### Where the channels wait (R17, R80) -/

/-- The channel stands in no wait list and not in the waiting set. -/
structure State.Unlisted (s : State) (c : ChannelId) : Prop where
  waiter : ∀ i : SlotId, c ∉ (s.slot i).waiters
  waiting : s.arbiter.waiting.get c = none

section
variable {s t : State} {c : ChannelId}

theorem State.CountsKept.counted (h : s.CountsKept) (d : ChannelId) : (s.channel d).Counted := ⟨h.size d, h.counts d⟩

/-- Outside WAIT_SLOT and WAIT_UNITS a channel is in no list. -/
theorem State.CountsKept.unlisted (h : s.CountsKept) {x : ChannelState} (e : (s.channel c).state = x)
    (h1 : x ≠ .waitSlot := by decide) (h2 : x ≠ .waitUnits := by decide) : s.Unlisted c where
  waiter i hi := h1 (e.symm.trans (h.waits.waiters i c hi))
  waiting := by
    by_contra hn
    exact h2 (e.symm.trans (h.waits.waiting c (Option.isSome_iff_ne_none.2 hn)))

theorem State.Unlisted.congr (h : s.Unlisted c) (hs : ∀ i, (t.slot i).waiters ⊆ (s.slot i).waiters)
    (hw : t.arbiter.waiting = s.arbiter.waiting) : t.Unlisted c :=
  ⟨fun i hi => h.waiter i (hs i hi), by rw [hw]; exact h.waiting⟩

/-! ### Updates that keep the counts -/

/-- Channels may leave lists, and every channel that is in another state than before has left them; the counts of each are in
their bounds. -/
theorem State.CountsKept.of_lists (h : s.CountsKept) (hs : ∀ i, ((t.slot i).waiters).Sublist (s.slot i).waiters)
    (hw : ∀ d, (t.arbiter.waiting.get d).isSome → (s.arbiter.waiting.get d).isSome)
    (hc : ∀ d, (t.channel d).Counted ∧ ((t.channel d).state = (s.channel d).state ∨ t.Unlisted d)) : t.CountsKept where
  waits :=
    { waiters := fun i d hd => by
        rcases (hc d).2 with e | e
        · rw [e]
          exact h.waits.waiters i d ((hs i).subset hd)
        · exact absurd hd (e.waiter i)
      waitersOnce := fun i => (h.waits.waitersOnce i).sublist (hs i)
      waitersApart := fun i j d hi hj => h.waits.waitersApart i j d ((hs i).subset hi) ((hs j).subset hj)
      waiting := fun d hd => by
        rcases (hc d).2 with e | e
        · rw [e]
          exact h.waits.waiting d (hw d hd)
        · simp [e.waiting] at hd }
  size d := (hc d).1.size
  counts d := (hc d).1.counts

/-- With the lists as they were, each channel has its counts in their bounds, and is in the state it was or in no list. -/
theorem State.CountsKept.of_channels (h : s.CountsKept) (hs : t.slots = s.slots)
    (hw : t.arbiter.waiting = s.arbiter.waiting)
    (hc : ∀ d, (t.channel d).Counted ∧ ((t.channel d).state = (s.channel d).state ∨ s.Unlisted d)) : t.CountsKept := by
  have hsl : ∀ i, (t.slot i).waiters = (s.slot i).waiters := fun i => by rw [State.slot_congr hs]
  refine h.of_lists (fun i => by rw [hsl]) (fun d => by rw [hw]; exact id) fun d => ⟨(hc d).1, (hc d).2.imp_right fun e => ?_⟩
  exact e.congr (fun i => by rw [hsl]; exact List.Subset.refl _) hw

/-- What the counts do not speak of may change. -/
theorem State.CountsKept.frame (h : s.CountsKept) (hs : t.slots = s.slots) (hc : t.channels = s.channels)
    (ha : t.arbiter = s.arbiter) : t.CountsKept :=
  h.of_channels hs (by rw [ha]) fun d => by
    rw [State.channel_congr hc]
    exact ⟨h.counted d, .inl rfl⟩

/-- A channel in no list goes to another state, its counts in their bounds. -/
theorem State.CountsKept.moves (h : s.CountsKept) (hu : s.Unlisted c) (hs : t.slots = s.slots)
    (hw : t.arbiter.waiting = s.arbiter.waiting) (hd : ∀ d, d ≠ c → t.channel d = s.channel d)
    (hc : (t.channel c).Counted) : t.CountsKept :=
  h.of_channels hs hw fun d => by
    by_cases e : d = c
    · exact e ▸ ⟨hc, .inr hu⟩
    · rw [hd d e]
      exact ⟨h.counted d, .inl rfl⟩

/-- A channel replaced by one in the same state, its counts in their bounds. -/
theorem State.CountsKept.setChannel (h : s.CountsKept) {x : Channel} (hx : x.Counted)
    (e : x.state = (s.channel c).state) : (s.setChannel c x).CountsKept :=
  h.of_channels rfl rfl fun d => by
    by_cases hd : d = c
    · subst hd
      simpa [e] using hx
    · simpa [hd] using h.counted d

/-- A channel replaced by one that differs in nothing that the counts speak of. -/
theorem State.CountsKept.setChannel_same (h : s.CountsKept) {x : Channel} (e : x.state = (s.channel c).state)
    (hx : (s.channel c).SameCounts x) : (s.setChannel c x).CountsKept :=
  h.setChannel ((h.counted c).same hx) e

/-- A channel in no list goes to another state, its counts as they were and in the group as it was. -/
theorem State.CountsKept.setUnlisted (h : s.CountsKept) (hu : s.Unlisted c) {x : Channel} (hx : (s.channel c).SameCounts x) :
    (s.setChannel c x).CountsKept :=
  h.moves hu rfl rfl (fun d hd => by simp [hd]) (by simpa using (h.counted c).same hx)

/-- A slot replaced by one whose waiters waited there. -/
theorem State.CountsKept.setSlot (h : s.CountsKept) {i : SlotId} {x : Slot}
    (hx : (x.waiters).Sublist (s.slot i).waiters) : (s.setSlot i x).CountsKept :=
  h.of_lists
    (fun j => by
      rw [State.setSlot_slot]
      split
      · rename_i e
        exact e ▸ hx
      · exact List.Sublist.refl _)
    (fun _ => id) fun d => ⟨h.counted d, .inl rfl⟩

end

end Sys2Proof.Machine
end

