-- ==== Sys2Proof/Proofs/CountsTable.lean ====
section
/-! SUPPORT. The operations of the stream context table and of the unit arbiter keep the counts. -/

namespace Sys2Proof.Machine

-- One theorem at a time, as in the tests: all at once they pass the memory limit.
set_option Elab.async false

section
variable {s t : State} {c : ChannelId}

/-! ### The stream commands -/

theorem State.CountsKept.takeOpen (h : s.CountsKept) : s.takeOpen.CountsKept := by
  unfold State.takeOpen
  split
  · exact h.frame rfl rfl rfl
  split
  · exact h.frame rfl rfl rfl
  · refine State.CountsKept.frame (h.setSlot ?_) rfl rfl rfl
    exact List.Sublist.refl _

theorem State.CountsKept.takeClose (h : s.CountsKept) : s.takeClose.CountsKept := by
  unfold State.takeClose
  split
  · exact h.frame rfl rfl rfl
  split
  · exact State.CountsKept.frame (h.setSlot (List.nil_sublist _)) rfl rfl rfl
  · refine State.CountsKept.frame (h.setSlot ?_) rfl rfl rfl
    exact List.Sublist.refl _

theorem State.CountsKept.takeRewind (h : s.CountsKept) : s.takeRewind.CountsKept := by
  unfold State.takeRewind
  split
  · exact h.frame rfl rfl rfl
  dsimp only
  split
  · refine State.CountsKept.frame (h.setSlot ?_) rfl rfl rfl
    exact List.Sublist.refl _
  · exact h.frame rfl rfl rfl

theorem State.CountsKept.takeStreamCommand (h : s.CountsKept) (v : Word) : (s.takeStreamCommand v).CountsKept := by
  unfold State.takeStreamCommand
  split
  · exact h.takeOpen
  · exact h.takeClose
  · exact h.takeRewind
  · exact h.frame (by simp) (by simp) (by simp)
  · exact h.frame rfl rfl rfl

/-! ### A hold granted, and a slot let go -/

/-- A channel that has been made the holder stays in the group, or as it was (R39, R63). -/
theorem State.takeHold_sameCounts (hg : (s.channel c).state.inGroup = true) (sl : Slot) :
    (s.channel c).SameCounts ((s.takeHold c sl).channel c) := by
  unfold State.takeHold
  split
  · exact ⟨rfl, rfl, rfl, rfl, rfl⟩
  split
  · rw [State.endJob_channel, if_pos rfl]
    exact ⟨rfl, rfl, rfl, rfl, hg.symm⟩
  · rw [State.setChannel_channel, if_pos rfl]
    exact ⟨rfl, rfl, rfl, rfl, hg.symm⟩

theorem State.CountsKept.takeHold (h : s.CountsKept) (hu : s.Unlisted c) (hg : (s.channel c).state.inGroup = true)
    (sl : Slot) : (s.takeHold c sl).CountsKept :=
  h.moves hu (by simp) (by simp) (fun _ hd => s.takeHold_channel_ne sl hd) ((h.counted c).same (s.takeHold_sameCounts hg sl))

/-- A channel that has gone to WAIT_SLOT enters a wait list (R17). -/
theorem State.CountsKept.entersWaitList (h : s.CountsKept) (hs : (s.channel c).state = .waitSlot)
    (hn : ∀ j, c ∉ (s.slot j).waiters) (i : SlotId) :
    (s.setSlot i { s.slot i with waiters := (s.slot i).waiters ++ [c] }).CountsKept := by
  have hmem (j : SlotId) (d : ChannelId)
      (hd : d ∈ ((s.setSlot i { s.slot i with waiters := (s.slot i).waiters ++ [c] }).slot j).waiters) :
      d ∈ (s.slot j).waiters ∨ d = c ∧ j = i := by
    rw [State.setSlot_slot] at hd
    split at hd
    · rename_i e
      subst e
      simpa using hd
    · exact .inl hd
  refine ⟨⟨fun j d hd => ?_, fun j => ?_, fun j k d hj hk => ?_, h.waits.waiting⟩, h.size, h.counts⟩
  · rcases hmem j d hd with hd | ⟨rfl, -⟩
    · exact h.waits.waiters j d hd
    · exact hs
  · rw [State.setSlot_slot]
    split
    · exact List.nodup_append'.2 ⟨h.waits.waitersOnce i, by simp, by simpa using hn i⟩
    · exact h.waits.waitersOnce j
  · rcases hmem j d hj with hj | ⟨rfl, rfl⟩ <;> rcases hmem k d hk with hk | ⟨e, e'⟩
    · exact h.waits.waitersApart j k d hj hk
    · exact absurd (e ▸ hj) (hn j)
    · exact absurd hk (hn k)
    · exact e'.symm

theorem State.CountsKept.takeHoldRequest (h : s.CountsKept) (hs : (s.channel c).state = .fetch) (hd : Half) :
    (s.takeHoldRequest c hd).CountsKept := by
  have hu := h.unlisted hs
  have hg : (s.channel c).state.inGroup = true := by rw [hs]; rfl
  unfold State.takeHoldRequest
  split
  · exact h.setUnlisted hu ⟨rfl, rfl, rfl, rfl, hg.symm⟩
  · rename_i i hi
    dsimp only
    split
    · have hset : (s.setSlot i { s.slot i with holder := some c }).CountsKept := h.setSlot (List.Sublist.refl _)
      exact hset.takeHold (hset.unlisted hs) hg _
    · have hw : (s.setChannel c { s.channel c with state := .waitSlot, stage := none }).CountsKept :=
        h.setUnlisted hu ⟨rfl, rfl, rfl, rfl, hg.symm⟩
      exact hw.entersWaitList (by simp) hu.waiter i

/-- A slot let go: of its waiters each leaves the list, all of them or the oldest (R18, R20). -/
theorem State.CountsKept.passOn (h : s.CountsKept) {i : SlotId} {sl : Slot} (hsl : sl.waiters = (s.slot i).waiters) :
    (s.passOn i sl).CountsKept := by
  have hwait : ∀ w ∈ sl.waiters, (s.channel w).state = .waitSlot := fun w hw => h.waits.waiters i w (hsl ▸ hw)
  have hset (x : Slot) (hx : (x.waiters).Sublist sl.waiters) : (s.setSlot i x).CountsKept := h.setSlot (hsl ▸ hx)
  -- A waiter is in no list once the slot has other waiters than it.
  have hout (x : Slot) (w : ChannelId) (hw : w ∈ sl.waiters) (hx : w ∉ x.waiters) : (s.setSlot i x).Unlisted w := by
    refine ⟨fun j hj => ?_, ?_⟩
    · rw [State.setSlot_slot] at hj
      split at hj
      · exact hx hj
      · exact absurd (h.waits.waitersApart j i w hj (hsl ▸ hw)) ‹_›
    · by_contra hn
      exact absurd ((hwait w hw).symm.trans (h.waits.waiting w (Option.isSome_iff_ne_none.2 hn))) (by decide)
  unfold State.passOn
  split
  · refine State.CountsKept.frame (s := (s.setSlot i sl.freed).refuseWaiters sl.waiters) ?_ rfl rfl rfl
    have hfreed := hset sl.freed (List.nil_sublist _)
    refine hfreed.of_channels (by simp) (by simp) fun d => ?_
    have hd : ((s.setSlot i sl.freed).refuseWaiters sl.waiters).channel d = _ := State.refuseWaiters_channel ..
    rw [hd]
    split
    · rename_i hm
      refine ⟨(hfreed.counted d).same ⟨rfl, rfl, rfl, rfl, ?_⟩, .inr (hout _ d hm (List.not_mem_nil))⟩
      change _ = (s.channel d).state.inGroup
      rw [hwait d hm]
      rfl
    · exact ⟨hfreed.counted d, .inl rfl⟩
  · split
    · exact hset _ (List.Sublist.refl _)
    · rename_i w ws hw
      have hn : (w :: ws).Nodup := hw ▸ hsl ▸ h.waits.waitersOnce i
      refine State.CountsKept.takeHold (hset _ ?_) (hout _ w (by simp [hw]) (List.nodup_cons.1 hn).1) ?_ sl
      · rw [hw]
        exact List.sublist_cons_self w ws
      · change (s.channel w).state.inGroup = true
        rw [hwait w (by simp [hw])]
        rfl

/-- A slot let go leaves a channel outside its wait list as it was. -/
theorem State.passOn_channel {i : SlotId} {sl : Slot} (h : c ∉ sl.waiters) : (s.passOn i sl).channel c = s.channel c := by
  unfold State.passOn
  split
  · exact (State.refuseWaiters_channel ..).trans (if_neg h)
  · split
    · rfl
    · rename_i w ws hw
      exact State.takeHold_channel_ne _ sl fun e => h (by simp [hw, e])

theorem State.passOn_unlisted (h : s.Unlisted c) {i : SlotId} {sl : Slot} (hsl : sl.waiters = (s.slot i).waiters) :
    (s.passOn i sl).Unlisted c := by
  refine h.congr (fun j d hd => ?_) (by simp)
  obtain ⟨h1, -, h3⟩ := s.passOn_slot i sl j
  by_cases e : j = i
  · subst e
    exact hsl ▸ h3 d hd
  · exact h1 e ▸ hd

theorem Slot.commit_waiters (sl : Slot) (k : Commit) : (sl.commit k).waiters = sl.waiters := (sl.commit_sameHold k).waiters

/-- A channel in no list lets its slot go, and is then in no list, as it was. -/
theorem State.CountsKept.release (h : s.CountsKept) (hu : s.Unlisted c) (k : Option Commit) :
    (s.release c k).CountsKept ∧ (s.release c k).Unlisted c ∧ (s.release c k).channel c = s.channel c := by
  have key (i : SlotId) (sl : Slot) (hsl : sl.waiters = (s.slot i).waiters) :
      (s.passOn i sl).CountsKept ∧ (s.passOn i sl).Unlisted c ∧ (s.passOn i sl).channel c = s.channel c :=
    ⟨h.passOn hsl, State.passOn_unlisted hu hsl, State.passOn_channel (hsl ▸ hu.waiter i)⟩
  unfold State.release
  split
  · exact ⟨h, hu, rfl⟩
  · cases k with
    | none => exact key _ _ rfl
    | some k => exact key _ _ (Slot.commit_waiters ..)

theorem State.CountsKept.withdrawWaiter (h : s.CountsKept) (hs : (s.channel c).state = .waitSlot) :
    (s.withdrawWaiter c).CountsKept ∧ (s.withdrawWaiter c).Unlisted c := by
  have hw : s.arbiter.waiting.get c = none := by
    by_contra hn
    exact absurd (hs.symm.trans (h.waits.waiting c (Option.isSome_iff_ne_none.2 hn))) (by decide)
  unfold State.withdrawWaiter
  split
  · rename_i hn
    exact ⟨h, State.waitedSlot_eq_none hn, hw⟩
  · rename_i i hi
    refine ⟨h.setSlot List.filter_sublist, fun j hj => ?_, hw⟩
    rw [State.setSlot_slot] at hj
    split at hj
    · simp at hj
    · exact absurd (h.waits.waitersApart j i c hj (State.waitedSlot_spec hi)) ‹_›

/-! ### Evaluations -/

theorem State.CountsKept.leaveWaitingSet (h : s.CountsKept) (hs : (s.channel c).state = .waitUnits) :
    (s.leaveWaitingSet c).CountsKept ∧ (s.leaveWaitingSet c).Unlisted c := by
  refine ⟨h.of_lists (fun _ => List.Sublist.refl _) (fun d hd => ?_) fun d => ⟨h.counted d, .inl rfl⟩, fun i hi => ?_,
    s.leaveWaitingSet_waiting c⟩
  · by_cases e : d = c
    · subst e
      simp [State.leaveWaitingSet_waiting] at hd
    · simpa [State.leaveWaitingSet, vector_get_set_ne _ _ (Ne.symm e)] using hd
  · exact absurd (hs.symm.trans (h.waits.waiters i c hi)) (by decide)

/-- A channel of the waiting set leaves it for RUN (R82). -/
theorem State.CountsKept.grant (h : s.CountsKept) {n m : Need} (hw : s.arbiter.waiting.get c = some n) :
    (s.grant c m).CountsKept := by
  have hs := h.waits.waiting c (by simp [hw])
  obtain ⟨hl, hu⟩ := h.leaveWaitingSet hs
  refine hl.moves hu (by simp) (by rw [State.grant_waiting]; rfl) (fun d hd => ?_) ?_ <;>
    rw [State.channel_congr (s.grant_channels c m)]
  · simp [hd]
  · rw [State.setChannel_channel, if_pos rfl]
    exact (h.counted c).same ⟨rfl, rfl, rfl, rfl, by rw [hs]; rfl⟩

/-- The end of a run takes its channel to RETIRE, if it has a job and a context (R66). -/
theorem State.finishRun_channel_cases (s : State) (c : ChannelId) : (s.finishRun c).channel c = s.channel c ∨
    ∃ w, (s.finishRun c).channel c = { s.channel c with state := .retire, recordWritten := false, work := w } := by
  rcases s.finishRun_cases c with e | e <;> rw [e]
  · exact .inl rfl
  · rw [State.releaseUnits_channel]
    unfold State.runEnded
    split
    · rw [State.setChannel_channel, if_pos rfl]
      exact .inr ⟨_, rfl⟩
    · exact .inl rfl

theorem State.finishRun_sameCounts (hr : (s.channel c).state = .run) :
    (s.channel c).SameCounts ((s.finishRun c).channel c) := by
  rcases s.finishRun_channel_cases c with e | ⟨w, e⟩ <;> rw [e]
  · exact ⟨rfl, rfl, rfl, rfl, rfl⟩
  · exact ⟨rfl, rfl, rfl, rfl, by rw [hr]; rfl⟩

theorem State.CountsKept.finishRun (h : s.CountsKept) (hr : (s.channel c).state = .run) : (s.finishRun c).CountsKept :=
  h.moves (h.unlisted hr) (by simp) (s.finishRun_waiting c) (fun _ hd => s.finishRun_channel_ne hd)
    ((h.counted c).same (State.finishRun_sameCounts hr))

theorem State.CountsKept.evaluate (h : s.CountsKept) (n : Nat) : (s.evaluate n).CountsKept :=
  State.evaluate_keeps (P := State.CountsKept) (fun _ _ _ ht hn _ => ht.grant hn)
    (fun _ _ ht ho => ht.finishRun (State.runIsOver_state ho)) n h

/-- A channel in RUN is after an evaluation in RUN or RETIRE. -/
theorem State.CountsKept.evaluate_unlisted (h : s.CountsKept) (hr : (s.channel c).state = .run) (n : Nat) :
    (s.evaluate n).Unlisted c := by
  have hst : (s.evaluate n).CountsKept ∧
      (((s.evaluate n).channel c).state = .run ∨ ((s.evaluate n).channel c).state = .retire) := by
    refine State.evaluate_keeps
      (P := fun t => t.CountsKept ∧ ((t.channel c).state = .run ∨ (t.channel c).state = .retire))
      (fun t d m ht hn _ => ⟨ht.1.grant hn, ?_⟩) (fun t d ht ho => ⟨ht.1.finishRun (State.runIsOver_state ho), ?_⟩) n
      ⟨h, .inl hr⟩
    · rw [State.channel_congr (t.grant_channels d m), State.setChannel_channel]
      split
      · exact .inl rfl
      · exact ht.2
    · by_cases e : c = d
      · subst e
        rcases t.finishRun_channel_cases c with e | ⟨w, e⟩ <;> rw [e]
        · exact ht.2
        · exact .inr rfl
      · rw [t.finishRun_channel_ne e]
        exact ht.2
  rcases hst.2 with e | e
  · exact hst.1.unlisted e
  · exact hst.1.unlisted e

theorem State.CountsKept.settleRun (h : s.CountsKept) (c : ChannelId) : (s.settleRun c).CountsKept := by
  unfold State.settleRun
  split
  · rename_i ho
    exact (h.finishRun (State.runIsOver_state ho)).evaluate 5
  · exact h

theorem State.CountsKept.join (h : s.CountsKept) (hs : (s.channel c).state = .waitUnits) (n : Need) :
    (s.join c n).CountsKept := by
  have hjoined : State.CountsKept { s with arbiter := { s.arbiter with waiting := s.arbiter.waiting.set c (some n) } } := by
    refine ⟨⟨h.waits.waiters, h.waits.waitersOnce, h.waits.waitersApart, fun d hd => ?_⟩, h.size, h.counts⟩
    by_cases e : d = c
    · exact e ▸ hs
    · exact h.waits.waiting d (by simpa [vector_get_set_ne _ _ (Ne.symm e)] using hd)
  exact hjoined.evaluate 5

end

end Sys2Proof.Machine
end

