-- ==== Sys2Proof/Proofs/CountsSteps.lean ====
section
/-! PROOF. The channel commands, the fetch and the retirement keep the counts, and so every step does (R54): O56. -/

namespace Sys2Proof.Machine

-- One theorem at a time, as in the tests: all at once they pass the memory limit.
set_option Elab.async false

section
variable {s t : State} {c : ChannelId}

/-! ### Aborts (R70 to R76) -/

/-- With FETCH back at DONE, or both 0, a channel goes out of the group. -/
theorem State.abortTakesEffect_counted (h : (s.channel c).Counted) (k : AbortKind) :
    ((s.abortTakesEffect k c).channel c).Counted := by
  cases k with
  | abort =>
    refine Channel.NoneInFlight.counted (h.setBack.same ?_ ?_ ?_ ?_) ?_ <;> simp [State.abortTakesEffect, ChannelState.inGroup]
  | reset =>
    refine Channel.NoneInFlight.counted (.of_zero ?_ ?_ ?_ ?_) ?_ <;> simp [State.abortTakesEffect, ChannelState.inGroup, h.size]

theorem State.CountsKept.abortTakesEffect (h : s.CountsKept) (hu : s.Unlisted c) (k : AbortKind) :
    (s.abortTakesEffect k c).CountsKept :=
  h.moves hu (by simp) (by simp) (fun _ hd => s.abortTakesEffect_channel_ne k hd) (State.abortTakesEffect_counted (h.counted c) k)

/-- A channel in no list lets its slot go and its abort takes effect. -/
theorem State.CountsKept.releaseAndAbort (h : s.CountsKept) (hu : s.Unlisted c) (k : AbortKind) :
    ((s.release c none).abortTakesEffect k c).CountsKept := by
  obtain ⟨hk, hu', -⟩ := h.release hu none
  exact hk.abortTakesEffect hu' k

theorem State.CountsKept.abortRun (h : s.CountsKept) (hr : (s.channel c).state = .run) (k : AbortKind) :
    (s.abortRun k c).CountsKept := by
  have hu : (s.releaseUnits c).CountsKept := h.of_channels (by simp) (s.releaseUnits_waiting c) fun d => by
    rw [State.releaseUnits_channel]
    exact ⟨h.counted d, .inl rfl⟩
  have hr' : ((s.releaseUnits c).channel c).state = .run := by rwa [State.releaseUnits_channel]
  exact State.CountsKept.releaseAndAbort (hu.evaluate 5) (hu.evaluate_unlisted hr' 5) k

theorem State.CountsKept.unitStopped (h : s.CountsKept) (c : ChannelId) : (s.unitStopped c).CountsKept := by
  unfold State.unitStopped
  split
  · split
    · rename_i hc
      exact h.abortRun hc.1 _
    · exact h
  · exact h

theorem State.CountsKept.setAbortPending (h : s.CountsKept) (k : AbortKind) (c : ChannelId) :
    (s.setAbortPending k c).CountsKept :=
  h.setChannel_same rfl ⟨rfl, rfl, rfl, rfl, rfl⟩

theorem State.CountsKept.disposeOf (h : s.CountsKept) (k : AbortKind) (c : ChannelId) : (s.disposeOf k c).CountsKept := by
  have hclear (hu : s.Unlisted c) : (s.clearChannel c).CountsKept := h.abortTakesEffect hu .reset
  unfold State.disposeOf
  split
  case h_1 e =>
    cases k
    · exact h
    · exact hclear (h.unlisted e)
  case h_2 e =>
    cases k
    · exact h
    · exact hclear (h.unlisted e)
  case h_3 e => exact h.abortTakesEffect (h.unlisted e) k
  case h_4 e =>
    split
    · exact h.setAbortPending k c
    · have hw : (s.withdraw (.ch c)).CountsKept := h.frame rfl rfl rfl
      exact hw.abortTakesEffect (hw.unlisted e) k
  case h_5 e =>
    obtain ⟨hk, hu⟩ := h.withdrawWaiter e
    exact hk.abortTakesEffect hu k
  case h_6 e =>
    obtain ⟨hk, hu⟩ := h.leaveWaitingSet e
    exact hk.releaseAndAbort hu k
  case h_7 e =>
    have hs : (s.stopUnits c).CountsKept := h.frame (by simp) (by simp) (by simp)
    dsimp only
    split
    · exact hs.abortRun (by rwa [State.stopUnits_channel]) k
    · exact hs.setAbortPending k c
  case h_8 e =>
    split
    · exact h.setAbortPending k c
    · have hw : (s.withdrawRecord c).CountsKept := h.frame rfl rfl rfl
      exact hw.releaseAndAbort (hw.unlisted e) k

/-! ### The other channel commands (R53, R55, R57, R58) -/

/-- A channel without a job in flight begins the fetch of a posted one (R59). -/
theorem State.beginFetch_counted (h : (s.channel c).NoneInFlight) (hp : (s.channel c).post ≠ (s.channel c).fetch) :
    ((s.beginFetch c).channel c).Counted := by
  refine h.fetches hp ?_ ?_ ?_ ?_ ?_ <;> simp [ChannelState.inGroup]

theorem State.CountsKept.fetchIfPosted (h : s.CountsKept) (c : ChannelId) : (s.fetchIfPosted c).CountsKept := by
  unfold State.fetchIfPosted
  split
  · rename_i hc
    exact h.moves (h.unlisted hc.1) rfl rfl (fun d hd => by simp [hd])
      (State.beginFetch_counted ((h.counted c).noneInFlight (by rw [hc.1]; rfl)) hc.2)
  · exact h

theorem State.CountsKept.takeStart (h : s.CountsKept) (c : ChannelId) : (s.takeStart c).CountsKept := by
  have key (hu : s.Unlisted c) (hg : (s.channel c).state.inGroup = false) :
      ((s.setChannel c { s.channel c with state := .idle, haltCause := .none }).fetchIfPosted c).CountsKept := by
    refine State.CountsKept.fetchIfPosted (h.setUnlisted hu ?_) c
    exact ⟨rfl, rfl, rfl, rfl, hg.symm⟩
  unfold State.takeStart
  split
  case h_1 e => exact key (h.unlisted e) (by rw [e]; rfl)
  case h_2 e => exact key (h.unlisted e) (by rw [e]; rfl)
  case h_3 => exact h

theorem State.CountsKept.takeStop (h : s.CountsKept) (c : ChannelId) : (s.takeStop c).CountsKept := by
  have hbusy : (if (s.channel c).abortPending = some .reset then s
      else s.setChannel c { s.channel c with stopRequest := true }).CountsKept := by
    split
    · exact h
    · exact h.setChannel_same rfl ⟨rfl, rfl, rfl, rfl, rfl⟩
  unfold State.takeStop
  dsimp only
  split
  case h_1 e => exact h.setUnlisted (h.unlisted e) ⟨rfl, rfl, rfl, rfl, by rw [e]; rfl⟩
  case h_2 => exact h
  case h_3 => exact h
  all_goals exact hbusy

theorem State.CountsKept.takeChannelControl (h : s.CountsKept) (c : ChannelId) (v : Word) :
    (s.takeChannelControl c v).CountsKept := by
  have hb : (s.setHaltOnError c (v.getLsbD 8)).CountsKept := h.setChannel_same rfl ⟨rfl, rfl, rfl, rfl, rfl⟩
  unfold State.takeChannelControl State.takeAbort State.takeReset
  dsimp only
  split
  · exact hb.takeStart c
  · exact hb.takeStop c
  · split
    · exact hb
    · exact hb.disposeOf .abort c
  · split
    · exact hb.setAbortPending .reset c
    · exact hb.disposeOf .reset c
  · exact hb

theorem State.CountsKept.takeJobRingBase (h : s.CountsKept) (c : ChannelId) (v : Word) :
    (s.takeJobRingBase c v).CountsKept := by
  unfold State.takeJobRingBase
  split
  · exact h.setChannel_same rfl ⟨rfl, rfl, rfl, rfl, rfl⟩
  · exact h.frame rfl rfl rfl

/-- The size of an empty ring may be any. -/
theorem State.CountsKept.takeJobRingSize (h : s.CountsKept) (c : ChannelId) (v : Word) :
    (s.takeJobRingSize c v).CountsKept := by
  unfold State.takeJobRingSize
  split
  · rename_i hc
    obtain ⟨-, hp⟩ := (Channel.configurable_iff _).1 hc
    obtain ⟨-, hf, hpost, -⟩ := h.counted c
    exact h.setChannel ⟨isJobRingSize_taken _, hf, hpost, by simp [hp]⟩ rfl
  · exact h.frame rfl rfl rfl

theorem State.CountsKept.takePost (h : s.CountsKept) (c : ChannelId) (v : Word) : (s.takePost c v).CountsKept := by
  unfold State.takePost
  dsimp only
  split
  · rename_i hc
    obtain ⟨hr, hp⟩ := Channel.acceptsPost_iff.1 hc
    obtain ⟨hs, hf, -, -⟩ := h.counted c
    refine State.CountsKept.fetchIfPosted (h.setChannel ?_ ?_) c
    · exact ⟨hs, hf, hp, hr⟩
    · rfl
  · exact h.frame rfl rfl rfl

/-! ### The fetch (R59 to R63) -/

theorem State.CountsKept.setStage (h : s.CountsKept) (c : ChannelId) (g : FetchStage) : (s.setStage c g).CountsKept :=
  h.setChannel_same rfl ⟨rfl, rfl, rfl, rfl, rfl⟩

theorem State.CountsKept.asksRead (h : s.CountsKept) (c : ChannelId) (g : FetchStage) (q : BurstRequest) :
    ((s.setStage c g).want (.ch c) q).CountsKept := (h.setStage c g).frame rfl rfl rfl

theorem State.CountsKept.setJob (h : s.CountsKept) (c : ChannelId) (j : Job) :
    (s.setChannel c { s.channel c with job := some j }).CountsKept :=
  h.setChannel_same rfl ⟨rfl, rfl, rfl, rfl, rfl⟩

/-- A channel in FETCH ends its job before its run. -/
theorem State.CountsKept.endJob (h : s.CountsKept) (hs : (s.channel c).state = .fetch) (st : Status)
    (f : Option FaultDetail) : (s.endJob c st f).CountsKept :=
  h.setUnlisted (h.unlisted hs) ⟨rfl, rfl, rfl, rfl, by rw [hs]; rfl⟩

theorem State.CountsKept.completeFetch (h : s.CountsKept) (hs : (s.channel c).state = .fetch) (j : Job) :
    (s.completeFetch c j).CountsKept := by
  unfold State.completeFetch
  split
  · split
    · exact h.setStage ..
    · split
      · exact h.setUnlisted (h.unlisted hs) ⟨rfl, rfl, rfl, rfl, by rw [hs]; rfl⟩
      · exact h
  · exact h.endJob hs _ _

theorem State.CountsKept.fetchDest (h : s.CountsKept) (hs : (s.channel c).state = .fetch) (j : Job) :
    (s.fetchDest c j).CountsKept := by
  unfold State.fetchDest
  split
  · exact h.completeFetch hs j
  · exact h.asksRead ..

theorem State.CountsKept.entryRead (h : s.CountsKept) (hs : (s.channel c).state = .fetch) (e : JobEntry) :
    (s.entryRead c e).CountsKept := by
  have hjob := h.setJob c { entry := e, source := [], dest := [] }
  have hs' : ((s.setChannel c { s.channel c with job := some { entry := e, source := [], dest := [] } }).channel c).state =
      .fetch := by rwa [State.setChannel_channel_same]
  unfold State.entryRead
  dsimp only
  split
  · exact hjob.endJob hs' _ _
  split
  · exact hjob.fetchDest hs' _
  · exact hjob.asksRead ..

theorem State.CountsKept.sourceTableRead (h : s.CountsKept) (hs : (s.channel c).state = .fetch) (j : Job)
    (got : List Byte) : (s.sourceTableRead c j got).CountsKept := by
  unfold State.sourceTableRead
  dsimp only
  split
  · exact h.asksRead ..
  · exact (h.setJob c _).fetchDest (by rwa [State.setChannel_channel_same]) _

theorem State.CountsKept.destTableRead (h : s.CountsKept) (hs : (s.channel c).state = .fetch) (j : Job)
    (got : List Byte) : (s.destTableRead c j got).CountsKept := by
  unfold State.destTableRead
  dsimp only
  split
  · exact h.asksRead ..
  · exact (h.setJob c _).completeFetch (by rwa [State.setChannel_channel_same]) _

theorem State.CountsKept.fetchReadEnds (h : s.CountsKept) (c : ChannelId) (bytes : List Byte) :
    (s.fetchReadEnds c bytes).CountsKept := by
  unfold State.fetchReadEnds
  split
  case isFalse => exact h
  case isTrue hs =>
    split
    · exact h.abortTakesEffect (h.unlisted hs) _
    · split
      case h_1 => exact h.entryRead hs _
      case h_2 => exact h.sourceTableRead hs _ _
      case h_3 => exact h.destTableRead hs _ _
      case h_4 => exact h

theorem State.CountsKept.fetchReadFaults (h : s.CountsKept) (c : ChannelId) (why : Why) :
    (s.fetchReadFaults c why).CountsKept := by
  unfold State.fetchReadFaults
  split
  case isFalse => exact h
  case isTrue hs =>
    split
    · exact h.abortTakesEffect (h.unlisted hs) _
    · split
      case h_1 =>
        refine h.moves (h.unlisted hs) rfl rfl (fun d hd => by simp [hd]) ?_
        refine Channel.NoneInFlight.counted ((h.counted c).setBack.same ?_ ?_ ?_ ?_) ?_ <;> simp [ChannelState.inGroup]
      case h_2 => exact h.endJob hs _ _
      case h_3 => exact h.endJob hs _ _
      case h_4 => exact h

/-! ### Retirement (R68, R69) -/

/-- A channel whose job has retired has none in flight in its next state, but for one whose fetch it begins (R69). -/
theorem State.chooseNext_counted (h : (s.channel c).NoneInFlight) (st : Option Status) :
    ((s.chooseNext c st).channel c).Counted := by
  have hout {x : Channel} (hs : x.ringSize = (s.channel c).ringSize) (hp : x.post = (s.channel c).post)
      (hf : x.fetch = (s.channel c).fetch) (hd : x.done = (s.channel c).done) (hg : x.state.inGroup = false) : x.Counted :=
    (h.same hs hp hf hd).counted hg
  have hhalt (w : HaltCause) : ((s.halt c w).channel c).Counted := by
    rw [State.halt_channel, if_pos rfl]
    exact hout rfl rfl rfl rfl rfl
  unfold State.chooseNext
  dsimp only
  split
  · exact hhalt _
  · rw [State.clearChannel_channel, if_pos rfl]
    refine Channel.NoneInFlight.counted (.of_zero ?_ rfl rfl rfl) rfl
    exact h.size
  · split
    · exact hhalt _
    split
    · rw [State.setChannel_channel_same]
      exact hout rfl rfl rfl rfl rfl
    split
    · exact State.beginFetch_counted h ‹_›
    · rw [State.setChannel_channel_same]
      exact hout rfl rfl rfl rfl rfl

theorem State.CountsKept.retire (h : s.CountsKept) (hs : (s.channel c).state = .retire) : (s.retire c).CountsKept := by
  obtain ⟨hk, hu, hc⟩ := h.release (h.unlisted hs) (s.channel c).commitOf
  have hret := (h.counted c).retired (by rw [hs]; rfl)
  unfold State.retire
  dsimp only
  refine hk.moves hu (by simp) (by simp) (fun d hd => ?_) (State.chooseNext_counted ?_ _)
  · rw [State.chooseNext_channel_ne _ _ hd]
    simp [hd]
  · rw [State.setChannel_channel_same, hc]
    exact hret.same rfl rfl rfl rfl

end

/-! ### Every step -/

theorem State.takeResetValues_countsKept (s : State) (n : Nat) : (s.takeResetValues n).CountsKept :=
  State.reset_countsKept.frame rfl rfl rfl

theorem State.countsKept_invariant : State.Invariant State.CountsKept where
  frame h hs hc ha := h.frame hs hc ha
  marks h hs ha hm := h.of_channels hs (by rw [ha]) fun d => by
    obtain ⟨w, l, e⟩ := hm d
    rw [e]
    exact ⟨(h.counted d).same ⟨rfl, rfl, rfl, rfl, rfl⟩, .inl rfl⟩
  resets := State.takeResetValues_countsKept
  streamCommand v h := h.takeStreamCommand v
  channelControl c v h := h.takeChannelControl c v
  jobRingBase c v h := h.takeJobRingBase c v
  jobRingSize c v h := h.takeJobRingSize c v
  post c v h := h.takePost c v
  fetchReadEnds c bytes h := h.fetchReadEnds c bytes
  fetchReadFaults c why h := h.fetchReadFaults c why
  holdRequest hd h hs := h.takeHoldRequest hs hd
  join n h hs := h.join hs n
  settleRun c h := h.settleRun c
  unitStopped c h := h.unitStopped c
  retire h hs := h.retire hs
  retireAborted k h hs := h.releaseAndAbort (h.unlisted hs) k

/-- Settles O56: a channel leaves every list before its state changes, and each change keeps its counts in their bounds. -/
theorem everyStepKeepsTheCounts : Obligations.EveryStepKeepsTheCounts := fun _ _ h e => State.countsKept_invariant.step h e

end Sys2Proof.Machine
end

