-- ==== Sys2Proof/Proofs/OutputCounts.lean ====
section
/-! PROOF. Every step keeps the output counts of every pack unit (R97, R99, R113): O59. What a unit accepts has room in its
destination, and every byte it accepts stands in its buffer until a write ends with it. -/

namespace Sys2Proof.Machine

-- One theorem at a time, as in the tests: all at once they pass the memory limit.
set_option Elab.async false

/-! ### One pack unit (R97, R99) -/

/-- What is written or waits in the write buffer has been accepted, and the destination holds that and `n` bytes more. -/
structure PackUnit.HasRoom (u : PackUnit) (n : Nat) : Prop where
  buffered : u.written + u.writeBuffer.length ≤ u.accepted
  room : u.accepted + n ≤ totalLength u.dest

/-- The output counts of one unit. -/
abbrev PackUnit.CountsKept (u : PackUnit) : Prop := u.HasRoom 0

section
variable {u v : PackUnit} {w : PackStep}

theorem PackUnit.HasRoom.frame {n : Nat} (h : u.HasRoom n) (hw : v.written = u.written) (hb : v.writeBuffer = u.writeBuffer)
    (ha : v.accepted = u.accepted) (hd : v.dest = u.dest) : v.HasRoom n :=
  ⟨by rw [hw, hb, ha]; exact h.buffered, by rw [ha, hd]; exact h.room⟩

/-- A piece begun has room for all its bytes (R105). -/
theorem PackUnit.CountsKept.hasRoom (h : u.CountsKept) {n : Nat} (hn : ¬ u.room < n) : u.HasRoom n :=
  ⟨h.buffered, by
    have := h.room
    unfold PackUnit.room at hn
    omega⟩

/-- A byte accepted takes the place of one. -/
theorem PackUnit.HasRoom.accept {n : Nat} (h : u.HasRoom (n + 1)) (b : Byte) : (u.accept b).HasRoom n := by
  obtain ⟨hb, hr⟩ := h
  unfold PackUnit.accept
  split
  · refine ⟨?_, ?_⟩
    · change u.written + (u.writeBuffer ++ [b]).length ≤ u.accepted + 1
      rw [List.length_append, List.length_singleton]
      omega
    · change u.accepted + 1 + n ≤ totalLength u.dest
      omega
  · exact ⟨hb, by omega⟩

theorem acceptBytes_countsKept (bs : List Byte) (h : w.unit.HasRoom bs.length) :
    (acceptBytes bs w).2.1.unit.CountsKept := by
  induction bs generalizing w with
  | nil => exact h
  | cons b bs ih =>
    have hb : (w.accept b).unit.HasRoom bs.length := by
      rw [PackStep.accept, PackStep.offer_unit]
      exact h.accept b
    unfold acceptBytes
    split
    · exact ⟨hb.buffered, Nat.le_of_add_right_le hb.room⟩
    · exact ih hb

theorem PackStep.takeFront_countsKept (h : w.unit.CountsKept) : w.takeFront.unit.CountsKept := by
  unfold PackStep.takeFront
  split
  · exact h
  · rw [PackStep.offer_unit]
    exact h.frame rfl rfl rfl rfl

theorem PackStep.complete_countsKept (h : w.unit.CountsKept) (it : OutItem) : (w.complete it).unit.CountsKept := by
  have ht : (if it.takes then w.takeFront else w).unit.CountsKept := by
    split
    · exact PackStep.takeFront_countsKept h
    · exact h
  unfold PackStep.complete
  dsimp only
  split
  · exact ht.frame rfl rfl rfl rfl
  · exact ht

/-- Items accepted: one for which the destination has no room is not begun (R99, R105). -/
theorem acceptItems_countsKept (its : List OutItem) (h : w.unit.CountsKept) : (acceptItems its w).1.unit.CountsKept := by
  induction its generalizing w with
  | nil => exact h.frame rfl rfl rfl rfl
  | cons it its ih =>
    unfold acceptItems
    split
    · exact h
    · rename_i hroom
      have hacc := acceptBytes_countsKept it.bytes (h.hasRoom hroom)
      split
      · rename_i e
        rw [e] at hacc
        exact hacc.frame rfl rfl rfl rfl
      · rename_i w' _ e
        rw [e] at hacc
        have hdone := PackStep.complete_countsKept hacc it
        split
        · exact hdone.frame rfl rfl rfl rfl
        · exact ih hdone

theorem takeBytes_countsKept (bs : List Byte) (h : w.unit.CountsKept) : (takeBytes bs w).1.unit.CountsKept := by
  induction bs generalizing w with
  | nil => exact h
  | cons b bs ih =>
    have hacc := acceptItems_countsKept (w.unit.callsFor b) h
    unfold takeBytes
    split
    · rename_i e
      rw [e] at hacc
      exact ih hacc
    · exact hacc

theorem PackStep.stopFor_countsKept (h : w.unit.CountsKept) (d : Drive) : (w.stopFor d).1.unit.CountsKept := by
  cases d
  · exact h
  · exact h
  · exact h.frame rfl rfl rfl rfl

theorem PackStep.finish_countsKept (h : w.unit.CountsKept) : w.finish.1.unit.CountsKept := by
  have hacc := acceptItems_countsKept (if w.unit.finishing then [] else w.unit.endCallsFor)
    (w := { w with unit := { w.unit with finishing := true } }) (h.frame rfl rfl rfl rfl)
  unfold PackStep.finish
  dsimp only
  split
  · rename_i e
    rw [e] at hacc
    split
    · exact hacc
    · exact hacc.frame rfl rfl rfl rfl
  · rename_i e
    rw [e] at hacc
    exact PackStep.stopFor_countsKept hacc _

/-- A unit keeps its output counts at work. -/
theorem PackUnit.CountsKept.advance (h : u.CountsKept) : u.advance.1.unit.CountsKept := by
  have howed := acceptItems_countsKept u.owed (w := { unit := u, offered := [] }) h
  unfold PackUnit.advance
  split
  · rename_i w e
    rw [e] at howed
    have hbytes := takeBytes_countsKept w.unit.readAhead howed
    split
    · rename_i e'
      rw [e'] at hbytes
      split
      · split
        · exact PackStep.stopFor_countsKept hbytes _
        · exact hbytes
      · exact PackStep.finish_countsKept hbytes
    · rename_i e'
      rw [e'] at hbytes
      exact PackStep.stopFor_countsKept hbytes _
  · rename_i e
    rw [e] at howed
    exact PackStep.stopFor_countsKept howed _

/-- The buffer dropped: what is written stays accepted. -/
theorem PackUnit.CountsKept.dropBuffer (h : u.CountsKept) (hw : v.written = u.written) (hb : v.writeBuffer = [])
    (ha : v.accepted = u.accepted) (hd : v.dest = u.dest) : v.CountsKept :=
  ⟨by rw [hw, hb, ha]; exact Nat.le_of_add_right_le h.buffered, by rw [ha, hd]; exact h.room⟩

/-- A write that ends with ready: what stood in the buffer is written (R97). -/
theorem PackUnit.CountsKept.writeEnds (h : u.CountsKept) : u.writeEnds.CountsKept := ⟨h.buffered, h.room⟩

theorem PackUnit.CountsKept.readEnds (h : u.CountsKept) (bytes : List Byte) : (u.readEnds bytes).CountsKept :=
  h.frame rfl rfl rfl rfl

theorem PackUnit.CountsKept.readFaults (h : u.CountsKept) (why : Why) : (u.readFaults why).CountsKept :=
  h.dropBuffer rfl rfl rfl rfl

theorem PackUnit.CountsKept.writeFaults (h : u.CountsKept) (why : Why) : (u.writeFaults why).CountsKept := by
  unfold PackUnit.writeFaults
  split
  · exact h.dropBuffer rfl rfl rfl rfl
  · exact h.dropBuffer rfl rfl rfl rfl

theorem PackUnit.CountsKept.stop (h : u.CountsKept) : u.stop.CountsKept := h.dropBuffer rfl rfl rfl rfl

/-- Nothing accepted yet, or no more. -/
theorem PackUnit.countsKept_of_zero (hw : u.written = 0) (hb : u.writeBuffer = []) (ha : u.accepted = 0) : u.CountsKept :=
  ⟨by rw [hw, hb, ha]; exact le_refl _, by rw [ha]; exact Nat.zero_le _⟩

end

/-! ### The units of the part -/

/-- The output counts of every unit. -/
structure State.PacksCounted (s : State) : Prop where
  pack : ∀ p : PackId, (s.pack p).CountsKept

theorem State.outputKept_iff (s : State) : s.OutputKept ↔ s.PacksCounted :=
  ⟨fun h => ⟨fun p => ⟨(h p).1, (h p).2⟩⟩, fun ⟨h⟩ p => ⟨(h p).buffered, (h p).room⟩⟩

section
variable {s t : State}

theorem State.PacksCounted.frame (h : s.PacksCounted) (e : t.packs = s.packs) : t.PacksCounted :=
  ⟨fun p => by rw [State.pack_congr e]; exact h.pack p⟩

theorem State.PacksCounted.setPack (h : s.PacksCounted) (p : PackId) {u : PackUnit} (hu : u.CountsKept) :
    (s.setPack p u).PacksCounted := by
  refine ⟨fun q => ?_⟩
  rw [State.setPack_pack]
  split
  · exact hu
  · exact h.pack q

theorem State.PacksCounted.drivePack (h : s.PacksCounted) (p : PackId) : (s.drivePack p).PacksCounted := by
  have hset := h.setPack p (h.pack p).advance
  unfold State.drivePack
  split
  rename_i e
  rw [e] at hset
  dsimp only
  split
  · exact hset.frame (by simp)
  · exact hset.frame (by simp)

/-! ### Grants and evaluations (R82 to R86) -/

theorem State.PacksCounted.loadUnits (h : s.PacksCounted) (j : Job) (x : Context) (p : Option PackId) (k : Option CheckId) :
    (s.loadUnits j x p k).PacksCounted := by
  have hcheck : (match k with
      | some k => s.setCheck k (CheckUnit.load j x p)
      | none => s).PacksCounted := by
    split
    · exact h.frame rfl
    · exact h
  unfold State.loadUnits
  dsimp only
  split
  · exact (hcheck.setPack _ (PackUnit.countsKept_of_zero rfl rfl rfl)).drivePack _
  · split
    · exact hcheck.frame (by simp)
    · exact hcheck

theorem State.PacksCounted.grant (h : s.PacksCounted) (c : ChannelId) (n : Need) : (s.grant c n).PacksCounted := by
  unfold State.grant
  dsimp only
  split
  · refine State.PacksCounted.loadUnits ?_ ..
    exact h.frame rfl
  · exact h.frame rfl

theorem State.PacksCounted.scan (h : s.PacksCounted) : s.scan.PacksCounted := by
  unfold State.scan
  generalize rotationAfter s.arbiter.pointer = cs
  induction cs generalizing s with
  | nil => exact h
  | cons c cs ih =>
    refine ih ?_
    unfold State.examine
    split
    · split
      · exact h.grant ..
      · exact h
    · exact h

theorem State.PacksCounted.releaseUnits (h : s.PacksCounted) (c : ChannelId) : (s.releaseUnits c).PacksCounted := by
  have hpack : (match s.packOf c with
      | some p =>
        { s with arbiter := { s.arbiter with packs := s.arbiter.packs.set p none } }.setPack p (s.pack p).release
      | none => s).PacksCounted := by
    split
    · refine State.PacksCounted.setPack ?_ _ (PackUnit.countsKept_of_zero rfl rfl rfl)
      exact h.frame rfl
    · exact h
  unfold State.releaseUnits
  dsimp only
  split
  · exact hpack.frame rfl
  · exact hpack

theorem State.PacksCounted.finishRun (h : s.PacksCounted) (c : ChannelId) : (s.finishRun c).PacksCounted := by
  unfold State.finishRun
  dsimp only
  split
  · refine State.PacksCounted.releaseUnits ?_ c
    exact h.frame rfl
  · exact h

theorem State.PacksCounted.evaluate (h : s.PacksCounted) (n : Nat) : (s.evaluate n).PacksCounted := by
  induction n generalizing s with
  | zero => exact h
  | succ n ih =>
    unfold State.evaluate
    dsimp only
    have hscan := h.scan
    generalize s.scan = t at hscan ⊢
    generalize (rotationAfter s.arbiter.pointer).filter _ = cs
    induction cs generalizing t with
    | nil => exact hscan
    | cons c cs ihc =>
      refine ihc _ ?_
      dsimp only
      split
      · exact ih (hscan.finishRun c)
      · exact hscan

theorem State.PacksCounted.settleRun (h : s.PacksCounted) (c : ChannelId) : (s.settleRun c).PacksCounted := by
  unfold State.settleRun
  split
  · exact (h.finishRun c).evaluate 5
  · exact h

theorem State.PacksCounted.join (h : s.PacksCounted) (c : ChannelId) (n : Need) : (s.join c n).PacksCounted := by
  refine State.PacksCounted.evaluate ?_ 5
  exact h.frame rfl

/-! ### Aborts (R70 to R76, R114) -/

theorem State.PacksCounted.stopUnits (h : s.PacksCounted) (c : ChannelId) : (s.stopUnits c).PacksCounted := by
  have hpack : (match s.packOf c with
      | some p =>
        if s.onBus (.pk p) then s.setPack p { s.pack p with condition := .stopping }
        else (s.withdraw (.pk p)).setPack p (s.pack p).stop
      | none => s).PacksCounted := by
    split
    · split
      · exact h.setPack _ ((h.pack _).frame rfl rfl rfl rfl)
      · refine State.PacksCounted.setPack ?_ _ (h.pack _).stop
        exact h.frame rfl
    · exact h
  unfold State.stopUnits
  dsimp only
  split
  · split
    · exact hpack.frame rfl
    · exact hpack.frame rfl
  · exact hpack

theorem State.PacksCounted.abortRun (h : s.PacksCounted) (k : AbortKind) (c : ChannelId) : (s.abortRun k c).PacksCounted :=
  State.PacksCounted.frame ((h.releaseUnits c).evaluate 5) (by simp [State.abortRun, State.reevaluate])

theorem State.PacksCounted.unitStopped (h : s.PacksCounted) (c : ChannelId) : (s.unitStopped c).PacksCounted := by
  unfold State.unitStopped
  split
  · split
    · exact h.abortRun ..
    · exact h
  · exact h

theorem State.PacksCounted.disposeOf (h : s.PacksCounted) (k : AbortKind) (c : ChannelId) : (s.disposeOf k c).PacksCounted := by
  unfold State.disposeOf
  split
  case h_7 =>
    dsimp only
    split
    · exact (h.stopUnits c).abortRun k c
    · exact (h.stopUnits c).frame rfl
  all_goals exact h.frame (by (repeat' split) <;> simp)

theorem State.PacksCounted.takeAbort (h : s.PacksCounted) (c : ChannelId) : (s.takeAbort c).PacksCounted := by
  unfold State.takeAbort
  split
  · exact h
  · exact h.disposeOf ..

theorem State.PacksCounted.takeReset (h : s.PacksCounted) (c : ChannelId) : (s.takeReset c).PacksCounted := by
  unfold State.takeReset
  split
  · exact h.frame rfl
  · exact h.disposeOf ..

theorem State.PacksCounted.takeChannelControl (h : s.PacksCounted) (c : ChannelId) (v : Word) :
    (s.takeChannelControl c v).PacksCounted := by
  have hb : (s.setHaltOnError c (v.getLsbD 8)).PacksCounted := h.frame rfl
  unfold State.takeChannelControl
  dsimp only
  split
  · exact hb.frame (by simp)
  · exact hb.frame (by simp)
  · exact hb.takeAbort c
  · exact hb.takeReset c
  · exact hb

/-! ### The ends of bursts (R96, R97, R110 to R112) -/

theorem State.PacksCounted.packTransferEnds (h : s.PacksCounted) (p : PackId) (q : BurstRequest) (bytes : List Byte) :
    (s.packTransferEnds p q bytes).PacksCounted := by
  unfold State.packTransferEnds
  split
  · exact h
  dsimp only
  split
  · exact (h.setPack p (h.pack p).stop).unitStopped _
  split
  · split
    · exact (h.setPack p (h.pack p).writeEnds).settleRun _
    · exact ((h.setPack p (h.pack p).writeEnds).drivePack p).settleRun _
  · exact ((h.setPack p ((h.pack p).readEnds bytes)).drivePack p).settleRun _

theorem State.PacksCounted.packTransferFaults (h : s.PacksCounted) (p : PackId) (q : BurstRequest) (why : Why) :
    (s.packTransferFaults p q why).PacksCounted := by
  unfold State.packTransferFaults
  split
  · exact h
  dsimp only
  split
  · exact (h.setPack p (h.pack p).stop).unitStopped _
  split
  · exact (h.setPack p ((h.pack p).writeFaults why)).settleRun _
  · exact (h.setPack p ((h.pack p).readFaults why)).settleRun _

theorem State.PacksCounted.checkReadEnds (h : s.PacksCounted) (k : CheckId) (bytes : List Byte) :
    (s.checkReadEnds k bytes).PacksCounted := by
  have hset (u : CheckUnit) : (s.setCheck k u).PacksCounted := h.frame rfl
  unfold State.checkReadEnds
  split
  · exact h
  dsimp only
  split
  · exact (hset _).unitStopped _
  · exact State.PacksCounted.settleRun ((hset ((s.check k).readEnds bytes)).frame (by simp)) _

theorem State.PacksCounted.checkReadFaults (h : s.PacksCounted) (k : CheckId) (why : Why) :
    (s.checkReadFaults k why).PacksCounted := by
  have hset (u : CheckUnit) : (s.setCheck k u).PacksCounted := h.frame rfl
  unfold State.checkReadFaults
  split
  · exact h
  dsimp only
  split
  · exact (hset _).unitStopped _
  · exact (hset _).settleRun _

theorem State.PacksCounted.tellReady (h : s.PacksCounted) (b : Burst) (bytes : List Byte) : (s.tellReady b bytes).PacksCounted := by
  unfold State.tellReady
  split
  · exact h.frame (by simp)
  · exact h.packTransferEnds ..
  · exact h.checkReadEnds ..
  · exact h.frame (by simp)

theorem State.PacksCounted.tellFault (h : s.PacksCounted) (b : Burst) (why : Why) : (s.tellFault b why).PacksCounted := by
  unfold State.tellFault
  split
  · exact h.frame (by simp)
  · exact h.packTransferFaults ..
  · exact h.checkReadFaults ..
  · exact h.frame (by simp)

theorem State.takeResetValues_packsCounted (s : State) (n : Nat) : (s.takeResetValues n).PacksCounted :=
  ⟨fun p => by
    have hp : (s.takeResetValues n).pack p = _ := (s.takeResetValues_spec n).packs p
    rw [hp]
    exact PackUnit.countsKept_of_zero rfl rfl rfl⟩

theorem State.PacksCounted.burstReady (h : s.PacksCounted) (b : Burst) (bytes : List Byte) :
    (s.burstReady b bytes).PacksCounted := by
  unfold State.burstReady
  split
  · exact State.takeResetValues_packsCounted ..
  · refine State.PacksCounted.tellReady ?_ ..
    exact h.frame rfl

theorem State.PacksCounted.burstFaults (h : s.PacksCounted) (b : Burst) (why : Why) : (s.burstFaults b why).PacksCounted := by
  have hm : (if b.request.write then s.memoryMayTake (b.request.cells b.phasesEnded) else s).PacksCounted := by
    split
    · exact h.frame rfl
    · exact h
  unfold State.burstFaults
  dsimp only
  generalize (if b.request.write then s.memoryMayTake (b.request.cells b.phasesEnded) else s) = t at hm ⊢
  split
  · exact State.takeResetValues_packsCounted ..
  · refine State.PacksCounted.tellFault ?_ ..
    exact hm.frame rfl

theorem State.PacksCounted.phaseReady (h : s.PacksCounted) (data : Word) : (s.phaseReady data).PacksCounted := by
  unfold State.phaseReady
  split
  · exact h
  · rename_i b _
    have hm : (if b.request.write then s.memoryTakes (b.request.cells b.phasesEnded) else s).PacksCounted := by
      split
      · exact h.frame rfl
      · exact h
    dsimp only
    split
    · exact hm.frame rfl
    · exact hm.burstReady ..

theorem State.PacksCounted.phaseError (h : s.PacksCounted) : s.phaseError.PacksCounted := by
  unfold State.phaseError
  split
  · exact h
  · exact h.burstFaults ..

theorem State.PacksCounted.phaseTimeout (h : s.PacksCounted) : s.phaseTimeout.PacksCounted := by
  unfold State.phaseTimeout
  split
  · exact h
  split
  · exact h
  · exact h.burstFaults ..

theorem State.PacksCounted.clockPeriod (h : s.PacksCounted) : s.clockPeriod.PacksCounted := by
  unfold State.clockPeriod
  split
  · exact h
  split
  · exact h.frame rfl
  split
  · exact h.frame rfl
  · exact h.burstFaults ..

/-! ### The window, and every command -/

theorem State.PacksCounted.takeDeviceReset (h : s.PacksCounted) : s.takeDeviceReset.PacksCounted := by
  unfold State.takeDeviceReset
  split
  · exact State.takeResetValues_packsCounted ..
  · exact h.frame rfl

theorem State.PacksCounted.ownerTakes (h : s.PacksCounted) (r : Reg) (v : Word) : (s.ownerTakes r v).PacksCounted := by
  cases r
  case globalControl =>
    unfold State.ownerTakes State.takeGlobalControl
    dsimp only
    split
    · exact h.takeDeviceReset
    · exact h
  case channelControl c => exact h.takeChannelControl c v
  all_goals exact h.frame (by simp [State.ownerTakes])

theorem State.PacksCounted.windowWrite (h : s.PacksCounted) (a : Word) (lanes : BitVec 4) (v : Word) :
    (s.windowWrite a lanes v).PacksCounted := by
  unfold State.windowWrite
  dsimp only
  split
  · exact h.frame rfl
  split
  · exact h.frame rfl
  split
  · exact h.frame rfl
  · exact h.ownerTakes ..

/-- A command's effect, taken or not. -/
theorem State.PacksCounted.ifTaken {c : Prop} [Decidable c] {u : State} (h : s.PacksCounted) (ht : t.PacksCounted)
    (e : Host.Outcome.next (φ := Fault) (ρ := Refusal) (if c then t else s) = .next u) : u.PacksCounted :=
  State.Invariant.ifTaken h (fun _ => ht) e

/-- Every command keeps the output counts. -/
theorem State.PacksCounted.exec (h : s.PacksCounted) {i : Instr} (e : exec i s = .next t) : t.PacksCounted := by
  have hset (c : ChannelId) (b : Bool) : (s.setHaltOnError c b).PacksCounted := h.frame rfl
  cases i
  case abortChannel c b => exact h.ifTaken ((hset c b).takeAbort c) e
  case resetChannel c b => exact h.ifTaken ((hset c b).takeReset c) e
  case haltOnError c v => exact h.ifTaken (h.takeChannelControl c v) e
  case deviceReset => exact h.ifTaken h.takeDeviceReset e
  case registerWrite a l v => exact h.ifTaken (h.windowWrite a l v) e
  case resetPinAssert => cases e; exact (s.abandonBurst.takeResetValues_packsCounted 0).frame rfl
  case resetPinRelease => cases e; exact h.frame rfl
  case dataPhaseReady d => cases e; exact h.phaseReady d
  case burstEndsWithReady d => cases e; exact h.phaseReady d
  case burstEndsWithError => cases e; exact h.phaseError
  case burstEndsWithTimeout => cases e; exact h.phaseTimeout
  case unitJoin c =>
    refine h.ifTaken ?_ e
    split
    · exact h.join ..
    · exact h
  all_goals exact h.ifTaken (h.frame (by (repeat' split) <;> simp)) e

end

/-- Settles O59, by what a piece begun takes of the room, and by the operations that put a unit to work or replace it. -/
theorem everyStepKeepsTheOutputCounts : Obligations.EveryStepKeepsTheOutputCounts := by
  intro s t h e
  rw [State.outputKept_iff] at h ⊢
  unfold step at e
  split at e
  · cases e
    exact h.clockPeriod
  · exact State.PacksCounted.exec (h.frame (s.withPending_packs _)) e

end Sys2Proof.Machine
end

