-- ==== Sys2Proof/Proofs/OneBlock.lean ====
section
/-! PROOF. The reads the units form, their cursors, the write buffer of a pack unit, and the words and byte enables of a burst
(R96, R97, R122, R170): O37. -/

namespace Sys2Proof.Machine

-- One theorem at a time, as in the tests: all at once they pass the memory limit.
set_option Elab.async false

/-! ### Reads and cursors (R96, R122) -/

/-- A read goes to the end of its block or of its fragment, whichever comes first. -/
theorem Spec.readFrom_oneBlock {f : Fragment} {o : Nat} (ho : o < f.length.toNat) :
    1 ≤ (Spec.readFrom f o).length ∧ (Spec.readFrom f o).address.toNat % 32 + (Spec.readFrom f o).length ≤ 32 ∧
      o + (Spec.readFrom f o).length ≤ f.length.toNat ∧
      ((Spec.readFrom f o).address.toNat % 32 + (Spec.readFrom f o).length = 32 ∨
        o + (Spec.readFrom f o).length = f.length.toNat) := by
  have hmod : (f.address + BitVec.ofNat 32 o).toNat % 32 < 32 := Nat.mod_lt _ (by decide)
  simp only [Spec.readFrom]
  omega

/-- A cursor that stays below its fragment's end moves on within the fragment, and one that comes to it moves to the next. -/
theorem Cursor.advance_cases {fs : List Fragment} {c : Cursor} {f : Fragment} (h : fs[c.fragment]? = some f) (n : Nat) :
    (c.offset + n < f.length.toNat → c.advance fs n = { fragment := c.fragment, offset := c.offset + n }) ∧
      (c.offset + n = f.length.toNat → c.advance fs n = { fragment := c.fragment + 1, offset := 0 }) := by
  rw [Cursor.advance, h]
  exact ⟨fun hlt => if_pos hlt, fun he => if_neg (by omega)⟩

/-! ### The write buffer (R97, R99) -/

/-- The buffered bytes lie before the destination cursor, one after another in its fragment and in one block, the first at an
address. -/
structure PackUnit.Buffers (u : PackUnit) (f : Fragment) (first : Word) : Prop where
  fragment : u.dest[u.destCursor.fragment]? = some f
  inFragment : u.destCursor.offset < f.length.toNat
  behind : u.writeBuffer.length ≤ u.destCursor.offset
  start : first = f.address + BitVec.ofNat 32 (u.destCursor.offset - u.writeBuffer.length)
  held : u.writeBuffer ≠ [] → u.writeAddress = first
  inBlock : first.toNat % 32 + u.writeBuffer.length < 32

section
variable {u : PackUnit} {f : Fragment} {first : Word} (h : u.Buffers f first)
include h

/-- The destination cursor stands in the block of the buffered bytes, right after them. -/
theorem PackUnit.Buffers.cursor_block :
    (f.byteAddress u.destCursor.offset).toNat % 32 = first.toNat % 32 + u.writeBuffer.length := by
  have hblock := h.inBlock
  have hbehind := h.behind
  rw [h.start] at hblock ⊢
  simp only [Fragment.byteAddress, BitVec.toNat_add, BitVec.toNat_ofNat] at hblock ⊢
  omega

theorem PackUnit.Buffers.fillsBuffer_iff :
    u.fillsBuffer = true ↔
      first.toNat % 32 + (u.writeBuffer.length + 1) = 32 ∨ u.destCursor.offset + 1 = f.length.toNat := by
  have hcursor := h.cursor_block
  have hblock := h.inBlock
  rw [PackUnit.fillsBuffer, h.fragment]
  simp only [toBlockEnd, Config.block, Bool.or_eq_true, beq_iff_eq]
  omega

/-- The address of the write stays that of the first byte buffered (log entry 21). -/
theorem PackUnit.Buffers.accept_writeAddress (b : Byte) : (u.accept b).writeAddress = first := by
  rw [PackUnit.accept, h.fragment]
  by_cases hempty : u.writeBuffer = []
  · have hstart := h.start
    rw [hempty, List.length_nil, Nat.sub_zero] at hstart
    exact (if_pos (List.isEmpty_iff.2 hempty)).trans hstart.symm
  · exact (if_neg fun e => hempty (List.isEmpty_iff.1 e)).trans (h.held hempty)

theorem PackUnit.Buffers.accept_writeBuffer (b : Byte) : (u.accept b).writeBuffer = u.writeBuffer ++ [b] := by
  rw [PackUnit.accept, h.fragment]

theorem PackUnit.Buffers.accept_accepted (b : Byte) : (u.accept b).accepted = u.accepted + 1 := by
  rw [PackUnit.accept, h.fragment]

theorem PackUnit.Buffers.accept_destCursor (b : Byte) :
    (u.accept b).destCursor =
      if u.destCursor.offset + 1 = f.length.toNat then { fragment := u.destCursor.fragment + 1, offset := 0 }
      else { u.destCursor with offset := u.destCursor.offset + 1 } := by
  obtain ⟨hwithin, hpast⟩ := Cursor.advance_cases h.fragment 1
  have hcursor : (u.accept b).destCursor = u.destCursor.advance u.dest 1 := by rw [PackUnit.accept, h.fragment]
  rw [hcursor]
  split
  · exact hpast ‹_›
  · exact hwithin (Nat.lt_of_le_of_ne h.inFragment ‹_›)

end

/-! ### The words of a burst (R170) -/

/-- The number with four given bits. -/
theorem getLsbD_fourBits : ∀ a b c d : Bool, ∀ lane : Fin 4,
    (BitVec.ofNat 4 ((if a then 1 else 0) + (if b then 2 else 0) + (if c then 4 else 0) + (if d then 8 else 0))).getLsbD lane =
      #v[a, b, c, d][lane] := by
  decide

/-- A lane is enabled when it carries a byte. -/
theorem BurstRequest.enables_getLsbD (q : BurstRequest) (i : Nat) {lane : Nat} (h : lane < 4) :
    (q.enables i).getLsbD lane = (q.byteIndex i lane).isSome := by
  have hbit := getLsbD_fourBits (q.byteIndex i 0).isSome (q.byteIndex i 1).isSome (q.byteIndex i 2).isSome
    (q.byteIndex i 3).isSome ⟨lane, h⟩
  refine Eq.trans hbit ?_
  interval_cases lane
  all_goals rfl

/-- The lanes that carry a byte are those from the first byte's on, as many as the burst has bytes. -/
theorem BurstRequest.enables_iff (q : BurstRequest) (i : Nat) {lane : Nat} (h : lane < 4) :
    (q.enables i).getLsbD lane = true ↔
      q.address.toNat % 4 ≤ 4 * i + lane ∧ 4 * i + lane < q.address.toNat % 4 + q.length := by
  rw [q.enables_getLsbD i h, BurstRequest.byteIndex]
  split
  · exact iff_of_true rfl ‹_›
  · exact iff_of_false (by simp) ‹_›

/-- A burst in one block has at most the block's 8 words. -/
theorem BurstRequest.words_range {q : BurstRequest} (h1 : 1 ≤ q.length) (hblock : q.address.toNat % 32 + q.length ≤ 32) :
    1 ≤ q.words ∧ q.words ≤ 8 := by
  unfold BurstRequest.words
  omega

/-- A word that is neither the first nor the last has all four lanes enabled. -/
theorem BurstRequest.enables_middle {q : BurstRequest} {i : Nat} (hi : i < q.words) (h0 : i ≠ 0) (hlast : i + 1 ≠ q.words) :
    q.enables i = 0xF#4 := by
  refine BitVec.eq_of_getLsbD_eq fun lane hlane => ?_
  have hall : (0xF#4).getLsbD lane = true := by
    interval_cases lane
    all_goals rfl
  rw [hall, q.enables_iff i hlane]
  unfold BurstRequest.words at hi hlast
  omega

/-- Settles O37, by the read, the cursor, the write buffer and the burst in turn. -/
theorem burstsStayInOneBlock : Obligations.BurstsStayInOneBlock := by
  refine ⟨fun fs c f hf ho => ?read, fun fs c f n hf => Cursor.advance_cases hf n,
    fun u b f first hf ho hbehind hstart hheld hblock => ?buffer, fun q h1 hblock => ?burst⟩
  case read => exact ⟨_, readAt_cursor hf, rfl, rfl, Spec.readFrom_oneBlock ho⟩
  case buffer =>
    have h : u.Buffers f first := ⟨hf, ho, hbehind, hstart, hheld, hblock⟩
    have hbuffer := h.accept_writeBuffer b
    have haddress := h.accept_writeAddress b
    refine ⟨hbuffer, haddress, ?_, h.accept_accepted b, h.accept_destCursor b, h.fillsBuffer_iff⟩
    rw [PackUnit.bufferWrite, hbuffer, haddress]
    rfl
  case burst =>
    obtain ⟨hlow, hhigh⟩ := BurstRequest.words_range h1 hblock
    exact ⟨hlow, hhigh, fun i lane hlane => q.enables_iff i hlane, fun i hi h0 hlast => BurstRequest.enables_middle hi h0 hlast⟩

end Sys2Proof.Machine
end

