-- ==== Sys2Proof/Proofs/EncoderRule.lean ====
section
/-! PROOF. The encoder's byte-by-byte working (R104) against the rule over whole runs (R102): O34. -/

namespace Sys2Proof.Machine

-- One theorem at a time, as in the tests: all at once they pass the memory limit.
set_option Elab.async false

/-! ### The rule over whole runs, with all the steps it needs (R102) -/

/-- The tokens and the carry of a sequence, after a literal group. -/
def tokensByRule (endJob : Bool) (group seq : List Byte) : List (List Byte) × Carry :=
  Spec.encodeRule endJob seq.length group seq

theorem Spec.runLength_pos (b : Byte) (bs : List Byte) : 1 ≤ Spec.runLength (b :: bs) := Nat.le_add_right ..

/-- Steps beyond the length of the sequence add nothing. -/
theorem Spec.encodeRule_steps (endJob : Bool) {m n : Nat} (group : List Byte) {seq : List Byte} (hm : seq.length ≤ m)
    (hn : seq.length ≤ n) : Spec.encodeRule endJob m group seq = Spec.encodeRule endJob n group seq := by
  induction m generalizing n group seq with
  | zero =>
    rw [List.length_eq_zero_iff.1 (Nat.le_zero.1 hm)]
    simp only [Spec.encodeRule]
  | succ m ih =>
    cases seq with
    | nil => simp only [Spec.encodeRule]
    | cons b bs =>
      rw [List.length_cons] at hm hn
      obtain ⟨n, rfl⟩ : ∃ k, n = k + 1 := ⟨n - 1, by omega⟩
      have hpos := Spec.runLength_pos b bs
      have hdrop : ((b :: bs).drop (min (Spec.runLength (b :: bs)) 130)).length ≤ bs.length := by
        rw [List.length_drop, List.length_cons]
        omega
      have hrun := ih (n := n) [] (hdrop.trans (Nat.le_of_succ_le_succ hm)) (hdrop.trans (Nat.le_of_succ_le_succ hn))
      have hone := fun g => ih (n := n) g (Nat.le_of_succ_le_succ hm) (Nat.le_of_succ_le_succ hn)
      simp only [Spec.encodeRule, hrun, hone]

section
variable {endJob : Bool} (group : List Byte)

theorem tokensByRule_nil : tokensByRule endJob group [] = (Spec.groupTokens group, { value := 0, count := 0 }) := rfl

section
variable {b : Byte} {bs : List Byte}

/-- A run that is all that is left of a job that is not an END job. -/
theorem tokensByRule_last (he : endJob = false) (hl : Spec.runLength (b :: bs) = (b :: bs).length) :
    tokensByRule endJob group (b :: bs) =
      (Spec.groupTokens group ++ List.replicate ((Spec.runLength (b :: bs) - 1) / 130) (Spec.runTokenOf 130 b),
        { value := b, count := Spec.runLength (b :: bs) - 130 * ((Spec.runLength (b :: bs) - 1) / 130) }) :=
  if_pos ⟨he, hl⟩

/-- A run of 3 or more. -/
theorem tokensByRule_run (hn : ¬ (endJob = false ∧ Spec.runLength (b :: bs) = (b :: bs).length))
    (h3 : 3 ≤ Spec.runLength (b :: bs)) :
    tokensByRule endJob group (b :: bs) =
      (Spec.groupTokens group ++ Spec.runTokenOf (min (Spec.runLength (b :: bs)) 130) b ::
          (tokensByRule endJob [] ((b :: bs).drop (min (Spec.runLength (b :: bs)) 130))).1,
        (tokensByRule endJob [] ((b :: bs).drop (min (Spec.runLength (b :: bs)) 130))).2) := by
  have hsteps := Spec.encodeRule_steps endJob (m := bs.length) []
    (seq := (b :: bs).drop (min (Spec.runLength (b :: bs)) 130))
    (by rw [List.length_drop, List.length_cons]; have := Spec.runLength_pos b bs; omega) (le_refl _)
  unfold tokensByRule
  rw [← hsteps]
  exact (if_neg hn).trans (if_pos h3)

/-- A byte of a shorter run is appended to the group, as one copy. -/
theorem tokensByRule_single (hn : ¬ (endJob = false ∧ Spec.runLength (b :: bs) = (b :: bs).length))
    (h3 : ¬ 3 ≤ Spec.runLength (b :: bs)) (w : PackWork) :
    tokensByRule endJob w.group (b :: bs) =
      ((Spec.appendCopies b 1 w).1 ++ (tokensByRule endJob (Spec.appendCopies b 1 w).2.group bs).1,
        (tokensByRule endJob (Spec.appendCopies b 1 w).2.group bs).2) := by
  refine ((if_neg hn).trans (if_neg h3)).trans ?_
  by_cases hfull : (w.group ++ [b]).length = 128
  · simp only [Spec.appendCopies, if_pos hfull, List.append_nil]
    rfl
  · simp only [Spec.appendCopies, if_neg hfull, List.nil_append]
    rfl

end

/-! ### The lengths of runs -/

theorem Spec.runLength_replicate (v : Byte) (n : Nat) : Spec.runLength (List.replicate n v) = n := by
  cases n with
  | zero => rfl
  | succ n => simp [List.replicate_succ, Spec.runLength, Nat.add_comm]

/-- A run goes on over equal bytes. -/
theorem Spec.runLength_append_same (v : Byte) (n : Nat) (bs : List Byte) :
    Spec.runLength (List.replicate n v ++ v :: bs) = n + Spec.runLength (v :: bs) := by
  cases n with
  | zero => simp
  | succ n =>
    simp [List.replicate_succ, Spec.runLength, List.takeWhile_append_of_pos]
    omega

/-- A run ends at another byte. -/
theorem Spec.runLength_append_other {v b : Byte} (h : b ≠ v) (n : Nat) (bs : List Byte) :
    Spec.runLength (List.replicate (n + 1) v ++ b :: bs) = n + 1 := by
  simp [List.replicate_succ, Spec.runLength, List.takeWhile_append_of_pos, h, Nat.add_comm]

/-! ### The unit's run against the runs of the sequence (R104) -/

section
variable {v : Byte} {n : Nat} {rest : List Byte}

/-- A run of 3 to 130 copies that the rule cuts off as one token. -/
theorem tokensByRule_cut (h3 : 3 ≤ n) (hn : ¬ (endJob = false ∧
      Spec.runLength (List.replicate n v ++ rest) = (List.replicate n v ++ rest).length))
    (hmin : min (Spec.runLength (List.replicate n v ++ rest)) 130 = n) :
    tokensByRule endJob group (List.replicate n v ++ rest) =
      (Spec.groupTokens group ++ Spec.runTokenOf n v :: (tokensByRule endJob [] rest).1, (tokensByRule endJob [] rest).2) := by
  obtain ⟨m, rfl⟩ : ∃ m, n = m + 1 := ⟨n - 1, by omega⟩
  have hcons : List.replicate (m + 1) v ++ rest = v :: (List.replicate m v ++ rest) := rfl
  have hrun := tokensByRule_run (endJob := endJob) group (hcons ▸ hn) (hcons ▸ (show 3 ≤ Spec.runLength _ by omega))
  rw [← hcons, hmin, List.drop_left' List.length_replicate] at hrun
  exact hrun

/-- A run of 1 or 2 is appended to the group, copy by copy. -/
theorem tokensByRule_copies (h2 : n ≤ 2) (he : endJob = false → rest ≠ [])
    (hrun : ∀ k, Spec.runLength (List.replicate (k + 1) v ++ rest) = k + 1) (w : PackWork) :
    tokensByRule endJob w.group (List.replicate n v ++ rest) =
      ((Spec.appendCopies v n w).1 ++ (tokensByRule endJob (Spec.appendCopies v n w).2.group rest).1,
        (tokensByRule endJob (Spec.appendCopies v n w).2.group rest).2) := by
  induction n generalizing w with
  | zero => rfl
  | succ n ih =>
    have hcons : List.replicate (n + 1) v ++ rest = v :: (List.replicate n v ++ rest) := rfl
    have hlen := hrun n
    have hlast : ¬ (endJob = false ∧ Spec.runLength (List.replicate (n + 1) v ++ rest) =
        (List.replicate (n + 1) v ++ rest).length) := fun ⟨hf, hl⟩ => he hf (by
      rw [hlen, List.length_append, List.length_replicate] at hl
      exact List.length_eq_zero_iff.1 (by omega))
    have hone := tokensByRule_single (endJob := endJob) (hcons ▸ hlast) (hcons ▸ (show ¬ 3 ≤ Spec.runLength _ by omega)) w
    rw [← hcons, ih (by omega)] at hone
    rw [hone, Spec.appendCopies_succ v n w, List.append_assoc]

end

/-! ### A source byte, and the end of the source -/

/-- The bytes that the unit holds in its run. -/
def PackWork.run (w : PackWork) : List Byte := List.replicate w.runCount w.runValue

/-- What the unit does at a byte is what the rule does at the run before it. -/
theorem tokensByRule_encodes (w : PackWork) (hn : w.runCount ≤ 130) (b : Byte) (bs : List Byte) :
    tokensByRule endJob w.group (w.run ++ b :: bs) =
      ((Spec.encodes w b).1 ++ (tokensByRule endJob (Spec.encodes w b).2.group ((Spec.encodes w b).2.run ++ bs)).1,
        (tokensByRule endJob (Spec.encodes w b).2.group ((Spec.encodes w b).2.run ++ bs)).2) := by
  obtain ⟨group, v, n, phase⟩ := w
  dsimp only at hn
  unfold Spec.encodes PackWork.run
  dsimp only
  by_cases hz : n = 0
  · subst hz
    rfl
  rw [if_neg hz]
  by_cases hsame : b = v ∧ n < 130
  · obtain ⟨rfl, hlt⟩ := hsame
    rw [if_pos ⟨rfl, hlt⟩, List.replicate_succ', List.append_assoc]
    rfl
  rw [if_neg hsame]
  by_cases hb : b = v
  · obtain rfl : n = 130 := by
      have : ¬ n < 130 := fun h => hsame ⟨hb, h⟩
      omega
    subst hb
    rw [if_pos (.inl rfl)]
    have hlen := Spec.runLength_append_same b 130 bs
    have hpos := Spec.runLength_pos b bs
    by_cases hlast : endJob = false ∧ Spec.runLength (b :: bs) = (b :: bs).length
    · obtain ⟨he, hl⟩ := hlast
      have hall := tokensByRule_last (endJob := endJob) group (b := b) (bs := List.replicate 129 b ++ b :: bs) he
        (hlen.trans (by rw [hl]; simp; omega))
      have hrest := tokensByRule_last (endJob := endJob) [] he hl
      have hcount : (130 + Spec.runLength (b :: bs) - 1) / 130 = (Spec.runLength (b :: bs) - 1) / 130 + 1 := by omega
      have hcons : b :: (List.replicate 129 b ++ b :: bs) = List.replicate 130 b ++ b :: bs := rfl
      rw [hcons, hlen, hcount] at hall
      have hone : List.replicate 1 b ++ bs = b :: bs := rfl
      have hcarry : 130 + Spec.runLength (b :: bs) - 130 * ((Spec.runLength (b :: bs) - 1) / 130 + 1) =
          Spec.runLength (b :: bs) - 130 * ((Spec.runLength (b :: bs) - 1) / 130) := by omega
      rw [hall, hone, hrest, List.replicate_succ, hcarry]
      simp [Spec.groupTokens]
    · have hcut := tokensByRule_cut (endJob := endJob) group (v := b) (n := 130) (rest := b :: bs) (by omega)
        (by rw [hlen, List.length_append, List.length_replicate, Nat.add_left_cancel_iff]; exact hlast)
        (by rw [hlen]; omega)
      rw [hcut, List.append_assoc]
      rfl
  · have hruns := fun k => Spec.runLength_append_other hb k bs
    have hlen : Spec.runLength (List.replicate n v ++ b :: bs) = n := by
      have := hruns (n - 1)
      rwa [Nat.sub_add_cancel (Nat.pos_of_ne_zero hz)] at this
    have hlast : ¬ (endJob = false ∧ Spec.runLength (List.replicate n v ++ b :: bs) =
        (List.replicate n v ++ b :: bs).length) := by
      rw [hlen, List.length_append, List.length_replicate, List.length_cons]
      omega
    by_cases h3 : 3 ≤ n
    · rw [if_pos (.inr h3)]
      have hcut := tokensByRule_cut (endJob := endJob) group (v := v) (rest := b :: bs) h3 hlast (by rw [hlen]; omega)
      rw [hcut, List.append_assoc]
      rfl
    · rw [if_neg (not_or.2 ⟨hb, h3⟩)]
      have hcopies := tokensByRule_copies (endJob := endJob) (v := v) (n := n) (rest := b :: bs) (by omega) (fun _ => by simp)
        hruns { group := group, runValue := v, runCount := n, phase := phase }
      exact hcopies

theorem tokensByRule_encodesEnd (w : PackWork) (hn : w.runCount ≤ 130) :
    tokensByRule endJob w.group w.run = Spec.encodesEnd endJob w := by
  obtain ⟨group, v, n, phase⟩ := w
  dsimp only at hn
  have hlen := Spec.runLength_replicate v
  unfold Spec.encodesEnd PackWork.run
  dsimp only
  cases endJob with
  | false =>
    rw [if_pos rfl]
    cases n with
    | zero => exact tokensByRule_nil group
    | succ n =>
      have hall := tokensByRule_last (endJob := false) group (b := v) (bs := List.replicate n v) rfl (by
        rw [← List.replicate_succ, hlen, List.length_replicate])
      have hnone : (n + 1 - 1) / 130 = 0 := by omega
      rw [← List.replicate_succ, hlen, hnone] at hall
      rw [hall, if_neg (by omega)]
      exact congrArg (Prod.mk · _) (List.append_nil _)
  | true =>
    have hlast : ∀ m, ¬ (true = false ∧ m = (List.replicate n v ++ []).length) := fun _ h => absurd h.1 (by decide)
    have hnil := List.append_nil (List.replicate n v)
    rw [if_neg (by decide), ← hnil]
    by_cases h3 : 3 ≤ n
    · rw [if_pos h3, tokensByRule_cut group h3 (hlast _) (by rw [hnil, hlen]; omega), tokensByRule_nil]
      rfl
    · rw [if_neg h3]
      exact tokensByRule_copies (v := v) (rest := []) (by omega) (fun h => absurd h (by decide))
        (fun k => by rw [List.append_nil, hlen]) { group := group, runValue := v, runCount := n, phase := phase }

/-- What the unit does at a source and at its end is what the rule does. -/
theorem tokensByRule_source {w : PackWork} (hw : w.inRange) (source : List Byte) :
    tokensByRule endJob w.group (w.run ++ source) =
      ((Spec.outputsOf .pack w source).1 ++ (Spec.encodesEnd endJob (Spec.outputsOf .pack w source).2).1,
        (Spec.encodesEnd endJob (Spec.outputsOf .pack w source).2).2) := by
  induction source generalizing w with
  | nil => rw [List.append_nil, tokensByRule_encodesEnd w hw.1]; rfl
  | cons b bs ih =>
    rw [tokensByRule_encodes w hw.1, ih (Spec.encodes_inRange hw b), ← List.append_assoc]
    rfl

end

/-! ### The unit's working (R104) -/

/-- The unit's tokens over a source are those of the spec's five cases, byte by byte. -/
theorem Spec.unitEncodes_eq {w : PackWork} (hw : w.inRange) (source : List Byte) :
    Spec.unitEncodes w source = Spec.outputsOf .pack w source := by
  induction source generalizing w with
  | nil => rfl
  | cons b bs ih =>
    obtain ⟨⟨htokens, -⟩, hwork⟩ := encodeByte_spec w b hw.1
    rw [Spec.unitEncodes, htokens, hwork, ih (Spec.encodes_inRange hw b)]
    rfl

theorem Spec.outputsOf_inRange (m : PackMode) {w : PackWork} (hw : w.inRange) (bs : List Byte) :
    (Spec.outputsOf m w bs).2.inRange := by
  induction bs generalizing w with
  | nil => exact hw
  | cons b bs ih => exact ih (Spec.outputs_inRange m hw b)

/-- The carry that the end of the source leaves in the unit is the spec's. -/
theorem encodeEnd_carry (w : PackWork) (endJob : Bool) :
    Spec.runLeft (encodeEnd w endJob).work = (Spec.encodesEnd endJob w).2 := by
  have h0 := Encoding.emits_start w
  obtain ⟨hgroup, hgw⟩ := Encoding.emitGroup_spec h0
  unfold encodeEnd Spec.encodesEnd
  dsimp only
  cases endJob with
  | false =>
    have hcarry := congrArg Spec.runLeft hgw
    exact hcarry
  | true =>
    simp only [Bool.not_true, Bool.false_eq_true, Bool.true_eq_false, if_false]
    split
    · exact congrArg Spec.runLeft (Encoding.emitRun_spec hgroup _).2
    · obtain ⟨he, hw⟩ := Encoding.appendRun_spec h0 (by change w.runCount ≤ 2; omega)
      rw [(Encoding.emitGroup_spec he).2, hw]
      rfl

/-- The working pack state of a job that starts with a carry (R95). -/
def Carry.start (carry : Carry) : PackWork :=
  { group := [], runValue := carry.value, runCount := carry.count, phase := .header }

theorem Carry.start_inRange {carry : Carry} (h : Spec.carryLegal carry) : carry.start.inRange :=
  ⟨h.1, fun n hn => by cases hn⟩

/-- The unit's whole encoding of a job, by the spec's cases. -/
theorem Spec.unitEncoding_eq (endJob : Bool) {carry : Carry} (h : Spec.carryLegal carry) (source : List Byte) :
    Spec.unitEncoding endJob carry source =
      ((Spec.outputsOf .pack carry.start source).1 ++
          (Spec.encodesEnd endJob (Spec.outputsOf .pack carry.start source).2).1,
        (Spec.encodesEnd endJob (Spec.outputsOf .pack carry.start source).2).2) := by
  have hwork := Spec.unitEncodes_eq (Carry.start_inRange h) source
  obtain ⟨⟨htokens, -⟩, -⟩ := encodeEnd_spec (Spec.outputsOf .pack carry.start source).2 endJob
  rw [← encodeEnd_carry, ← htokens, ← hwork]
  rfl

/-- Settles O34: the run that the unit holds, with the source to come, is the sequence that the rule has before it. -/
theorem encoderFollowsTheRule : Obligations.EncoderFollowsTheRule := by
  intro endJob carry source h
  rw [Spec.unitEncoding_eq endJob h]
  exact (tokensByRule_source (Carry.start_inRange h) source).symm

end Sys2Proof.Machine
end

