-- ==== Sys2Proof/Proofs/Decoding.lean ====
section
/-! PROOF. UNPACK undoes PACK (R101 to R106): O35. The tokens of a job decode, one after another, to the bytes that the literal group
and the run gave up for them. -/

namespace Sys2Proof.Machine

-- One theorem at a time, as in the tests: all at once they pass the memory limit.
set_option Elab.async false

/-! ### The decoder (R106) -/

/-- The working pack state after some items is that of the last item that sets it. -/
theorem workAfter_eq_getLast (its : List OutItem) (w : PackWork) :
    workAfter its w = ((its.filterMap OutItem.after).getLast?).getD w := by
  induction its using List.reverseRecOn with
  | nil => rfl
  | append_singleton its it ih =>
    rw [workAfter_concat, ih, List.filterMap_append]
    cases h : it.after <;> simp [h]

/-- The unit's decoder is the spec's, byte by byte. -/
theorem Spec.unitDecodes_eq {w : PackWork} (hw : w.inRange) (bs : List Byte) :
    Spec.unitDecodes w bs = ((Spec.outputsOf .unpack w bs).1.flatten, (Spec.outputsOf .unpack w bs).2) := by
  induction bs generalizing w with
  | nil => rfl
  | cons b bs ih =>
    obtain ⟨hpieces, hafter, -, -⟩ := itemsFor_spec .unpack hw b
    have hitems : itemsFor .unpack w b = decodeByte w b := rfl
    rw [hitems] at hpieces hafter
    rw [Spec.unitDecodes, ← workAfter_eq_getLast, hafter, hpieces, flatten_piecesOrNone, ih (Spec.outputs_inRange _ hw b)]
    simp [Spec.outputsOf]

/-- Packed bytes that the decoder, from the phase HEADER, decodes to some bytes, coming back to HEADER. -/
structure DecodesTo (packed bytes : List Byte) : Prop where
  output : (Spec.outputsOf .unpack PackWork.reset packed).1.flatten = bytes
  atHeader : (Spec.outputsOf .unpack PackWork.reset packed).2 = PackWork.reset

theorem DecodesTo.nil : DecodesTo [] [] := ⟨rfl, rfl⟩

theorem DecodesTo.append {p q a b : List Byte} (hp : DecodesTo p a) (hq : DecodesTo q b) : DecodesTo (p ++ q) (a ++ b) := by
  refine ⟨?_, ?_⟩ <;> rw [Spec.outputsOf_append, hp.atHeader]
  · rw [List.flatten_append, hp.output, hq.output]
  · exact hq.atHeader

/-- A header calls for no output and begins its phase. -/
theorem Spec.outputs_header (b : Byte) :
    Spec.outputs .unpack PackWork.reset b =
      ([], { PackWork.reset with phase := if b.toNat < 128 then .literal (b.toNat + 1) else .runValue (b.toNat - 125) }) := rfl

/-- The bytes of a literal token, once its header has been taken. -/
theorem Spec.outputsOf_literal (b : Byte) (bs : List Byte) :
    (Spec.outputsOf .unpack { PackWork.reset with phase := .literal (bs.length + 1) } (b :: bs)).1.flatten = b :: bs ∧
      (Spec.outputsOf .unpack { PackWork.reset with phase := .literal (bs.length + 1) } (b :: bs)).2 = PackWork.reset := by
  induction bs generalizing b with
  | nil => exact ⟨rfl, rfl⟩
  | cons c bs ih =>
    obtain ⟨hout, hend⟩ := ih c
    exact ⟨congrArg (b :: ·) hout, hend⟩

/-- A literal token decodes to its bytes (R101). -/
theorem decodesTo_literal {group : List Byte} (hne : group ≠ []) (hlen : group.length ≤ 128) :
    DecodesTo (BitVec.ofNat 8 (group.length - 1) :: group) group := by
  obtain ⟨b, bs, rfl⟩ := List.exists_cons_of_ne_nil hne
  rw [List.length_cons] at hlen ⊢
  have hheader : (BitVec.ofNat 8 (bs.length + 1 - 1)).toNat = bs.length := by
    rw [BitVec.toNat_ofNat]
    omega
  have hphase : (Spec.outputs .unpack PackWork.reset (BitVec.ofNat 8 (bs.length + 1 - 1))).2 =
      { PackWork.reset with phase := .literal (bs.length + 1) } := by
    rw [Spec.outputs_header, hheader, if_pos (by omega)]
  obtain ⟨hout, hend⟩ := Spec.outputsOf_literal b bs
  refine ⟨?_, ?_⟩ <;> rw [Spec.outputsOf, hphase]
  · exact hout
  · exact hend

/-- A run token decodes to its copies (R101). -/
theorem decodesTo_run {n : Nat} (h3 : 3 ≤ n) (hn : n ≤ 130) (v : Byte) :
    DecodesTo (Spec.runTokenOf n v) (List.replicate n v) := by
  have hheader : (BitVec.ofNat 8 (n + 125)).toNat = n + 125 := by
    rw [BitVec.toNat_ofNat]
    omega
  have hphase : (Spec.outputs .unpack PackWork.reset (BitVec.ofNat 8 (n + 125))).2 =
      { PackWork.reset with phase := .runValue n } := by
    rw [Spec.outputs_header, hheader, if_neg (by omega), Nat.add_sub_cancel]
  unfold Spec.runTokenOf
  refine ⟨?_, ?_⟩ <;> rw [Spec.outputsOf, hphase]
  · change (List.replicate n [v] ++ []).flatten = _
    simp
  · rfl

theorem decodesTo_group {group : List Byte} (hlen : group.length ≤ 128) :
    DecodesTo (Spec.groupTokens group).flatten group := by
  cases group with
  | nil => exact DecodesTo.nil
  | cons b bs =>
    have := decodesTo_literal (group := b :: bs) (by simp) hlen
    simpa [Spec.groupTokens] using this

/-! ### The literal group between tokens (R104) -/

/-- The group stays short of a token as copies are appended. -/
theorem Spec.appendCopies_length (v : Byte) (n : Nat) {w : PackWork} (h : w.group.length ≤ 127) :
    (Spec.appendCopies v n w).2.group.length ≤ 127 := by
  induction n generalizing w with
  | zero => exact h
  | succ n ih =>
    unfold Spec.appendCopies
    split
    · exact ih (Nat.zero_le _)
    · rename_i hfull
      refine ih ?_
      rw [List.length_append, List.length_singleton] at hfull ⊢
      omega

theorem Spec.encodes_length {w : PackWork} (h : w.group.length ≤ 127) (b : Byte) :
    (Spec.encodes w b).2.group.length ≤ 127 := by
  unfold Spec.encodes
  split
  · exact h
  split
  · exact h
  split
  · exact Nat.zero_le _
  · exact Spec.appendCopies_length _ _ h

/-! ### What the tokens of a source decode to (R102, R104) -/

/-- The bytes that the unit has taken and not yet given a token. -/
def PackWork.held (w : PackWork) : List Byte := w.group ++ w.run

theorem decodesTo_appendCopies (v : Byte) (n : Nat) {w : PackWork} (h : w.group.length ≤ 127) :
    ∃ bytes, DecodesTo (Spec.appendCopies v n w).1.flatten bytes ∧
      bytes ++ (Spec.appendCopies v n w).2.group = w.group ++ List.replicate n v := by
  induction n generalizing w with
  | zero => exact ⟨[], DecodesTo.nil, by simp [Spec.appendCopies]⟩
  | succ n ih =>
    unfold Spec.appendCopies
    split
    · rename_i hfull
      obtain ⟨bytes, hdec, hbytes⟩ := ih (w := { w with group := [] }) (Nat.zero_le _)
      refine ⟨w.group ++ [v] ++ bytes, ?_, ?_⟩
      · dsimp only
        rw [List.flatten_append]
        exact (decodesTo_group hfull.le).append hdec
      · rw [List.append_assoc, hbytes]
        simp [List.replicate_succ]
    · rename_i hfull
      obtain ⟨bytes, hdec, hbytes⟩ := ih (w := { w with group := w.group ++ [v] }) (by
        rw [List.length_append, List.length_singleton] at hfull ⊢
        omega)
      exact ⟨bytes, hdec, hbytes.trans (by simp [List.replicate_succ])⟩

/-- The group, and the run as one token. -/
theorem decodesTo_groupAndRun {w : PackWork} (h : w.group.length ≤ 127) (h3 : 3 ≤ w.runCount) (hn : w.runCount ≤ 130) :
    DecodesTo (Spec.groupTokens w.group ++ [Spec.runTokenOf w.runCount w.runValue]).flatten w.held := by
  rw [List.flatten_append, List.flatten_singleton]
  exact (decodesTo_group (by omega)).append (decodesTo_run h3 hn _)

/-- The tokens of a source byte decode to what the group and the run, with the byte, give up. -/
theorem decodesTo_encodes {w : PackWork} (h : w.group.length ≤ 127) (hn : w.runCount ≤ 130) (b : Byte) :
    ∃ bytes, DecodesTo (Spec.encodes w b).1.flatten bytes ∧ bytes ++ (Spec.encodes w b).2.held = w.held ++ [b] := by
  unfold Spec.encodes
  split
  · rename_i hz
    exact ⟨[], DecodesTo.nil, by simp [PackWork.held, PackWork.run, hz]⟩
  split
  · rename_i hsame
    exact ⟨[], DecodesTo.nil, by simp [PackWork.held, PackWork.run, hsame.1, List.replicate_succ']⟩
  split
  · rename_i hz hsame hcut
    have h3 : 3 ≤ w.runCount := hcut.elim (fun hb => by
      have : ¬ w.runCount < 130 := fun hlt => hsame ⟨hb, hlt⟩
      omega) id
    exact ⟨w.held, decodesTo_groupAndRun h h3 hn, rfl⟩
  · obtain ⟨bytes, hdec, hbytes⟩ := decodesTo_appendCopies w.runValue w.runCount h
    refine ⟨bytes, hdec, ?_⟩
    rw [PackWork.held, ← List.append_assoc]
    exact congrArg (· ++ [b]) hbytes

theorem decodesTo_outputsOf {w : PackWork} (h : w.group.length ≤ 127) (hw : w.inRange) (source : List Byte) :
    ∃ bytes, DecodesTo (Spec.outputsOf .pack w source).1.flatten bytes ∧
      bytes ++ (Spec.outputsOf .pack w source).2.held = w.held ++ source ∧
      (Spec.outputsOf .pack w source).2.group.length ≤ 127 := by
  induction source generalizing w with
  | nil => exact ⟨[], DecodesTo.nil, by simp [Spec.outputsOf], h⟩
  | cons b bs ih =>
    obtain ⟨first, hfirst, hheld⟩ := decodesTo_encodes h hw.1 b
    obtain ⟨rest, hrest, hleft, hlen⟩ := ih (Spec.encodes_length h b) (Spec.encodes_inRange hw b)
    refine ⟨first ++ rest, ?_, ?_, hlen⟩
    · have happ : (Spec.outputsOf .pack w (b :: bs)).1 =
          (Spec.encodes w b).1 ++ (Spec.outputsOf .pack (Spec.encodes w b).2 bs).1 := rfl
      rw [happ, List.flatten_append]
      exact hfirst.append hrest
    · have hwork : (Spec.outputsOf .pack w (b :: bs)).2 = (Spec.outputsOf .pack (Spec.encodes w b).2 bs).2 := rfl
      rw [hwork, List.append_assoc, hleft, ← List.append_assoc, hheld, List.append_assoc]
      rfl

/-- The tokens of the end of the source decode to all that is held but the carry. -/
theorem decodesTo_encodesEnd (endJob : Bool) {w : PackWork} (h : w.group.length ≤ 127) (hn : w.runCount ≤ 130) :
    ∃ bytes, DecodesTo (Spec.encodesEnd endJob w).1.flatten bytes ∧
      bytes ++ List.replicate (Spec.encodesEnd endJob w).2.count (Spec.encodesEnd endJob w).2.value = w.held := by
  unfold Spec.encodesEnd
  split
  · refine ⟨w.group, decodesTo_group (by omega), congrArg (w.group ++ ·) ?_⟩
    by_cases hz : w.runCount = 0
    · simp [PackWork.run, hz]
    · simp [PackWork.run, hz]
  split
  · rename_i h3
    exact ⟨w.held, decodesTo_groupAndRun h h3 hn, List.append_nil _⟩
  · obtain ⟨bytes, hdec, hbytes⟩ := decodesTo_appendCopies w.runValue w.runCount h
    have hlen := Spec.appendCopies_length w.runValue w.runCount h
    refine ⟨bytes ++ (Spec.appendCopies w.runValue w.runCount w).2.group, ?_, (List.append_nil _).trans hbytes⟩
    dsimp only
    rw [List.flatten_append]
    exact hdec.append (decodesTo_group (by omega))

/-- An END job holds nothing back (R102). -/
theorem Spec.encodesEnd_count (w : PackWork) : (Spec.encodesEnd true w).2.count = 0 := by
  unfold Spec.encodesEnd
  rw [if_neg (by decide)]
  split <;> rfl

/-- Settles O35: the tokens decode to the bytes that the unit took, but for those it still holds. -/
theorem unpackUndoesPack : Obligations.UnpackUndoesPack := by
  intro endJob carry source h encoded start
  have hw := Carry.start_inRange h
  have henc : encoded = _ := Spec.unitEncoding_eq endJob h source
  obtain ⟨first, hfirst, hheld, hlen⟩ := decodesTo_outputsOf (w := carry.start) (Nat.zero_le _) hw source
  obtain ⟨hrun, -⟩ := Spec.outputsOf_inRange .pack hw source
  obtain ⟨last, hlast, hleft⟩ := decodesTo_encodesEnd endJob hlen hrun
  have hdec := hfirst.append hlast
  rw [← List.flatten_append] at hdec
  refine ⟨⟨first ++ last, ?_, ?_⟩, ?_⟩
  · have hstart : start.inRange := ⟨Nat.zero_le _, fun n hn => by cases hn⟩
    rw [Spec.unitDecodes_eq hstart, henc]
    exact Prod.ext hdec.output hdec.atHeader
  · rw [henc, List.append_assoc, hleft, hheld]
    rfl
  · rintro rfl
    rw [henc]
    exact Spec.encodesEnd_count _

end Sys2Proof.Machine
end

