-- ==== Sys2Proof/Proofs/PackFills.lean ====
section
/-! SUPPORT. A pack unit whose output reaches the end of its write buffer (R97 to R99, R105, R106): the items accepted whole, the one
that is cut, and those left. -/

namespace Sys2Proof.Machine

-- One theorem at a time, as in the tests: all at once they pass the memory limit.
set_option Elab.async false

/-! ### Items accepted as far as a number of bytes -/

/-- The items when some bytes of the first have been accepted. -/
def cutFirst (n : Nat) : List OutItem → List OutItem
  | [] => []
  | it :: its => { it with bytes := it.bytes.drop n } :: its

section
variable (n : Nat) (its : List OutItem)

theorem cutFirst_takes : (cutFirst n its).map OutItem.takes = its.map OutItem.takes := by
  cases its <;> rfl

theorem cutFirst_takesIn : takesIn (cutFirst n its) = takesIn its := by
  have h : ∀ l : List OutItem, takesIn l = ((l.map OutItem.takes).filter id).length := fun l => by
    rw [takesIn, List.filter_map, List.length_map]
    rfl
  rw [h, h, cutFirst_takes]

theorem cutFirst_workAfter (w : PackWork) : workAfter (cutFirst n its) w = workAfter its w := by
  cases its <;> rfl

end

theorem cutFirst_zero (its : List OutItem) : cutFirst 0 its = its := by
  cases its <;> rfl

/-- The first `n` bytes of the items have been accepted: all those of `done`, and `c` of the first of `rest`. -/
structure AcceptedTo (its : List OutItem) (n : Nat) (done rest : List OutItem) (c : Nat) : Prop where
  split : its = done ++ rest
  bytes : (outputOf done).length + c = n
  within : ∀ it more, rest = it :: more → c = 0 ∨ c < it.bytes.length
  whole : rest = [] → c = 0

section
variable {its done rest : List OutItem} {n c : Nat} (h : AcceptedTo its n done rest c)
include h

theorem AcceptedTo.takes : takesIn done + takesIn (cutFirst c rest) = takesIn its := by
  rw [cutFirst_takesIn, h.split]
  simp only [takesIn, List.filter_append, List.length_append]

theorem AcceptedTo.work (w : PackWork) : workAfter (cutFirst c rest) (workAfter done w) = workAfter its w := by
  rw [cutFirst_workAfter, h.split]
  simp only [workAfter, List.foldl_append]

/-- Items before the first cut are accepted as well. -/
theorem AcceptedTo.prepend (front : List OutItem) :
    AcceptedTo (front ++ its) ((outputOf front).length + n) (front ++ done) rest c where
  split := by rw [h.split, List.append_assoc]
  bytes := by
    have := h.bytes
    rw [outputOf, List.map_append, List.flatten_append, List.length_append]
    simp only [outputOf] at this ⊢
    omega
  within := h.within
  whole := h.whole

variable (hne : ∀ it ∈ its, it.bytes ≠ [])
include hne

/-- A cut lies within the first item left. -/
theorem AcceptedTo.cut {it : OutItem} {more : List OutItem} (hr : rest = it :: more) : c < it.bytes.length := by
  have hpos : 0 < it.bytes.length := List.length_pos_iff.2 (hne it (by rw [h.split, hr]; simp))
  rcases h.within it more hr with hz | hlt
  · omega
  · exact hlt

/-- Nothing is left exactly when all the bytes are accepted. -/
theorem AcceptedTo.rest_nil_iff : rest = [] ↔ ¬ n < (outputOf its).length := by
  have hbytes := h.bytes
  have hall : (outputOf its).length = (outputOf done).length + (outputOf rest).length := by
    rw [h.split, outputOf, List.map_append, List.flatten_append, List.length_append]
    rfl
  cases hr : rest with
  | nil =>
    have hwhole := h.whole hr
    have hnil : (outputOf rest).length = 0 := by rw [hr]; rfl
    exact iff_of_true rfl (by omega)
  | cons it more =>
    have hwithin := h.cut hne hr
    have hcons : (outputOf rest).length = it.bytes.length + (outputOf more).length := by
      rw [hr, outputOf_cons, List.length_append]
    exact iff_of_false (by simp) (by omega)

theorem AcceptedTo.nonempty : ∀ it ∈ cutFirst c rest, it.bytes ≠ [] := by
  intro x hx
  cases hr : rest with
  | nil =>
    rw [hr] at hx
    exact absurd hx (by simp [cutFirst])
  | cons it more =>
    have hwithin := h.cut hne hr
    rw [hr] at hx
    rcases List.mem_cons.1 hx with rfl | hx
    · exact fun e => by
        have := List.drop_eq_nil_iff.1 e
        omega
    · refine hne x ?_
      rw [h.split, hr]
      exact List.mem_append_right _ (List.mem_cons_of_mem _ hx)

/-- What is left of the items is what is left of their bytes. -/
theorem AcceptedTo.pieces : (cutFirst c rest).map OutItem.bytes = Spec.leftOf n (its.map OutItem.bytes) := by
  obtain ⟨rfl, rfl, hwithin, hwhole⟩ := h
  induction done with
  | nil =>
    cases rest with
    | nil => cases hwhole rfl; rfl
    | cons it more =>
      have hout : (outputOf []).length + c = c := Nat.zero_add c
      rw [hout]
      cases c with
      | zero => rfl
      | succ c => exact (if_neg (Nat.not_le.2 ((hwithin it more rfl).resolve_left (by simp)))).symm
  | cons it done ih =>
    have hpos : 0 < it.bytes.length := List.length_pos_iff.2 (hne it (by simp))
    obtain ⟨m, hm⟩ : ∃ m, (outputOf (it :: done)).length + c = m + 1 :=
      ⟨(outputOf (it :: done)).length + c - 1, by rw [outputOf_cons, List.length_append]; omega⟩
    have hsub : m + 1 - it.bytes.length = (outputOf done).length + c := by
      rw [← hm, outputOf_cons, List.length_append]
      omega
    have hle : it.bytes.length ≤ m + 1 := by
      rw [← hm, outputOf_cons, List.length_append]
      omega
    have hleft : Spec.leftOf (m + 1) ((it :: done ++ rest).map OutItem.bytes) =
        Spec.leftOf (m + 1 - it.bytes.length) ((done ++ rest).map OutItem.bytes) := if_pos hle
    rw [hm, hleft, hsub]
    exact ih fun x hx => hne x (List.mem_cons_of_mem _ hx)

end

/-! ### What is left of pieces -/

/-- Pieces accepted before the last byte. -/
theorem Spec.leftOf_append {pre : List (List Byte)} {n : Nat} (h : pre.flatten.length < n) (ps : List (List Byte)) :
    Spec.leftOf n (pre ++ ps) = Spec.leftOf (n - pre.flatten.length) ps := by
  induction pre generalizing n with
  | nil => rfl
  | cons p pre ih =>
    rw [List.flatten_cons, List.length_append] at h
    obtain ⟨m, rfl⟩ : ∃ m, n = m + 1 := ⟨n - 1, by omega⟩
    have hp : Spec.leftOf (m + 1) (p :: (pre ++ ps)) = Spec.leftOf (m + 1 - p.length) (pre ++ ps) := if_pos (by omega)
    rw [List.cons_append, hp, ih (by omega), List.flatten_cons, List.length_append, Nat.sub_sub]

theorem Spec.leftOf_zero (ps : List (List Byte)) : Spec.leftOf 0 ps = ps := by
  cases ps <;> rfl

/-- Pieces after those that hold the last byte stay as they are. -/
theorem Spec.leftOf_append_right {ps : List (List Byte)} {n : Nat} (h : n ≤ ps.flatten.length) (more : List (List Byte)) :
    Spec.leftOf n (ps ++ more) = Spec.leftOf n ps ++ more := by
  induction ps generalizing n with
  | nil =>
    obtain rfl : n = 0 := Nat.le_zero.1 h
    rw [Spec.leftOf_zero, Spec.leftOf_zero]
  | cons p ps ih =>
    rw [List.flatten_cons, List.length_append] at h
    cases n with
    | zero => rfl
    | succ n =>
      rw [List.cons_append]
      simp only [Spec.leftOf]
      split
      · exact ih (by omega)
      · rfl

/-! ### The unit at the end of its buffer -/

/-- The destination cursor comes to the same place in one stretch or in two. -/
theorem Spec.destMoved_accepting {u : PackUnit} {n m : Nat} {out : List Byte} (h : 0 < Spec.bufferSpace u)
    (hm : out.length ≤ m) : Spec.destMoved (Spec.accepting u n out) (m - out.length) = Spec.destMoved u m := by
  unfold Spec.destMoved
  simp only [Spec.accepting]
  cases hf : u.dest[u.destCursor.fragment]? with
  | none => simp [Spec.bufferSpace, hf] at h
  | some f => simp only [Nat.add_assoc, Nat.add_sub_cancel' hm]

/-- The step with its destination cursor at another place. -/
def PackStep.withCursor (w : PackStep) (d : Cursor) : PackStep := { w with unit := { w.unit with destCursor := d } }

theorem PackStep.takeFront_nil {w : PackStep} (h : w.unit.readAhead = []) : w.takeFront = w := by
  rw [PackStep.takeFront, h]

/-- An item's completion does not hang on the destination cursor. -/
theorem PackStep.complete_withCursor (w : PackStep) (d : Cursor) (it : OutItem) :
    (w.withCursor d).complete it = (w.complete it).withCursor d := by
  have hfront : (w.withCursor d).takeFront = w.takeFront.withCursor d := by
    cases hr : w.unit.readAhead with
    | nil => rw [PackStep.takeFront_nil hr, PackStep.takeFront_nil (w := w.withCursor d) hr]
    | cons b bs =>
      rw [PackStep.takeFront_cons hr, PackStep.takeFront_cons (w := w.withCursor d) hr]
      rfl
  unfold PackStep.complete
  dsimp only
  rw [hfront]
  cases it.takes <;> cases it.after <;> rfl

/-- A unit that has taken `n` bytes of its read-ahead and filled its write buffer since it stood as `u`, with what its tap was
offered. -/
def PackUnit.filled (u : PackUnit) (n : Nat) (out : List Byte) (work : PackWork) (owed : List OutItem) : PackStep :=
  (u.reached n out work owed).withCursor (Spec.destMoved u (Spec.bufferSpace u))

section
variable {u : PackUnit} {n : Nat} {out : List Byte} {work : PackWork} {owed : List OutItem}

/-- An item of the output that fills the write buffer, accepted whole or cut. -/
theorem acceptItems_reached_cut {it : OutItem} {its : List OutItem} (ht : it.takes = true → n < u.readAhead.length)
    (hs : out.length < Spec.bufferSpace u) (hf : Spec.bufferSpace u ≤ out.length + it.bytes.length)
    (hc : out.length + it.bytes.length ≤ Spec.capacity u) :
    ∃ done rest c, AcceptedTo (it :: its) (Spec.bufferSpace u - out.length) done rest c ∧
      acceptItems (it :: its) (u.reached n out work owed) =
        (u.filled (n + takesIn done) ((out ++ it.bytes).take (Spec.bufferSpace u)) (workAfter done work) (cutFirst c rest),
          .writeDue) := by
  have hspace : Spec.bufferSpace (u.reached n out work owed).unit = Spec.bufferSpace u - out.length :=
    Spec.bufferSpace_accepting u n out (.inr hs)
  have hcap : Spec.capacity (u.reached n out work owed).unit = Spec.capacity u - out.length := Spec.capacity_accepting u n out
  have hmoved : Spec.destMoved (u.reached n out work owed).unit (Spec.bufferSpace u - out.length) =
      Spec.destMoved u (Spec.bufferSpace u) := Spec.destMoved_accepting (n := n) (Nat.zero_lt_of_lt hs) hs.le
  have hitems := acceptItems_fills (its := its) (it := it) (w := u.reached n out work owed) (by omega) (by omega) (by omega)
  dsimp only at hitems
  rw [hspace, hmoved] at hitems
  rw [hitems]
  by_cases hwhole : Spec.bufferSpace u - out.length = it.bytes.length
  · have hlen : (out ++ it.bytes).length = Spec.bufferSpace u := by
      rw [List.length_append]
      omega
    have hdone : PackStep.complete (PackStep.withCursor
          { unit := Spec.accepting (u.reached n out work owed).unit 0 it.bytes
            offered := (u.reached n out work owed).offered ++ (u.reached n out work owed).unit.outOffered it.bytes }
          (Spec.destMoved u (Spec.bufferSpace u))) it =
        u.filled (n + takesIn [it]) (out ++ it.bytes) (it.after.getD work) owed := by
      rw [PackStep.complete_withCursor, PackUnit.reached_complete ht]
      rfl
    refine ⟨[it], its, 0, ⟨rfl, ?_, fun _ _ _ => .inl rfl, fun _ => rfl⟩, ?_⟩
    · rw [outputOf_cons]
      simp [outputOf, hwhole]
    · rw [if_pos hwhole, hwhole, List.take_length, List.take_of_length_le hlen.le, cutFirst_zero]
      exact congrArg (fun w : PackStep => ({ w with unit := { w.unit with owed := its } }, Drive.writeDue)) hdone
  · have hcut : Spec.bufferSpace u - out.length < it.bytes.length := by omega
    refine ⟨[], it :: its, Spec.bufferSpace u - out.length, ⟨rfl, Nat.zero_add _, ?_, fun h => absurd h (by simp)⟩, ?_⟩
    · rintro it' more h
      obtain ⟨rfl, -⟩ := List.cons.inj h
      exact .inr hcut
    · have hacc : Spec.accepting (u.reached n out work owed).unit 0 (it.bytes.take (Spec.bufferSpace u - out.length)) =
          (u.reached n (out ++ it.bytes.take (Spec.bufferSpace u - out.length)) work owed).unit := by
        rw [PackUnit.reached, PackUnit.reached, ← Spec.accepting_append]
        rfl
      have hoff : (u.reached n out work owed).offered ++
            (u.reached n out work owed).unit.outOffered (it.bytes.take (Spec.bufferSpace u - out.length)) =
          (u.reached n (out ++ it.bytes.take (Spec.bufferSpace u - out.length)) work owed).offered := by
        rw [PackUnit.outOffered_eq]
        exact (tapped_append ..).trans (by rw [List.append_nil]; rfl)
      rw [if_neg hwhole, List.take_append, List.take_of_length_le hs.le, hacc, hoff]
      rfl

/-- Items of the output that reach the end of the write buffer: the one that does, and those before it, have room. -/
theorem acceptItems_reached_fills {pre more : List OutItem} {it : OutItem}
    (ht : n + takesIn (pre ++ it :: more) ≤ u.readAhead.length)
    (hs : out.length + (outputOf pre).length < Spec.bufferSpace u)
    (hf : Spec.bufferSpace u ≤ out.length + (outputOf pre).length + it.bytes.length)
    (hc : out.length + (outputOf pre).length + it.bytes.length ≤ Spec.capacity u) :
    ∃ done rest c, AcceptedTo (pre ++ it :: more) (Spec.bufferSpace u - out.length) done rest c ∧
      acceptItems (pre ++ it :: more) (u.reached n out work owed) =
        (u.filled (n + takesIn done) ((out ++ outputOf (pre ++ it :: more)).take (Spec.bufferSpace u)) (workAfter done work)
          (cutFirst c rest), .writeDue) := by
  have htakes : takesIn (pre ++ it :: more) = takesIn pre + takesIn (it :: more) := by
    simp only [takesIn, List.filter_append, List.length_append]
  rw [htakes, takesIn_cons] at ht
  have hfront := acceptItems_reached_append (u := u) (n := n) (out := out) (work := work) (owed := owed) (its := pre)
    (more := it :: more) (by omega) (by omega) (.inr hs)
  obtain ⟨done, rest, c, hacc, hcut⟩ := acceptItems_reached_cut (u := u) (n := n + takesIn pre) (out := out ++ outputOf pre)
    (work := workAfter pre work) (owed := owed) (its := more) (it := it)
    (fun e => by rw [takesIn_singleton e] at ht; omega) (by rw [List.length_append]; exact hs)
    (by rw [List.length_append]; exact hf) (by rw [List.length_append]; exact hc)
  refine ⟨pre ++ done, rest, c, ?_, ?_⟩
  · have hsum : (outputOf pre).length + (Spec.bufferSpace u - (out ++ outputOf pre).length) =
        Spec.bufferSpace u - out.length := by
      rw [List.length_append]
      omega
    rw [← hsum]
    exact hacc.prepend pre
  · have hwork : workAfter (pre ++ done) work = workAfter done (workAfter pre work) := List.foldl_append ..
    have htaken : takesIn (pre ++ done) = takesIn pre + takesIn done := by
      simp only [takesIn, List.filter_append, List.length_append]
    have hbytes : (out ++ outputOf (pre ++ it :: more)).take (Spec.bufferSpace u) =
        (out ++ outputOf pre ++ it.bytes).take (Spec.bufferSpace u) := by
      have hall : out ++ outputOf (pre ++ it :: more) = out ++ outputOf pre ++ it.bytes ++ outputOf more := by
        simp [outputOf]
      rw [hall, List.take_append_of_le_length (by rw [List.length_append, List.length_append]; exact hf)]
    rw [hfront, hcut, hbytes, hwork, htaken, Nat.add_assoc]

end

end Sys2Proof.Machine
end

