-- ==== Sys2Proof/Proofs/PackLeft.lean ====
section
/-! SUPPORT. What a pack unit that has filled its write buffer has pending (R97, R98, R105, R106): the items left of what it owed, of what
a byte called for, or of the end-of-source emissions, with all that the rest of the read-ahead calls for. -/

namespace Sys2Proof.Machine

-- One theorem at a time, as in the tests: all at once they pass the memory limit.
set_option Elab.async false

/-! ### The pieces of some output (R100, R104, R106) -/

theorem Spec.groupTokens_ne_nil {group p : List Byte} (h : p ∈ Spec.groupTokens group) : p ≠ [] := by
  unfold Spec.groupTokens at h
  split at h
  · exact absurd h (by simp)
  · rw [List.mem_singleton.1 h]
    simp

theorem Spec.appendCopies_ne_nil (v : Byte) (n : Nat) {w : PackWork} {p : List Byte} (h : p ∈ (Spec.appendCopies v n w).1) :
    p ≠ [] := by
  induction n generalizing w with
  | zero => exact absurd h (by simp [Spec.appendCopies])
  | succ n ih =>
    unfold Spec.appendCopies at h
    split at h
    · rcases List.mem_append.1 h with h | h
      · exact Spec.groupTokens_ne_nil h
      · exact ih h
    · exact ih h

/-- The group and the run are emitted in tokens. -/
theorem Spec.groupAndRun_ne_nil {group p : List Byte} {n : Nat} {v : Byte}
    (h : p ∈ Spec.groupTokens group ++ [Spec.runTokenOf n v]) : p ≠ [] := by
  rcases List.mem_append.1 h with h | h
  · exact Spec.groupTokens_ne_nil h
  · rw [List.mem_singleton.1 h]
    simp [Spec.runTokenOf]

theorem Spec.encodes_ne_nil {w : PackWork} {b : Byte} {p : List Byte} (h : p ∈ (Spec.encodes w b).1) : p ≠ [] := by
  unfold Spec.encodes at h
  split at h
  · exact absurd h (by simp)
  split at h
  · exact absurd h (by simp)
  split at h
  · exact Spec.groupAndRun_ne_nil h
  · exact Spec.appendCopies_ne_nil _ _ h

theorem Spec.encodesEnd_ne_nil {w : PackWork} {endJob : Bool} {p : List Byte} (h : p ∈ (Spec.encodesEnd endJob w).1) :
    p ≠ [] := by
  unfold Spec.encodesEnd at h
  split at h
  · exact Spec.groupTokens_ne_nil h
  split at h
  · exact Spec.groupAndRun_ne_nil h
  · rcases List.mem_append.1 h with h | h
    · exact Spec.appendCopies_ne_nil _ _ h
    · exact Spec.groupTokens_ne_nil h

/-- In UNPACK the output is called for byte by byte. -/
theorem Spec.outputs_unpack_length {w : PackWork} {b : Byte} {p : List Byte} (h : p ∈ (Spec.outputs .unpack w b).1) :
    p.length = 1 := by
  obtain ⟨group, v, n, phase⟩ := w
  cases phase with
  | header => exact absurd h List.not_mem_nil
  | literal r =>
    have hp : p ∈ [[b]] := h
    rw [List.mem_singleton.1 hp]
    rfl
  | runValue k =>
    have hp : p ∈ List.replicate k [b] := h
    rw [List.eq_of_mem_replicate hp]
    rfl

/-- No piece of a byte's output is empty. -/
theorem Spec.outputs_ne_nil {m : PackMode} {w : PackWork} {b : Byte} {p : List Byte} (h : p ∈ (Spec.outputs m w b).1) :
    p ≠ [] := by
  cases m with
  | pass =>
    have hp : p ∈ [[b]] := h
    rw [List.mem_singleton.1 hp]
    simp
  | pack => exact Spec.encodes_ne_nil (w := w) h
  | unpack => exact List.ne_nil_of_length_pos (by rw [Spec.outputs_unpack_length h]; exact Nat.one_pos)

theorem Spec.outputs_workLegal (m : PackMode) {w : PackWork} (h : Spec.workLegal w) (b : Byte) :
    Spec.workLegal (Spec.outputs m w b).2 := by
  obtain ⟨hgroup, hw⟩ := h
  refine ⟨?_, Spec.outputs_inRange m hw b⟩
  unfold Spec.outputs
  split
  · exact hgroup
  · exact Spec.encodes_length hgroup b
  · exact hgroup
  · exact hgroup
  · exact hgroup

theorem Spec.outputsOf_workLegal (m : PackMode) {w : PackWork} (h : Spec.workLegal w) (bs : List Byte) :
    Spec.workLegal (Spec.outputsOf m w bs).2 := by
  induction bs generalizing w with
  | nil => exact h
  | cons b bs ih => exact ih (Spec.outputs_workLegal m h b)

/-- A piece of the output of some bytes is one of a byte's. -/
theorem Spec.outputsOf_split {m : PackMode} {w : PackWork} {bs : List Byte} {pre more : List (List Byte)} {piece : List Byte}
    (h : (Spec.outputsOf m w bs).1 = pre ++ piece :: more) :
    ∃ cs b ds pre' more', bs = cs ++ b :: ds ∧ pre = (Spec.outputsOf m w cs).1 ++ pre' ∧
      (Spec.outputs m (Spec.outputsOf m w cs).2 b).1 = pre' ++ piece :: more' := by
  induction bs generalizing w pre with
  | nil => simp [Spec.outputsOf] at h
  | cons b bs ih =>
    rcases append_eq_append_cons (a := (Spec.outputs m w b).1) h with ⟨more', hb⟩ | ⟨pre', rfl, hrest⟩
    · exact ⟨[], b, bs, pre, more', rfl, rfl, hb⟩
    · obtain ⟨cs, c, ds, pre'', more'', rfl, rfl, hc⟩ := ih hrest
      exact ⟨b :: cs, c, ds, pre'', more'', rfl, by simp [Spec.outputsOf], hc⟩

/-! ### Items left (R98) -/

/-- Items that take no byte, as none of them does. -/
theorem takes_of_takesIn {its : List OutItem} (h : takesIn its = 0) : ∀ it ∈ its, it.takes = false := by
  intro it hit
  rw [takesIn, List.length_eq_zero_iff, List.filter_eq_nil_iff] at h
  simpa using h it hit

theorem takesIn_append (a b : List OutItem) : takesIn (a ++ b) = takesIn a + takesIn b := by
  simp only [takesIn, List.filter_append, List.length_append]

/-- Items one of which, the last alone, may take a byte; in UNPACK none does. -/
def TakesLast (m : PackMode) (its : List OutItem) : Prop :=
  (∀ it ∈ its.dropLast, it.takes = false) ∧ (m = .unpack → ∀ it ∈ its, it.takes = false)

section
variable {m : PackMode} {its done rest : List OutItem} {n c : Nat}

theorem TakesLast.cutFirst (h : TakesLast m rest) (c : Nat) : TakesLast m (cutFirst c rest) := by
  cases rest with
  | nil => exact h
  | cons it more =>
    obtain ⟨hlast, hnone⟩ := h
    refine ⟨?_, fun hm x hx => ?_⟩
    · cases more with
      | nil => exact fun x hx => absurd hx (by simp [Machine.cutFirst])
      | cons it' more =>
        intro x hx
        rcases List.mem_cons.1 hx with rfl | hx
        · exact hlast it (by simp)
        · exact hlast x (List.mem_cons_of_mem _ hx)
    · rcases List.mem_cons.1 hx with rfl | hx
      · exact hnone hm it (by simp)
      · exact hnone hm x (List.mem_cons_of_mem _ hx)

/-- Items after others of the kind are of the kind; those before some that are left take none. -/
theorem TakesLast.of_append (h : TakesLast m (done ++ rest)) :
    TakesLast m rest ∧ takesIn done = if rest = [] then takesIn (done ++ rest) else 0 := by
  obtain ⟨hlast, hnone⟩ := h
  rcases List.eq_nil_or_concat rest with rfl | ⟨front, l, hr⟩
  · rw [List.append_nil, if_pos rfl]
    exact ⟨⟨fun x hx => absurd hx (by simp), fun _ x hx => absurd hx (by simp)⟩, rfl⟩
  · rw [List.concat_eq_append] at hr
    subst hr
    rw [← List.append_assoc, List.dropLast_concat] at hlast
    refine ⟨⟨fun x hx => hlast x ?_, fun hm x hx => hnone hm x (List.mem_append_right _ hx)⟩, ?_⟩
    · rw [List.dropLast_concat] at hx
      exact List.mem_append_right _ hx
    · rw [if_neg (by simp)]
      exact takesIn_eq_zero fun x hx => hlast x (List.mem_append_left _ hx)

/-- The same of a byte's items, which take it: with the last, and in UNPACK with the first. -/
theorem AcceptedTo.itemsFor_rest {w : PackWork} {b : Byte} (hw : w.inRange) (hout : (Spec.outputs m w b).1 ≠ [])
    (hn : 0 < n) (h : AcceptedTo (itemsFor m w b) n done rest c) :
    TakesLast m rest ∧ takesIn done = if m ≠ .unpack ∧ rest ≠ [] then 0 else 1 := by
  obtain ⟨hpieces, -, hone, htaken⟩ := itemsFor_spec m hw b
  have htakes : takesIn done + takesIn rest = 1 := by rw [← hone, h.split, takesIn_append]
  rw [piecesOrNone, if_neg hout] at hpieces
  by_cases hrest : rest = []
  · subst hrest
    rw [if_neg fun e => e.2 rfl]
    exact ⟨⟨fun x hx => absurd hx (by simp), fun _ x hx => absurd hx (by simp)⟩, htakes⟩
  by_cases hm : m = .unpack
  · subst hm
    obtain ⟨it, more, rfl⟩ := List.exists_cons_of_ne_nil hrest
    have hdone : done ≠ [] := by
      rintro rfl
      have hlen : it.bytes.length = 1 := Spec.outputs_unpack_length (w := w) (b := b) (by
        rw [← hpieces, h.split]
        exact List.mem_map_of_mem (by simp))
      have hbytes : 0 + c = n := h.bytes
      rcases h.within it more rfl with hz | hlt
      · omega
      · omega
    have hfirst := htaken done it more h.split
    rw [if_pos ⟨rfl, hdone⟩] at hfirst
    rw [if_neg fun e => e.1 rfl]
    have hno : ∀ x ∈ it :: more, x.takes = false := takes_of_takesIn (by omega)
    exact ⟨⟨fun x hx => hno x (List.mem_of_mem_dropLast hx), fun _ => hno⟩, hfirst⟩
  · obtain ⟨front, l, hr⟩ := (List.eq_nil_or_concat rest).resolve_left hrest
    rw [List.concat_eq_append] at hr
    subst hr
    have hfront := htaken (done ++ front) l [] (by rw [h.split, List.append_assoc])
    rw [if_neg fun e => hm e.1, takesIn_append] at hfront
    rw [if_pos ⟨hm, by simp⟩]
    refine ⟨⟨?_, fun e => absurd e hm⟩, by omega⟩
    rw [List.dropLast_concat]
    exact takes_of_takesIn (by omega)

end

end Sys2Proof.Machine
end

