-- ==== Sys2Proof/Proofs/PackFilling.lean ====
section
/-! SUPPORT. A pack unit's work between two transfers when the pending output reaches the end of its write buffer (R97 to R99, R104 to
R106): the bytes taken, and what stays pending. -/

namespace Sys2Proof.Machine

-- One theorem at a time, as in the tests: all at once they pass the memory limit.
set_option Elab.async false

/-! ### A unit with items left (R97, R98) -/

/-- What a unit has pending after its buffer is filled is what is left of its pending output. -/
structure PackUnit.Resumes (u v : PackUnit) : Prop where
  legal : Spec.owedLegal v
  pending : Spec.pending v = Spec.leftOf (Spec.bufferSpace u) (Spec.pending u)
  work : Spec.pendingWork v = Spec.pendingWork u

/-- The end of the source calls for the same when the same has been called for before it. -/
theorem Spec.finish_congr {u v : PackUnit} (hm : v.mode = u.mode) (he : v.endFlag = u.endFlag) (hf : v.finishing = u.finishing)
    (hc : (Spec.called v).2 = (Spec.called u).2) : Spec.finish v = Spec.finish u := by
  unfold Spec.finish
  rw [hm, he, hf, hc]

/-- The end-of-source emissions, where no read is left. -/
def Spec.lastPieces (u : PackUnit) : List (List Byte) := if Spec.atSourceEnd u = true then (Spec.finish u).1 else []

theorem Spec.pending_eq (u : PackUnit) :
    Spec.pending u = u.owed.map OutItem.bytes ++ (Spec.called u).1 ++ Spec.lastPieces u := rfl

section
variable {u : PackUnit} {t m c : Nat} {acc : List Byte} {w : PackWork} {its done rest : List OutItem}
  (h : AcceptedTo its m done rest c)
include h

theorem AcceptedTo.owedWork_filled :
    Spec.owedWork (u.filled (t + takesIn done) acc (workAfter done w) (cutFirst c rest)).unit = workAfter its w := h.work w

/-- The rest of the read-ahead is what the bytes that the items do not take are. -/
theorem AcceptedTo.called_filled :
    Spec.called (u.filled (t + takesIn done) acc (workAfter done w) (cutFirst c rest)).unit =
      Spec.outputsOf u.mode (workAfter its w) (u.readAhead.drop (t + takesIn its)) := by
  have hdrop : (u.readAhead.drop (t + takesIn done)).drop (takesIn (cutFirst c rest)) = u.readAhead.drop (t + takesIn its) := by
    rw [List.drop_drop, Nat.add_assoc, h.takes]
  rw [Spec.called, h.owedWork_filled, ← hdrop]
  rfl

theorem AcceptedTo.legal_filled (hne : ∀ it ∈ its, it.bytes ≠ []) (hlast : TakesLast u.mode rest)
    (ht : t + takesIn its ≤ u.readAhead.length) (hw : Spec.workLegal (workAfter its w))
    (hfin : u.finishing = true → u.readAhead.drop (t + takesIn done) = [] ∧ (u.mode = .pack → (workAfter its w).group = [])) :
    Spec.owedLegal (u.filled (t + takesIn done) acc (workAfter done w) (cutFirst c rest)).unit := by
  obtain ⟨hfront, hnone⟩ := hlast.cutFirst c
  have htakes := h.takes
  refine ⟨h.nonempty hne, hfront, hnone, ?_, ?_, ?_⟩
  · change takesIn (cutFirst c rest) ≤ (u.readAhead.drop (t + takesIn done)).length
    rw [List.length_drop]
    omega
  · rw [h.owedWork_filled]
    exact hw
  · rw [h.owedWork_filled]
    exact hfin

/-- With the same called for by the rest of the read-ahead, and the end of the source as it was, what is left of the items is what is
left of the output. -/
theorem AcceptedTo.resumes (hne : ∀ it ∈ its, it.bytes ≠ []) (hlast : TakesLast u.mode rest)
    (ht : t + takesIn its ≤ u.readAhead.length) (hw : Spec.workLegal (workAfter its w))
    (hfin : u.finishing = true → u.readAhead.drop (t + takesIn done) = [] ∧ (u.mode = .pack → (workAfter its w).group = []))
    {before after : List (List Byte)} (hbefore : before.flatten.length + m = Spec.bufferSpace u) (hm : 0 < m)
    (hfull : m ≤ (outputOf its).length)
    (hpending : Spec.pending u = before ++ its.map OutItem.bytes ++ after ++ Spec.lastPieces u)
    (hafter : Spec.outputsOf u.mode (workAfter its w) (u.readAhead.drop (t + takesIn its)) = (after, (Spec.called u).2)) :
    u.Resumes (u.filled (t + takesIn done) acc (workAfter done w) (cutFirst c rest)).unit := by
  have hcalled := h.called_filled (u := u) (t := t) (acc := acc) (w := w)
  rw [hafter] at hcalled
  have hfinish : Spec.finish (u.filled (t + takesIn done) acc (workAfter done w) (cutFirst c rest)).unit = Spec.finish u :=
    Spec.finish_congr rfl rfl rfl (by rw [hcalled])
  refine ⟨h.legal_filled hne hlast ht hw hfin, ?_, ?_⟩
  · have hleft : Spec.leftOf (Spec.bufferSpace u) (Spec.pending u) =
        (cutFirst c rest).map OutItem.bytes ++ (after ++ Spec.lastPieces u) := by
      rw [hpending, List.append_assoc, List.append_assoc, Spec.leftOf_append (by omega),
        show Spec.bufferSpace u - before.flatten.length = m by omega, Spec.leftOf_append_right hfull, h.pieces hne]
    rw [hleft, Spec.pending, hcalled, hfinish, List.append_assoc]
    rfl
  · rw [Spec.pendingWork, hcalled, hfinish]
    rfl

end

/-! ### The byte that calls for a piece (R105, R106) -/

section
variable {u : PackUnit} (h : Spec.owedLegal u) {m k : Nat} (hk : Spec.pieceOfByte u m k)
include h hk

theorem Spec.owedLegal.pieceOfByte_owed (hm : m < u.owed.length) : k = Spec.owedTakes u := by
  obtain ⟨hone, -⟩ := h.owedTakes_le_one
  have hcount := Spec.pieceCount_taking u 0
  refine Spec.pieceOfByte_unique hk h.takes_le (fun i hi => ?_) (by rw [Nat.add_zero] at hcount; omega)
  obtain rfl : i = 0 := by omega
  rw [Spec.pieceCount, if_neg (by omega), Nat.zero_sub]
  exact Nat.zero_le _

omit h in
theorem Spec.pieceOfByte_called {i : Nat} (hi : Spec.owedTakes u + i < u.readAhead.length)
    (hlow : Spec.pieceCount u (Spec.owedTakes u + i) ≤ m) (hhigh : m < Spec.pieceCount u (Spec.owedTakes u + (i + 1))) :
    k = Spec.owedTakes u + (i + 1) :=
  Spec.pieceOfByte_unique hk (by omega) (fun _ hl => (Spec.pieceCount_mono u (Nat.le_of_lt_succ hl)).trans hlow) hhigh

omit h in
theorem Spec.pieceOfByte_last (hm : Spec.pieceCount u u.readAhead.length ≤ m) : k = u.readAhead.length := by
  obtain ⟨hle, -, hafter⟩ := hk
  refine hafter.resolve_left fun hlt => ?_
  have := Spec.pieceCount_mono u hle
  omega

end

/-- All that the read-ahead calls for. -/
theorem Spec.owedLegal.pieceCount_all {u : PackUnit} (h : Spec.owedLegal u) :
    Spec.pieceCount u u.readAhead.length = u.owed.length + (Spec.called u).1.length := by
  have hcount := Spec.pieceCount_taking u (u.readAhead.length - Spec.owedTakes u)
  rw [Nat.add_sub_of_le h.takes_le, ← List.length_drop, List.take_length] at hcount
  exact hcount

/-- How many bytes are taken when the piece that byte `k` called for fills the buffer: byte `k` too, but where output of its own is
left and it is taken with the last (R98). -/
def takenAtFill (u : PackUnit) (k : Nat) : Nat :=
  if u.mode ≠ .unpack ∧ Spec.bufferSpace u < ((Spec.pending u).take (Spec.pieceCount u k)).flatten.length then k - 1 else k

/-- The pieces that have been called for once some bytes beyond those that the output owed takes are taken. -/
theorem Spec.pending_take (u : PackUnit) (i : Nat) :
    (Spec.pending u).take (Spec.pieceCount u (Spec.owedTakes u + i)) = u.owed.map OutItem.bytes ++
      (Spec.outputsOf u.mode (Spec.owedWork u) ((u.readAhead.drop (Spec.owedTakes u)).take i)).1 := by
  have hsplit : (Spec.called u).1 =
      (Spec.outputsOf u.mode (Spec.owedWork u) ((u.readAhead.drop (Spec.owedTakes u)).take i)).1 ++
        (Spec.outputsOf u.mode (Spec.outputsOf u.mode (Spec.owedWork u) ((u.readAhead.drop (Spec.owedTakes u)).take i)).2
          ((u.readAhead.drop (Spec.owedTakes u)).drop i)).1 := by
    rw [Spec.called]
    conv_lhs => rw [← List.take_append_drop i (u.readAhead.drop (Spec.owedTakes u)), Spec.outputsOf_append]
  rw [Spec.pending_eq, hsplit, Spec.pieceCount_taking, ← List.append_assoc, List.append_assoc _ _ (Spec.lastPieces u)]
  exact List.take_left' (by rw [List.length_append, List.length_map])

theorem takenAtFill_eq (u : PackUnit) (i : Nat) : takenAtFill u (Spec.owedTakes u + i) =
    if u.mode ≠ .unpack ∧ Spec.bufferSpace u < (outputOf u.owed).length +
        (Spec.outputsOf u.mode (Spec.owedWork u) ((u.readAhead.drop (Spec.owedTakes u)).take i)).1.flatten.length then
      Spec.owedTakes u + i - 1
    else Spec.owedTakes u + i := by
  rw [takenAtFill, Spec.pending_take, List.flatten_append, List.length_append]
  rfl

/-! ### The work of a unit that fills its buffer -/

/-- The pending output fills the write buffer with a piece that byte `k` calls for: exactly as much of it is accepted, the buffer is due
to be written, and the unit goes on with the rest (R97, R98). -/
def PackUnit.FillsBuffer (u : PackUnit) (k : Nat) (finishing : Bool) : Prop :=
  ∃ work owed,
    let v := ({ u with finishing := finishing } : PackUnit).filled (takenAtFill u k)
      ((Spec.pending u).flatten.take (Spec.bufferSpace u)) work owed
    u.advance = v.stopFor .writeDue ∧ u.Resumes v.unit

theorem Spec.owedLegal.takesLast {u : PackUnit} (h : Spec.owedLegal u) : TakesLast u.mode u.owed := by
  obtain ⟨-, hlast, hnone, -⟩ := h
  exact ⟨hlast, hnone⟩

section
variable {u : PackUnit} (h : Spec.owedLegal u) {pre more : List (List Byte)} {piece : List Byte} {k : Nat}
  (hs : pre.flatten.length < Spec.bufferSpace u) (hf : Spec.bufferSpace u ≤ pre.flatten.length + piece.length)
  (hc : pre.flatten.length + piece.length ≤ Spec.capacity u) (hk : Spec.pieceOfByte u pre.length k)
include h hs hf hc hk

/-- The piece is owed. -/
theorem Spec.owedLegal.advance_owedFills (hp : u.owed.map OutItem.bytes = pre ++ piece :: more) :
    u.FillsBuffer k u.finishing := by
  obtain ⟨ipre, it, imore, hitems, hpre, hit⟩ := items_split hp
  have hout : outputOf ipre = pre.flatten := by rw [outputOf, hpre]
  have hall : outputOf u.owed = pre.flatten ++ piece ++ more.flatten := by rw [outputOf, hp]; simp
  have hfull : Spec.bufferSpace u ≤ (outputOf u.owed).length := by
    rw [hall, List.length_append, List.length_append]
    omega
  obtain ⟨done, rest, c, hacc, hcut⟩ := acceptItems_reached_fills (u := u) (n := 0) (out := []) (work := u.work)
    (owed := u.owed) (pre := ipre) (it := it) (more := imore) (by rw [← hitems, Nat.zero_add]; exact h.takes_le)
    (by rw [hout, List.length_nil]; omega) (by rw [hout, hit, List.length_nil]; omega)
    (by rw [hout, hit, List.length_nil]; omega)
  rw [← hitems, List.length_nil, Nat.sub_zero] at hacc
  have hflat : (Spec.pending u).flatten = outputOf u.owed ++ ((Spec.called u).1 ++ Spec.lastPieces u).flatten := by
    rw [Spec.pending_eq, List.append_assoc, List.flatten_append]
    rfl
  rw [PackUnit.reached_start, ← hitems, List.nil_append] at hcut
  have hlen : pre.length < u.owed.length := by
    have := congrArg List.length hp
    simp at this
    omega
  obtain ⟨hlast, htaken⟩ := TakesLast.of_append (m := u.mode) (done := done) (rest := rest) (hacc.split ▸ h.takesLast)
  have hk0 : k = Spec.owedTakes u + 0 := h.pieceOfByte_owed hk hlen
  obtain ⟨hone, hunpack⟩ := h.owedTakes_le_one
  obtain ⟨hne, -, -, htakes, hlegal, hfin⟩ := h
  have hn : 0 + takesIn done = takenAtFill u k := by
    have hrest := hacc.rest_nil_iff hne
    rw [← hacc.split] at htaken
    have hnone : (Spec.outputsOf u.mode (Spec.owedWork u) ((u.readAhead.drop (Spec.owedTakes u)).take 0)).1.flatten.length = 0 :=
      rfl
    rw [hk0, takenAtFill_eq, hnone, htaken]
    by_cases hr : rest = []
    · rw [if_pos hr, if_neg fun e => hrest.1 hr e.2, Nat.zero_add]
      rfl
    · rw [if_neg hr]
      split
      · omega
      · rename_i hcond
        have hm : u.mode = .unpack := by
          by_contra hm
          exact hcond ⟨hm, by_contra fun e => hr (hrest.2 e)⟩
        rw [hunpack hm]
  rw [PackUnit.FillsBuffer, hflat, List.take_append_of_le_length hfull, ← hn]
  refine ⟨_, _, PackUnit.advance_of_owed_stops hcut (by decide), ?_⟩
  refine hacc.resumes hne hlast ?_ hlegal ?_ (before := []) (after := (Spec.called u).1) (by simp) (by omega) hfull rfl ?_
  · exact (Nat.zero_add _).trans_le htakes
  · intro hfinishing
    obtain ⟨hread, hgroup⟩ := hfin hfinishing
    exact ⟨by rw [hread, List.drop_nil], hgroup⟩
  · rw [Nat.zero_add]
    rfl

end

end Sys2Proof.Machine
end

