-- ==== Sys2Proof/Proofs/PackFilled.lean ====
section
/-! SUPPORT. A pack unit whose write buffer a byte of the read-ahead, or the end of the source, fills (R97 to R99, R104 to R106), and with
it the unit's work whenever its pending output reaches the end of its buffer. -/

namespace Sys2Proof.Machine

-- One theorem at a time, as in the tests: all at once they pass the memory limit.
set_option Elab.async false

/-! ### Bytes taken until the buffer is full (R97, R98) -/

section
variable {u : PackUnit} {n : Nat} {out : List Byte} {w : PackWork}

/-- Bytes after those that are taken. -/
theorem takeBytes_append {a : List Byte} {s s' : PackStep} (h : takeBytes a s = (s', .drained)) (b : List Byte) :
    takeBytes (a ++ b) s = takeBytes b s' := by
  induction a generalizing s with
  | nil =>
    obtain ⟨rfl, -⟩ := Prod.mk.inj h
    rfl
  | cons x a ih =>
    rw [takeBytes] at h
    rw [List.cons_append, takeBytes]
    cases hx : acceptItems (s.unit.callsFor x) s with
    | mk t d =>
      rw [hx] at h
      cases d with
      | drained => exact ih h
      | writeDue => exact absurd (Prod.mk.inj h).2 (by decide)
      | noRoom => exact absurd (Prod.mk.inj h).2 (by decide)

theorem takeBytes_cons_stops {b : Byte} {s s' : PackStep} {d : Drive} (h : acceptItems (s.unit.callsFor b) s = (s', d))
    (hd : d ≠ .drained) (bs : List Byte) : takeBytes (b :: bs) s = (s', d) := by
  rw [takeBytes, h]
  cases d with
  | drained => exact absurd rfl hd
  | writeDue => rfl
  | noRoom => rfl

/-- A piece that a byte calls for reaches the end of the write buffer: the bytes before it are taken, and of its items as many are
accepted as fill the buffer. -/
theorem takeBytes_reached_fills (hw : w.inRange) {cs ds : List Byte} {b : Byte} (hn : n + (cs ++ b :: ds).length ≤ u.readAhead.length)
    {before pre more : List (List Byte)} {piece : List Byte} {wc : PackWork} (hcs : Spec.outputsOf u.mode w cs = (before, wc))
    (hwc : wc.inRange) (hout : (Spec.outputs u.mode wc b).1 = pre ++ piece :: more)
    (hs : (out ++ before.flatten).length + pre.flatten.length < Spec.bufferSpace u)
    (hf : Spec.bufferSpace u ≤ (out ++ before.flatten).length + pre.flatten.length + piece.length)
    (hc : (out ++ before.flatten).length + pre.flatten.length + piece.length ≤ Spec.capacity u) :
    ∃ done rest c,
      AcceptedTo (itemsFor u.mode wc b) (Spec.bufferSpace u - (out ++ before.flatten).length) done rest c ∧
      takeBytes (cs ++ b :: ds) (u.reached n out w []) =
        (u.filled (n + cs.length + takesIn done)
          ((out ++ before.flatten ++ (Spec.outputs u.mode wc b).1.flatten).take (Spec.bufferSpace u)) (workAfter done wc)
          (cutFirst c rest), .writeDue) := by
  rw [List.length_append, List.length_cons] at hn
  have hall := takeBytes_reached_all (u := u) (n := n) (out := out) hw (bs := cs) (by omega)
  rw [hcs] at hall
  dsimp only at hall
  rw [← List.length_append] at hall
  obtain ⟨hpieces, -, htakes, -⟩ := itemsFor_spec u.mode hwc b
  have houtput : outputOf (itemsFor u.mode wc b) = (Spec.outputs u.mode wc b).1.flatten := by
    rw [outputOf, hpieces, flatten_piecesOrNone]
  rw [hout, piecesOrNone, if_neg (by simp)] at hpieces
  obtain ⟨ipre, it, imore, hitems, hpre, hit⟩ := items_split hpieces
  have hflat : outputOf ipre = pre.flatten := by rw [outputOf, hpre]
  obtain ⟨done, rest, c, hacc, hcut⟩ := acceptItems_reached_fills (u := u) (n := n + cs.length) (out := out ++ before.flatten)
    (work := wc) (owed := []) (pre := ipre) (it := it) (more := imore) (by rw [← hitems, htakes]; omega)
    (by rw [hflat]; exact hs) (by rw [hflat, hit]; exact hf) (by rw [hflat, hit]; exact hc)
  rw [← hitems] at hacc
  rw [← hitems, houtput] at hcut
  refine ⟨done, rest, c, hacc, ?_⟩
  rw [takeBytes_append (hall (by omega) (.inr (by omega)))]
  exact takeBytes_cons_stops ((congrArg (acceptItems · _) (PackUnit.callsFor_eq ..)).trans hcut) (by decide) ds

end

/-! ### A byte of the read-ahead that calls for output (R98) -/

/-- Byte `b` of the read-ahead comes after `cs`, beyond what is taken with the output owed; with `cs` taken, `before` is called for and
the working pack state is `w`. -/
structure PackUnit.StandsAt (u : PackUnit) (cs : List Byte) (b : Byte) (ds : List Byte) (before : List (List Byte)) (w : PackWork) :
    Prop where
  read : u.readAhead.drop (Spec.owedTakes u) = cs ++ b :: ds
  calls : Spec.outputsOf u.mode (Spec.owedWork u) cs = (before, w)

section
variable {u : PackUnit} {cs ds : List Byte} {b : Byte} {before : List (List Byte)} {w : PackWork}
  (hat : u.StandsAt cs b ds before w)
include hat

theorem PackUnit.StandsAt.length_le : Spec.owedTakes u + (cs ++ b :: ds).length = u.readAhead.length := by
  have hlen := congrArg List.length hat.read
  rw [List.length_drop, List.length_append, List.length_cons] at hlen
  rw [List.length_append, List.length_cons]
  omega

theorem PackUnit.StandsAt.workLegal (h : Spec.owedLegal u) : Spec.workLegal w := by
  obtain ⟨-, -, -, -, hlegal, -⟩ := h
  have := Spec.outputsOf_workLegal u.mode hlegal cs
  rwa [hat.calls] at this

theorem PackUnit.StandsAt.called : Spec.called u =
    (before ++ ((Spec.outputs u.mode w b).1 ++ (Spec.outputsOf u.mode (Spec.outputs u.mode w b).2 ds).1),
      (Spec.outputsOf u.mode (Spec.outputs u.mode w b).2 ds).2) := by
  rw [Spec.called, hat.read, Spec.outputsOf_append, hat.calls]
  rfl

theorem PackUnit.StandsAt.pending : Spec.pending u =
    u.owed.map OutItem.bytes ++ before ++ (Spec.outputs u.mode w b).1 ++
      (Spec.outputsOf u.mode (Spec.outputs u.mode w b).2 ds).1 ++ Spec.lastPieces u := by
  rw [Spec.pending_eq, hat.called]
  simp only [List.append_assoc]

/-- The pending output up to and with what the byte calls for. -/
theorem PackUnit.StandsAt.pending_take {n : Nat}
    (hn : n ≤ (outputOf u.owed ++ before.flatten ++ (Spec.outputs u.mode w b).1.flatten).length) :
    (Spec.pending u).flatten.take n = (outputOf u.owed ++ before.flatten ++ (Spec.outputs u.mode w b).1.flatten).take n := by
  have hsplit : (Spec.pending u).flatten = outputOf u.owed ++ before.flatten ++ (Spec.outputs u.mode w b).1.flatten ++
      ((Spec.outputsOf u.mode (Spec.outputs u.mode w b).2 ds).1 ++ Spec.lastPieces u).flatten := by
    rw [hat.pending]
    simp only [List.flatten_append, List.append_assoc]
    rfl
  rw [hsplit, List.take_append_of_le_length hn]

/-- What is called for with the byte itself. -/
theorem PackUnit.StandsAt.calls_through :
    Spec.outputsOf u.mode (Spec.owedWork u) ((u.readAhead.drop (Spec.owedTakes u)).take (cs.length + 1)) =
      (before ++ (Spec.outputs u.mode w b).1, (Spec.outputs u.mode w b).2) := by
  have htake : (u.readAhead.drop (Spec.owedTakes u)).take (cs.length + 1) = cs ++ [b] := by
    rw [hat.read, List.take_length_add_append]
    rfl
  rw [htake, Spec.outputsOf_append, hat.calls]
  simp only [Spec.outputsOf, List.append_nil]

/-- It is the byte that calls for each of its pieces. -/
theorem PackUnit.StandsAt.pieceOfByte {m k : Nat} (hk : Spec.pieceOfByte u m k) (hlow : u.owed.length + before.length ≤ m)
    (hhigh : m < u.owed.length + (before.length + (Spec.outputs u.mode w b).1.length)) :
    k = Spec.owedTakes u + (cs.length + 1) := by
  have hlen := hat.length_le
  rw [List.length_append, List.length_cons] at hlen
  refine Spec.pieceOfByte_called hk (by omega) ?_ ?_
  · rw [Spec.pieceCount_taking, hat.read, List.take_left, hat.calls]
    exact hlow
  · rw [Spec.pieceCount_taking, hat.calls_through, List.length_append]
    exact hhigh

/-- The bytes taken when the byte's output fills the buffer, `rest` being the items left of it. -/
theorem PackUnit.StandsAt.takenAtFill {rest : List OutItem}
    (hrest : rest = [] ↔ ¬ Spec.bufferSpace u < (outputOf u.owed ++ before.flatten).length +
      (Spec.outputs u.mode w b).1.flatten.length) :
    takenAtFill u (Spec.owedTakes u + (cs.length + 1)) =
      Spec.owedTakes u + cs.length + if u.mode ≠ .unpack ∧ rest ≠ [] then 0 else 1 := by
  have hcond : (u.mode ≠ .unpack ∧ Spec.bufferSpace u <
      (outputOf u.owed).length + (before ++ (Spec.outputs u.mode w b).1).flatten.length) ↔ u.mode ≠ .unpack ∧ rest ≠ [] := by
    refine and_congr_right fun _ => ?_
    rw [List.flatten_append, List.length_append, ← Nat.add_assoc, ← List.length_append]
    exact ((not_congr hrest).trans not_not).symm
  rw [takenAtFill_eq, hat.calls_through, if_congr hcond rfl rfl]
  split
  · rfl
  · rfl

/-- Once the byte is taken, `ds` is left. -/
theorem PackUnit.StandsAt.drop_through : u.readAhead.drop (Spec.owedTakes u + cs.length + 1) = ds := by
  rw [Nat.add_assoc, ← List.drop_drop, hat.read, List.drop_length_add_append]
  rfl

end

/-! ### The work of a unit that fills its buffer (R97 to R99) -/

section
variable {u : PackUnit} (h : Spec.owedLegal u) {pre more : List (List Byte)} {piece : List Byte} {k : Nat}
  (hs : pre.flatten.length < Spec.bufferSpace u) (hf : Spec.bufferSpace u ≤ pre.flatten.length + piece.length)
  (hc : pre.flatten.length + piece.length ≤ Spec.capacity u) (hk : Spec.pieceOfByte u pre.length k)
include h hs hf hc hk

/-- A byte calls for the piece. -/
theorem Spec.owedLegal.advance_bytesFill {pre' : List (List Byte)} (hp : pre = u.owed.map OutItem.bytes ++ pre')
    (hcalled : (Spec.called u).1 = pre' ++ piece :: more) :
    u.FillsBuffer k u.finishing := by
  obtain ⟨cs, b, ds, pre'', more', hread, rfl, hout⟩ := Spec.outputsOf_split hcalled
  obtain ⟨before, w, hcs⟩ : ∃ before w, Spec.outputsOf u.mode (Spec.owedWork u) cs = (before, w) := ⟨_, _, rfl⟩
  rw [hcs] at hp hout
  have hat : u.StandsAt cs b ds before w := ⟨hread, hcs⟩
  have hw := hat.workLegal h
  have hlen := hat.length_le
  have hfront : outputOf u.owed ++ before.flatten = (u.owed.map OutItem.bytes ++ before).flatten := (List.flatten_append ..).symm
  have hflat : pre.flatten.length = (outputOf u.owed ++ before.flatten).length + pre''.flatten.length := by
    rw [hp, ← List.append_assoc, List.flatten_append, List.length_append, hfront]
  have hsize : (Spec.outputs u.mode w b).1.flatten.length = pre''.flatten.length + (piece.length + more'.flatten.length) := by
    rw [hout, List.flatten_append, List.length_append, List.flatten_cons, List.length_append]
  -- the items of the byte
  obtain ⟨hpieces, hafter, htakes, -⟩ := itemsFor_spec u.mode hw.2 b
  rw [piecesOrNone, if_neg (by rw [hout]; simp)] at hpieces
  have hne : ∀ it ∈ itemsFor u.mode w b, it.bytes ≠ [] := fun it hit =>
    Spec.outputs_ne_nil (by rw [← hpieces]; exact List.mem_map_of_mem hit)
  have houtput : outputOf (itemsFor u.mode w b) = (Spec.outputs u.mode w b).1.flatten := by rw [outputOf, hpieces]
  obtain ⟨done, rest, c, hacc, htake⟩ := takeBytes_reached_fills (u := u) (n := Spec.owedTakes u) (out := outputOf u.owed)
    h.inRange hlen.le hcs hw.2 hout (by omega) (by omega) (by omega)
  obtain ⟨hlast, htaken⟩ := hacc.itemsFor_rest hw.2 (by rw [hout]; simp) (by omega)
  have hrest := hacc.rest_nil_iff hne
  rw [houtput] at hrest
  have hn : Spec.owedTakes u + cs.length + takesIn done = takenAtFill u k := by
    have hkeq := hat.pieceOfByte hk (by rw [hp]; simp) (by rw [hp, hout]; simp)
    rw [hkeq, htaken, hat.takenAtFill (hrest.trans (by omega))]
  rw [PackUnit.FillsBuffer, ← hn, hat.pending_take (by rw [List.length_append]; omega)]
  refine ⟨workAfter done w, cutFirst c rest, ?_, ?_⟩
  · have hroom := List.length_append (as := outputOf u.owed) (bs := before.flatten)
    refine PackUnit.advance_of_bytes_stop (h.acceptItems_owed (by omega) (.inr (by omega))) (Eq.trans ?_ htake) (by decide)
    rw [← hread]
    rfl
  · refine hacc.resumes hne hlast ?_ ?_ (fun hfin => ?_) (by rw [← hfront]; omega) (by omega) (by rw [houtput]; omega)
      (before := u.owed.map OutItem.bytes ++ before) (by rw [hpieces]; exact hat.pending) ?_
    · rw [htakes, ← hlen, List.length_append, List.length_cons]
      omega
    · rw [hafter]
      exact Spec.outputs_workLegal u.mode hw b
    · obtain ⟨-, -, -, -, -, hdone⟩ := h
      rw [(hdone hfin).1] at hread
      exact absurd hread (by simp)
    · rw [htakes, hat.drop_through, hafter, hat.called]

end

/-! ### The end of the source calls for the piece (R104, R109) -/

/-- There is output to call for at the end of the source in PACK alone, and once. -/
theorem Spec.finish_ne_nil {u : PackUnit} (h : (Spec.finish u).1 ≠ []) :
    u.mode = .pack ∧ u.finishing = false ∧ Spec.finish u = Spec.encodesEnd u.endFlag (Spec.called u).2 := by
  by_cases hp : u.mode = .pack ∧ u.finishing = false
  · exact ⟨hp.1, hp.2, if_pos hp⟩
  · exact absurd (congrArg Prod.fst (if_neg hp)) h

theorem Spec.encodesEnd_count_le {w : PackWork} (hw : w.runCount ≤ 130) (endJob : Bool) :
    (Spec.encodesEnd endJob w).2.count ≤ 130 := by
  unfold Spec.encodesEnd
  split
  · exact hw
  split
  · exact Nat.zero_le _
  · exact Nat.zero_le _

/-- A unit with nothing left but output that the end of the source has called for has the working pack state it ends with. -/
theorem Spec.pendingWork_finished {u : PackUnit} (hf : u.finishing = true) (hg : u.mode = .pack → (Spec.called u).2.group = []) :
    Spec.pendingWork u = Spec.tidy (Spec.called u).2 := by
  have hnone : Spec.finish u = ([], Spec.runLeft (Spec.called u).2) := if_neg fun e => absurd (hf.symm.trans e.2) (by decide)
  unfold Spec.pendingWork
  split
  · rename_i hcond
    rw [hnone, ← hg hcond.2]
    rfl
  · rfl

theorem Spec.lastPieces_finished {u : PackUnit} (hf : u.finishing = true) : Spec.lastPieces u = [] := by
  have hnone : Spec.finish u = ([], Spec.runLeft (Spec.called u).2) := if_neg fun e => absurd (hf.symm.trans e.2) (by decide)
  rw [Spec.lastPieces, hnone, ite_self]

/-- The working pack state once the end-of-source emissions are accepted. -/
theorem Spec.owedLegal.work_atEnd {u : PackUnit} (h : Spec.owedLegal u) (hend : Spec.atSourceEnd u = true)
    (hne : (Spec.finish u).1 ≠ []) {w : PackWork} (hw : Spec.tidy w = Spec.pendingWork u) :
    w.group = [] ∧ Spec.workLegal w := by
  obtain ⟨hm, -, hfinish⟩ := Spec.finish_ne_nil hne
  obtain ⟨-, hrun, hphase⟩ : Spec.workLegal (Spec.called u).2 := by
    obtain ⟨-, -, -, -, hlegal, -⟩ := h
    exact Spec.outputsOf_workLegal u.mode hlegal _
  have hpending : Spec.pendingWork u =
      { (Spec.called u).2 with group := [], runValue := (Spec.finish u).2.value, runCount := (Spec.finish u).2.count } :=
    if_pos ⟨hend, hm⟩
  rw [hpending] at hw
  have hgroup : w.group = [] := congrArg PackWork.group hw
  have hcount : w.runCount = (Spec.finish u).2.count := congrArg PackWork.runCount hw
  have hsame : w.phase = (Spec.called u).2.phase := (congrArg PackWork.phase hw :)
  refine ⟨hgroup, ?_, ?_, ?_⟩
  · rw [hgroup]
    exact Nat.zero_le _
  · rw [hcount, hfinish]
    exact Spec.encodesEnd_count_le hrun _
  · rw [hsame]
    exact hphase

/-- What a unit has left of the end-of-source emissions. -/
theorem AcceptedTo.resumes_atEnd {u : PackUnit} {its done rest : List OutItem} {m c : Nat} (h : AcceptedTo its m done rest c)
    (hne : ∀ it ∈ its, it.bytes ≠ []) (htakes : takesIn its = 0) (hgroup : (workAfter its (Spec.called u).2).group = [])
    (hlegal : Spec.workLegal (workAfter its (Spec.called u).2))
    (hwork : Spec.tidy (workAfter its (Spec.called u).2) = Spec.pendingWork u) {before : List (List Byte)}
    (hpending : Spec.pending u = before ++ its.map OutItem.bytes) (hbefore : before.flatten.length + m = Spec.bufferSpace u)
    (hm : 0 < m) (acc : List Byte) :
    u.Resumes (({ u with finishing := true } : PackUnit).filled (u.readAhead.length + takesIn done) acc
      (workAfter done (Spec.called u).2) (cutFirst c rest)).unit := by
  have hcalled := h.called_filled (u := { u with finishing := true }) (t := u.readAhead.length) (acc := acc)
    (w := (Spec.called u).2)
  have hall : u.readAhead.drop (u.readAhead.length + takesIn its) = [] := List.drop_eq_nil_of_le (Nat.le_add_right ..)
  rw [hall] at hcalled
  have hlast : TakesLast u.mode rest := by
    have hno : ∀ it ∈ rest, it.takes = false := fun it hit =>
      takes_of_takesIn htakes it (by rw [h.split]; exact List.mem_append_right _ hit)
    exact ⟨fun it hit => hno it (List.mem_of_mem_dropLast hit), fun _ => hno⟩
  refine ⟨h.legal_filled (u := { u with finishing := true }) hne hlast (by rw [htakes]; exact le_refl _) hlegal fun _ => ?_,
    ?_, ?_⟩
  · exact ⟨List.drop_eq_nil_of_le (Nat.le_add_right ..), fun _ => hgroup⟩
  · rw [Spec.pending_eq, Spec.lastPieces_finished rfl, hcalled, hpending, Spec.leftOf_append (by omega),
      show Spec.bufferSpace u - before.flatten.length = m by omega, ← h.pieces hne, List.append_nil]
    exact List.append_nil _
  · rw [Spec.pendingWork_finished rfl (by rw [hcalled]; exact fun _ => hgroup), hcalled]
    exact hwork

/-- All the bytes are taken when the end of the source fills the buffer. -/
theorem Spec.owedLegal.takenAtFill_atEnd {u : PackUnit} (h : Spec.owedLegal u) {m k : Nat} (hk : Spec.pieceOfByte u m k)
    (hm : u.owed.length + (Spec.called u).1.length ≤ m)
    (hs : (outputOf u.owed ++ (Spec.called u).1.flatten).length ≤ Spec.bufferSpace u) :
    takenAtFill u k = u.readAhead.length := by
  have hlen : Spec.pieceCount u u.readAhead.length = (u.owed.map OutItem.bytes ++ (Spec.called u).1).length := by
    rw [h.pieceCount_all, List.length_append, List.length_map]
  rw [Spec.pieceOfByte_last hk (by rw [h.pieceCount_all]; exact hm), takenAtFill, hlen, Spec.pending_eq, List.take_left,
    List.flatten_append]
  exact if_neg fun e => Nat.not_lt.2 hs e.2

section
variable {u : PackUnit} (h : Spec.owedLegal u) {pre more : List (List Byte)} {piece : List Byte} {k : Nat}
  (hs : pre.flatten.length < Spec.bufferSpace u) (hf : Spec.bufferSpace u ≤ pre.flatten.length + piece.length)
  (hc : pre.flatten.length + piece.length ≤ Spec.capacity u) (hk : Spec.pieceOfByte u pre.length k)
include h hs hf hc hk

theorem Spec.owedLegal.advance_endFills {pre' : List (List Byte)} (hend : Spec.atSourceEnd u = true)
    (hp : pre = u.owed.map OutItem.bytes ++ (Spec.called u).1 ++ pre') (hfinish : (Spec.finish u).1 = pre' ++ piece :: more) :
    u.FillsBuffer k true := by
  have hflat : pre.flatten = outputOf u.owed ++ (Spec.called u).1.flatten ++ pre'.flatten := by
    rw [hp, List.flatten_append, List.flatten_append]
    rfl
  have hfront : outputOf u.owed ++ (Spec.called u).1.flatten = (u.owed.map OutItem.bytes ++ (Spec.called u).1).flatten :=
    (List.flatten_append ..).symm
  have hplen : pre.length = u.owed.length + (Spec.called u).1.length + pre'.length := by
    rw [hp, List.length_append, List.length_append, List.length_map]
  rw [hflat, List.length_append] at hs hf hc
  have hroom := List.length_append (as := outputOf u.owed) (bs := (Spec.called u).1.flatten)
  have howed := h.acceptItems_owed (by omega) (.inr (by omega))
  have hbytes := h.takeBytes_called (by omega) (.inr (by omega))
  let v := (u.reached u.readAhead.length (outputOf u.owed ++ (Spec.called u).1.flatten) (Spec.called u).2 []).unit
  have hsource : v.source[v.sourceCursor.fragment]? = none := Option.isNone_iff_eq_none.1 hend
  -- the items of the end of the source
  obtain ⟨hpieces, htakes, hwork⟩ := h.finish_spec (v := v) rfl rfl rfl hend
  obtain ⟨its, hits⟩ : ∃ its, (if u.finishing then [] else v.endCallsFor) = its := ⟨_, rfl⟩
  rw [hits] at hpieces htakes hwork
  have houtput : outputOf its = (Spec.finish u).1.flatten := by rw [outputOf, hpieces]
  have hne : ∀ it ∈ its, it.bytes ≠ [] := by
    obtain ⟨-, -, hencodes⟩ := Spec.finish_ne_nil (u := u) (by rw [hfinish]; simp)
    exact fun it hit => Spec.encodesEnd_ne_nil (by rw [← hencodes, ← hpieces]; exact List.mem_map_of_mem hit)
  obtain ⟨hgroup, hlegal⟩ := h.work_atEnd hend (by rw [hfinish]; simp) hwork
  obtain ⟨ipre, it, imore, hitems, hpre, hit⟩ := items_split (hpieces.trans hfinish)
  have hout : outputOf ipre = pre'.flatten := by rw [outputOf, hpre]
  obtain ⟨done, rest, c, hacc, hcut⟩ := acceptItems_reached_fills (u := { u with finishing := true }) (n := u.readAhead.length)
    (out := outputOf u.owed ++ (Spec.called u).1.flatten) (work := (Spec.called u).2) (owed := []) (pre := ipre) (it := it)
    (more := imore) (by rw [← hitems, htakes]; exact le_refl _) (by rw [hout]; exact hs) (by rw [hout, hit]; exact hf)
    (by rw [hout, hit]; exact hc)
  rw [← hitems] at hacc hcut
  have hpending : Spec.pending u = u.owed.map OutItem.bytes ++ (Spec.called u).1 ++ its.map OutItem.bytes := by
    rw [hpieces, Spec.pending, if_pos hend]
  have hbefore : (u.owed.map OutItem.bytes ++ (Spec.called u).1).flatten.length +
      (Spec.bufferSpace u - (outputOf u.owed ++ (Spec.called u).1.flatten).length) = Spec.bufferSpace u := by
    rw [← hfront]
    omega
  have hresumes := hacc.resumes_atEnd hne htakes hgroup hlegal hwork hpending hbefore
    (Nat.sub_pos_of_lt (show (outputOf u.owed ++ (Spec.called u).1.flatten).length < Spec.bufferSpace u by omega))
  -- all the bytes are taken
  have hdone : takesIn done = 0 := by
    have := hacc.takes
    omega
  have hn := h.takenAtFill_atEnd hk (by omega) (by omega)
  have hflush : (Spec.pending u).flatten = outputOf u.owed ++ (Spec.called u).1.flatten ++ outputOf its := by
    rw [hpending, List.flatten_append, ← hfront]
    rfl
  rw [hdone] at hresumes hcut
  rw [PackUnit.FillsBuffer, hn, hflush]
  refine ⟨workAfter done (Spec.called u).2, cutFirst c rest, ?_, hresumes _⟩
  rw [PackUnit.advance_of_end howed hbytes hsource, PackStep.finish_eq]
  exact congrArg PackStep.finished ((congrArg (acceptItems · _) hits).trans hcut)

/-- The end of the source has been called upon when the piece comes after all that the read-ahead calls for. -/
theorem Spec.owedLegal.advance_fills (hp : Spec.pending u = pre ++ piece :: more) :
    u.FillsBuffer k (u.finishing || decide (Spec.pieceCount u u.readAhead.length ≤ pre.length)) := by
  have hall := h.pieceCount_all
  rcases append_eq_append_cons hp with ⟨more', hfront⟩ | ⟨pre', hpre, hlast⟩
  · have hlen := congrArg List.length hfront
    rw [List.length_append, List.length_append, List.length_cons, List.length_map] at hlen
    have hstill : (u.finishing || decide (Spec.pieceCount u u.readAhead.length ≤ pre.length)) = u.finishing := by
      rw [decide_eq_false (by omega), Bool.or_false]
    rw [hstill]
    rcases append_eq_append_cons hfront with ⟨more'', howed⟩ | ⟨pre', hpre, hcalled⟩
    · exact h.advance_owedFills hs hf hc hk howed
    · exact h.advance_bytesFill hs hf hc hk hpre hcalled
  · have hlen := congrArg List.length hpre
    rw [List.length_append, List.length_append, List.length_map] at hlen
    have hends : (u.finishing || decide (Spec.pieceCount u u.readAhead.length ≤ pre.length)) = true := by
      rw [decide_eq_true (by omega), Bool.or_true]
    rw [hends]
    by_cases hend : Spec.atSourceEnd u = true
    · rw [if_pos hend] at hlast
      exact h.advance_endFills hs hf hc hk hend hpre hlast
    · rw [if_neg hend] at hlast
      exact absurd hlast (by simp)

end

end Sys2Proof.Machine
end

