-- ==== Sys2Proof/Proofs/PackTransfers.lean ====
section
/-! PROOF. A pack unit's transfer after which it goes on with a read or a write of its buffer (R96 to R100, R104 to R106, R109, R120):
O29. -/

namespace Sys2Proof.Machine

-- One theorem at a time, as in the tests: all at once they pass the memory limit.
set_option Elab.async false

/-! ### A read left (R96, R100) -/

/-- Only a PASS unit stops before its read, when no capacity remains (R100). -/
theorem PackUnit.stopsUnread_false {u : PackUnit} (h : u.mode = .pass → 0 < Spec.capacity u) : u.stopsUnread = false := by
  by_cases hm : u.mode = .pass
  · have hroom : u.room ≠ 0 := Nat.ne_of_gt (h hm)
    simp [PackUnit.stopsUnread, hroom]
  · simp [PackUnit.stopsUnread, hm]

theorem PackUnit.advance_of_read {u : PackUnit} {w w' : PackStep} {q : BurstRequest}
    (h : acceptItems u.owed { unit := u, offered := [] } = (w, .drained))
    (h' : takeBytes w.unit.readAhead w = (w', .drained)) (hq : readAt w'.unit.source w'.unit.sourceCursor = some q)
    (hs : w'.unit.stopsUnread = false) : u.advance = (w', some q) := by
  unfold PackUnit.advance
  rw [h]
  dsimp only
  rw [h']
  dsimp only
  rw [hq]
  exact if_neg (by simp [hs])

/-- The unit whose bytes have all been taken. -/
def PackUnit.emptied (u : PackUnit) : PackUnit :=
  { Spec.accepting u u.readAhead.length (Spec.pending u).flatten with readAhead := [], work := (Spec.called u).2, owed := [] }

/-- With room for all its output the unit takes all its bytes, and asks for the read. -/
theorem Spec.owedLegal.advance_reads {u : PackUnit} (h : Spec.owedLegal u) {g : Fragment}
    (hg : u.source[u.sourceCursor.fragment]? = some g) (hc : (Spec.pending u).flatten.length ≤ Spec.capacity u)
    (hs : (Spec.pending u).flatten = [] ∨ (Spec.pending u).flatten.length < Spec.bufferSpace u)
    (hpass : u.mode = .pass → (Spec.pending u).flatten.length < Spec.capacity u) :
    u.advance = ({ unit := u.emptied, offered := tapped u.joined u.readAhead (Spec.pending u).flatten },
      some (Spec.readFrom g u.sourceCursor.offset)) := by
  have hlast : Spec.lastPieces u = [] := if_neg (by simp [Spec.atSourceEnd, hg])
  have hpending : (Spec.pending u).flatten = outputOf u.owed ++ (Spec.called u).1.flatten := by
    rw [Spec.pending_eq, hlast, List.append_nil, List.flatten_append]
    rfl
  have hreached : u.reached u.readAhead.length (Spec.pending u).flatten (Spec.called u).2 [] =
      { unit := u.emptied, offered := tapped u.joined u.readAhead (Spec.pending u).flatten } := by
    rw [PackUnit.reached, List.drop_length, List.take_length]
    rfl
  rw [← hreached]
  rw [hpending] at hc hs hpass ⊢
  have hlen := List.length_append (as := outputOf u.owed) (bs := (Spec.called u).1.flatten)
  have howed := h.acceptItems_owed (by omega) (hs.imp (fun e => (List.append_eq_nil_iff.1 e).1) fun e => by omega)
  have hbytes := h.takeBytes_called (by omega) (hs.imp_right fun e => by omega)
  refine PackUnit.advance_of_read howed hbytes (readAt_cursor hg) (PackUnit.stopsUnread_false fun hm => ?_)
  have hcap := Spec.capacity_accepting u u.readAhead.length (outputOf u.owed ++ (Spec.called u).1.flatten)
  exact hcap.symm ▸ Nat.sub_pos_of_lt (hpass hm)

/-- The unit asks for a read, and its run goes on (R96). -/
theorem exec_packTransfer_reads {s : State} {c : ChannelId} {p : PackId} {b : Burst} {data : Word} {u u' : PackUnit}
    {taken accepted : List Byte} {q : BurstRequest} (hlive : s.live = true) (hb : s.biu.burst = some b) (ho : b.owner = .pk p)
    (hl : Spec.lastPhase b) (hg : s.arbiter.packs.get p = some c) (hafter : Spec.afterTransfer (s.packs.get p) b data = u)
    (hr : u.condition = .running) (hend : u.ending = .none) (hu : s.UnitsKept) (hj : u'.joined = u.joined)
    (hending : u'.ending = .none)
    (hadv : u.advance = ({ unit := u', offered := tapped u.joined taken accepted }, some q)) :
    exec (.burstEndsWithReady data) s = .next
      { s with
        packs := s.packs.set p u'
        checks := Spec.offered s.checks u.joined taken accepted
        biu := { s.biu with burst := none, wanted := s.biu.wanted.set (Requester.pk p).position (some q) }
        hostMem := (s.burstTaken b).hostMem } := by
  have hdrive : ((s.burstTaken b).setPack p u).drivePack p = (s.packTaken b p u' u.joined taken accepted).want (.pk p) q := by
    rw [State.drivePack_asks _ p hadv, hj, State.offerTo_tapped, State.packTaken, State.burstTaken_eq]
    rfl
  have hmoved := s.packTaken_unitsMoved b p u' u.joined taken accepted
  have hp : (s.packTaken b p u' u.joined taken accepted).packOf c = some p :=
    (hmoved.grants hu.grantsPlaced).toUnitsOnce.packOf_eq (hmoved.arbiter ▸ hg)
  have hrun : ((s.packTaken b p u' u.joined taken accepted).channel c).state = .run := by
    rw [hmoved.channel]
    exact hu.packState p c hg
  have hover : ((s.packTaken b p u' u.joined taken accepted).want (.pk p) q).runIsOver c = false := by
    have hunit : (s.packTaken b p u' u.joined taken accepted).pack p = u' := (State.setPack_pack ..).trans (if_pos rfl)
    refine (State.runIsOver_pack (s := s.packTaken b p u' u.joined taken accepted) hp hrun).trans ?_
    rw [hunit]
    exact PackUnit.isOver_false (.inl hending)
  rw [exec_packTransfer hlive hb ho hl hg hafter hr hend, hdrive, State.settleRun_goesOn hover, State.packTaken,
    State.burstTaken_eq]
  rfl

/-- Settles O29: the unit with a read left and room for all its output, and the unit that fills its write buffer. -/
theorem packTransferTaken : Obligations.PackTransferTaken := by
  intro s c p b data hlive hu hb ho hl hg u hr hend howed bytes out space
  have hafter : Spec.afterTransfer (s.packs.get p) b data = u := rfl
  refine ⟨(s.burstTaken b).hostMem, s.burstTaken_hostMem b, fun a => s.burstTaken_read b, ?_, ?_⟩
  · intro g hsrc hc hs hpass
    exact exec_packTransfer_reads hlive hb ho hl hg hafter hr hend hu rfl hend (howed.advance_reads hsrc hc hs hpass)
  · intro pre piece more k hp hs hf hc hk
    obtain ⟨work, owed, hadv, hresumes⟩ := howed.advance_fills hs hf hc hk hp
    obtain ⟨hlegal, hpending, hwork⟩ := hresumes
    refine ⟨owed, work, ?_, hlegal, hpending, hwork⟩
    have hlen : out.length = pre.flatten.length + (piece.length + more.flatten.length) := by
      simp only [out, hp, List.flatten_append, List.flatten_cons, List.length_append]
    have hbuffer : u.writeBuffer ++ out.take space ≠ [] := fun e => by
      have htake := congrArg List.length (List.append_eq_nil_iff.1 e).2
      rw [List.length_take, List.length_nil] at htake
      omega
    exact exec_packTransfer_writes hlive hb ho hl hg hafter hr hend hu rfl hbuffer hadv

end Sys2Proof.Machine
end

