-- ==== Sys2Proof/Proofs/IntegrityCodes.lean ====
section
/-! PROOF. The integrity codes over any bytes (R117, R118): O32 and O33. -/

namespace Sys2Proof.Machine

/-! ### C32 (R117) -/

/-- Bit 0 of the register is its value's oddness. -/
theorem c32Shift_eq (r : Word) :
    c32Shift r = if r.toNat % 2 = 1 then (r >>> 1) ^^^ 0x82F63B78#32 else r >>> 1 := by
  have hbit : r.getLsbD 0 = true ↔ r.toNat % 2 = 1 := by
    rw [BitVec.getLsbD, Nat.testBit_zero, decide_eq_true_iff]
  simp only [c32Shift, Config.c32Constant, hbit]

/-- Settles O32: the shifts agree bit for bit, and the check values are computed. -/
theorem c32Code : Obligations.C32Code := by
  unfold Obligations.C32Code
  intro shift
  have hshift : c32Shift = shift := funext c32Shift_eq
  refine ⟨rfl, fun r b => ?_, fun r => rfl, ?_, ?_⟩
  · rw [← hshift]
    rfl
  · decide +kernel
  · decide

/-! ### D32: one byte, and the final code (R118) -/

theorem RunningCode.feed_d32 (a b : Fin 65519) (x : Byte) :
    ∃ a' b', RunningCode.feed (.d32 a b) x = .d32 a' b' ∧
      a'.val = (a.val + x.toNat) % 65519 ∧ b'.val = (b.val + a'.val) % 65519 :=
  ⟨_, _, rfl, rfl, rfl⟩

/-- Both sums fit in 16 bits, so neither half of the code runs into the other. -/
theorem RunningCode.final_d32_toNat (a b : Fin 65519) : (RunningCode.d32 a b).final.toNat = b.val * 65536 + a.val :=
  toNat_field (by omega)

/-! ### D32 over any bytes (R118) -/

theorem RunningCode.feedAll_concat (r : RunningCode) (bytes : List Byte) (x : Byte) :
    r.feedAll (bytes ++ [x]) = (r.feedAll bytes).feed x :=
  List.foldl_concat ..

/-- The A of D32 after some bytes from the start of a message, before it is taken modulo 65519. -/
def d32A (bytes : List Byte) : Nat := 1 + (bytes.map BitVec.toNat).sum

/-- The B of D32 after some bytes from the start of a message, before it is taken modulo 65519: the sum of the A of every byte. -/
def d32B (bytes : List Byte) : Nat := ((List.range bytes.length).map fun n => d32A (bytes.take (n + 1))).sum

theorem d32A_concat (bytes : List Byte) (x : Byte) : d32A (bytes ++ [x]) = d32A bytes + x.toNat := by
  simp [d32A, Nat.add_assoc]

/-- The last byte leaves the A of the bytes before it as they were. -/
theorem d32B_concat (bytes : List Byte) (x : Byte) : d32B (bytes ++ [x]) = d32B bytes + d32A (bytes ++ [x]) := by
  have hbefore : (List.range bytes.length).map (fun n => d32A ((bytes ++ [x]).take (n + 1))) =
      (List.range bytes.length).map fun n => d32A (bytes.take (n + 1)) :=
    List.map_congr_left fun n hn => by rw [List.take_append_of_le_length (List.mem_range.1 hn)]
  have hlast : (bytes ++ [x]).take (bytes.length + 1) = bytes ++ [x] := List.take_of_length_le (by simp)
  rw [d32B, List.length_append, List.length_singleton, List.range_succ, List.map_append, List.sum_append, hbefore,
    List.map_singleton, List.sum_singleton, hlast, d32B]

/-- Reducing at each byte is the same as reducing once, after the last one. -/
theorem RunningCode.feedAll_d32 (bytes : List Byte) :
    ∃ a b, (RunningCode.initial .d32).feedAll bytes = .d32 a b ∧
      a.val = d32A bytes % 65519 ∧ b.val = d32B bytes % 65519 := by
  induction bytes using List.reverseRecOn with
  | nil => exact ⟨1, 0, rfl, rfl, rfl⟩
  | append_singleton bytes x ih =>
    obtain ⟨a, b, hfed, ha, hb⟩ := ih
    obtain ⟨a', b', hfeed, ha', hb'⟩ := RunningCode.feed_d32 a b x
    have hA : a'.val = d32A (bytes ++ [x]) % 65519 := by rw [ha', ha, Nat.mod_add_mod, d32A_concat]
    have hB : b'.val = d32B (bytes ++ [x]) % 65519 := by rw [hb', hb, hA, ← Nat.add_mod, d32B_concat]
    exact ⟨a', b', by rw [RunningCode.feedAll_concat, hfed, hfeed], hA, hB⟩

/-- Settles O33, by induction on the bytes from the last one; the check values are computed. -/
theorem d32Code : Obligations.D32Code := by
  refine ⟨RunningCode.feed_d32, rfl, RunningCode.feedAll_d32, RunningCode.final_d32_toNat, ?_, ?_⟩
  · decide
  · decide

end Sys2Proof.Machine
end

