-- ==== Sys2Proof/Proofs/RecordWrites.lean ====
section
/-! PROOF. The completion writer's commands, the two ends of a record write and the phase flag (R132 to R135, R137, R139, R143,
R144, R146, R148): O39, O42 and O47. -/

namespace Sys2Proof.Machine

-- One theorem at a time, as in the tests: all at once they pass the memory limit.
set_option Elab.async false

/-! ### ENABLE, DISABLE and RESTART (R132, R133, R144) -/

section
variable {s : State} (hlive : s.live = true)
include hlive

theorem exec_enableWriter (h : s.writer.state = .disabled) :
    exec .enableWriter s =
      .next (State.beginRecord { s with writer := { s.writer with state := .ready, tail := 0, head := 0 } }) :=
  (next_taken hlive).trans (congrArg _ (if_pos h))

theorem exec_enableWriter_ignored (h : s.writer.state ≠ .disabled) : exec .enableWriter s = .next s :=
  (next_taken hlive).trans (congrArg _ (if_neg h))

theorem exec_restartWriter (h : s.writer.state = .stalled) :
    exec .restartWriter s = .next (State.beginRecord { s with writer := { s.writer with state := .ready } }) :=
  (next_taken hlive).trans (congrArg _ (if_pos h))

theorem exec_restartWriter_ignored (h : s.writer.state ≠ .stalled) : exec .restartWriter s = .next s :=
  (next_taken hlive).trans (congrArg _ (if_neg h))

theorem exec_disableWriter : exec .disableWriter s = .next s.takeDisable := next_taken hlive

end

theorem State.takeDisable_atOnce {s : State} (h : s.writer.state = .ready ∨ s.writer.state = .stalled) :
    s.takeDisable = { s with writer := { s.writer with state := .disabled } } := by
  rcases h with h | h <;> simp only [State.takeDisable, h]

theorem State.takeDisable_writing {s : State} (h : s.writer.state = .writing) :
    s.takeDisable = { s with writer := { s.writer with disablePending := true } } := by
  simp only [State.takeDisable, h]

theorem State.takeDisable_disabled {s : State} (h : s.writer.state = .disabled) : s.takeDisable = s := by
  simp only [State.takeDisable, h]

/-- Settles O39, command by command; a command that makes the writer READY lets it begin a record, if there is one to begin. -/
theorem writerCommands : Obligations.WriterCommands := by
  intro s hlive enabled restarted
  refine ⟨exec_enableWriter_ignored hlive, exec_restartWriter_ignored hlive, fun h hno => ?_, fun h hno => ?_,
    fun c e k st h hsize hc hk => ?_, fun c e k st h hroom hc hk => ?_, fun h => ?_, fun h => ?_, fun h => ?_⟩
  · rw [exec_enableWriter hlive h]
    exact congrArg _ (State.beginRecord_none (s := { s with writer := enabled }) (.inr (.inr hno)))
  · rw [exec_restartWriter hlive h]
    exact congrArg _ (State.beginRecord_none (s := { s with writer := restarted }) (.inr hno))
  · rw [exec_enableWriter hlive h]
    have hroom : (enabled.tail - enabled.head).toNat < enabled.ringSize := by simpa [enabled] using hsize
    exact congrArg _ (State.beginRecord_some (w := enabled) rfl hroom hc hk)
  · rw [exec_restartWriter hlive h]
    exact congrArg _ (State.beginRecord_some (w := restarted) rfl hroom hc hk)
  · rw [exec_disableWriter hlive, State.takeDisable_atOnce h]
  · rw [exec_disableWriter hlive, State.takeDisable_writing h]
  · rw [exec_disableWriter hlive, State.takeDisable_disabled h]

/-! ### The ends of a record write (R139, R143) -/

/-- A part whose record write has ended with ready, before the writer looks for a next record: TAIL, CQ_LEVEL, the channel told,
and the writer READY or, with a DISABLE pending, DISABLED (R133, R139, R146). -/
def State.recordDone (r : Record) (s : State) : State :=
  { s with
    writer := { s.writer with
      tail := s.writer.tail + 1, current := none, disablePending := false
      state := if s.writer.disablePending = true then .disabled else .ready }
    channels := s.channels.set r.channel { s.channels.get r.channel with recordWritten := true }
    idc := { s.idc with
      status := if s.writer.threshold ≠ 0 ∧ s.writer.threshold ≤ (s.writer.tail + 1 - s.writer.head).toNat then
          s.idc.status ||| 1#32
        else s.idc.status } }

section
variable {s : State} {r : Record}

/-- CQ_LEVEL is position 0 of the interrupt status register (R146, R179). -/
theorem State.evaluateLevel_eq (s : State) :
    s.evaluateLevel =
      { s with
        idc := { s.idc with
          status := if s.writer.threshold ≠ 0 ∧ s.writer.threshold ≤ s.writer.level then s.idc.status ||| 1#32
            else s.idc.status } } := by
  unfold State.evaluateLevel
  split <;> rfl

theorem State.recordWriteEnds_eq (hr : s.writer.current = some r) : s.recordWriteEnds = (s.recordDone r).beginRecord := by
  simp only [State.recordWriteEnds, hr, State.evaluateLevel_eq]
  rfl

theorem State.recordWriteFaults_eq (hr : s.writer.current = some r) :
    s.recordWriteFaults =
      { s with
        writer := { s.writer with
          current := none, disablePending := false, requesting := s.writer.requesting.set r.channel true
          state := if s.writer.disablePending = true then .disabled else .stalled }
        idc := { s.idc with status := s.idc.status ||| 4#32 } } := by
  simp only [State.recordWriteFaults, hr]
  rfl

/-- Being told that its record is written changes nothing else of a channel. -/
theorem State.recordDone_channel (d : ChannelId) :
    (s.recordDone r).channels.get d =
      { s.channels.get d with recordWritten := decide (d = r.channel) || (s.channels.get d).recordWritten } := by
  refine (Vector.get_set_fin s.channels r.channel d _).trans ?_
  by_cases h : d = r.channel
  · subst h
    simp
  · simp [h]

theorem State.recordDone_hasRecord {d : ChannelId} {e : JobEntry} {k : Working} {st : Status}
    (h : Spec.hasRecord s d e k st) : Spec.hasRecord (s.recordDone r) d e k st := by
  simpa only [Spec.hasRecord, State.recordDone_channel] using h

theorem State.recordDone_record (w : Writer) (d : ChannelId) (e : JobEntry) (k : Working) (st : Status) :
    Spec.record w d ((s.recordDone r).channels.get d) e k st = Spec.record w d (s.channels.get d) e k st := by
  rw [State.recordDone_channel]
  rfl

/-- A writer that begins nothing: a DISABLE was pending, the ring is full, or no channel asks. -/
theorem State.recordDone_beginRecord_none
    (h : s.writer.disablePending = true ∨ s.writer.ringSize ≤ (s.writer.tail + 1 - s.writer.head).toNat ∨
      ∀ c, s.writer.requesting.get c = false) : (s.recordDone r).beginRecord = s.recordDone r := by
  refine State.beginRecord_none (h.imp_left fun hd => ?_)
  simp [State.recordDone, hd]

/-- A writer that goes on to the next record. -/
theorem State.recordDone_beginRecord_some {d : ChannelId} {e : JobEntry} {k : Working} {st : Status}
    (hd : s.writer.disablePending = false) (hroom : (s.writer.tail + 1 - s.writer.head).toNat < s.writer.ringSize)
    (hc : Spec.chosen s.writer d) (hk : Spec.hasRecord s d e k st) :
    (s.recordDone r).beginRecord =
      Spec.recordBegun { s.writer with tail := s.writer.tail + 1 } d
        (Spec.record { s.writer with tail := s.writer.tail + 1 } d (s.channels.get d) e k st) (s.recordDone r) := by
  have hready : (s.recordDone r).writer.state = .ready := by simp [State.recordDone, hd]
  refine (State.beginRecord_some (s := s.recordDone r) hready hroom hc (State.recordDone_hasRecord hk)).trans ?_
  rw [State.recordDone_record]
  unfold Spec.recordBegun State.recordDone
  rw [hd]
  rfl

end

section
variable {s : State} {b : Burst} (hlive : s.live = true) (hb : s.biu.burst = some b) (ho : b.owner = .cw)
  (hw : b.request.write = true) {r : Record} (hr : s.writer.current = some r)
include hlive hb ho hw hr

theorem exec_recordWriteEnds (hl : Spec.lastPhase b) (data : Word) :
    exec (.burstEndsWithReady data) s =
      .next (((s.memoryTakes (b.request.cells b.phasesEnded)).releaseBus.recordDone r).beginRecord) := by
  rw [exec_writeEnds hlive hb hw hl]
  simp only [State.tellReady, ho]
  exact congrArg _ (State.recordWriteEnds_eq hr)

theorem exec_recordWriteFaults {why : Why} (ht : why = .timeout → b.timeout ≠ 0) :
    exec (Spec.faultCommand why) s =
      .next
        { s with
          writer := { s.writer with
            current := none, disablePending := false, requesting := s.writer.requesting.set r.channel true
            state := if s.writer.disablePending = true then .disabled else .stalled }
          idc := { s.idc with status := s.idc.status ||| 4#32 }
          biu := { s.biu with burst := none, lastFault := Spec.faultOf b why }
          hostMem := (s.memoryMayTake (b.request.cells b.phasesEnded)).hostMem, freeIndex := s.freeIndex + 1 } := by
  rw [exec_faultCommand hlive hb ht, if_pos hw]
  simp only [State.tellFault, ho]
  exact congrArg _ (State.recordWriteFaults_eq hr)

end

/-- Settles O42, by the end of the burst and by whether the writer goes on to a next record. -/
theorem recordWriteEnds : Obligations.RecordWriteEnds := by
  intro s b r hlive hb ho hw hr level
  refine ⟨fun data hl hno => ⟨_, ?_, fun a => State.memoryTakes_read s b.request b.phasesEnded⟩,
    fun data d e k st hl hd hroom hc hk => ⟨_, ?_, fun a => State.memoryTakes_read s b.request b.phasesEnded⟩,
    fun why ht => ⟨_, exec_recordWriteFaults hlive hb ho hw hr ht,
      fun a => State.memoryMayTake_read s b.request b.phasesEnded⟩⟩
  · rw [exec_recordWriteEnds hlive hb ho hw hr hl]
    exact congrArg _ (State.recordDone_beginRecord_none hno)
  · rw [exec_recordWriteEnds hlive hb ho hw hr hl]
    exact congrArg _ (State.recordDone_beginRecord_some hd hroom hc hk)

/-! ### The phase flag (R135) -/

/-- A ring holds an even number of laps of the count: no lap is cut at the count's wrap. -/
theorem laps_of_isCompletionRingSize {size : Nat} (h : isCompletionRingSize size) : ∃ m, 0 < size ∧ 65536 = size * (2 * m) := by
  have key : ∀ n ∈ [8, 16, 32, 64, 128, 256, 512, 1024, 2048, 4096], 0 < n ∧ 65536 = n * (2 * (32768 / n)) := by decide
  exact ⟨32768 / size, key size h⟩

/-- A whole lap turns the flag, since the number of laps is even where the count wraps. -/
theorem phaseFlag_add_size (n : Half) {size : Nat} (h : isCompletionRingSize size) :
    phaseFlag (n + BitVec.ofNat 16 size) size = !phaseFlag n size := by
  obtain ⟨m, hpos, hm⟩ := laps_of_isCompletionRingSize h
  have hlaps : (n + BitVec.ofNat 16 size).toNat / size % 2 = (n.toNat / size + 1) % 2 :=
    calc (n + BitVec.ofNat 16 size).toNat / size % 2
      _ = (n.toNat + size) % (size * (2 * m)) / size % 2 := by
        rw [BitVec.toNat_add, BitVec.toNat_ofNat, Nat.add_mod_mod, ← hm]
      _ = (n.toNat + size) / size % (2 * m) % 2 := by rw [Nat.mod_mul_right_div_self]
      _ = (n.toNat / size + 1) % 2 := by rw [Nat.mod_mul_right_mod, Nat.add_div_right _ hpos]
  unfold phaseFlag
  rw [hlaps]
  rcases Nat.mod_two_eq_zero_or_one (n.toNat / size) with hn | hn <;> simp [Nat.add_mod, hn]

theorem State.recordOf_phase {s : State} {c : ChannelId} {r : Record} (h : s.recordOf c = some r) :
    r.phase = phaseFlag s.writer.tail s.writer.ringSize := by
  unfold State.recordOf at h
  dsimp only at h
  split at h
  · obtain ⟨st, -, rfl⟩ := Option.map_eq_some_iff.1 h
    rfl
  · contradiction

/-- Settles O47: every record's flag is that of TAIL, a lap turns it, and a full ring begins no record. -/
theorem phaseFlags : Obligations.PhaseFlag :=
  ⟨fun _ _ _ => State.recordOf_phase, fun n _ => phaseFlag_add_size n, fun _ h => State.beginRecord_none (.inr (.inl h))⟩

end Sys2Proof.Machine
end

