-- ==== Sys2Proof/Proofs/RingLevel.lean ====
section
/-! PROOF. Every step keeps the ring level within the ring size and the current record with WRITING (R129, R130, R133, R137,
R141): O55. -/

namespace Sys2Proof.Machine

-- One theorem at a time, as in the tests: all at once they pass the memory limit.
set_option Elab.async false

section
variable {s t : State}

/-! ### What the invariant does not speak of -/

/-- The requesting set is no part of the invariant. -/
theorem State.RingLevelKept.of_requesting (h : s.RingLevelKept) {asking : Vector Bool 4}
    (e : t.writer = { s.writer with requesting := asking }) : t.RingLevelKept where
  current := by rw [e]; exact h.current
  level := by rw [e]; exact h.level
  room := by rw [e]; exact h.room
  pendingDisable := by rw [e]; exact h.pendingDisable

/-- Nor is anything outside the completion writer. -/
theorem State.RingLevelKept.of_writer (h : s.RingLevelKept) (e : t.writer = s.writer) : t.RingLevelKept :=
  h.of_requesting e

theorem State.takeResetValues_ringLevelKept (s : State) (n : Nat) : (s.takeResetValues n).RingLevelKept :=
  State.reset_ringLevelKept.of_writer rfl

/-! ### Records (R134, R137, R139, R143) -/

/-- A record is begun by a READY writer with room, which is then WRITING it. -/
theorem State.RingLevelKept.beginRecord (h : s.RingLevelKept) : s.beginRecord.RingLevelKept := by
  unfold State.beginRecord
  split
  · rename_i hready
    obtain ⟨-, hroom⟩ := hready
    split
    · exact h
    split
    · exact h
    · exact { current := by simp, level := h.level, room := fun _ => hroom, pendingDisable := fun _ => rfl }
  · exact h

theorem State.RingLevelKept.requestRecord (h : s.RingLevelKept) (c : ChannelId) : (s.requestRecord c).RingLevelKept :=
  State.RingLevelKept.beginRecord (h.of_requesting rfl)

/-- A writer that is neither WRITING nor has a DISABLE pending needs only its level within the ring size. -/
theorem State.RingLevelKept.of_noRecord (hs : s.writer.state ≠ .writing) (hc : s.writer.current = none)
    (hd : s.writer.disablePending = false) (hl : s.writer.level ≤ s.writer.ringSize) : s.RingLevelKept where
  current := by simp [hs, hc]
  level := hl
  room := fun e => absurd e hs
  pendingDisable := fun e => by simp [hd] at e

/-- Out of WRITING no record is current. -/
theorem State.RingLevelKept.noRecord (h : s.RingLevelKept) (hs : s.writer.state ≠ .writing) :
    s.writer.current = none ∧ s.writer.disablePending = false :=
  ⟨Option.not_isSome_iff_eq_none.1 (mt h.current.2 hs), Bool.eq_false_iff.2 (mt h.pendingDisable hs)⟩

/-- The record just written takes the room that there was when it was begun. -/
theorem State.RingLevelKept.recordDone (h : s.RingLevelKept) {r : Record} (hr : s.writer.current = some r) :
    (s.recordDone r).RingLevelKept := by
  have hroom : s.writer.level < s.writer.ringSize := h.room (h.current.2 (by simp [hr]))
  refine State.RingLevelKept.of_noRecord ?_ rfl rfl ?_
  · simp only [State.recordDone]
    split <;> decide
  · change (s.writer.tail + 1 - s.writer.head).toNat ≤ s.writer.ringSize
    simp only [Writer.level] at hroom
    bv_omega

theorem State.RingLevelKept.recordWriteEnds (h : s.RingLevelKept) : s.recordWriteEnds.RingLevelKept := by
  cases hr : s.writer.current with
  | none => simpa only [State.recordWriteEnds, hr] using h
  | some r => exact State.recordWriteEnds_eq hr ▸ (h.recordDone hr).beginRecord

theorem State.RingLevelKept.recordWriteFaults (h : s.RingLevelKept) : s.recordWriteFaults.RingLevelKept := by
  cases hr : s.writer.current with
  | none => simpa only [State.recordWriteFaults, hr] using h
  | some r =>
    rw [State.recordWriteFaults_eq hr]
    refine State.RingLevelKept.of_noRecord ?_ rfl rfl h.level
    dsimp only
    split <;> decide

/-! ### The writer's commands and settings (R131 to R133, R144) -/

theorem State.RingLevelKept.takeEnable (h : s.RingLevelKept) : s.takeEnable.RingLevelKept := by
  unfold State.takeEnable
  split
  · rename_i hs
    obtain ⟨hc, hd⟩ := h.noRecord (by simp [hs])
    refine State.RingLevelKept.beginRecord (State.RingLevelKept.of_noRecord (by simp) hc hd ?_)
    simp [Writer.level]
  · exact h

theorem State.RingLevelKept.takeDisable (h : s.RingLevelKept) : s.takeDisable.RingLevelKept := by
  have disabled (hs : s.writer.state ≠ .writing) :
      State.RingLevelKept { s with writer := { s.writer with state := .disabled } } :=
    State.RingLevelKept.of_noRecord (by simp) (h.noRecord hs).1 (h.noRecord hs).2 h.level
  cases hs : s.writer.state with
  | disabled => rwa [State.takeDisable_disabled hs]
  | ready =>
    rw [State.takeDisable_atOnce (.inl hs)]
    exact disabled (by simp [hs])
  | stalled =>
    rw [State.takeDisable_atOnce (.inr hs)]
    exact disabled (by simp [hs])
  | writing =>
    rw [State.takeDisable_writing hs]
    exact { h with pendingDisable := fun _ => hs }

theorem State.RingLevelKept.takeRestart (h : s.RingLevelKept) : s.takeRestart.RingLevelKept := by
  unfold State.takeRestart
  split
  · rename_i hs
    obtain ⟨hc, hd⟩ := h.noRecord (by simp [hs])
    exact State.RingLevelKept.beginRecord (State.RingLevelKept.of_noRecord (by simp) hc hd h.level)
  · exact h

theorem State.RingLevelKept.takeWriterControl (h : s.RingLevelKept) (v : Word) :
    (s.takeWriterControl v).RingLevelKept := by
  unfold State.takeWriterControl
  split
  · exact h.takeEnable
  · exact h.takeDisable
  · exact h.takeRestart
  · exact h

theorem State.RingLevelKept.takeCompletionBase (h : s.RingLevelKept) (v : Word) :
    (s.takeCompletionBase v).RingLevelKept := by
  unfold State.takeCompletionBase
  split
  · exact ⟨h.current, h.level, h.room, h.pendingDisable⟩
  · exact h.of_writer rfl

/-- The ring size is written with the ring empty, so any size holds its level (R131). -/
theorem State.RingLevelKept.takeCompletionSize (h : s.RingLevelKept) (v : Word) :
    (s.takeCompletionSize v).RingLevelKept := by
  unfold State.takeCompletionSize
  split
  · rename_i hc
    obtain ⟨hs, he⟩ := (Writer.configurable_iff _).1 hc
    obtain ⟨hcurrent, hd⟩ := h.noRecord (by simp [hs])
    refine State.RingLevelKept.of_noRecord (by simp [hs]) hcurrent hd ?_
    simp [Writer.level, he]
  · exact h.of_writer rfl

theorem State.RingLevelKept.takeThreshold (h : s.RingLevelKept) (v : Word) : (s.takeThreshold v).RingLevelKept :=
  ⟨h.current, h.level, h.room, h.pendingDisable⟩

/-- HEAD moves towards TAIL alone (R141). -/
theorem State.RingLevelKept.moveHead (h : s.RingLevelKept) (v : Word) : (s.moveHead v).RingLevelKept := by
  unfold State.moveHead
  dsimp only
  split
  · rename_i hle
    split
    · exact h
    · exact State.RingLevelKept.beginRecord
        { h with level := hle.trans h.level, room := fun hs => hle.trans_lt (h.room hs) }
  · exact h.of_writer rfl

theorem State.RingLevelKept.takeHead (h : s.RingLevelKept) (v : Word) : (s.takeHead v).RingLevelKept :=
  (h.of_writer (t := s.takeLeavings) (by simp)).moveHead v

/-! ### The channel commands: an ABORT or channel RESET takes its channel out of the requesting set (R74, R76) -/

theorem State.disposeOf_writer (s : State) (k : AbortKind) (c : ChannelId) :
    ∃ asking, (s.disposeOf k c).writer = { s.writer with requesting := asking } := by
  by_cases hs : (s.channel c).state = .retire
  · simp only [State.disposeOf, hs]
    split
    · exact ⟨_, rfl⟩
    · exact ⟨s.writer.requesting.set c false, by simp [State.withdrawRecord]⟩
  · refine ⟨s.writer.requesting, ?_⟩
    unfold State.disposeOf
    dsimp only
    (repeat' split) <;> simp_all

theorem State.RingLevelKept.disposeOf (h : s.RingLevelKept) (k : AbortKind) (c : ChannelId) :
    (s.disposeOf k c).RingLevelKept :=
  let ⟨_, e⟩ := s.disposeOf_writer k c
  h.of_requesting e

theorem State.RingLevelKept.takeAbort (h : s.RingLevelKept) (c : ChannelId) : (s.takeAbort c).RingLevelKept := by
  unfold State.takeAbort
  split
  · exact h
  · exact h.disposeOf _ c

theorem State.RingLevelKept.takeReset (h : s.RingLevelKept) (c : ChannelId) : (s.takeReset c).RingLevelKept := by
  unfold State.takeReset
  split
  · exact h.of_writer rfl
  · exact h.disposeOf _ c

theorem State.RingLevelKept.takeChannelControl (h : s.RingLevelKept) (c : ChannelId) (v : Word) :
    (s.takeChannelControl c v).RingLevelKept := by
  have hset : (s.setHaltOnError c (v.getLsbD 8)).RingLevelKept := h.of_writer rfl
  unfold State.takeChannelControl
  dsimp only
  split
  · exact hset.of_writer (by simp)
  · exact hset.of_writer (by simp)
  · exact hset.takeAbort c
  · exact hset.takeReset c
  · exact hset

/-! ### The ends of bursts, and the resets -/

theorem State.RingLevelKept.burstReady (h : s.RingLevelKept) (b : Burst) (bytes : List Byte) :
    (s.burstReady b bytes).RingLevelKept := by
  have hbus : s.releaseBus.RingLevelKept := h.of_writer rfl
  unfold State.burstReady
  split
  · exact State.takeResetValues_ringLevelKept ..
  unfold State.tellReady
  split
  case h_4 => exact hbus.recordWriteEnds
  all_goals exact hbus.of_writer (by simp)

theorem State.RingLevelKept.burstFaults (h : s.RingLevelKept) (b : Burst) (why : Why) :
    (s.burstFaults b why).RingLevelKept := by
  have hm : (if b.request.write then s.memoryMayTake (b.request.cells b.phasesEnded) else s).RingLevelKept := by
    split
    · exact h.of_writer rfl
    · exact h
  unfold State.burstFaults
  dsimp only
  generalize (if b.request.write then s.memoryMayTake (b.request.cells b.phasesEnded) else s) = t at hm ⊢
  have hbus : (t.releaseBus.recordFault b why).RingLevelKept := hm.of_writer rfl
  split
  · exact State.takeResetValues_ringLevelKept ..
  unfold State.tellFault
  split
  case h_4 => exact hbus.recordWriteFaults
  all_goals exact hbus.of_writer (by simp)

theorem State.RingLevelKept.phaseReady (h : s.RingLevelKept) (data : Word) : (s.phaseReady data).RingLevelKept := by
  unfold State.phaseReady
  split
  · exact h
  · rename_i b _
    have hm : (if b.request.write then s.memoryTakes (b.request.cells b.phasesEnded) else s).RingLevelKept := by
      split
      · exact h.of_writer rfl
      · exact h
    dsimp only
    generalize (if b.request.write then s.memoryTakes (b.request.cells b.phasesEnded) else s) = t at hm ⊢
    split
    · exact hm.of_writer rfl
    · exact hm.burstReady ..

theorem State.RingLevelKept.phaseError (h : s.RingLevelKept) : s.phaseError.RingLevelKept := by
  unfold State.phaseError
  split
  · exact h
  · exact h.burstFaults ..

theorem State.RingLevelKept.phaseTimeout (h : s.RingLevelKept) : s.phaseTimeout.RingLevelKept := by
  unfold State.phaseTimeout
  split
  · exact h
  split
  · exact h
  · exact h.burstFaults ..

theorem State.RingLevelKept.clockPeriod (h : s.RingLevelKept) : s.clockPeriod.RingLevelKept := by
  unfold State.clockPeriod
  split
  · exact h
  split
  · exact h.of_writer rfl
  split
  · exact h.of_writer rfl
  · exact h.burstFaults ..

theorem State.RingLevelKept.takeDeviceReset (h : s.RingLevelKept) : s.takeDeviceReset.RingLevelKept := by
  unfold State.takeDeviceReset
  split
  · exact State.takeResetValues_ringLevelKept ..
  · exact h.of_writer rfl

theorem State.RingLevelKept.takeGlobalControl (h : s.RingLevelKept) (v : Word) :
    (s.takeGlobalControl v).RingLevelKept := by
  unfold State.takeGlobalControl
  split
  · exact h.takeDeviceReset
  · exact h

/-! ### The window, and every command -/

theorem State.RingLevelKept.ownerTakes (h : s.RingLevelKept) (r : Reg) (v : Word) : (s.ownerTakes r v).RingLevelKept := by
  cases r
  case globalControl => exact h.takeGlobalControl v
  case writerControl => exact h.takeWriterControl v
  case completionRingBase => exact h.takeCompletionBase v
  case completionRingSize => exact h.takeCompletionSize v
  case head => exact h.takeHead v
  case threshold => exact h.takeThreshold v
  case channelControl c => exact h.takeChannelControl c v
  all_goals exact h.of_writer (by simp [State.ownerTakes])

theorem State.RingLevelKept.windowWrite (h : s.RingLevelKept) (a : Word) (lanes : BitVec 4) (v : Word) :
    (s.windowWrite a lanes v).RingLevelKept := by
  unfold State.windowWrite
  dsimp only
  split
  · exact h.of_writer rfl
  split
  · exact h.of_writer rfl
  split
  · exact h.of_writer rfl
  · exact h.ownerTakes ..

open State.Invariant in
/-- Every command keeps the invariant: those that act on the completion writer or on its requesting set, one by one, and the rest
because they leave the writer as it was. -/
theorem State.RingLevelKept.exec (h : s.RingLevelKept) {i : Instr} (e : exec i s = .next t) : t.RingLevelKept := by
  cases i
  case abortChannel c b => exact ifTaken h (fun _ => (h.of_writer (t := s.setHaltOnError c b) rfl).takeAbort c) e
  case resetChannel c b => exact ifTaken h (fun _ => (h.of_writer (t := s.setHaltOnError c b) rfl).takeReset c) e
  case haltOnError c v => exact ifTaken h (fun _ => h.takeChannelControl c v) e
  case enableWriter => exact ifTaken h (fun _ => h.takeEnable) e
  case disableWriter => exact ifTaken h (fun _ => h.takeDisable) e
  case restartWriter => exact ifTaken h (fun _ => h.takeRestart) e
  case completionRingBaseWrite v => exact ifTaken h (fun _ => h.takeCompletionBase v) e
  case completionRingSizeWrite v => exact ifTaken h (fun _ => h.takeCompletionSize v) e
  case thresholdWrite v => exact ifTaken h (fun _ => h.takeThreshold v) e
  case headWrite v => exact ifTaken h (fun _ => h.takeHead v) e
  case deviceReset => exact ifTaken h (fun _ => h.takeDeviceReset) e
  case registerWrite a l v => exact ifTaken h (fun _ => h.windowWrite a l v) e
  case resetPinAssert => cases e; exact State.reset_ringLevelKept.of_writer rfl
  case resetPinRelease => cases e; exact h.of_writer rfl
  case dataPhaseReady d => cases e; exact h.phaseReady d
  case burstEndsWithReady d => cases e; exact h.phaseReady d
  case burstEndsWithError => cases e; exact h.phaseError
  case burstEndsWithTimeout => cases e; exact h.phaseTimeout
  case recordRequest c => exact ifTaken h (fun _ => h.requestRecord c) e
  case recordWithdrawal c =>
    refine ifTaken h (fun _ => ?_) e
    split
    · exact (h.of_requesting (t := s.withdrawRecord c) rfl).of_writer (by simp)
    · exact h
  case holdRequest c => exact ifTaken h (fun _ => h.of_writer (by split <;> simp)) e
  case unitJoin c => exact ifTaken h (fun _ => h.of_writer (by split <;> simp)) e
  all_goals exact ifTaken h (fun _ => h.of_writer (by simp)) e

end

/-- Settles O55: only the completion writer's own events move its counts and its state, and each keeps the invariant. -/
theorem everyStepKeepsTheRingLevel : Obligations.EveryStepKeepsTheRingLevel := by
  intro s t h e
  unfold step at e
  split at e
  · cases e
    exact h.clockPeriod
  · rename_i rest _
    exact (h.of_writer (t := s.withPending rest) rfl).exec e

end Sys2Proof.Machine
end

