-- ==== Sys2Proof/Proofs/Resets.lean ====
section
/-! PROOF. The reset pin, and the device reset from its command to the end of its pending period (R155 to R159): O5, O6, O7 and
O8. -/

namespace Sys2Proof.Machine

section
variable {s : State}

/-! ### Commands held back (R156, R157, R159) -/

theorem State.live_eq_false_iff : s.live = false ↔ s.pinAsserted = true ∨ s.idc.resetPending = true := by
  rw [Bool.eq_false_iff, ne_eq, State.live_iff]
  cases s.pinAsserted <;> cases s.idc.resetPending <;> simp

theorem next_notTaken {p : Prop} [Decidable p] (h : ¬ p) {s t : State} :
    (Host.Outcome.next (if p then t else s) : Host.Outcome State Fault Refusal) = .next s :=
  congrArg _ (if_neg h)

/-- A part held in reset takes only the bus events of a burst and the commands of the pin. -/
theorem exec_heldBack (h : s.live = false) {c : Instr} (hc : Spec.goesOn c = false) (hr : c ≠ .resetPinRelease) :
    exec c s = .next s := by
  cases c
  case resetPinRelease => exact absurd rfl hr
  case dataPhaseReady | burstEndsWithReady | burstEndsWithError | burstEndsWithTimeout | resetPinAssert => cases hc
  all_goals exact next_notTaken (by simp [h])

/-- With no burst of the part in progress the events of the bus are not its own (R174). -/
theorem exec_busEvent_noBurst (hb : s.biu.burst = none) {c : Instr} (hc : Spec.goesOn c = true) (ha : c ≠ .resetPinAssert) :
    exec c s = .next s := by
  cases c
  case resetPinAssert => exact absurd rfl ha
  case dataPhaseReady d => exact congrArg Host.Outcome.next (show s.phaseReady d = s by rw [State.phaseReady, hb])
  case burstEndsWithReady d => exact congrArg Host.Outcome.next (show s.phaseReady d = s by rw [State.phaseReady, hb])
  case burstEndsWithError => exact congrArg Host.Outcome.next (show s.phaseError = s by rw [State.phaseError, hb])
  case burstEndsWithTimeout => exact congrArg Host.Outcome.next (show s.phaseTimeout = s by rw [State.phaseTimeout, hb])
  all_goals cases hc

theorem State.intLine_heldBack (h : s.live = false) : s.intLine = false := by
  simp [State.intLine, h]

theorem State.busRequestLine_heldBack (h : s.live = false) : s.busRequestLine = false := by
  simp [State.busRequestLine, h]

/-! ### Host memory outside a burst (R170, R171) -/

/-- No byte of the burst lies at the address. -/
def BurstRequest.Misses (q : BurstRequest) (a : Nat) : Prop :=
  ∀ k < q.length, (q.address + BitVec.ofNat 32 k).toNat ≠ a

theorem BurstRequest.Misses.cells {q : BurstRequest} {a : Nat} (h : q.Misses a) {i : Nat} :
    ∀ c ∈ q.cells i, c.1.toNat ≠ a := by
  intro c hc
  obtain ⟨k, hk, rfl⟩ := BurstRequest.mem_cells hc
  exact h k hk

theorem BurstRequest.Misses.cellsFrom {q : BurstRequest} {a : Nat} (h : q.Misses a) {i n : Nat} :
    ∀ c ∈ q.cellsFrom i n, c.1.toNat ≠ a := by
  intro c hc
  obtain ⟨k, hk, rfl⟩ := BurstRequest.mem_cellsFrom hc
  exact h k hk

theorem State.memoryTakes_read_other {l : List (Word × Byte)} {a : Nat} (h : ∀ c ∈ l, c.1.toNat ≠ a) :
    Memory.read (s.memoryTakes l).hostMem a = Memory.read s.hostMem a :=
  Memory.read_writeAll_other h

theorem State.memoryMayTake_read_other {l : List (Word × Byte)} {a : Nat} (h : ∀ c ∈ l, c.1.toNat ≠ a) :
    Memory.read (s.memoryMayTake l).hostMem a = Memory.read s.hostMem a :=
  Memory.read_writeAll_other fun c hc => h c (List.mem_of_mem_filter hc)

/-! ### The reset pin (R159) -/

/-- The reset values are those of the blocks: the pin is no part of them. -/
theorem Spec.AtResetValues.withPin (h : Spec.AtResetValues s) (b : Bool) : Spec.AtResetValues { s with pinAsserted := b } :=
  { h with }

theorem State.abandonBurst_read {a : Nat}
    (h : ∀ b, s.biu.burst = some b → b.request.write = true → b.request.Misses a) :
    Memory.read s.abandonBurst.hostMem a = Memory.read s.hostMem a := by
  unfold State.abandonBurst
  split
  · rfl
  · rename_i b hb
    split
    · exact State.memoryMayTake_read_other (h b hb ‹_›).cellsFrom
    · rfl

theorem State.windowRead_pin (h : s.pinAsserted = true) (a : Word) (lanes : BitVec 4) : s.windowRead a lanes = none :=
  if_pos h

theorem State.busDrive_noBurst (h : s.biu.burst = none) : s.busDrive = none := by
  rw [State.busDrive, h, Option.map_none]

/-- Settles O5: a part under the pin takes the commands of the pin and the events of a burst alone, and it has no burst. -/
theorem resetPin : Obligations.ResetPin := by
  intro s
  have held {t : State} (hp : t.pinAsserted = true) : t.live = false := State.live_eq_false_iff.2 (.inl hp)
  refine ⟨?assertion, fun hp => ⟨State.intLine_heldBack (held hp), State.busRequestLine_heldBack (held hp),
    State.windowRead_pin hp, fun hb => ⟨State.busDrive_noBurst hb, fun c ha hr => ?holding⟩⟩, rfl⟩
  case assertion =>
    exact ⟨s.assertPin, rfl, (s.abandonBurst.takeResetValues_spec 0).withPin true, rfl, rfl,
      State.intLine_heldBack (held rfl), State.busRequestLine_heldBack (held rfl), State.busDrive_noBurst rfl,
      State.windowRead_pin rfl, fun a h => State.abandonBurst_read h⟩
  case holding =>
    cases hc : Spec.goesOn c with
    | true => exact exec_busEvent_noBurst hb hc ha
    | false => exact exec_heldBack (held hp) hc hr

/-! ### The device reset command (R156, R158) -/

/-- Settles O6, by whether a burst holds the bus. -/
theorem deviceResetCommand : Obligations.DeviceResetCommand := by
  intro s hlive
  have htaken : exec .deviceReset s = .next s.takeDeviceReset := next_taken hlive
  rw [htaken]
  cases hb : s.biu.burst with
  | none =>
    have hreset : s.takeDeviceReset = s.completeDeviceReset := by rw [State.takeDeviceReset, hb]
    exact ⟨fun _ => ⟨_, congrArg _ hreset, s.takeResetValues_spec _, rfl, rfl, rfl⟩, fun h => absurd rfl h⟩
  | some b =>
    have hpending : s.takeDeviceReset =
        { s with
          biu := { s.biu with wanted := Vector.replicate 10 none, requests := Vector.replicate 10 none }
          idc := { s.idc with resetPending := true } } := by rw [State.takeDeviceReset, hb]
    refine ⟨nofun, fun _ => ⟨_, congrArg _ hpending, fun i => ?_, rfl⟩⟩
    simp [Vector.get_eq_getElem]

/-! ### The pending period (R155 to R157) -/

theorem Reg.offset_ofGroupOffset {c : ChannelId} {n : Nat} {r : Reg} (h : Reg.ofGroupOffset c n = some r) :
    r.offset = 0x100 + 0x20 * c.val + n := by
  unfold Reg.ofGroupOffset at h
  split at h
  case h_8 => contradiction
  all_goals
    cases h
    simp only [Reg.offset]
    omega

/-- The register that an offset of the window names lies at that offset (R177). -/
theorem Reg.offset_ofOffset {o : Nat} {r : Reg} (h : Reg.ofOffset o = some r) : r.offset = o := by
  unfold Reg.ofOffset at h
  split at h
  case h_30 =>
    split at h
    · rw [Reg.offset_ofGroupOffset h, Fin.val_ofNat]
      omega
    · contradiction
  all_goals
    cases h
    rfl

/-- A read of all four lanes answers the whole word (R161). -/
theorem State.windowRead_full (h : s.pinAsserted = false) (a : Word) :
    s.windowRead a 0xF#4 = some (s.readOffset (windowWord a)) := by
  have hmask : laneMask 0xF#4 = BitVec.allOnes 32 := by decide
  rw [State.windowRead, h, hmask, BitVec.and_allOnes]
  rfl

/-- In the pending period the identification and the global status alone are shown. -/
theorem State.readOffset_pending (h : s.idc.resetPending = true) {o : Nat} (h0 : o ≠ 0x000) (h4 : o ≠ 0x004) :
    s.readOffset o = 0 := by
  unfold State.readOffset
  split
  · rfl
  · rename_i r hr
    have hoffset := Reg.offset_ofOffset hr
    rw [if_pos h]
    split
    · exact absurd hoffset.symm h0
    · exact absurd hoffset.symm h4
    · rfl

/-- Settles O7: the part is not live, and its window shows two registers. -/
theorem pendingPeriod : Obligations.PendingPeriod := by
  intro s hreset hpin
  have hlive : s.live = false := State.live_eq_false_iff.2 (.inr hreset)
  refine ⟨fun c hc => ?_, State.intLine_heldBack hlive, State.busRequestLine_heldBack hlive, ?_, ?_, fun a h0 h1 => ?_⟩
  · by_cases hr : c = .resetPinRelease
    · subst hr
      exact congrArg Host.Outcome.next (show { s with pinAsserted := false } = s by rw [← hpin])
    · exact exec_heldBack hlive hc hr
  · exact (State.windowRead_full hpin _).trans (congrArg some (if_pos hreset))
  · exact (State.windowRead_full hpin _).trans (congrArg some (if_pos hreset))
  · rw [State.windowRead_full hpin]
    exact congrArg some (State.readOffset_pending hreset (by unfold windowWord; omega) (by unfold windowWord; omega))

/-! ### The end of the pending period (R156, R158, R171, R172) -/

/-- What the device reset finds when the burst of its pending period ends: the timeout as it was, and memory changed in the
bytes of a write alone. -/
structure State.BurstOver (s : State) (q : BurstRequest) (t : State) : Prop where
  timeout : t.biu.timeout = s.biu.timeout
  read : q.write = false → t.hostMem = s.hostMem
  outside : ∀ a, q.Misses a → Memory.read t.hostMem a = Memory.read s.hostMem a

theorem State.BurstOver.refl (s : State) (q : BurstRequest) : s.BurstOver q s := ⟨rfl, fun _ => rfl, fun _ _ => rfl⟩

theorem State.BurstOver.ofWrite {q : BurstRequest} {t : State} (hw : q.write = true) (ht : t.biu = s.biu)
    (hm : ∀ a, q.Misses a → Memory.read t.hostMem a = Memory.read s.hostMem a) : s.BurstOver q t :=
  ⟨congrArg Biu.timeout ht, fun h => absurd (hw.symm.trans h) (by decide), hm⟩

section
variable {b : Burst} (hreset : s.idc.resetPending = true) (hb : s.biu.burst = some b)
include hreset

theorem State.burstFaults_pending (why : Why) :
    ∃ t, s.BurstOver b.request t ∧ s.burstFaults b why = t.releaseBus.completeDeviceReset := by
  by_cases hw : b.request.write = true
  · refine ⟨s.memoryMayTake (b.request.cells b.phasesEnded), .ofWrite hw rfl fun a ha => ?_, ?_⟩
    · exact State.memoryMayTake_read_other ha.cells
    · simp only [State.burstFaults, if_pos hw, State.memoryMayTake_idc, hreset, if_true]
  · exact ⟨s, .refl s _, by simp only [State.burstFaults, if_neg hw, hreset, if_true]⟩

include hb

theorem State.phaseReady_pending (hl : Spec.lastPhase b) (data : Word) :
    ∃ t, s.BurstOver b.request t ∧ s.phaseReady data = t.releaseBus.completeDeviceReset := by
  have hlast : ¬ b.phasesEnded + 1 < b.request.words := not_lt.2 hl
  by_cases hw : b.request.write = true
  · refine ⟨s.memoryTakes (b.request.cells b.phasesEnded), .ofWrite hw rfl fun a ha => ?_, ?_⟩
    · exact State.memoryTakes_read_other ha.cells
    · simp only [State.phaseReady, hb, if_neg hlast, if_pos hw, State.burstReady, State.memoryTakes_idc, hreset, if_true]
  · exact ⟨s, .refl s _, by
      simp only [State.phaseReady, hb, if_neg hlast, if_neg hw, State.burstReady, hreset, if_true]⟩

end

/-- Settles O8: each end of the burst completes the device reset, from a state with the timeout and memory as they are to be. -/
theorem pendingPeriodEnds : Obligations.PendingPeriodEnds := by
  intro s b c hreset hb hend
  have hover : ∃ t, s.BurstOver b.request t ∧ exec c s = .next t.releaseBus.completeDeviceReset := by
    rcases hend with ⟨⟨data, rfl⟩, hl⟩ | rfl | ⟨rfl, ht⟩
    · exact (State.phaseReady_pending hreset hb hl data).imp fun t h => h.imp_right (congrArg Host.Outcome.next)
    · have he : s.phaseError = s.burstFaults b .error := by rw [State.phaseError, hb]
      exact (State.burstFaults_pending hreset .error).imp fun t h => h.imp_right fun e => congrArg _ (he.trans e)
    · have he : s.phaseTimeout = s.burstFaults b .timeout := by
        rw [State.phaseTimeout, hb]
        exact if_neg ht
      exact (State.burstFaults_pending hreset .timeout).imp fun t h => h.imp_right fun e => congrArg _ (he.trans e)
  obtain ⟨t, hover, he⟩ := hover
  exact ⟨_, he, State.takeResetValues_spec .., hover.timeout, rfl, hover.read, hover.outside⟩

end

end Sys2Proof.Machine
end

