-- ==== Sys2Proof/Proofs/InterruptRegisters.lean ====
section
/-! PROOF. The interrupt registers, the interrupt line and the initiator timeout as taken (R150, R152, R153, R173): O48. -/

namespace Sys2Proof.Machine

/-- Two words share a one at some position unless their conjunction is 0. -/
theorem and_ne_zero_iff {w : Nat} (x y : BitVec w) :
    (x &&& y) ≠ 0#w ↔ ∃ n < w, x.getLsbD n = true ∧ y.getLsbD n = true := by
  constructor
  · intro h
    by_contra hnone
    refine h (BitVec.eq_of_getLsbD_eq fun n hn => ?_)
    rw [BitVec.getLsbD_and, BitVec.getLsbD_zero, Bool.eq_false_iff, ne_eq, Bool.and_eq_true]
    exact fun hxy => hnone ⟨n, hn, hxy⟩
  · rintro ⟨n, -, hx, hy⟩ h
    have hbit : (x &&& y).getLsbD n = true := by rw [BitVec.getLsbD_and, hx, hy, Bool.and_self]
    rw [h, BitVec.getLsbD_zero] at hbit
    cases hbit

/-- The positions that name a status are the bits of the mask (R179). -/
theorem interruptPositions_getLsbD :
    ∀ n < 32, interruptPositions.getLsbD n = [0, 1, 2, 3, 4, 8, 9, 10, 11].contains n := by decide

section
variable {s : State} (hlive : s.live = true)
include hlive

theorem State.intLine_iff :
    s.intLine = true ↔ ∃ n < 32, s.idc.status.getLsbD n = true ∧ s.idc.enable.getLsbD n = true := by
  rw [State.intLine, hlive, Bool.true_and, bne_iff_ne]
  exact and_ne_zero_iff ..

theorem exec_interruptStatusWrite (v : Word) :
    exec (.interruptStatusWrite v) s = .next { s with idc := { s.idc with status := s.idc.status &&& ~~~v } } :=
  next_taken hlive

theorem exec_interruptEnableWrite (v : Word) :
    exec (.interruptEnableWrite v) s = .next { s with idc := { s.idc with enable := v &&& interruptPositions } } :=
  next_taken hlive

theorem exec_initiatorTimeoutWrite (v : Word) :
    exec (.initiatorTimeoutWrite v) s = .next { s with biu := { s.biu with timeout := timeoutTaken v.toNat } } :=
  next_taken hlive

end

/-! ### The timeout taken, by the range of the value (R173) -/

section
variable {v : Nat}

theorem timeoutTaken_zero : timeoutTaken 0 = 0 := rfl

theorem timeoutTaken_low (h1 : 1 ≤ v) (h2 : v ≤ 15) : timeoutTaken v = 16 :=
  (if_neg (by omega)).trans (if_pos (by omega))

theorem timeoutTaken_within (h1 : 16 ≤ v) (h2 : v ≤ 4095) : timeoutTaken v = v :=
  (if_neg (by omega)).trans ((if_neg (by omega)).trans (if_neg (by omega)))

theorem timeoutTaken_high (h : 4095 < v) : timeoutTaken v = 4095 :=
  (if_neg (by omega)).trans ((if_neg (by omega)).trans (if_pos h))

end

/-- Settles O48: the two sets change bit by bit, and the timeout is taken by the range of the value written. -/
theorem interruptAndTimeoutRegisters : Obligations.InterruptAndTimeoutRegisters := by
  refine ⟨fun s v hlive => ⟨State.intLine_iff hlive, ?status, ?enable⟩, fun s v hlive => ?timeout⟩
  case status =>
    refine ⟨_, exec_interruptStatusWrite hlive v, rfl, fun n hn => ?_⟩
    rw [BitVec.getLsbD_and, BitVec.getLsbD_not, decide_eq_true hn, Bool.true_and]
  case enable =>
    refine ⟨_, exec_interruptEnableWrite hlive v, rfl, fun n hn => ?_⟩
    rw [BitVec.getLsbD_and, interruptPositions_getLsbD n hn]
  case timeout =>
    exact ⟨_, exec_initiatorTimeoutWrite hlive v, fun h => by rw [h]; rfl, timeoutTaken_low, timeoutTaken_within,
      timeoutTaken_high⟩

end Sys2Proof.Machine
end

