-- ==== Sys2Proof/Proofs/Port.lean ====
section
/-! PROOF. Requests that join the port, the choice at a bus grant, and the lines that the part drives (R168 to R170, R173): O51. -/

namespace Sys2Proof.Machine

/-! ### The choice at a grant (R169) -/

theorem positionsFrom_eq_map (p : Fin 10) : positionsFrom p = (List.finRange 10).map (p + ·) := by
  revert p
  decide

theorem Biu.choice_none {b : Biu} (h : ∀ i, b.requests.get i = none) : b.choice = none := by
  simp [Biu.choice, positionsFrom, h]

/-- The position chosen is the first with a request, counted from the pointer. -/
theorem Biu.choice_some {b : Biu} {i : Fin 10} (hi : b.requests.get i ≠ none)
    (hfirst : ∀ i', b.requests.get i' ≠ none → i - b.pointer ≤ i' - b.pointer) : b.choice = some i := by
  have hat : b.pointer + (i - b.pointer) = i := add_sub_cancel _ _
  have hfind : (List.finRange 10).find? (fun j => (b.requests.get (b.pointer + j)).isSome) = some (i - b.pointer) := by
    refine finRange_find _ _ ?_ fun j hj => ?_
    · rw [hat]
      exact Option.isSome_iff_ne_none.2 hi
    · rw [Option.isSome_eq_false_iff, Option.isNone_iff_eq_none]
      by_contra hne
      have hle := hfirst _ hne
      rw [add_sub_cancel_left] at hle
      exact absurd hj (not_lt.2 hle)
  rw [Biu.choice, positionsFrom_eq_map, List.find?_map]
  exact (congrArg (Option.map _) hfind).trans (congrArg some hat)

section
variable {s : State}

theorem State.takeGrant_unused (h : s.biu.burst ≠ none ∨ ∀ i, s.biu.requests.get i = none) : s.takeGrant = s := by
  unfold State.takeGrant
  split
  · rfl
  · rename_i hb
    rw [Biu.choice_none (h.resolve_left (not_not.2 hb))]

theorem State.takeGrant_starts {i : Fin 10} {q : BurstRequest} (hb : s.biu.burst = none)
    (hc : s.biu.choice = some i) (hq : s.biu.requests.get i = some q) :
    s.takeGrant =
      { s with
        biu := { s.biu with
          requests := s.biu.requests.set i none, pointer := i + 1
          burst := some (Burst.start (Requester.atPosition i) q s.biu.timeout) } } := by
  simp only [State.takeGrant, hb, hc, hq]

/-! ### Requests (R168) -/

theorem State.joinPort_wanted {r : Requester} {q : BurstRequest} (h : s.biu.wanted.get r.position = some q) :
    s.joinPort r =
      { s with
        biu := { s.biu with
          wanted := s.biu.wanted.set r.position none, requests := s.biu.requests.set r.position (some q) } } := by
  rw [State.joinPort, State.wantedBy, h]

theorem anyRequest_iff (v : Vector (Option BurstRequest) 10) :
    v.toList.any Option.isSome = true ↔ ∃ i : Fin 10, v.get i ≠ none := by
  simp only [List.any_eq_true, Vector.mem_toList_iff, Vector.mem_iff_getElem, Option.isSome_iff_ne_none,
    Vector.get_eq_getElem]
  constructor
  · rintro ⟨_, ⟨i, hi, rfl⟩, hne⟩
    exact ⟨⟨i, hi⟩, hne⟩
  · rintro ⟨i, hne⟩
    exact ⟨_, ⟨i.val, i.isLt, rfl⟩, hne⟩

theorem State.busRequestLine_iff :
    s.busRequestLine = true ↔ s.live = true ∧ s.biu.burst = none ∧ ∃ i : Fin 10, s.biu.requests.get i ≠ none := by
  rw [State.busRequestLine, Bool.and_eq_true, Bool.and_eq_true, anyRequest_iff, Option.isNone_iff_eq_none, and_assoc]

/-! ### The lines driven (R170) -/

variable {b : Burst} (hb : s.biu.burst = some b)
include hb

theorem State.busDrive_addressPhase (h : b.addressPhase = true) : s.busDrive = some b.addressLines := by
  rw [State.busDrive, hb, Option.map_some, if_pos h]

theorem State.busDrive_dataPhase (h : b.addressPhase = false) : s.busDrive = some b.dataLines := by
  rw [State.busDrive, hb, Option.map_some, h]
  rfl

end

theorem append_lowByte {w : Nat} (x : BitVec w) (y : Byte) : (x ++ y).extractLsb' (8 * 0) 8 = y :=
  BitVec.extractLsb'_append_eq_right

theorem append_nextByte {w : Nat} (x : BitVec w) (y : Byte) (n : Nat) :
    (x ++ y).extractLsb' (8 * (n + 1)) 8 = x.extractLsb' (8 * n) 8 :=
  BitVec.extractLsb'_append_eq_of_le (Nat.le_add_left 8 (8 * n))

/-- A lane of the data lines carries that lane's byte. -/
theorem BurstRequest.dataWord_lane (q : BurstRequest) (i : Nat) {lane : Nat} (h : lane < 4) :
    (q.dataWord i).extractLsb' (8 * lane) 8 = q.laneByte i lane := by
  match lane, h with
  | 0, _ => exact append_lowByte ..
  | 1, _ => exact (append_nextByte _ _ 0).trans (append_lowByte ..)
  | 2, _ => exact (append_nextByte _ _ 1).trans ((append_nextByte _ _ 0).trans (append_lowByte ..))
  | 3, _ =>
    exact (append_nextByte _ _ 2).trans ((append_nextByte _ _ 1).trans ((append_nextByte _ _ 0).trans
      BitVec.extractLsb'_eq_self))

theorem BurstRequest.laneByte_eq (q : BurstRequest) (i lane : Nat) :
    q.laneByte i lane =
      if q.address.toNat % 4 ≤ 4 * i + lane ∧ 4 * i + lane < q.address.toNat % 4 + q.length then
        q.data.getD (4 * i + lane - q.address.toNat % 4) 0
      else 0 := by
  rw [BurstRequest.laneByte, BurstRequest.byteIndex]
  split_ifs <;> rfl

/-- Settles O51: the choice is the first request from the pointer on, and the lines are those of the phase. -/
theorem portRequestAndBusGrant : Obligations.PortRequestAndBusGrant := by
  refine ⟨fun s hlive => ⟨fun r q hw => ?request, fun h => ?unused, fun i q hb hq hfirst => ?grant⟩,
    fun s => State.busRequestLine_iff, fun s b hb => ?lines⟩
  case request => exact (next_taken hlive).trans (congrArg _ (State.joinPort_wanted hw))
  case unused => exact (next_taken hlive).trans (congrArg _ (State.takeGrant_unused h))
  case grant =>
    have hc : s.biu.choice = some i := Biu.choice_some (by simp [hq]) hfirst
    exact ⟨Requester.atPosition i, Requester.position_atPosition i,
      (next_taken hlive).trans (congrArg _ (State.takeGrant_starts hb hc hq))⟩
  case lines =>
    refine ⟨b.request.enables, fun n lane h => b.request.enables_iff n h,
      fun ha => State.busDrive_addressPhase hb ha, fun ha => ⟨_, _, State.busDrive_dataPhase hb ha, beq_iff_eq, ?read, ?write⟩⟩
    case read =>
      intro hw
      rw [hw]
      rfl
    case write =>
      intro hw
      refine ⟨b.request.dataWord b.phasesEnded, if_pos hw, fun lane h => ?_⟩
      rw [BurstRequest.dataWord_lane _ _ h, BurstRequest.laneByte_eq]

end Sys2Proof.Machine
end

