-- ==== Sys2Proof/Proofs/HostMemory.lean ====
section
/-! PROOF. Host memory changes only in the bytes of a write burst in progress, and keeps its canonical form; and the data phases of a
burst (R170 to R174): O53, O60 and O36. Both invariants come from one fact of every command: the memory it leaves is the memory it
found with some bytes of the burst written. -/

namespace Sys2Proof.Machine

section
variable {s t u : State}

/-! ### Commands that leave host memory as it was -/

theorem State.takeDeviceReset_hostMem (s : State) : s.takeDeviceReset.hostMem = s.hostMem := by
  unfold State.takeDeviceReset
  split <;> rfl

theorem State.ownerTakes_hostMem (s : State) (r : Reg) (v : Word) : (s.ownerTakes r v).hostMem = s.hostMem := by
  cases r
  case globalControl =>
    change (s.takeGlobalControl v).hostMem = _
    unfold State.takeGlobalControl
    split
    · exact s.takeDeviceReset_hostMem
    · rfl
  all_goals simp [State.ownerTakes]

theorem State.windowWrite_hostMem (s : State) (a : Word) (lanes : BitVec 4) (v : Word) :
    (s.windowWrite a lanes v).hostMem = s.hostMem := by
  unfold State.windowWrite
  dsimp only
  split
  · rfl
  split
  · rfl
  split
  · rfl
  · exact s.ownerTakes_hostMem _ v

open State.Invariant in
/-- Only the events of the bus and the assertion of the reset pin can reach host memory. -/
theorem exec_hostMem {c : Instr} (hc : Spec.goesOn c = false) (e : exec c s = .next t) : t.hostMem = s.hostMem := by
  have taken {p : Prop} [Decidable p] {t u : State} := ifTaken (s := s) (t := t) (u := u) (p := p)
    (P := fun u => u.hostMem = s.hostMem) rfl
  cases c
  case dataPhaseReady | burstEndsWithReady | burstEndsWithError | burstEndsWithTimeout | resetPinAssert => cases hc
  case resetPinRelease => cases e; rfl
  case deviceReset => exact taken (fun _ => s.takeDeviceReset_hostMem) e
  case registerWrite a lanes v => exact taken (fun _ => s.windowWrite_hostMem a lanes v) e
  case holdRequest => exact taken (fun _ => by split <;> simp) e
  case unitJoin => exact taken (fun _ => by split <;> simp) e
  case recordWithdrawal => exact taken (fun _ => by split <;> simp) e
  all_goals exact taken (fun _ => by simp) e

/-! ### Bytes of a write burst written (R170 to R172) -/

/-- The memory of `t` is that of `s` with some bytes written, each at an address of the write burst in progress in `s`. -/
def State.WritesBurstBytes (s t : State) : Prop :=
  ∃ cells, t.hostMem = Memory.writeAll s.hostMem cells ∧
    ∀ c ∈ cells, ∃ b, s.biu.burst = some b ∧ b.request.write = true ∧ ¬ b.request.Misses c.1.toNat

theorem State.WritesBurstBytes.of_hostMem (e : t.hostMem = s.hostMem) : s.WritesBurstBytes t :=
  ⟨[], e, by simp⟩

theorem State.WritesBurstBytes.congr (h : s.WritesBurstBytes t) (e : u.hostMem = t.hostMem) : s.WritesBurstBytes u :=
  let ⟨cells, hmem, hcells⟩ := h
  ⟨cells, e.trans hmem, hcells⟩

/-- An address of the burst's cells is not one that the burst misses. -/
theorem BurstRequest.not_misses_cells {q : BurstRequest} {i : Nat} {c : Word × Byte} (hc : c ∈ q.cells i) :
    ¬ q.Misses c.1.toNat := fun h => h.cells c hc rfl

section
variable {b : Burst} (hb : s.biu.burst = some b)
include hb

theorem State.WritesBurstBytes.memoryTakes (hw : b.request.write = true) (i : Nat) :
    s.WritesBurstBytes (s.memoryTakes (b.request.cells i)) :=
  ⟨_, rfl, fun _ hc => ⟨b, hb, hw, BurstRequest.not_misses_cells hc⟩⟩

/-- Of the cells that memory may take, those it took are written. -/
theorem State.WritesBurstBytes.memoryMayTake (hw : b.request.write = true) {l : List (Word × Byte)}
    (hl : ∀ c ∈ l, ¬ b.request.Misses c.1.toNat) : s.WritesBurstBytes (s.memoryMayTake l) :=
  ⟨_, rfl, fun c hc => ⟨b, hb, hw, hl c (List.mem_of_mem_filter hc)⟩⟩

end

/-! ### The ends of bursts -/

/-- At its end with ready an owner is told, or the part reset: host memory is no part of either. -/
theorem State.burstReady_hostMem (s : State) (b : Burst) (bytes : List Byte) :
    (s.burstReady b bytes).hostMem = s.hostMem := by
  unfold State.burstReady
  split
  · rfl
  · simp

/-- At a fault the word of a write may have been taken, and nothing else reaches host memory. -/
theorem State.burstFaults_hostMem (s : State) (b : Burst) (why : Why) :
    (s.burstFaults b why).hostMem =
      (if b.request.write then s.memoryMayTake (b.request.cells b.phasesEnded) else s).hostMem := by
  unfold State.burstFaults
  dsimp only
  generalize (if b.request.write then s.memoryMayTake (b.request.cells b.phasesEnded) else s) = t
  split
  · rfl
  · simp

/-- At a ready the word of a write is taken, whether or not it is the burst's last. -/
theorem State.phaseReady_hostMem {b : Burst} (hb : s.biu.burst = some b) (data : Word) :
    (s.phaseReady data).hostMem =
      (if b.request.write then s.memoryTakes (b.request.cells b.phasesEnded) else s).hostMem := by
  simp only [State.phaseReady, hb]
  split
  · rfl
  · exact State.burstReady_hostMem ..

theorem State.WritesBurstBytes.phaseReady (s : State) (data : Word) : s.WritesBurstBytes (s.phaseReady data) := by
  cases hb : s.biu.burst with
  | none => exact .of_hostMem (by rw [State.phaseReady, hb])
  | some b =>
    refine State.WritesBurstBytes.congr ?_ (State.phaseReady_hostMem hb data)
    split
    · exact .memoryTakes hb ‹_› _
    · exact .of_hostMem rfl

theorem State.WritesBurstBytes.burstFaults {b : Burst} (hb : s.biu.burst = some b) (why : Why) :
    s.WritesBurstBytes (s.burstFaults b why) := by
  refine State.WritesBurstBytes.congr ?_ (s.burstFaults_hostMem b why)
  split
  · exact .memoryMayTake hb ‹_› fun _ => BurstRequest.not_misses_cells
  · exact .of_hostMem rfl

theorem State.WritesBurstBytes.phaseError (s : State) : s.WritesBurstBytes s.phaseError := by
  unfold State.phaseError
  split
  · exact .of_hostMem rfl
  · exact .burstFaults ‹_› _

theorem State.WritesBurstBytes.phaseTimeout (s : State) : s.WritesBurstBytes s.phaseTimeout := by
  unfold State.phaseTimeout
  split
  · exact .of_hostMem rfl
  split
  · exact .of_hostMem rfl
  · exact .burstFaults ‹_› _

theorem State.WritesBurstBytes.clockPeriod (s : State) : s.WritesBurstBytes s.clockPeriod := by
  unfold State.clockPeriod
  split
  · exact .of_hostMem rfl
  split
  · exact .of_hostMem rfl
  split
  · exact .of_hostMem rfl
  · exact .burstFaults ‹_› _

/-- The pin abandons a burst: of a write, the words still to come may have been taken (R159). -/
theorem State.WritesBurstBytes.assertPin (s : State) : s.WritesBurstBytes s.assertPin := by
  refine State.WritesBurstBytes.congr (t := s.abandonBurst) ?_ rfl
  unfold State.abandonBurst
  split
  · exact .of_hostMem rfl
  split
  · exact .memoryMayTake ‹_› ‹_› fun c hc h => h.cellsFrom c hc rfl
  · exact .of_hostMem rfl

/-! ### Every command and every step -/

theorem State.WritesBurstBytes.exec {c : Instr} (e : exec c s = .next t) : s.WritesBurstBytes t := by
  cases hc : Spec.goesOn c with
  | false => exact .of_hostMem (exec_hostMem hc e)
  | true =>
    cases c
    case dataPhaseReady data => cases e; exact .phaseReady s data
    case burstEndsWithReady data => cases e; exact .phaseReady s data
    case burstEndsWithError => cases e; exact .phaseError s
    case burstEndsWithTimeout => cases e; exact .phaseTimeout s
    case resetPinAssert => cases e; exact .assertPin s
    all_goals cases hc

theorem State.WritesBurstBytes.step (e : step s = .next t) : s.WritesBurstBytes t := by
  unfold Machine.step at e
  split at e
  · cases e
    exact .clockPeriod s
  · rename_i rest _
    exact State.WritesBurstBytes.exec (s := s.withPending rest) e

/-- Settles O53: a step writes bytes at 32-bit addresses, and a write keeps the canonical form. -/
theorem everyStepKeepsMemoryCanonical : Obligations.EveryStepKeepsMemoryCanonical := by
  intro s t h e
  obtain ⟨cells, hmem, -⟩ := State.WritesBurstBytes.step e
  unfold State.MemoryCanonical
  rw [hmem]
  exact Memory.writeAll_wf cells h

/-- Settles O60: the bytes that a command writes are all bytes of the write burst in progress. -/
theorem hostMemoryChangesInWriteBurstsAlone : Obligations.HostMemoryChangesInWriteBurstsAlone := by
  intro c s t e a hmiss
  obtain ⟨cells, hmem, hcells⟩ := State.WritesBurstBytes.exec e
  rw [hmem]
  refine Memory.read_writeAll_other fun x hx hat => ?_
  obtain ⟨b, hb, hw, hhit⟩ := hcells x hx
  exact hhit (hat ▸ hmiss b hb hw)

/-! ### The word of a data phase in host memory (R170, R171) -/

/-- After several writes an address written holds a byte that every write to it agrees on. -/
theorem Memory.read_writeAll_mem {m : List Host.Cell} {cells : List (Word × Byte)} {a : Nat} {x : Byte}
    (hmem : ∃ c ∈ cells, c.1.toNat = a) (hagree : ∀ c ∈ cells, c.1.toNat = a → c.2 = x) :
    Memory.read (Memory.writeAll m cells) a = some x := by
  induction cells generalizing m with
  | nil => simp at hmem
  | cons c cs ih =>
    rw [Memory.writeAll, List.foldl_cons, ← Memory.writeAll]
    by_cases hlater : ∃ d ∈ cs, d.1.toNat = a
    · exact ih hlater fun d hd => hagree d (.tail _ hd)
    · have hother : ∀ d ∈ cs, d.1.toNat ≠ a := fun d hd hat => hlater ⟨d, hd, hat⟩
      have hat : c.1.toNat = a := by simpa [hlater] using hmem
      rw [Memory.read_writeAll_other hother, ← hagree c (.head _) hat, ← hat, Memory.read_write_same]

/-- The cells of a word are those of its enabled lanes. -/
theorem BurstRequest.mem_cells_iff {q : BurstRequest} {i : Nat} {c : Word × Byte} :
    c ∈ q.cells i ↔ ∃ lane k, lane < 4 ∧ q.byteIndex i lane = some k ∧
      c = (q.address + BitVec.ofNat 32 k, q.data.getD k 0) := by
  have hlanes : ∀ lane, lane ∈ [0, 1, 2, 3] ↔ lane < 4 := fun lane => by
    simp only [List.mem_cons, List.not_mem_nil, or_false]
    omega
  simp only [BurstRequest.cells, List.mem_filterMap, hlanes]
  refine exists_congr fun lane => ⟨fun ⟨hlane, hc⟩ => ?_, fun ⟨k, hlane, hk, hc⟩ => ⟨hlane, by rw [hk, hc]⟩⟩
  split at hc
  · rename_i k hk
    exact ⟨k, hlane, hk, (Option.some.inj hc).symm⟩
  · contradiction

/-- Two bytes of one word at one address are the same byte of the burst, for a word's four addresses are distinct. -/
theorem BurstRequest.byteIndex_of_address {q : BurstRequest} {i lane lane' k k' : Nat} (hlane : lane < 4) (hlane' : lane' < 4)
    (hk : q.byteIndex i lane = some k) (hk' : q.byteIndex i lane' = some k')
    (ha : (q.address + BitVec.ofNat 32 k).toNat = (q.address + BitVec.ofNat 32 k').toNat) : k = k' := by
  have hnumber : ∀ {lane k}, q.byteIndex i lane = some k → q.address.toNat % 4 + k = 4 * i + lane := fun h => by
    simp only [BurstRequest.byteIndex, Option.ite_none_right_eq_some, Option.some.injEq] at h
    omega
  have h := hnumber hk
  have h' := hnumber hk'
  simp only [BitVec.toNat_add, BitVec.toNat_ofNat] at ha
  omega

/-- The word taken is in host memory at the addresses of its enabled lanes, and every other address is as it was. -/
theorem State.memoryTakes_word (s : State) (q : BurstRequest) (i : Nat) :
    (∀ lane k, lane < 4 → q.byteIndex i lane = some k →
      Memory.read (s.memoryTakes (q.cells i)).hostMem (q.address + BitVec.ofNat 32 k).toNat = some (q.data.getD k 0)) ∧
    ∀ a, (∀ lane k, lane < 4 → q.byteIndex i lane = some k → (q.address + BitVec.ofNat 32 k).toNat ≠ a) →
      Memory.read (s.memoryTakes (q.cells i)).hostMem a = Memory.read s.hostMem a := by
  refine ⟨fun lane k hlane hk => Memory.read_writeAll_mem ?_ fun c hc hat => ?_, fun a h => ?_⟩
  · exact ⟨_, BurstRequest.mem_cells_iff.2 ⟨lane, k, hlane, hk, rfl⟩, rfl⟩
  · obtain ⟨lane', k', hlane', hk', rfl⟩ := BurstRequest.mem_cells_iff.1 hc
    rw [BurstRequest.byteIndex_of_address hlane' hlane hk' hk hat]
  · refine Memory.read_writeAll_other fun c hc => ?_
    obtain ⟨lane, k, hlane, hk, rfl⟩ := BurstRequest.mem_cells_iff.1 hc
    exact h lane k hlane hk

/-! ### Data phases that are not the last (R171, R173) -/

section
variable {b : Burst} (hb : s.biu.burst = some b) (hl : ¬ Spec.lastPhase b) (data : Word)
include hb hl

theorem State.phaseReady_readGoesOn (hw : b.request.write = false) :
    s.phaseReady data =
      { s with
        biu := { s.biu with
          burst := some
            { b with
              phasesEnded := b.phasesEnded + 1, got := b.got ++ b.request.take b.phasesEnded data
              periods := 0, addressPhase := false } } } := by
  have hnext : b.phasesEnded + 1 < b.request.words := not_le.1 hl
  simp only [State.phaseReady, hb, if_pos hnext, hw, Bool.false_eq_true, if_false]

theorem State.phaseReady_writeGoesOn (hw : b.request.write = true) :
    s.phaseReady data =
      { s with
        hostMem := (s.memoryTakes (b.request.cells b.phasesEnded)).hostMem
        biu := { s.biu with
          burst := some { b with phasesEnded := b.phasesEnded + 1, periods := 0, addressPhase := false } } } := by
  have hnext : b.phasesEnded + 1 < b.request.words := not_le.1 hl
  simp only [State.phaseReady, hb, if_pos hnext, hw, if_true]
  rfl

end

/-- Settles O36, by whether the data phase is the last, and by the direction of the burst. -/
theorem dataPhase : Obligations.DataPhase := by
  intro s data
  refine ⟨fun hb => exec_busEvent_noBurst hb rfl nofun, fun b hb _ hw => ?last,
    fun b hb hl => ⟨fun hw => ?read, fun hw => ?write⟩⟩
  case last =>
    refine ⟨s.phaseReady data, rfl, ?_⟩
    rw [State.phaseReady_hostMem hb, if_pos hw]
    exact s.memoryTakes_word b.request b.phasesEnded
  case read => exact congrArg Host.Outcome.next (State.phaseReady_readGoesOn hb hl data hw)
  case write =>
    exact ⟨_, congrArg Host.Outcome.next (State.phaseReady_writeGoesOn hb hl data hw),
      s.memoryTakes_word b.request b.phasesEnded⟩

end

end Sys2Proof.Machine
end

