-- ==== Sys2Proof/Proofs/WindowWrites.lean ====
section
/-! PROOF. Window writes: the order of their checks, and the command that a write to each register is (R161 to R166, R177 to R182):
O49. -/

namespace Sys2Proof.Machine

/-! ### The registers by their offsets (R163, R164, R177) -/

/-- The offset of a register names that register. -/
theorem Reg.ofOffset_offset (r : Reg) : Reg.ofOffset r.offset = some r := by
  cases r
  case inspect i => fin_cases i <;> rfl
  case channelControl c | channelStatus c | jobRingBase c | jobRingSize c | post c | fetch c | done c => fin_cases c <;> rfl
  all_goals rfl

/-- The offset of a register is a mapped one. -/
theorem Reg.mapped_of_ofOffset {o : Nat} {r : Reg} (h : Reg.ofOffset o = some r) : Spec.mapped o := by
  unfold Reg.ofOffset at h
  split at h
  case h_30 =>
    split at h
    · rename_i hgroup
      refine .inr ⟨hgroup.1, hgroup.2, ?_⟩
      generalize (o - 0x100) % 0x20 = n at h ⊢
      unfold Reg.ofGroupOffset at h
      split at h
      case h_8 => contradiction
      all_goals decide
    · contradiction
  all_goals exact .inl (by decide)

theorem Reg.ofOffset_unmapped {o : Nat} (h : ¬ Spec.mapped o) : Reg.ofOffset o = none :=
  Option.eq_none_iff_forall_ne_some.2 fun _ hr => h (Reg.mapped_of_ofOffset hr)

/-- A read-only offset is that of a read-only register. -/
theorem Reg.ofOffset_readOnly {o : Nat} (h : Spec.readOnly o) : ∃ r, Reg.ofOffset o = some r ∧ r.isReadOnly = true := by
  rcases h with hglobal | ⟨hlow, hhigh, hgroup⟩
  · fin_cases hglobal
    all_goals exact ⟨_, rfl, rfl⟩
  · obtain ⟨c, hc⟩ : ∃ c : ChannelId, o = 0x100 + 0x20 * c.val + (o - 0x100) % 0x20 :=
      ⟨⟨(o - 0x100) / 0x20, by omega⟩, by dsimp only; omega⟩
    generalize (o - 0x100) % 0x20 = n at hc hgroup
    subst hc
    fin_cases hgroup
    · exact ⟨.channelStatus c, by fin_cases c <;> rfl, rfl⟩
    · exact ⟨.fetch c, by fin_cases c <;> rfl, rfl⟩
    · exact ⟨.done c, by fin_cases c <;> rfl, rfl⟩

/-! ### The checks of a window write (R165) -/

theorem isFullWidth_iff {a : Word} {lanes : BitVec 4} :
    isFullWidth a lanes = true ↔ lanes = 0xF#4 ∧ a.toNat % 512 % 4 = 0 := by
  simp only [isFullWidth, Bool.and_eq_true, beq_iff_eq]
  exact and_congr_right fun _ => by omega

theorem windowWord_eq (a : Word) : windowWord a = a.toNat % 512 - a.toNat % 512 % 4 := by
  unfold windowWord
  omega

/-- A refused window write is the spec's (R165, R167). -/
theorem State.refuse_eq (s : State) (o : Nat) (why : AccessReason) : s.refuse o why = Spec.refused o why s := rfl

section
variable {s : State} (hlive : s.live = true) {a : Word} {lanes : BitVec 4} (v : Word)
include hlive

theorem exec_registerWrite_narrow (h : ¬ (lanes = 0xF#4 ∧ a.toNat % 512 % 4 = 0)) :
    exec (.registerWrite a lanes v) s = .next (Spec.refused (a.toNat % 512 - a.toNat % 512 % 4) .narrow s) := by
  have hfull : isFullWidth a lanes = false := Bool.eq_false_iff.2 (mt isFullWidth_iff.1 h)
  refine (next_taken hlive).trans (congrArg _ ?_)
  rw [← windowWord_eq]
  simp only [State.windowWrite, hfull, Bool.not_false, if_true, State.refuse_eq]

variable (hfull : lanes = 0xF#4 ∧ a.toNat % 512 % 4 = 0)
include hfull

theorem exec_registerWrite_unmapped (h : ¬ Spec.mapped (a.toNat % 512)) :
    exec (.registerWrite a lanes v) s = .next (Spec.refused (a.toNat % 512) .unmapped s) := by
  have hwidth : isFullWidth a lanes = true := isFullWidth_iff.2 hfull
  obtain ⟨-, hword⟩ := windowWord_of_isFullWidth hwidth
  refine (next_taken hlive).trans (congrArg _ ?_)
  simp only [State.windowWrite, hwidth, hword, Reg.ofOffset_unmapped h, Bool.not_true, Bool.false_eq_true, if_false,
    State.refuse_eq]

/-- A full-width write at the offset of a register is refused or taken as that register is read-only or not. -/
theorem exec_registerWrite_register {r : Reg} (hr : Reg.ofOffset (a.toNat % 512) = some r) :
    exec (.registerWrite a lanes v) s =
      .next (if r.isReadOnly then Spec.refused (a.toNat % 512) .readOnly s else s.ownerTakes r v) := by
  have hwidth : isFullWidth a lanes = true := isFullWidth_iff.2 hfull
  obtain ⟨-, hword⟩ := windowWord_of_isFullWidth hwidth
  refine (next_taken hlive).trans (congrArg _ ?_)
  simp only [State.windowWrite, hwidth, hword, hr, Bool.not_true, Bool.false_eq_true, if_false, State.refuse_eq]

theorem exec_registerWrite_readOnly (h : Spec.readOnly (a.toNat % 512)) :
    exec (.registerWrite a lanes v) s = .next (Spec.refused (a.toNat % 512) .readOnly s) := by
  obtain ⟨r, hr, hro⟩ := Reg.ofOffset_readOnly h
  rw [exec_registerWrite_register hlive v hfull hr, if_pos hro]

theorem exec_registerWrite_owner (r : Reg) (hr : a.toNat % 512 = r.offset) (hw : r.isReadOnly = false) :
    exec (.registerWrite a lanes v) s = .next (s.ownerTakes r v) := by
  rw [exec_registerWrite_register hlive v hfull (hr ▸ Reg.ofOffset_offset r), hw]
  rfl

end

/-! ### Registers whose writes name one of several commands (R7, R179, R180, R182) -/

section
variable {s : State} (hlive : s.live = true) (v : Word)
include hlive

theorem State.takeGlobalControl_command :
    Host.Outcome.next (s.takeGlobalControl v) = if v.getLsbD 0 = true then exec .deviceReset s else .next s := by
  unfold State.takeGlobalControl
  split
  · exact (next_taken hlive).symm
  · rfl

theorem State.takeWriterControl_command :
    Host.Outcome.next (s.takeWriterControl v) =
      if v.toNat % 8 = 1 then exec .enableWriter s else if v.toNat % 8 = 2 then exec .disableWriter s
      else if v.toNat % 8 = 4 then exec .restartWriter s else .next s := by
  have hbits : (v.extractLsb' 0 3).toNat = v.toNat % 8 := by simp [BitVec.extractLsb'_toNat]
  rw [State.takeWriterControl, hbits]
  split
  case h_1 e => rw [if_pos e]; exact (next_taken hlive).symm
  case h_2 e => rw [if_neg (by omega), if_pos e]; exact (next_taken hlive).symm
  case h_3 e => rw [if_neg (by omega), if_neg (by omega), if_pos e]; exact (next_taken hlive).symm
  case h_4 h1 h2 h4 => rw [if_neg h1, if_neg h2, if_neg h4]

theorem State.takeStreamCommand_command :
    Host.Outcome.next (s.takeStreamCommand v) =
      if v = 1 then exec .openStream s else if v = 2 then exec .closeStream s else if v = 3 then exec .rewindStream s
      else if v = 4 then exec .inspectSlot s else exec (.unknownStreamCommand v) s := by
  split_ifs with h1 h2 h3 h4
  · subst h1; exact (next_taken hlive).symm
  · subst h2; exact (next_taken hlive).symm
  · subst h3; exact (next_taken hlive).symm
  · subst h4; exact (next_taken hlive).symm
  · exact (next_taken hlive).symm

end

/-- Settles O49: the checks in their order, and then the owner of the register does what the register's command does. -/
theorem registerWrite : Obligations.RegisterWrite := by
  intro s a lanes v hlive o full
  have owner (hf : full) (r : Reg) (ho : o = r.offset) (hw : r.isReadOnly = false) :
      exec (.registerWrite a lanes v) s = .next (s.ownerTakes r v) := exec_registerWrite_owner hlive v hf r ho hw
  have row (hf : full) (r : Reg) (ho : o = r.offset) (hw : r.isReadOnly = false) :
      exec (.registerWrite a lanes v) s = .next (if s.live = true then s.ownerTakes r v else s) :=
    (owner hf r ho hw).trans (next_taken hlive).symm
  exact ⟨exec_registerWrite_narrow hlive v, exec_registerWrite_unmapped hlive v, exec_registerWrite_readOnly hlive v,
    fun hf ho => owner hf .argument ho rfl,
    fun hf ho => (owner hf .globalControl ho rfl).trans (State.takeGlobalControl_command hlive v),
    fun hf ho => row hf .interruptStatus ho rfl,
    fun hf ho => row hf .interruptEnable ho rfl,
    fun hf ho => row hf .initiatorTimeout ho rfl,
    fun hf ho => (owner hf .writerControl ho rfl).trans (State.takeWriterControl_command hlive v),
    fun hf ho => row hf .completionRingBase ho rfl,
    fun hf ho => row hf .completionRingSize ho rfl,
    fun hf ho => row hf .head ho rfl,
    fun hf ho => row hf .threshold ho rfl,
    fun hf ho => (owner hf .command ho rfl).trans (State.takeStreamCommand_command hlive v),
    fun c => ⟨fun hf ho => row hf (.channelControl c) ho rfl, fun hf ho => row hf (.jobRingBase c) ho rfl,
      fun hf ho => row hf (.jobRingSize c) ho rfl, fun hf ho => row hf (.post c) ho rfl⟩⟩

end Sys2Proof.Machine
end

