-- ==== Sys2Proof/Proofs/ClockPeriods.lean ====
section
/-! PROOF. One step on an empty queue, a period of the bus clock (R173, R174): O2. -/

namespace Sys2Proof.Machine

section
variable {s : State}

theorem step_emptyQueue (h : s.pending = []) : step s = .next s.clockPeriod := by
  rw [step, h]

theorem State.clockPeriod_noBurst (hb : s.biu.burst = none) : s.clockPeriod = s := by
  rw [State.clockPeriod, hb]

variable {b : Burst} (hb : s.biu.burst = some b)
include hb

/-- A burst without a timeout setting is not counted in. -/
theorem State.clockPeriod_noTimeout (ht : b.timeout = 0) :
    s.clockPeriod = { s with biu := { s.biu with burst := some { b with addressPhase := false } } } := by
  simp only [State.clockPeriod, hb, if_pos ht]

theorem State.clockPeriod_counts (h : b.periods + 1 < b.timeout) :
    s.clockPeriod =
      { s with biu := { s.biu with burst := some { b with periods := b.periods + 1, addressPhase := false } } } := by
  have ht : b.timeout ≠ 0 := Nat.ne_zero_of_lt h
  simp only [State.clockPeriod, hb, if_neg ht, if_pos h]

/-- The period that reaches the setting is the timeout. -/
theorem State.clockPeriod_expires (ht : b.timeout ≠ 0) (h : b.timeout ≤ b.periods + 1) : s.clockPeriod = s.phaseTimeout := by
  simp only [State.clockPeriod, State.phaseTimeout, hb, if_neg ht, if_neg (not_lt.2 h)]

end

/-- Settles O2, by the burst in progress and where its count stands. -/
theorem emptyQueueStepIsAClockPeriod : Obligations.EmptyQueueStepIsAClockPeriod := by
  intro s hq
  rw [step_emptyQueue hq]
  exact ⟨fun hb => congrArg _ (State.clockPeriod_noBurst hb), fun b hb =>
    ⟨fun ht => congrArg _ (State.clockPeriod_noTimeout hb ht), fun h => congrArg _ (State.clockPeriod_counts hb h),
      fun ht h => congrArg Host.Outcome.next (State.clockPeriod_expires hb ht h)⟩⟩

end Sys2Proof.Machine
end

