-- ==== Sys2Proof/Proofs/MemoryFormats.lean ====
section
/-! PROOF. The layouts of host memory: completion records, job entries and fragment tables (R183, R184): O38. -/

namespace Sys2Proof.Machine

/-! ### Bytes of numbers -/

theorem bytesOf_length (n v : Nat) : (bytesOf n v).length = n := by
  induction n generalizing v with
  | zero => rfl
  | succ n ih => rw [bytesOf, List.length_cons, ih]

/-- The `n` bytes of a number spell its low `8 n` bits. -/
theorem littleEndian_bytesOf (n v : Nat) : littleEndian (bytesOf n v) = v % 256 ^ n := by
  induction n generalizing v with
  | zero => rw [bytesOf, littleEndian, pow_zero, Nat.mod_one]
  | succ n ih => rw [bytesOf, littleEndian, ih, BitVec.toNat_ofNat, pow_succ' 256 n, Nat.mod_mul]

/-- The bytes of a number that they have room for spell it. -/
theorem littleEndian_bytesOf_of_lt {n v : Nat} (h : v < 256 ^ n) : littleEndian (bytesOf n v) = v := by
  rw [littleEndian_bytesOf, Nat.mod_eq_of_lt h]

@[simp] theorem littleEndian_singleton (b : Byte) : littleEndian [b] = b.toNat := rfl

/-- Two bytes spell the half word they are of. -/
theorem littleEndian_byteAt_half (h : Half) :
    littleEndian [Spec.byteAt h.toNat 0, Spec.byteAt h.toNat 1] = h.toNat := by
  have := h.isLt
  simp only [littleEndian, Spec.byteAt, BitVec.toNat_ofNat]
  omega

/-! ### Completion records (R184) -/

section
variable (r : Record)

/-- The detail byte: where, why, code-present and the channel, side by side. -/
theorem Record.detail_eq : r.detail =
    (match r.fault with
      | none => 0
      | some ⟨.fragTable, .error⟩ => 1
      | some ⟨.source, .error⟩ => 2
      | some ⟨.dest, .error⟩ => 3
      | some ⟨.fragTable, .timeout⟩ => 5
      | some ⟨.source, .timeout⟩ => 6
      | some ⟨.dest, .timeout⟩ => 7) + 8 * r.code.isSome.toNat + 16 * r.channel.val := by
  have hcode : (if r.code.isSome then 8 else 0) = 8 * r.code.isSome.toNat := by cases r.code <;> rfl
  rw [Record.detail, hcode]
  rcases r.fault with _ | ⟨place, why⟩
  · rfl
  · cases place <;> cases why <;> rfl

theorem Record.detail_lt : r.detail < 256 := by
  have hplace : r.detail ≤ 7 + 8 * r.code.isSome.toNat + 16 * r.channel.val := by
    rw [r.detail_eq]
    gcongr
    split <;> decide
  have := r.code.isSome.toNat_le
  have := r.channel.isLt
  omega

theorem Record.bytes_length : r.bytes.length = 32 := by
  simp only [Record.bytes, List.length_append, bytesOf_length, List.length_cons, List.length_nil]

theorem Record.bytes_status : field r.bytes 2 1 = r.status.code := by
  have hlt : r.status.code < 2 ^ 8 := by cases r.status <;> decide
  have hfield : field r.bytes 2 1 = (BitVec.ofNat 8 r.status.code).toNat := rfl
  rw [hfield, toNat_field hlt]

theorem Record.bytes_detail : field r.bytes 3 1 = r.detail := by
  have hfield : field r.bytes 3 1 = (BitVec.ofNat 8 r.detail).toNat := rfl
  rw [hfield, toNat_field r.detail_lt]

theorem Record.bytes_phase : field r.bytes 28 4 = r.phase.toNat := by
  have hfield : field r.bytes 28 4 = littleEndian (bytesOf 4 (if r.phase then 1 else 0)) := rfl
  rw [hfield]
  cases r.phase <;> rfl

end

/-! ### Job entries (R183) -/

/-- The verify bit of the flags byte, whatever the bits above it. -/
theorem flags_verify (flags : BitVec 7) (b : Bool) : (flags ++ BitVec.ofBool b).toNat.testBit 0 = b := by
  rw [BitVec.testBit_toNat, BitVec.getLsbD_append]
  simp

/-- An entry is read back from its bytes, whatever the bits and bytes that hold no field. -/
theorem JobEntry.ofBytes_entryBytes (e : JobEntry) (flags : BitVec 7) (b7 b14 b15 b28 b29 b30 b31 : Byte) :
    JobEntry.ofBytes (Spec.entryBytes e flags b7 b14 b15 b28 b29 b30 b31) = e := by
  simp only [JobEntry.ofBytes, Spec.entryBytes, field, List.drop_succ_cons, List.drop_zero, List.take_succ_cons,
    List.take_zero, littleEndian_singleton, littleEndian_byteAt_half, littleEndian_byteAt, flags_verify,
    BitVec.ofNat_toNat, BitVec.setWidth_eq]

/-- Settles O38, field by field. -/
theorem memoryFormats : Obligations.MemoryFormats :=
  ⟨fun r => ⟨r.bytes_length, rfl, rfl, r.bytes_status, r.bytes_detail.trans r.detail_eq,
      littleEndian_bytesOf_of_lt (n := 2) r.ringPosition.isLt, littleEndian_bytesOf_of_lt (n := 2) r.tag.isLt,
      littleEndian_bytesOf_of_lt (n := 2) r.segment.isLt, rfl,
      littleEndian_bytesOf 4 r.inCount, littleEndian_bytesOf 4 r.outCount,
      littleEndian_bytesOf_of_lt (n := 4) (r.code.getD 0).isLt, rfl, r.bytes_phase⟩,
    fragmentsOf_fragmentBytes, JobEntry.ofBytes_entryBytes⟩

end Sys2Proof.Machine
end

