-- ==== Sys2Proof/Proofs/ChannelControlWrites.lean ====
section
/-! PROOF. The command that a channel control write names (R178, R181): O22. -/

namespace Sys2Proof.Machine

section
variable (c : ChannelId) (v : Word) (s : State)

/-- The command positions of a channel control write are its bits 0 to 3. -/
theorem channelControl_commandBits : (v.extractLsb' 0 4).toNat = v.toNat % 16 := by
  simp [BitVec.extractLsb'_toNat]

variable {v}

theorem State.takeChannelControl_start (h : v.toNat % 16 = 1) :
    s.takeChannelControl c v = (s.setHaltOnError c (v.getLsbD 8)).takeStart c := by
  simp only [State.takeChannelControl, channelControl_commandBits, h]

theorem State.takeChannelControl_stop (h : v.toNat % 16 = 2) :
    s.takeChannelControl c v = (s.setHaltOnError c (v.getLsbD 8)).takeStop c := by
  simp only [State.takeChannelControl, channelControl_commandBits, h]

theorem State.takeChannelControl_abort (h : v.toNat % 16 = 4) :
    s.takeChannelControl c v = (s.setHaltOnError c (v.getLsbD 8)).takeAbort c := by
  simp only [State.takeChannelControl, channelControl_commandBits, h]

theorem State.takeChannelControl_reset (h : v.toNat % 16 = 8) :
    s.takeChannelControl c v = (s.setHaltOnError c (v.getLsbD 8)).takeReset c := by
  simp only [State.takeChannelControl, channelControl_commandBits, h]

/-- A write that names no command sets halt-on-error alone. -/
theorem State.takeChannelControl_noCommand (h : v.toNat % 16 ∉ [1, 2, 4, 8]) :
    s.takeChannelControl c v = s.setHaltOnError c (v.getLsbD 8) := by
  unfold State.takeChannelControl
  rw [channelControl_commandBits]
  split
  case h_5 => rfl
  all_goals rename_i hn; exact absurd (hn ▸ h) (by decide)

/-- A channel control write is the step of any command whose taking changes the state the same; a part held in reset takes
neither. -/
theorem exec_haltOnError_eq {t : State} (h : s.takeChannelControl c v = t) :
    exec (.haltOnError c v) s = .next (if s.live then t else s) :=
  h ▸ rfl

end

/-- Settles O22, by the command positions that are set. -/
theorem channelControlWrite : Obligations.ChannelControlWrite := fun s c _ =>
  ⟨fun h => exec_haltOnError_eq c s (s.takeChannelControl_start c h),
    fun h => exec_haltOnError_eq c s (s.takeChannelControl_stop c h),
    fun h => exec_haltOnError_eq c s (s.takeChannelControl_abort c h),
    fun h => exec_haltOnError_eq c s (s.takeChannelControl_reset c h),
    fun hlive h => (exec_haltOnError_eq c s (s.takeChannelControl_noCommand c h)).trans (next_taken hlive)⟩

end Sys2Proof.Machine
end

