-- ==== Sys2Proof/Proofs/CommandQueue.lean ====
section
/-! PROOF. The queue of waiting commands (00_scope, Events): a step takes its front, and no command changes it (log entry 7): O1
and O3. -/

namespace Sys2Proof.Machine

section
variable {s t : State}

theorem step_frontCommand {c : Instr} {rest : List Instr} (h : s.pending = c :: rest) :
    step s = exec c (s.withPending rest) := by
  rw [step, h]

/-! ### The resets -/

@[simp] theorem State.takeResetValues_queue (s : State) (n : Nat) : (s.takeResetValues n).pending = s.pending := rfl

@[simp] theorem State.completeDeviceReset_queue (s : State) : s.completeDeviceReset.pending = s.pending :=
  s.takeResetValues_queue _

theorem State.takeDeviceReset_queue (s : State) : s.takeDeviceReset.pending = s.pending := by
  unfold State.takeDeviceReset
  split <;> rfl

theorem State.abandonBurst_queue (s : State) : s.abandonBurst.pending = s.pending := by
  unfold State.abandonBurst
  (repeat' split) <;> rfl

/-- The pin resets the blocks; the queue is no block's. -/
theorem State.assertPin_queue (s : State) : s.assertPin.pending = s.pending :=
  (s.abandonBurst.takeResetValues_queue 0).trans s.abandonBurst_queue

/-! ### The ends of bursts -/

theorem State.burstReady_queue (s : State) (b : Burst) (bytes : List Byte) :
    (s.burstReady b bytes).pending = s.pending := by
  unfold State.burstReady
  split <;> simp

theorem State.burstFaults_queue (s : State) (b : Burst) (why : Why) : (s.burstFaults b why).pending = s.pending := by
  have hword : (if b.request.write then s.memoryMayTake (b.request.cells b.phasesEnded) else s).pending = s.pending := by
    split <;> rfl
  unfold State.burstFaults
  dsimp only
  generalize (if b.request.write then s.memoryMayTake (b.request.cells b.phasesEnded) else s) = t at hword ⊢
  split <;> simpa using hword

/-- Whether or not the word is the burst's last. -/
theorem State.phaseReady_queue (s : State) (data : Word) : (s.phaseReady data).pending = s.pending := by
  unfold State.phaseReady
  split
  · rfl
  · rename_i b _
    have hword : (if b.request.write then s.memoryTakes (b.request.cells b.phasesEnded) else s).pending = s.pending := by
      split <;> rfl
    dsimp only
    split
    · exact hword
    · exact (State.burstReady_queue ..).trans hword

theorem State.phaseError_queue (s : State) : s.phaseError.pending = s.pending := by
  unfold State.phaseError
  split
  · rfl
  · exact s.burstFaults_queue ..

theorem State.phaseTimeout_queue (s : State) : s.phaseTimeout.pending = s.pending := by
  unfold State.phaseTimeout
  split
  · rfl
  split
  · rfl
  · exact s.burstFaults_queue ..

/-! ### The window -/

theorem State.takeGlobalControl_queue (s : State) (v : Word) : (s.takeGlobalControl v).pending = s.pending := by
  unfold State.takeGlobalControl
  split
  · exact s.takeDeviceReset_queue
  · rfl

theorem State.ownerTakes_queue (s : State) (r : Reg) (v : Word) : (s.ownerTakes r v).pending = s.pending := by
  cases r
  case globalControl => exact s.takeGlobalControl_queue v
  all_goals simp [State.ownerTakes]

theorem State.windowWrite_queue (s : State) (a : Word) (lanes : BitVec 4) (v : Word) :
    (s.windowWrite a lanes v).pending = s.pending := by
  unfold State.windowWrite
  dsimp only
  split
  · rfl
  split
  · rfl
  split
  · rfl
  · exact s.ownerTakes_queue _ v

/-! ### Every command -/

open State.Invariant in
/-- The blocks' operations leave the queue by their frames; only the resets, the ends of bursts and window writes put several
together. -/
theorem exec_queue {c : Instr} (e : exec c s = .next t) : t.pending = s.pending := by
  have taken {p : Prop} [Decidable p] {t u : State} := ifTaken (s := s) (t := t) (u := u) (p := p)
    (P := fun u => u.pending = s.pending) rfl
  cases c
  case dataPhaseReady data => cases e; exact s.phaseReady_queue data
  case burstEndsWithReady data => cases e; exact s.phaseReady_queue data
  case burstEndsWithError => cases e; exact s.phaseError_queue
  case burstEndsWithTimeout => cases e; exact s.phaseTimeout_queue
  case resetPinAssert => cases e; exact s.assertPin_queue
  case resetPinRelease => cases e; rfl
  case deviceReset => exact taken (fun _ => s.takeDeviceReset_queue) e
  case registerWrite a lanes v => exact taken (fun _ => s.windowWrite_queue a lanes v) e
  case holdRequest => exact taken (fun _ => by split <;> simp) e
  case unitJoin => exact taken (fun _ => by split <;> simp) e
  case recordWithdrawal => exact taken (fun _ => by split <;> simp) e
  all_goals exact taken (fun _ => by simp) e

end

/-- Settles O1: the front command is taken off before it runs. -/
theorem stepTakesTheFrontCommand : Obligations.StepTakesTheFrontCommand := fun _ _ _ => step_frontCommand rfl

/-- Settles O3, by the operation that each command is. -/
theorem queueUntouched : Obligations.QueueUntouched := fun _ _ _ => exec_queue

end Sys2Proof.Machine
end

