-- ==== Sys2Proof/Proofs/UnitsKept.lean ====
section
/-! SUPPORT. Who has which unit (R79, R80): what a change of the lists, the grant map or the channels' states leaves of it. -/

namespace Sys2Proof.Machine

-- One theorem at a time, as in the tests: all at once they pass the memory limit.
set_option Elab.async false

/-! ### The grants, split into where the units are and what an evaluation leaves -/

/-- The part of the grants that an evaluation keeps at every step of it. -/
structure State.UnitsPlaced (s : State) : Prop extends s.GrantsPlaced where
  waits : s.WaitsPlaced

/-- The free units meet the needed set of no waiting channel (R80, R82). -/
def State.NoneMet (s : State) : Prop := ∀ c n, s.arbiter.waiting.get c = some n → s.meets n = false

/-- The channel stands in no wait list and not in the waiting set, and has no unit. -/
structure State.Apart (s : State) (c : ChannelId) : Prop extends s.Unlisted c where
  pack : ∀ p, s.arbiter.packs.get p ≠ some c
  check : ∀ k, s.arbiter.checks.get k ≠ some c

section
variable {s t : State} {c : ChannelId}

theorem State.unitsKept_iff : s.UnitsKept ↔ s.UnitsPlaced ∧ s.NoneMet := by
  constructor
  · intro h
    exact ⟨⟨h.grantsPlaced, h.waits⟩, fun c n hn => Bool.eq_false_iff.2 fun hm => h.noneMet c n hn (State.meets_iff.1 hm)⟩
  · rintro ⟨⟨⟨⟨hpo, hko⟩, hps, hks⟩, hw⟩, hm⟩
    exact ⟨hw, hps, hks, hpo, hko, fun c n hn hmet => Bool.eq_false_iff.1 (hm c n hn) (State.meets_iff.2 hmet)⟩

theorem State.UnitsKept.placed (h : s.UnitsKept) : s.UnitsPlaced := (State.unitsKept_iff.1 h).1

/-- With no more units free, the channels still waiting are met no more than before. -/
theorem State.meets_mono (hp : ∀ p, t.arbiter.packs.get p = none → s.arbiter.packs.get p = none)
    (hk : ∀ k, t.arbiter.checks.get k = none → s.arbiter.checks.get k = none) {n : Need} (hm : t.meets n = true) :
    s.meets n = true := by
  rw [State.meets_iff] at hm ⊢
  exact hm.imp (fun h e => (h e).imp hp) fun h e => (h e).imp hk

section
variable {x : ChannelState} (e : (s.channel c).state = x)
include e

/-- Outside WAIT_UNITS a channel is not in the waiting set. -/
theorem State.WaitsPlaced.not_waiting (h : s.WaitsPlaced) (h2 : x ≠ .waitUnits := by decide) :
    s.arbiter.waiting.get c = none := by
  by_contra hn
  exact h2 (e.symm.trans (h.waiting c (Option.isSome_iff_ne_none.2 hn)))

/-- Outside WAIT_SLOT and WAIT_UNITS a channel is in no list. -/
theorem State.WaitsPlaced.unlisted (h : s.WaitsPlaced) (h1 : x ≠ .waitSlot := by decide)
    (h2 : x ≠ .waitUnits := by decide) : s.Unlisted c where
  waiter i hi := h1 (e.symm.trans (h.waiters i c hi))
  waiting := h.not_waiting e h2

/-- Outside RUN a channel has no unit. -/
theorem State.GrantsPlaced.unitless (h : s.GrantsPlaced) (h3 : x ≠ .run := by decide) :
    (∀ p, s.arbiter.packs.get p ≠ some c) ∧ ∀ k, s.arbiter.checks.get k ≠ some c :=
  ⟨fun p hp => h3 (e.symm.trans (h.packState p c hp)), fun k hk => h3 (e.symm.trans (h.checkState k c hk))⟩

/-- Outside WAIT_SLOT, WAIT_UNITS and RUN a channel is in no list and has no unit. -/
theorem State.UnitsPlaced.apart (h : s.UnitsPlaced) (h1 : x ≠ .waitSlot := by decide)
    (h2 : x ≠ .waitUnits := by decide) (h3 : x ≠ .run := by decide) : s.Apart c :=
  have hunits := h.toGrantsPlaced.unitless e h3
  ⟨h.waits.unlisted e h1 h2, hunits.1, hunits.2⟩

end

theorem State.Apart.congr (h : s.Apart c) (hs : ∀ i, (t.slot i).waiters ⊆ (s.slot i).waiters)
    (ha : t.arbiter = s.arbiter) : t.Apart c where
  toUnlisted := h.toUnlisted.congr hs (by rw [ha])
  pack p := by rw [ha]; exact h.pack p
  check k := by rw [ha]; exact h.check k

/-! ### Updates that keep the waits and the grants -/

/-- Channels may leave lists, and every channel that is in another state than before has left them. -/
theorem State.WaitsPlaced.of_lists (h : s.WaitsPlaced) (hs : ∀ i, ((t.slot i).waiters).Sublist (s.slot i).waiters)
    (hw : ∀ d, (t.arbiter.waiting.get d).isSome → (s.arbiter.waiting.get d).isSome)
    (hc : ∀ d, (t.channel d).state = (s.channel d).state ∨ t.Unlisted d) : t.WaitsPlaced where
  waiters i d hd := by
    rcases hc d with e | e
    · rw [e]
      exact h.waiters i d ((hs i).subset hd)
    · exact absurd hd (e.waiter i)
  waitersOnce i := (h.waitersOnce i).sublist (hs i)
  waitersApart i j d hi hj := h.waitersApart i j d ((hs i).subset hi) ((hs j).subset hj)
  waiting d hd := by
    rcases hc d with e | e
    · rw [e]
      exact h.waiting d (hw d hd)
    · simp [e.waiting] at hd

/-- Channels may leave lists, and every channel that is in another state than before has left them and has no unit. -/
theorem State.UnitsKept.of_lists (h : s.UnitsKept) (hs : ∀ i, ((t.slot i).waiters).Sublist (s.slot i).waiters)
    (hw : ∀ d n, t.arbiter.waiting.get d = some n → s.arbiter.waiting.get d = some n)
    (hp : t.arbiter.packs = s.arbiter.packs) (hk : t.arbiter.checks = s.arbiter.checks)
    (hc : ∀ d, (t.channel d).state = (s.channel d).state ∨ t.Apart d) : t.UnitsKept where
  waits := h.waits.of_lists hs
    (fun d hd => by
      obtain ⟨n, hn⟩ := Option.isSome_iff_exists.1 hd
      simp [hw d n hn])
    fun d => (hc d).imp_right State.Apart.toUnlisted
  packState p d e := by
    rcases hc d with hd | hd
    · rw [hd]
      exact h.packState p d (hp ▸ e)
    · exact absurd e (hd.pack p)
  checkState k d e := by
    rcases hc d with hd | hd
    · rw [hd]
      exact h.checkState k d (hk ▸ e)
    · exact absurd e (hd.check k)
  packOnce := by rw [hp]; exact h.packOnce
  checkOnce := by rw [hk]; exact h.checkOnce
  noneMet d n hn := by
    rw [hp, hk]
    exact h.noneMet d n (hw d n hn)

/-- With the lists and the grant map as they were, each channel is in the state it was, or in no list and without a unit. -/
theorem State.UnitsKept.of_channels (h : s.UnitsKept) (hs : t.slots = s.slots) (ha : t.arbiter = s.arbiter)
    (hc : ∀ d, (t.channel d).state = (s.channel d).state ∨ s.Apart d) : t.UnitsKept := by
  have hsl : ∀ i, (t.slot i).waiters = (s.slot i).waiters := fun i => by rw [State.slot_congr hs]
  refine h.of_lists (fun i => by rw [hsl]) (fun d n => by rw [ha]; exact id) (by rw [ha]) (by rw [ha]) fun d =>
    (hc d).imp_right fun e => ?_
  exact e.congr (fun i => by rw [hsl]; exact List.Subset.refl _) ha

/-- What the grants do not speak of may change. -/
theorem State.UnitsKept.frame (h : s.UnitsKept) (hs : t.slots = s.slots) (hc : t.channels = s.channels)
    (ha : t.arbiter = s.arbiter) : t.UnitsKept :=
  h.of_channels hs ha fun d => .inl (by rw [State.channel_congr hc])

/-- A channel in no list and without a unit goes to any state. -/
theorem State.UnitsKept.moves (h : s.UnitsKept) (hu : s.Apart c) (hs : t.slots = s.slots) (ha : t.arbiter = s.arbiter)
    (hd : ∀ d, d ≠ c → t.channel d = s.channel d) : t.UnitsKept :=
  h.of_channels hs ha fun d => by
    by_cases e : d = c
    · exact .inr (e ▸ hu)
    · exact .inl (by rw [hd d e])

/-- A channel replaced by one in the same state. -/
theorem State.UnitsKept.setChannel_same (h : s.UnitsKept) {x : Channel} (e : x.state = (s.channel c).state) :
    (s.setChannel c x).UnitsKept :=
  h.of_channels rfl rfl fun d => .inl (by
    rw [State.setChannel_channel]
    split
    · rename_i hd
      rw [e, hd]
    · rfl)

/-- A slot replaced by one whose waiters waited there. -/
theorem State.UnitsKept.setSlot (h : s.UnitsKept) {i : SlotId} {x : Slot}
    (hx : (x.waiters).Sublist (s.slot i).waiters) : (s.setSlot i x).UnitsKept :=
  h.of_lists
    (fun j => by
      rw [State.setSlot_slot]
      split
      · rename_i e
        exact e ▸ hx
      · exact List.Sublist.refl _)
    (fun _ _ => id) rfl rfl fun _ => .inl rfl

end

end Sys2Proof.Machine
end

