-- ==== Sys2Proof/Proofs/UnitsEvaluated.lean ====
section
/-! SUPPORT. An evaluation leaves the units placed and no waiting channel that the free units would meet (R79, R80, R82, R85). -/

namespace Sys2Proof.Machine

-- One theorem at a time, as in the tests: all at once they pass the memory limit.
set_option Elab.async false

section
variable {s t : State} {c : ChannelId}

/-! ### Grants and ends of runs -/

/-- A grant leaves no more units free. -/
theorem State.meets_of_grant {n m : Need} (h : (s.grant c n).meets m = true) : s.meets m = true := by
  refine State.meets_mono (fun p hp => ?_) (fun k hk => ?_) h
  · rw [State.grant_packs] at hp
    split at hp
    · contradiction
    · exact hp
  · rw [State.grant_checks] at hk
    split at hk
    · contradiction
    · exact hk

/-- A grant takes its channel out of the waiting set and leaves the others in it. -/
theorem State.grant_waiting_get (n : Need) (d : ChannelId) :
    (s.grant c n).arbiter.waiting.get d = if d = c then none else s.arbiter.waiting.get d := by
  rw [State.grant_waiting, Vector.get_set_fin]

theorem State.UnitsPlaced.grant (h : s.UnitsPlaced) {n m : Need} (hw : s.arbiter.waiting.get c = some n) :
    (s.grant c m).UnitsPlaced := by
  have hs := h.waits.waiting c (by simp [hw])
  have hslot : ∀ i, (s.grant c m).slot i = s.slot i := State.slot_congr (by simp)
  refine ⟨h.toGrantsPlaced.grant (by simp [hs]), h.waits.of_lists (fun i => by rw [hslot]) (fun d hd => ?_) fun d => ?_⟩
  · rw [State.grant_waiting_get] at hd
    split at hd
    · contradiction
    · exact hd
  · by_cases e : d = c
    · subst e
      refine .inr ⟨fun i hi => ?_, by rw [State.grant_waiting_get, if_pos rfl]⟩
      rw [hslot] at hi
      exact absurd (hs.symm.trans (h.waits.waiters i d hi)) (by decide)
    · exact .inl (by rw [State.grant_channel, if_neg e])

theorem State.UnitsPlaced.finishRun (h : s.UnitsPlaced) (hr : (s.channel c).state = .run) : (s.finishRun c).UnitsPlaced := by
  have hslot : ∀ i, (s.finishRun c).slot i = s.slot i := State.slot_congr (by simp)
  refine ⟨h.toGrantsPlaced.finishRun, h.waits.of_lists (fun i => by rw [hslot])
    (fun d => by rw [State.finishRun_waiting]; exact id) fun d => ?_⟩
  by_cases e : d = c
  · subst e
    exact .inr ((h.waits.unlisted hr).congr (fun i => by rw [hslot]; exact List.Subset.refl _) (s.finishRun_waiting d))
  · exact .inl (by rw [s.finishRun_channel_ne e])

theorem State.UnitsPlaced.evaluate (h : s.UnitsPlaced) (n : Nat) : (s.evaluate n).UnitsPlaced :=
  State.evaluate_keeps (P := State.UnitsPlaced) (fun _ _ _ ht hn _ => ht.grant hn)
    (fun _ _ ht ho => ht.finishRun (State.runIsOver_state ho)) n h

/-! ### Nobody is met after an evaluation (R82) -/

/-- A channel examined is granted, or its needed set is not met. -/
theorem State.examine_cases (s : State) (c : ChannelId) :
    (s.examine c = s ∧ ∀ n, s.arbiter.waiting.get c = some n → s.meets n = false) ∨
      ∃ n, s.examine c = s.grant c n := by
  unfold State.examine
  split
  · rename_i n hn
    split
    · exact .inr ⟨n, rfl⟩
    · rename_i hm
      exact .inl ⟨rfl, fun m hm' => by cases hn.symm.trans hm'; exact Bool.eq_false_iff.2 hm⟩
  · rename_i hn
    exact .inl ⟨rfl, fun n hn' => by cases hn.symm.trans hn'⟩

/-- A scan of the channels that may be met leaves none that is. -/
theorem State.foldl_examine_noneMet (l : List ChannelId) {s : State}
    (h : ∀ d n, d ∉ l → s.arbiter.waiting.get d = some n → s.meets n = false) : (l.foldl State.examine s).NoneMet := by
  induction l generalizing s with
  | nil => exact fun d n => h d n (List.not_mem_nil)
  | cons c l ih =>
    refine ih fun d n hd hn => ?_
    rcases s.examine_cases c with ⟨e, hc⟩ | ⟨m, e⟩ <;> rw [e] at hn ⊢
    · by_cases hdc : d = c
      · exact hc n (hdc ▸ hn)
      · exact h d n (by simp [hdc, hd]) hn
    · rw [State.grant_waiting_get] at hn
      split at hn
      · contradiction
      · rename_i hdc
        exact Bool.eq_false_iff.2 fun hm => Bool.eq_false_iff.1 (h d n (by simp [hdc, hd]) hn) (State.meets_of_grant hm)

theorem State.scan_noneMet (s : State) : s.scan.NoneMet :=
  State.foldl_examine_noneMet _ fun d _ hd => absurd (mem_rotationAfter _ d) hd

/-- The scan of an evaluation adds no channel to the waiting set. -/
theorem State.scan_waiting_subset (s : State) (d : ChannelId) (hd : (s.scan.arbiter.waiting.get d).isSome) :
    (s.arbiter.waiting.get d).isSome := by
  refine State.scan_keeps
    (P := fun t : State => (t.arbiter.waiting.get d).isSome → (s.arbiter.waiting.get d).isSome)
    (fun t c n ht _ _ hd => ht ?_) id hd
  rw [State.grant_waiting_get] at hd
  split at hd
  · contradiction
  · exact hd

/-- Each run that ends in an evaluation is of a channel that waited at its start, so that one channel fewer waits at the
evaluation of its release: with more levels than waiting channels nobody is met at the end (R85). -/
theorem State.UnitsPlaced.evaluate_noneMet (n : Nat) {s : State} (h : s.UnitsPlaced) (hlt : s.waitingCount < n) :
    (s.evaluate n).NoneMet := by
  induction n generalizing s with
  | zero => omega
  | succ n ih =>
    have hscan : s.scan.UnitsPlaced := State.scan_keeps (P := State.UnitsPlaced) (fun _ _ _ ht hn _ => ht.grant hn) h
    have hfold (l : List ChannelId) (hl : ∀ c ∈ l, (s.arbiter.waiting.get c).isSome) (u : State) (hu : u.UnitsPlaced)
        (hw : ∀ c, (u.arbiter.waiting.get c).isSome → (s.arbiter.waiting.get c).isSome) (hm : u.NoneMet) :
        (l.foldl (fun t c => if t.runIsOver c then State.evaluate n (t.finishRun c) else t) u).NoneMet := by
      induction l generalizing u with
      | nil => exact hm
      | cons c l ihl =>
        have hl' : ∀ d ∈ l, (s.arbiter.waiting.get d).isSome := fun d hd => hl d (by simp [hd])
        rw [List.foldl_cons]
        split
        · rename_i ho
          have hr := State.runIsOver_state ho
          have hf := hu.finishRun hr
          have hfw : ∀ d, ((u.finishRun c).arbiter.waiting.get d).isSome → (s.arbiter.waiting.get d).isSome := by
            rwa [State.finishRun_waiting]
          have hnone : (u.finishRun c).arbiter.waiting.get c = none := by
            rw [State.finishRun_waiting]
            exact (hu.waits.unlisted hr).waiting
          have hfewer := State.waitingCount_lt hfw (hl c (by simp)) hnone
          exact ihl hl' _ (hf.evaluate n) (State.evaluate_waiting_subset n hfw) (ih hf (by omega))
        · exact ihl hl' u hu hw hm
    exact hfold _ (fun c hc => (List.mem_filter.1 hc).2) s.scan hscan s.scan_waiting_subset s.scan_noneMet

/-- A whole evaluation, from wherever the units are placed (R82, R85). -/
theorem State.UnitsPlaced.reevaluate (h : s.UnitsPlaced) : s.reevaluate.UnitsKept :=
  State.unitsKept_iff.2 ⟨h.evaluate 5, h.evaluate_noneMet 5 (Nat.lt_succ_of_le s.waitingCount_le)⟩

/-! ### A channel apart stays so -/

theorem State.Apart.grant (ha : s.Apart c) {d : ChannelId} {n m : Need} (hn : s.arbiter.waiting.get d = some n) :
    (s.grant d m).Apart c := by
  have hne : d ≠ c := fun e => by simp [e, ha.waiting] at hn
  have hslot : ∀ i, (s.grant d m).slot i = s.slot i := State.slot_congr (by simp)
  refine ⟨⟨fun i hi => ha.waiter i (hslot i ▸ hi), ?_⟩, fun p hp => ?_, fun k hk => ?_⟩
  · rw [State.grant_waiting_get, if_neg (Ne.symm hne)]
    exact ha.waiting
  · rw [State.grant_packs] at hp
    split at hp
    · exact hne (Option.some.inj hp)
    · exact ha.pack p hp
  · rw [State.grant_checks] at hk
    split at hk
    · exact hne (Option.some.inj hk)
    · exact ha.check k hk

/-- A release of units gives none to another channel. -/
theorem State.Apart.releaseUnits (ha : s.Apart c) (h : s.UnitsOnce) (d : ChannelId) : (s.releaseUnits d).Apart c where
  toUnlisted := ha.toUnlisted.congr
    (fun i => by rw [State.slot_congr (s := s) (by simp)]; exact List.Subset.refl _) (s.releaseUnits_waiting d)
  pack p hp := ha.pack p (h.releaseUnits_packs.1 hp).1
  check k hk := ha.check k (h.releaseUnits_checks.1 hk).1

theorem State.Apart.finishRun (ha : s.Apart c) (h : s.UnitsOnce) (d : ChannelId) : (s.finishRun d).Apart c := by
  rcases s.finishRun_cases d with e | e <;> rw [e]
  · exact ha
  · refine State.Apart.releaseUnits (ha.congr (fun i => ?_) (s.runEnded_frame d).1) h.runEnded d
    unfold State.runEnded
    split <;> exact List.Subset.refl _

theorem State.UnitsPlaced.evaluate_apart (h : s.UnitsPlaced) (ha : s.Apart c) (n : Nat) : (s.evaluate n).Apart c :=
  (State.evaluate_keeps (P := fun t => t.UnitsPlaced ∧ t.Apart c)
    (fun _ _ _ ht hn _ => ⟨ht.1.grant hn, ht.2.grant hn⟩)
    (fun _ d ht ho => ⟨ht.1.finishRun (State.runIsOver_state ho), ht.2.finishRun ht.1.toUnitsOnce d⟩) n ⟨h, ha⟩).2

/-- A channel in RUN gives up its units, and is then apart (R85). -/
theorem State.UnitsPlaced.releaseUnits (h : s.UnitsPlaced) (hr : (s.channel c).state = .run) :
    (s.releaseUnits c).UnitsPlaced ∧ (s.releaseUnits c).Apart c := by
  have hslot : ∀ i, (s.releaseUnits c).slot i = s.slot i := State.slot_congr (by simp)
  have hw := s.releaseUnits_waiting c
  refine ⟨⟨h.toGrantsPlaced.releaseUnits, h.waits.of_lists (fun i => by rw [hslot]) (fun d => by rw [hw]; exact id)
    fun d => .inl (by rw [State.releaseUnits_channel])⟩,
    (h.waits.unlisted hr).congr (fun i => by rw [hslot]; exact List.Subset.refl _) hw,
    fun p hp => (h.toUnitsOnce.releaseUnits_packs.1 hp).2 rfl, fun k hk => (h.toUnitsOnce.releaseUnits_checks.1 hk).2 rfl⟩

/-! ### The evaluations of a join and of the end of a run (R81, R85) -/

theorem State.UnitsKept.settleRun (h : s.UnitsKept) (c : ChannelId) : (s.settleRun c).UnitsKept := by
  unfold State.settleRun
  split
  · rename_i ho
    exact (h.placed.finishRun (State.runIsOver_state ho)).reevaluate
  · exact h

theorem State.UnitsKept.join (h : s.UnitsKept) (hs : (s.channel c).state = .waitUnits) (n : Need) :
    (s.join c n).UnitsKept := by
  have hjoined : (s.enterWaitingSet c n).UnitsPlaced :=
    { h.grantsPlaced with
      waits := { h.waits with waiting := (h.enterWaitingSet hs).2 } }
  exact hjoined.reevaluate

end

end Sys2Proof.Machine
end

