-- ==== Sys2Proof/Proofs/UnitsTable.lean ====
section
/-! SUPPORT. The operations of the stream context table keep the grants: they touch the channels that wait for a slot alone. -/

namespace Sys2Proof.Machine

-- One theorem at a time, as in the tests: all at once they pass the memory limit.
set_option Elab.async false

section
variable {s t : State} {c : ChannelId}

/-! ### The stream commands -/

theorem State.UnitsKept.takeOpen (h : s.UnitsKept) : s.takeOpen.UnitsKept := by
  unfold State.takeOpen
  split
  · exact h.frame rfl rfl rfl
  split
  · exact h.frame rfl rfl rfl
  · refine State.UnitsKept.frame (h.setSlot ?_) rfl rfl rfl
    exact List.Sublist.refl _

theorem State.UnitsKept.takeClose (h : s.UnitsKept) : s.takeClose.UnitsKept := by
  unfold State.takeClose
  split
  · exact h.frame rfl rfl rfl
  split
  · exact State.UnitsKept.frame (h.setSlot (List.nil_sublist _)) rfl rfl rfl
  · refine State.UnitsKept.frame (h.setSlot ?_) rfl rfl rfl
    exact List.Sublist.refl _

theorem State.UnitsKept.takeRewind (h : s.UnitsKept) : s.takeRewind.UnitsKept := by
  unfold State.takeRewind
  split
  · exact h.frame rfl rfl rfl
  dsimp only
  split
  · refine State.UnitsKept.frame (h.setSlot ?_) rfl rfl rfl
    exact List.Sublist.refl _
  · exact h.frame rfl rfl rfl

theorem State.UnitsKept.takeStreamCommand (h : s.UnitsKept) (v : Word) : (s.takeStreamCommand v).UnitsKept := by
  unfold State.takeStreamCommand
  split
  · exact h.takeOpen
  · exact h.takeClose
  · exact h.takeRewind
  · exact h.frame (by simp) (by simp) (by simp)
  · exact h.frame rfl rfl rfl

/-! ### A hold granted -/

/-- A channel apart has been made the holder: it goes to WAIT_UNITS or RETIRE, or stays. -/
theorem State.UnitsKept.takeHold (h : s.UnitsKept) (hu : s.Apart c) (sl : Slot) : (s.takeHold c sl).UnitsKept :=
  h.moves hu (by simp) (by simp) fun _ hd => s.takeHold_channel_ne sl hd

/-- A channel that has gone to WAIT_SLOT enters a wait list (R17). -/
theorem State.WaitsPlaced.entersWaitList (h : s.WaitsPlaced) (hs : (s.channel c).state = .waitSlot)
    (hn : ∀ j, c ∉ (s.slot j).waiters) (i : SlotId) :
    (s.setSlot i { s.slot i with waiters := (s.slot i).waiters ++ [c] }).WaitsPlaced := by
  have hmem (j : SlotId) (d : ChannelId)
      (hd : d ∈ ((s.setSlot i { s.slot i with waiters := (s.slot i).waiters ++ [c] }).slot j).waiters) :
      d ∈ (s.slot j).waiters ∨ d = c ∧ j = i := by
    rw [State.setSlot_slot] at hd
    split at hd
    · rename_i e
      subst e
      simpa using hd
    · exact .inl hd
  refine ⟨fun j d hd => ?_, fun j => ?_, fun j k d hj hk => ?_, h.waiting⟩
  · rcases hmem j d hd with hd | ⟨rfl, -⟩
    · exact h.waiters j d hd
    · exact hs
  · rw [State.setSlot_slot]
    split
    · exact List.nodup_append'.2 ⟨h.waitersOnce i, by simp, by simpa using hn i⟩
    · exact h.waitersOnce j
  · rcases hmem j d hj with hj | ⟨rfl, rfl⟩ <;> rcases hmem k d hk with hk | ⟨e, e'⟩
    · exact h.waitersApart j k d hj hk
    · exact absurd (e ▸ hj) (hn j)
    · exact absurd hk (hn k)
    · exact e'.symm

theorem State.UnitsKept.takeHoldRequest (h : s.UnitsKept) (hs : (s.channel c).state = .fetch) (hd : Half) :
    (s.takeHoldRequest c hd).UnitsKept := by
  have hu := h.placed.apart hs
  unfold State.takeHoldRequest
  split
  · exact h.moves hu rfl rfl fun d hd => by simp [hd]
  · rename_i i _
    dsimp only
    split
    · have hset : (s.setSlot i { s.slot i with holder := some c }).UnitsKept := h.setSlot (List.Sublist.refl _)
      exact hset.takeHold (hset.placed.apart hs) _
    · have hw : (s.setChannel c { s.channel c with state := .waitSlot, stage := none }).UnitsKept :=
        h.moves hu rfl rfl fun d hd => by simp [hd]
      exact { hw with waits := hw.waits.entersWaitList (by simp) hu.waiter i }

/-! ### A slot let go (R18, R20) -/

/-- The waiters of a slot let go: none of a closing slot, else all but the oldest. -/
theorem State.passOn_waiters (s : State) (i : SlotId) (sl : Slot) :
    ((s.passOn i sl).slot i).waiters = if sl.closing = true then [] else sl.waiters.tail := by
  unfold State.passOn
  split
  · have hslot : ((s.setSlot i sl.freed).refuseWaiters sl.waiters).slot i = (s.setSlot i sl.freed).slot i :=
      State.slot_congr (by simp) i
    rw [State.raise_slot, hslot, State.setSlot_slot, if_pos rfl]
    rfl
  · split
    · rename_i hw
      simp [hw]
    · rename_i w ws hw
      have hslot : ((s.setSlot i { sl with holder := some w, waiters := ws }).takeHold w sl).slot i =
          (s.setSlot i { sl with holder := some w, waiters := ws }).slot i := State.slot_congr (by simp) i
      rw [hslot, State.setSlot_slot, if_pos rfl, hw]
      rfl

/-- A channel that still waits is as it was. -/
theorem State.passOn_channel_of_waiter {i : SlotId} {sl : Slot} (hn : sl.waiters.Nodup) {d : ChannelId}
    (hd : d ∈ ((s.passOn i sl).slot i).waiters) : (s.passOn i sl).channel d = s.channel d := by
  rw [State.passOn_waiters] at hd
  unfold State.passOn
  split at hd
  · contradiction
  · rename_i hc
    rw [if_neg hc]
    split
    · rfl
    · rename_i w ws hw
      rw [hw] at hd hn
      exact State.takeHold_channel_ne _ sl fun e => (List.nodup_cons.1 hn).1 (e ▸ hd)

/-- A slot let go: of its waiters each leaves the list, all of them or the oldest, and may then go to another state. -/
theorem State.UnitsKept.passOn (h : s.UnitsKept) {i : SlotId} {sl : Slot} (hsl : sl.waiters = (s.slot i).waiters) :
    (s.passOn i sl).UnitsKept := by
  have harb : (s.passOn i sl).arbiter = s.arbiter := by simp
  have hslot : ∀ j, j ≠ i → (s.passOn i sl).slot j = s.slot j := fun j => (s.passOn_slot i sl j).1
  refine h.of_lists (fun j => ?_) (fun d n => by rw [harb]; exact id) (by rw [harb]) (by rw [harb]) fun d => ?_
  · by_cases e : j = i
    · rw [e, State.passOn_waiters, ← hsl]
      split
      · exact List.nil_sublist _
      · exact List.tail_sublist _
    · rw [hslot j e]
  · by_cases hd : d ∈ sl.waiters
    · by_cases hd' : d ∈ ((s.passOn i sl).slot i).waiters
      · exact .inl (by rw [State.passOn_channel_of_waiter (hsl ▸ h.waits.waitersOnce i) hd'])
      · have hw := h.waits.waiters i d (hsl ▸ hd)
        have hout : (s.passOn i sl).Unlisted d := by
          refine ⟨fun j hj => ?_, by rw [harb]; exact h.waits.not_waiting hw⟩
          by_cases e : j = i
          · exact hd' (e ▸ hj)
          · exact e (h.waits.waitersApart j i d (hslot j e ▸ hj) (hsl ▸ hd))
        obtain ⟨hp, hk⟩ := h.grantsPlaced.unitless hw
        exact .inr ⟨hout, by rwa [harb], by rwa [harb]⟩
    · exact .inl (by rw [State.passOn_channel hd])

/-- A channel apart lets its slot go, and is then apart, as it was. -/
theorem State.UnitsKept.release (h : s.UnitsKept) (hu : s.Apart c) (k : Option Commit) :
    (s.release c k).UnitsKept ∧ (s.release c k).Apart c := by
  have key (i : SlotId) (sl : Slot) (hsl : sl.waiters = (s.slot i).waiters) :
      (s.passOn i sl).UnitsKept ∧ (s.passOn i sl).Apart c := by
    have harb : (s.passOn i sl).arbiter = s.arbiter := by simp
    exact ⟨h.passOn hsl, State.passOn_unlisted hu.toUnlisted hsl, by rw [harb]; exact hu.pack, by rw [harb]; exact hu.check⟩
  unfold State.release
  split
  · exact ⟨h, hu⟩
  · cases k with
    | none => exact key _ _ rfl
    | some k => exact key _ _ (Slot.commit_waiters ..)

/-- A channel in WAIT_SLOT is apart once it is out of its wait list (R19). -/
theorem State.UnitsKept.withdrawWaiter (h : s.UnitsKept) (hs : (s.channel c).state = .waitSlot) :
    (s.withdrawWaiter c).UnitsKept ∧ (s.withdrawWaiter c).Apart c := by
  have hw := h.waits.not_waiting hs
  obtain ⟨hp, hk⟩ := h.grantsPlaced.unitless hs
  unfold State.withdrawWaiter
  split
  · rename_i hn
    exact ⟨h, ⟨State.waitedSlot_eq_none hn, hw⟩, hp, hk⟩
  · rename_i i hi
    refine ⟨h.setSlot List.filter_sublist, ⟨fun j hj => ?_, hw⟩, hp, hk⟩
    rw [State.setSlot_slot] at hj
    split at hj
    · simp at hj
    · exact absurd (h.waits.waitersApart j i c hj (State.waitedSlot_spec hi)) ‹_›

/-- A channel in WAIT_UNITS is apart once it is out of the waiting set; that evaluates nothing (R87). -/
theorem State.UnitsKept.leaveWaitingSet (h : s.UnitsKept) (hs : (s.channel c).state = .waitUnits) :
    (s.leaveWaitingSet c).UnitsKept ∧ (s.leaveWaitingSet c).Apart c := by
  obtain ⟨hp, hk⟩ := h.grantsPlaced.unitless hs
  refine ⟨h.of_lists (fun _ => List.Sublist.refl _) (fun d n hd => ?_) rfl rfl fun _ => .inl rfl,
    ⟨fun i hi => absurd (hs.symm.trans (h.waits.waiters i c hi)) (by decide), s.leaveWaitingSet_waiting c⟩, hp, hk⟩
  simp only [State.leaveWaitingSet, Vector.get_set_fin] at hd
  split at hd
  · contradiction
  · exact hd

end

end Sys2Proof.Machine
end

