-- ==== Sys2Proof/Proofs/UnitsSteps.lean ====
section
/-! PROOF. The channel commands, the fetch and the retirement keep the grants, and so every step does (R79, R80): O58. -/

namespace Sys2Proof.Machine

-- One theorem at a time, as in the tests: all at once they pass the memory limit.
set_option Elab.async false

section
variable {s t : State} {c : ChannelId}

/-! ### Aborts (R70 to R76) -/

theorem State.UnitsKept.abortTakesEffect (h : s.UnitsKept) (hu : s.Apart c) (k : AbortKind) :
    (s.abortTakesEffect k c).UnitsKept :=
  h.moves hu (by simp) (by simp) fun _ hd => s.abortTakesEffect_channel_ne k hd

/-- A channel apart lets its slot go and its abort takes effect. -/
theorem State.UnitsKept.releaseAndAbort (h : s.UnitsKept) (hu : s.Apart c) (k : AbortKind) :
    ((s.release c none).abortTakesEffect k c).UnitsKept := by
  obtain ⟨hk, hu'⟩ := h.release hu none
  exact hk.abortTakesEffect hu' k

/-- The units are released before the channel leaves RUN, and the evaluation gives it none (R73, R86). -/
theorem State.UnitsKept.abortRun (h : s.UnitsKept) (hr : (s.channel c).state = .run) (k : AbortKind) :
    (s.abortRun k c).UnitsKept := by
  obtain ⟨hp, ha⟩ := h.placed.releaseUnits hr
  exact hp.reevaluate.releaseAndAbort (hp.evaluate_apart ha 5) k

theorem State.UnitsKept.unitStopped (h : s.UnitsKept) (c : ChannelId) : (s.unitStopped c).UnitsKept := by
  unfold State.unitStopped
  split
  · split
    · rename_i hc
      exact h.abortRun hc.1 _
    · exact h
  · exact h

theorem State.UnitsKept.setAbortPending (h : s.UnitsKept) (k : AbortKind) (c : ChannelId) :
    (s.setAbortPending k c).UnitsKept :=
  h.setChannel_same rfl

theorem State.UnitsKept.disposeOf (h : s.UnitsKept) (k : AbortKind) (c : ChannelId) : (s.disposeOf k c).UnitsKept := by
  unfold State.disposeOf
  split
  case h_1 e | h_2 e =>
    cases k
    · exact h
    · exact h.abortTakesEffect (h.placed.apart e) .reset
  case h_3 e => exact h.abortTakesEffect (h.placed.apart e) k
  case h_4 e =>
    split
    · exact h.setAbortPending k c
    · have hw : (s.withdraw (.ch c)).UnitsKept := h.frame rfl rfl rfl
      exact hw.abortTakesEffect (hw.placed.apart e) k
  case h_5 e =>
    obtain ⟨hk, hu⟩ := h.withdrawWaiter e
    exact hk.abortTakesEffect hu k
  case h_6 e =>
    obtain ⟨hk, hu⟩ := h.leaveWaitingSet e
    exact hk.releaseAndAbort hu k
  case h_7 e =>
    have hs : (s.stopUnits c).UnitsKept := h.frame (by simp) (by simp) (by simp)
    dsimp only
    split
    · exact hs.abortRun (by rwa [State.stopUnits_channel]) k
    · exact hs.setAbortPending k c
  case h_8 e =>
    split
    · exact h.setAbortPending k c
    · have hw : (s.withdrawRecord c).UnitsKept := h.frame rfl rfl rfl
      exact hw.releaseAndAbort (hw.placed.apart e) k

/-! ### The other channel commands (R53, R55, R57, R58) -/

theorem State.UnitsKept.fetchIfPosted (h : s.UnitsKept) (c : ChannelId) : (s.fetchIfPosted c).UnitsKept := by
  unfold State.fetchIfPosted
  split
  · rename_i hc
    exact h.moves (h.placed.apart hc.1) rfl rfl fun d hd => by simp [hd]
  · exact h

theorem State.UnitsKept.takeStart (h : s.UnitsKept) (c : ChannelId) : (s.takeStart c).UnitsKept := by
  unfold State.takeStart
  split
  case h_1 e | h_2 e =>
    have hidle : (s.setChannel c { s.channel c with state := .idle, haltCause := .none }).UnitsKept :=
      h.moves (h.placed.apart e) rfl rfl fun d hd => by simp [hd]
    exact hidle.fetchIfPosted c
  case h_3 => exact h

theorem State.UnitsKept.takeStop (h : s.UnitsKept) (c : ChannelId) : (s.takeStop c).UnitsKept := by
  have hbusy : (if (s.channel c).abortPending = some .reset then s
      else s.setChannel c { s.channel c with stopRequest := true }).UnitsKept := by
    split
    · exact h
    · exact h.setChannel_same rfl
  unfold State.takeStop
  dsimp only
  split
  case h_1 e => exact h.moves (h.placed.apart e) rfl rfl fun d hd => by simp [hd]
  case h_2 => exact h
  case h_3 => exact h
  all_goals exact hbusy

theorem State.UnitsKept.takeChannelControl (h : s.UnitsKept) (c : ChannelId) (v : Word) :
    (s.takeChannelControl c v).UnitsKept := by
  have hb : (s.setHaltOnError c (v.getLsbD 8)).UnitsKept := h.setChannel_same rfl
  unfold State.takeChannelControl State.takeAbort State.takeReset
  dsimp only
  split
  · exact hb.takeStart c
  · exact hb.takeStop c
  · split
    · exact hb
    · exact hb.disposeOf .abort c
  · split
    · exact hb.setAbortPending .reset c
    · exact hb.disposeOf .reset c
  · exact hb

theorem State.UnitsKept.takeJobRingBase (h : s.UnitsKept) (c : ChannelId) (v : Word) :
    (s.takeJobRingBase c v).UnitsKept := by
  unfold State.takeJobRingBase
  split
  · exact h.setChannel_same rfl
  · exact h.frame rfl rfl rfl

theorem State.UnitsKept.takeJobRingSize (h : s.UnitsKept) (c : ChannelId) (v : Word) :
    (s.takeJobRingSize c v).UnitsKept := by
  unfold State.takeJobRingSize
  split
  · exact h.setChannel_same rfl
  · exact h.frame rfl rfl rfl

theorem State.UnitsKept.takePost (h : s.UnitsKept) (c : ChannelId) (v : Word) : (s.takePost c v).UnitsKept := by
  unfold State.takePost
  dsimp only
  split
  · refine State.UnitsKept.fetchIfPosted (h.setChannel_same ?_) c
    rfl
  · exact h.frame rfl rfl rfl

/-! ### The fetch (R59 to R63): a channel in FETCH is apart, and its transfers change no other -/

theorem State.completeFetch_channel_ne (s : State) (j : Job) {d : ChannelId} (h : d ≠ c) :
    (s.completeFetch c j).channel d = s.channel d := by
  unfold State.completeFetch
  (repeat' split) <;> simp [State.setStage, h]

theorem State.fetchDest_channel_ne (s : State) (j : Job) {d : ChannelId} (h : d ≠ c) :
    (s.fetchDest c j).channel d = s.channel d := by
  unfold State.fetchDest
  split
  · exact s.completeFetch_channel_ne j h
  · simp [State.setStage, h]

theorem State.entryRead_channel_ne (s : State) (e : JobEntry) {d : ChannelId} (h : d ≠ c) :
    (s.entryRead c e).channel d = s.channel d := by
  unfold State.entryRead
  dsimp only
  (repeat' split) <;> simp [State.fetchDest_channel_ne, State.setStage, h]

theorem State.sourceTableRead_channel_ne (s : State) (j : Job) (got : List Byte) {d : ChannelId} (h : d ≠ c) :
    (s.sourceTableRead c j got).channel d = s.channel d := by
  unfold State.sourceTableRead
  dsimp only
  split <;> simp [State.fetchDest_channel_ne, State.setStage, h]

theorem State.destTableRead_channel_ne (s : State) (j : Job) (got : List Byte) {d : ChannelId} (h : d ≠ c) :
    (s.destTableRead c j got).channel d = s.channel d := by
  unfold State.destTableRead
  dsimp only
  split <;> simp [State.completeFetch_channel_ne, State.setStage, h]

theorem State.fetchReadEnds_channel_ne (s : State) (bytes : List Byte) {d : ChannelId} (h : d ≠ c) :
    (s.fetchReadEnds c bytes).channel d = s.channel d := by
  unfold State.fetchReadEnds
  split
  · split
    · exact s.abortTakesEffect_channel_ne _ h
    · split
      · exact s.entryRead_channel_ne _ h
      · exact s.sourceTableRead_channel_ne _ _ h
      · exact s.destTableRead_channel_ne _ _ h
      · rfl
  · rfl

theorem State.fetchReadFaults_channel_ne (s : State) (why : Why) {d : ChannelId} (h : d ≠ c) :
    (s.fetchReadFaults c why).channel d = s.channel d := by
  unfold State.fetchReadFaults
  split
  · split
    · exact s.abortTakesEffect_channel_ne _ h
    · split <;> simp [h]
  · rfl

theorem State.UnitsKept.fetchReadEnds (h : s.UnitsKept) (c : ChannelId) (bytes : List Byte) :
    (s.fetchReadEnds c bytes).UnitsKept := by
  by_cases hs : (s.channel c).state = .fetch
  · exact h.moves (h.placed.apart hs) (by simp) (by simp) fun _ hd => s.fetchReadEnds_channel_ne bytes hd
  · rwa [State.fetchReadEnds, if_neg hs]

theorem State.UnitsKept.fetchReadFaults (h : s.UnitsKept) (c : ChannelId) (why : Why) :
    (s.fetchReadFaults c why).UnitsKept := by
  by_cases hs : (s.channel c).state = .fetch
  · exact h.moves (h.placed.apart hs) (by simp) (by simp) fun _ hd => s.fetchReadFaults_channel_ne why hd
  · rwa [State.fetchReadFaults, if_neg hs]

/-! ### Retirement (R68, R69) -/

theorem State.UnitsKept.retire (h : s.UnitsKept) (hs : (s.channel c).state = .retire) : (s.retire c).UnitsKept := by
  obtain ⟨hk, hu⟩ := h.release (h.placed.apart hs) (s.channel c).commitOf
  unfold State.retire
  dsimp only
  refine hk.moves hu (by simp) (by simp) fun d hd => ?_
  rw [State.chooseNext_channel_ne _ _ hd]
  simp [hd]

end

/-! ### Every step -/

theorem State.unitsKept_invariant : State.Invariant State.UnitsKept where
  frame h hs hc ha := h.frame hs hc ha
  marks h hs ha hm := h.of_channels hs ha fun d => .inl (by
    obtain ⟨w, l, e⟩ := hm d
    rw [e])
  resets _ _ := State.reset_unitsKept.frame rfl rfl rfl
  streamCommand v h := h.takeStreamCommand v
  channelControl c v h := h.takeChannelControl c v
  jobRingBase c v h := h.takeJobRingBase c v
  jobRingSize c v h := h.takeJobRingSize c v
  post c v h := h.takePost c v
  fetchReadEnds c bytes h := h.fetchReadEnds c bytes
  fetchReadFaults c why h := h.fetchReadFaults c why
  holdRequest hd h hs := h.takeHoldRequest hs hd
  join n h hs := h.join hs n
  settleRun c h := h.settleRun c
  unitStopped c h := h.unitStopped c
  retire h hs := h.retire hs
  retireAborted k h hs := h.releaseAndAbort (h.placed.apart hs) k

/-- Settles O58: a channel changes its state only where it is in no list and without a unit, or by an evaluation, and each
evaluation has more levels than channels wait. -/
theorem everyStepKeepsTheGrants : Obligations.EveryStepKeepsTheGrants := fun _ _ h e => State.unitsKept_invariant.step h e

end Sys2Proof.Machine
end

