-- ==== Sys2Proof/Proofs/WindowReads.lean ====
section
/-! PROOF. Window reads: the lanes and the offsets of an access, and the fields of every register as numbers (R92, R155, R161 to R163,
R166, R174, R177 to R182): O50. -/

namespace Sys2Proof.Machine

-- One theorem at a time, as in the tests: all at once they pass the memory limit.
set_option Elab.async false

/-! ### The byte lanes and the word that an access names (R161, R162) -/

/-- A lane of the mask, all ones or all zeros. -/
theorem getLsbD_lane (b : Bool) {j : Nat} (h : j < 8) : (if b = true then 0xFF#8 else 0#8).getLsbD j = b := by
  cases b
  · simp
  · have hones : (0xFF#8).getLsbD j = decide (j < 8) := BitVec.getLsbD_allOnes
    simpa [h] using hones

/-- A position of the word passes the mask as its byte's lane is enabled. -/
theorem laneMask_getLsbD (lanes : BitVec 4) {i : Nat} (h : i < 32) :
    (laneMask lanes).getLsbD i = lanes.getLsbD (i / 8) := by
  obtain ⟨q, j, hj, rfl⟩ : ∃ q j, j < 8 ∧ i = 8 * q + j := ⟨i / 8, i % 8, by omega, by omega⟩
  have hq : (8 * q + j) / 8 = q := by omega
  have hlane (n : Nat) := getLsbD_lane (lanes.getLsbD n) hj
  have hcase : q = 0 ∨ q = 1 ∨ q = 2 ∨ q = 3 := by omega
  simp only [hq, laneMask, BitVec.getLsbD_append]
  rcases hcase with rfl | rfl | rfl | rfl
  · rw [if_pos (by omega), show 8 * 0 + j = j by omega]
    exact hlane 0
  · rw [if_neg (by omega), if_pos (by omega), show 8 * 1 + j - 8 = j by omega]
    exact hlane 1
  · rw [if_neg (by omega), if_neg (by omega), if_pos (by omega), show 8 * 2 + j - 8 - 8 = j by omega]
    exact hlane 2
  · rw [if_neg (by omega), if_neg (by omega), if_neg (by omega), show 8 * 3 + j - 8 - 8 - 8 = j by omega]
    exact hlane 3

/-- An aligned offset of the window is its own word. -/
theorem windowWord_ofNat {o : Nat} (h : o < 512) (ha : o % 4 = 0) : windowWord (BitVec.ofNat 32 o) = o := by
  rw [windowWord, BitVec.toNat_ofNat]
  omega

/-- The registers lie within the window (R177). -/
theorem Reg.offset_lt (r : Reg) : r.offset < 512 := by
  cases r <;> simp only [Reg.offset] <;> omega

section
variable {s : State}

/-- Outside the resets an access is answered with the enabled lanes of its word. -/
theorem State.windowRead_live (h : s.live = true) (a : Word) (lanes : BitVec 4) :
    s.windowRead a lanes = some (s.readOffset (windowWord a) &&& laneMask lanes) := by
  obtain ⟨hp, -⟩ := State.live_iff.1 h
  rw [State.windowRead, hp]
  rfl

/-- What a word of the window shows. -/
theorem State.windowRead_word (h : s.live = true) {o : Nat} (hlt : o < 512) (ha : o % 4 = 0) :
    (s.windowRead (BitVec.ofNat 32 o) 0xF#4).getD 0 = s.readOffset o := by
  rw [State.windowRead_full (State.live_iff.1 h).1, windowWord_ofNat hlt ha]
  rfl

/-- A word without a register reads 0 (R163). -/
theorem State.readOffset_unmapped {o : Nat} (h : ¬ Spec.mapped o) : s.readOffset o = 0 := by
  rw [State.readOffset, Reg.ofOffset_unmapped h]

/-- A word with a register shows the register. -/
theorem State.windowRead_register (h : s.live = true) (r : Reg) :
    (s.windowRead (BitVec.ofNat 32 r.offset) 0xF#4).getD 0 = s.readRegister r := by
  rw [State.windowRead_word h r.offset_lt r.offset_aligned, State.readOffset, Reg.ofOffset_offset, (State.live_iff.1 h).2]
  rfl

end

/-! ### The codes of the named values, each in its field (R179 to R181) -/

/-- A number read back from a register's field that holds it. -/
theorem bits_toNat {w n : Nat} (h : n < 2 ^ w) : (bits w n).toNat = n := toNat_field h

theorem ChannelState.bits_code (x : ChannelState) : (bits 4 x.code).toNat = Spec.channelStateCode x := by cases x <;> rfl

theorem WriterState.bits_code (x : WriterState) : (bits 2 x.code).toNat = Spec.writerStateCode x := by cases x <;> rfl

theorem HaltCause.bits_code (x : HaltCause) : (bits 2 x.code).toNat = Spec.haltCauseCode x := by cases x <;> rfl

theorem AbortKind.bits_code (x : Option AbortKind) : (bits 2 (abortPendingCode x)).toNat = Spec.abortCode x := by
  rcases x with _ | _ | _ <;> rfl

theorem AccessReason.bits_code (x : AccessReason) : (bits 3 x.code).toNat = Spec.reasonCode x := by cases x <;> rfl

theorem Why.bits_code (x : Option Why) : (bits 2 (whyCode x)).toNat = Spec.causeCode x := by
  rcases x with _ | _ | _ <;> rfl

theorem StreamResult.bits_code (x : StreamResult) : (bits 4 x.code).toNat = Spec.resultCode x := by cases x <;> rfl

theorem channelShown_field (g : Option ChannelId) : (bits 2 (channelShown g)).toNat = channelShown g :=
  bits_toNat (channelShown_lt g)

/-- A count shows in the low half of its register. -/
theorem toNat_zeroExtend_half (x : Half) : (x.zeroExtend 32).toNat = x.toNat := by
  rw [BitVec.zeroExtend, BitVec.toNat_setWidth]
  exact Nat.mod_eq_of_lt (by omega)

/-! ### The registers of several fields, as numbers -/

theorem State.globalStatus_toNat {s : State} (h : s.idc.resetPending = false) :
    s.globalStatus.toNat = Spec.channelStateCode (s.channel 0).state + 2 ^ 4 * Spec.channelStateCode (s.channel 1).state +
      2 ^ 8 * Spec.channelStateCode (s.channel 2).state + 2 ^ 12 * Spec.channelStateCode (s.channel 3).state +
      2 ^ 16 * Spec.writerStateCode s.writer.state := by
  have hp : (bits 1 (if s.idc.resetPending = true then 1 else 0)).toNat = 0 := by
    rw [h]
    rfl
  simp only [State.globalStatus, toNat_append_add, ChannelState.bits_code, WriterState.bits_code, hp, BitVec.toNat_ofNat]
  omega

theorem AccessError.word_toNat (e : AccessError) :
    (0#13 ++ bits 3 e.reason.code ++ 0#7 ++ e.offset).toNat = e.offset.toNat + 2 ^ 16 * Spec.reasonCode e.reason := by
  simp only [toNat_append_add, AccessReason.bits_code, BitVec.toNat_ofNat]
  omega

theorem InitiatorFault.word_toNat (f : InitiatorFault) :
    f.word.toNat = f.owner.val + 2 ^ 4 * f.write.toNat + 2 ^ 8 * Spec.causeCode f.why := by
  have howner : (bits 4 f.owner.val).toNat = f.owner.val := bits_toNat (by omega)
  simp only [InitiatorFault.word, toNat_append_add, Why.bits_code, howner, BitVec.toNat_ofBool, BitVec.toNat_ofNat]
  omega

theorem Writer.statusWord_toNat (w : Writer) :
    w.statusWord.toNat = Spec.writerStateCode w.state + 2 ^ 2 * w.disablePending.toNat + 2 ^ 4 * w.serving.val +
      2 ^ 8 * channelShown (w.current.map Record.channel) + 2 ^ 10 * w.current.isSome.toNat := by
  have hserving : (bits 2 w.serving.val).toNat = w.serving.val := bits_toNat w.serving.isLt
  simp only [Writer.statusWord, toNat_append_add, WriterState.bits_code, channelShown_field, hserving, BitVec.toNat_ofBool,
    BitVec.toNat_ofNat]
  omega

theorem Channel.statusWord_toNat (x : Channel) :
    x.statusWord.toNat = Spec.channelStateCode x.state + 2 ^ 4 * Spec.haltCauseCode x.haltCause +
      2 ^ 6 * x.stopRequest.toNat + 2 ^ 8 * Spec.abortCode x.abortPending := by
  simp only [Channel.statusWord, toNat_append_add, ChannelState.bits_code, HaltCause.bits_code, AbortKind.bits_code,
    BitVec.toNat_ofBool, BitVec.toNat_ofNat]
  omega

theorem ResultRegister.word_toNat (x : ResultRegister) :
    (x.handle ++ 0#12 ++ bits 4 x.result.code).toNat = Spec.resultCode x.result + 2 ^ 16 * x.handle.toNat := by
  simp only [toNat_append_add, StreamResult.bits_code, BitVec.toNat_ofNat]
  omega

theorem grantBits_toNat (g : Option ChannelId) : (grantBits g).toNat = channelShown g + 4 * g.isSome.toNat := by
  simp only [grantBits, toNat_append_add, channelShown_field, BitVec.toNat_ofBool, BitVec.toNat_ofNat]
  omega

theorem Arbiter.grantMap_toNat (a : Arbiter) :
    a.grantMap.toNat = (grantBits (a.packs.get 0)).toNat + 2 ^ 4 * (grantBits (a.packs.get 1)).toNat +
      2 ^ 8 * (grantBits (a.checks.get 0)).toNat + 2 ^ 12 * (grantBits (a.checks.get 1)).toNat +
      2 ^ 16 * (grantBits (a.checks.get 2)).toNat := by
  simp only [Arbiter.grantMap, toNat_append_add, BitVec.toNat_ofNat]
  omega

/-- Settles O50: an access shows the enabled lanes of its word, and a mapped word the fields of its register. -/
theorem windowReads : Obligations.WindowReads := by
  intro s hlive r grant
  have hword {o : Nat} (hlt : o < 512) (ha : o % 4 = 0) : r o = s.readOffset o := State.windowRead_word hlive hlt ha
  have hreg (x : Reg) : r x.offset = s.readRegister x := State.windowRead_register hlive x
  have hfields (x : Reg) : (r x.offset).toNat = (s.readRegister x).toNat := congrArg BitVec.toNat (hreg x)
  have hgrant (g : Option ChannelId) : (grantBits g).toNat = grant g := by
    rw [grantBits_toNat]
    cases g <;> rfl
  refine ⟨fun a lanes => ⟨_, State.windowRead_live hlive a lanes, fun i hi => ?lanes⟩, fun o hlt ha hm => ?unmapped,
    hreg .identification, ?globalStatus, hreg .globalControl, hreg .interruptStatus, hreg .interruptEnable,
    hreg .initiatorTimeout, (hfields .lastAccessError).trans s.biu.accessError.word_toNat,
    (hfields .lastFault).trans s.biu.lastFault.word_toNat, hreg .lastFaultAddress, hreg .writerControl,
    ⟨channelShown (s.writer.current.map Record.channel), channelShown_lt _, fun rec hrec => by rw [hrec]; rfl,
      (hfields .writerStatus).trans s.writer.statusWord_toNat⟩,
    hreg .completionRingBase, hreg .completionRingSize, (hfields .tail).trans (toNat_zeroExtend_half _),
    (hfields .head).trans (toNat_zeroExtend_half _), hreg .threshold, hreg .argument, hreg .command,
    (hfields .result).trans s.result.word_toNat, fun i => hreg (.inspect i), fun c => ?channel, ?grantMap, ?pointer⟩
  case lanes =>
    rw [BitVec.getLsbD_and, laneMask_getLsbD lanes hi, hword (by omega) (by omega), windowWord, Nat.mul_comm]
  case unmapped => rw [hword hlt ha, State.readOffset_unmapped hm]
  case globalStatus => exact (hfields .globalStatus).trans (State.globalStatus_toNat (State.live_iff.1 hlive).2)
  case channel =>
    exact ⟨hreg (.channelControl c), (hfields (.channelStatus c)).trans (s.channel c).statusWord_toNat,
      hreg (.jobRingBase c), hreg (.jobRingSize c), (hfields (.post c)).trans (toNat_zeroExtend_half _),
      (hfields (.fetch c)).trans (toNat_zeroExtend_half _), (hfields (.done c)).trans (toNat_zeroExtend_half _)⟩
  case grantMap =>
    simp only [← hgrant]
    exact (hfields .grantMap).trans s.arbiter.grantMap_toNat
  case pointer => exact (hfields .rotationPointer).trans (toNat_field (by omega))

end Sys2Proof.Machine
end
